-- ==== Sys2Proof/Word.lean ====
section
/-!
DEFINITION. The word types of the engine and the two constants the document fixes
(spec/00_scope.md rules R6, R9; spec/10_state.md rules R20, R24).
-/
namespace Sys2Proof

/-- A byte: 8 bits, bit 7 the most significant (R9). -/
abbrev Byte := BitVec 8

/-- A word of the command port: an abstract 32-bit value with no byte order (R74, R91).
The 32-bit counters and configuration registers are words too (R25, R35, R40). -/
abbrev Word := BitVec 32

/-- A sequence number: 10 bits, arithmetic modulo 1024 (R6, R20). -/
abbrev Sn := BitVec 10

/-- `WINDOW_SIZE`, fixed at 512 (R6); configuration register 7 reads it (R40). -/
def windowSize : Nat := 512

end Sys2Proof
end

