-- ==== Sys2Proof/Config.lean ====
section
/-!
DEFINITION. The implementation parameters of the engine (spec/00_scope.md rule R8,
spec/92_eei_decisions.md "Open parameters") and its free values (spec/93_implementation_defined.md).

The parameters are plain data: a `Params` stands in the machine's state as a field that no
instruction writes, so every statement over states is a statement for every choice of parameters.
A free value is an opaque constant applied to the state's draw counter: nothing can be proved of it.
-/
namespace Sys2Proof

/-- The parameters of R8, each with the default its table gives. -/
structure Params where
  /-- `POOL_CAPACITY`: slots of the segment pool. -/
  poolCapacity : Nat := 4096
  /-- `N_LI_MAX`: most length indicators one header holds. -/
  nLiMax : Nat := 128
  /-- `MAX_SDU_BYTES`: largest SDU accepted by WRITE_SDU. -/
  maxSduBytes : Nat := 8188
  /-- `MAX_PDU_BYTES`: largest PDU and largest `max_bytes`. -/
  maxPduBytes : Nat := 16384
  /-- `RETX_Q_CAPACITY`: entries of the retransmission queue. -/
  retxQCapacity : Nat := 1024
  /-- `PDCP_SN_BITS`: width of a PDCP sequence number. -/
  pdcpSnBits : Nat := 32
  /-- `POLL_PERIOD`: N of "every Nth PDU", 0 = off. -/
  pollPeriod : Nat := 0
  /-- `SN_INIT`: value given to every SN state variable by a clearing command. -/
  snInit : Sn := 0
  /-- `DUAL_SEQ`: whether transmitter and receiver have separate sequencers. -/
  dualSeq : Bool := false
deriving DecidableEq, Repr

/-- The constraints R8 gives, row by row; the upper bound of `POOL_CAPACITY` is the width of a pool
index (R24, and the table of spec/92_eei_decisions.md). Where that table gives another bound than R8
for `MAX_PDU_BYTES` and `RETX_Q_CAPACITY`, R8 is followed, whose constraints U15 names (log entry 3).
`SN_INIT` is bounded by its type. -/
def Params.valid (p : Params) : Bool :=
  decide (1 ≤ p.poolCapacity) && decide (p.poolCapacity ≤ 2 ^ 32 - 1) &&
  decide (1 ≤ p.maxSduBytes) && decide (2 ≤ p.maxPduBytes) &&
  decide (512 ≤ p.retxQCapacity) && decide (1 ≤ p.pdcpSnBits) && decide (p.pdcpSnBits ≤ 32)

namespace Config

/-- The draw `rx_busy` of R175 and R301 (U5): one free bit per READ_PDU that reaches the status
branch while `DUAL_SEQ` holds. Free value (log entry 6). -/
opaque rxBusy : Nat → Bool

/-- Which half a clearing command clears first while `DUAL_SEQ` holds: true = the receiver (R85
admits both orders). Free value (log entry 7). -/
opaque receiverFirst : Nat → Bool

/-- The draw for the first term of GET_BUFFER_STATE while `DUAL_SEQ` holds (R195, U12); the meaning
bounds it by the value the rule gives. Free value (log entry 8). -/
opaque statusTerm : Nat → Nat

/-- What GET_BUFFER_STATE answers when its sum does not fit the one result word of R195: R135 (b) says
that no sum overflows 32 bits, and no rule gives the word when one does. Free value (log entry 20). -/
opaque bufferStateSum : (draw : Nat) → Word

/-- The `len` word of ENC_DATA_HDR when the header has 2^32 bytes or more, which `N_LI_MAX` admits (R8):
no rule gives the word then. Free value (log entry 21). -/
opaque encodedHeaderLength : (draw : Nat) → Word

/-- What register `reg` of `CFG` holds after the RESET command, which leaves it unspecified
(R250, U1). Free value (log entry 9). -/
opaque cfgAfterReset : (draw : Nat) → (reg : Nat) → Word

/-- What the field `pdcp_sn` of a pool slot with `in_use = false` reads as (R290, U2; reached only
beside the host error U6). Free value (log entry 10). -/
opaque unusedSlotPdcpSn : (draw : Nat) → (slot : Nat) → Word

end Config

end Sys2Proof
end

