-- ==== Sys2Proof/Syntax.lean ====
section
/-!
DEFINITION. What crosses the ports: the command descriptor (spec/30_encoding.md rules R91, R92), the
records the codec packs (spec/10_state.md rules R21, R22), and `Instr`, one constructor for each of
the 26 rows of spec/opcode_table.json (rule R93).

An operand of `Instr` is the raw 32-bit argument word of the descriptor, so that a command whose
argument has bits above its width (R95) is a term too; `Instr.wellFormed` and the meanings check it.
-/
namespace Sys2Proof

/-- A descriptor of the command port: 32-bit words and the byte string that follows them (R91). A
response has the same shape (R92). -/
structure Descriptor where
  words : List Word
  bytes : List Byte
deriving DecidableEq, Repr

/-- A Data-PDU header (R21). `fi` is held as its two bits, `fiS` (the first payload byte is not the
start of an SDU) and `fiE` (the last payload byte is not the end of an SDU) (R21, R105). Offsets and
length indicators are byte counts. -/
structure Header where
  /-- D/C: true = DATA. -/
  dc : Bool
  /-- this PDU is a segment -/
  rf : Bool
  /-- poll bit -/
  p : Bool
  fiS : Bool
  fiE : Bool
  sn : Sn
  /-- last segment, only if `rf` -/
  lsf : Bool
  /-- segment offset, only if `rf` -/
  so : Nat
  /-- length indicators -/
  li : List Nat
deriving DecidableEq, Repr

/-- One NACK element of a STATUS PDU (R22); `soEnd` is as on the wire, inclusive (R110). -/
structure Nack where
  nackSn : Sn
  hasSo : Bool
  soStart : Nat
  soEnd : Nat
deriving DecidableEq, Repr

/-- A STATUS PDU (R22). -/
structure StatusPdu where
  ackSn : Sn
  nacks : List Nack
deriving DecidableEq, Repr

/-- The variables READ_VAR names, in the order of their numbers 0 to 16 (R94). -/
inductive Var where
  | vtA | vtS | vtMs | pollSn | pduWithoutPoll | byteWithoutPoll
  | vrR | vrMr | vrX | vrMs | vrH | flags
  | sduQLength | retxQLength | txWindowCount | rxWindowCount | freeSlots
deriving DecidableEq, Repr

/-- The opcodes of rule R93. -/
inductive Opcode where
  | reset | configure | reestablish | stop | getMetrics | readVar
  | writeSdu | discardSdu | readPdu | writePdu | getBufferState | handleControlPdu | getStatusPdu
  | texpPollRetx | texpReordering | texpStatusProhibit
  | txModBase | rxModBase | encDataHdr | decDataHdr | encStatus | decStatus
  | poolAlloc | poolRelRlc | poolRelPdcp | poolIsAcked
deriving DecidableEq, Repr

/-- The commands of the engine, one constructor per row of spec/opcode_table.json (R93). A payload of
`len` bytes is its byte list: `len` is implied (R96). -/
inductive Instr where
  | reset
  | configure (v0 v1 v2 v3 v4 v5 v6 : Word)
  | reestablish
  | stop
  | getMetrics
  | readVar (var : Word)
  | writeSdu (pdcpSn : Word) (bytes : List Byte)
  | discardSdu (pdcpSn : Word)
  | readPdu (maxBytes : Word)
  | writePdu (bytes : List Byte)
  | getBufferState
  | handleControlPdu (bytes : List Byte)
  | getStatusPdu (maxBytes : Word)
  | texpPollRetx
  | texpReordering
  | texpStatusProhibit
  | txModBase (sn : Word)
  | rxModBase (sn : Word)
  | encDataHdr (hw : Word) (li : List Word)
  | decDataHdr (bytes : List Byte)
  | encStatus (maxLen ackSn : Word) (nacks : List (Word × Word))
  | decStatus (bytes : List Byte)
  | poolAlloc (rlcSn pdcpSn : Word)
  | poolRelRlc (id : Word)
  | poolRelPdcp (id : Word)
  | poolIsAcked (pdcpSn : Word)
deriving DecidableEq, Repr

end Sys2Proof
end

