-- ==== Sys2Proof/Machine/Operands.lean ====
section
/-!
DEFINITION. The operand forms of the command port: the width and limit checks of spec/30_encoding.md
rules R91 and R95, and the packed operand words of rule R94.
-/
namespace Sys2Proof.Machine

/-- The bits of `w` above its low `bits` are zero: the width check of R91. -/
def fitsWidth (bits : Nat) (w : Word) : Bool := decide (w.toNat < 2 ^ bits)

/-- A legal SN argument: 10 bits (R20, R95). -/
def legalSn (w : Word) : Bool := fitsWidth 10 w

/-- A legal PDCP SN argument: `PDCP_SN_BITS` bits (R24, R95). -/
def legalPdcpSn (p : Params) (w : Word) : Bool := fitsWidth p.pdcpSnBits w

/-- A legal `len`, `max_bytes` or `max_len`: at most `MAX_PDU_BYTES` (R95). -/
def legalLength (p : Params) (n : Nat) : Bool := decide (n ≤ p.maxPduBytes)

/-- A legal count of length indicators: at most `N_LI_MAX` (R95). -/
def legalLiCount (p : Params) (n : Nat) : Bool := decide (n ≤ p.nLiMax)

/-- A legal count of NACK elements: at most 1024 (R22, R95). -/
def legalNackCount (n : Nat) : Bool := decide (n ≤ 1024)

/-- A legal pair `nw0`, `nw1`: every bit R94 gives no field is zero. -/
def legalNackWords (nw : Word × Word) : Bool :=
  fitsWidth 11 nw.1 && !nw.2.getLsbD 15 && !nw.2.getLsbD 31

/-- The SN an argument word stands for. -/
def snOfWord (w : Word) : Sn := w.setWidth 10

/-- An SN as a result word, zero-extended (R91, R255). -/
def wordOfSn (x : Sn) : Word := x.setWidth 32

/-- A count as a result word. -/
def wordOfNat (n : Nat) : Word := BitVec.ofNat 32 n

/-- The variable READ_VAR's argument names; none above 16 (R94, R95). -/
def varOfNat : Nat → Option Var
  | 0 => some .vtA
  | 1 => some .vtS
  | 2 => some .vtMs
  | 3 => some .pollSn
  | 4 => some .pduWithoutPoll
  | 5 => some .byteWithoutPoll
  | 6 => some .vrR
  | 7 => some .vrMr
  | 8 => some .vrX
  | 9 => some .vrMs
  | 10 => some .vrH
  | 11 => some .flags
  | 12 => some .sduQLength
  | 13 => some .retxQLength
  | 14 => some .txWindowCount
  | 15 => some .rxWindowCount
  | 16 => some .freeSlots
  | _ => none

/-- The header the operand words of ENC_DATA_HDR stand for (R94). -/
def headerOfWords (hw : Word) (li : List Word) : Header where
  dc := hw.getLsbD 0
  rf := hw.getLsbD 1
  p := hw.getLsbD 2
  fiE := hw.getLsbD 3
  fiS := hw.getLsbD 4
  lsf := hw.getLsbD 5
  sn := hw.extractLsb' 6 10
  so := (hw.extractLsb' 16 16).toNat
  li := li.map (·.toNat)

/-- The header word `hw` of a header, as DEC_DATA_HDR returns it (R94). -/
def wordOfHeader (h : Header) : Word :=
  BitVec.ofNat 16 h.so ++ h.sn ++ BitVec.ofBool h.lsf ++ BitVec.ofBool h.fiS ++
    BitVec.ofBool h.fiE ++ BitVec.ofBool h.p ++ BitVec.ofBool h.rf ++ BitVec.ofBool h.dc

/-- The NACK element a pair `nw0`, `nw1` stands for (R94). Without segment offsets the two offset
fields hold 0, whatever the bits of `nw1` are (R22). -/
def nackOfWords (nw : Word × Word) : Nack where
  nackSn := nw.1.extractLsb' 0 10
  hasSo := nw.1.getLsbD 10
  soStart := if nw.1.getLsbD 10 then (nw.2.extractLsb' 0 15).toNat else 0
  soEnd := if nw.1.getLsbD 10 then (nw.2.extractLsb' 16 15).toNat else 0

/-- The pair `nw0`, `nw1` of a NACK element, as DEC_STATUS returns it (R94). -/
def wordsOfNack (n : Nack) : List Word :=
  [(BitVec.ofBool n.hasSo ++ n.nackSn).setWidth 32,
   (BitVec.ofNat 15 n.soEnd ++ (0#1) ++ BitVec.ofNat 15 n.soStart).setWidth 32]

end Sys2Proof.Machine
end

