-- ==== Sys2Proof/WellFormed.lean ====
section
/-!
DEFINITION. Which commands are legal encodings: the descriptor checks of spec/30_encoding.md rule
R95, over `Instr`. The engine answers an ill-formed command with `ERR_ILLEGAL_COMMAND` (R261 (1)).
-/
namespace Sys2Proof

open Machine in
/-- The counts a descriptor carries in a 32-bit word fit there, so the command can be encoded (R91). -/
def Instr.encodable (i : Instr) : Bool :=
  match i with
  | .writeSdu _ bytes => decide (bytes.length < 2 ^ 32)
  | .writePdu bytes => decide (bytes.length < 2 ^ 32)
  | .handleControlPdu bytes => decide (bytes.length < 2 ^ 32)
  | .encDataHdr _ li => decide (li.length < 2 ^ 32)
  | .decDataHdr bytes => decide (bytes.length < 2 ^ 32)
  | .encStatus _ _ nacks => decide (nacks.length < 2 ^ 32)
  | .decStatus bytes => decide (bytes.length < 2 ^ 32)
  | .reset | .configure .. | .reestablish | .stop | .getMetrics | .readVar _ | .discardSdu _
  | .readPdu _ | .getBufferState | .getStatusPdu _ | .texpPollRetx | .texpReordering
  | .texpStatusProhibit | .txModBase _ | .rxModBase _ | .poolAlloc .. | .poolRelRlc _
  | .poolRelPdcp _ | .poolIsAcked _ => true

open Machine in
/-- The argument checks of R95 under the parameters `p`. WRITE_SDU's length is not checked here: an
oversized SDU is refused with `ERR_SDU_SIZE`, not illegal (R95, R170). -/
def Instr.legal (p : Params) (i : Instr) : Bool :=
  match i with
  | .readVar var => (varOfNat var.toNat).isSome
  | .writeSdu pdcpSn _ => legalPdcpSn p pdcpSn
  | .discardSdu pdcpSn => legalPdcpSn p pdcpSn
  | .readPdu maxBytes => legalLength p maxBytes.toNat
  | .writePdu bytes => legalLength p bytes.length
  | .handleControlPdu bytes => legalLength p bytes.length
  | .getStatusPdu maxBytes => legalLength p maxBytes.toNat
  | .txModBase sn => legalSn sn
  | .rxModBase sn => legalSn sn
  | .encDataHdr _ li => legalLiCount p li.length
  | .decDataHdr bytes => legalLength p bytes.length
  | .encStatus maxLen ackSn nacks =>
    legalLength p maxLen.toNat && legalSn ackSn && legalNackCount nacks.length &&
      nacks.all legalNackWords
  | .decStatus bytes => legalLength p bytes.length
  | .poolAlloc rlcSn pdcpSn => legalSn rlcSn && legalPdcpSn p pdcpSn
  | .poolIsAcked pdcpSn => legalPdcpSn p pdcpSn
  | .reset | .configure .. | .reestablish | .stop | .getMetrics | .getBufferState | .texpPollRetx
  | .texpReordering | .texpStatusProhibit | .poolRelRlc _ | .poolRelPdcp _ => true

/-- A command the descriptor format can carry and R95 does not make illegal. -/
def Instr.wellFormed (p : Params) (i : Instr) : Bool := i.encodable && i.legal p

end Sys2Proof
end

