-- ==== Sys2Proof/Decode.lean ====
section
/-!
DEFINITION. The command encoding: the opcode map of spec/30_encoding.md rule R93, the decoder of a
descriptor (R91, R95), total and rejecting by name, and the encoder written from the same tables.
-/
namespace Sys2Proof

/-- The opcode byte of each command (R93). -/
def Opcode.code : Opcode → Nat
  | .reset => 0x01
  | .configure => 0x02
  | .reestablish => 0x03
  | .stop => 0x04
  | .getMetrics => 0x05
  | .readVar => 0x06
  | .writeSdu => 0x10
  | .discardSdu => 0x11
  | .readPdu => 0x20
  | .writePdu => 0x21
  | .getBufferState => 0x22
  | .handleControlPdu => 0x23
  | .getStatusPdu => 0x24
  | .texpPollRetx => 0x30
  | .texpReordering => 0x31
  | .texpStatusProhibit => 0x32
  | .txModBase => 0x40
  | .rxModBase => 0x41
  | .encDataHdr => 0x42
  | .decDataHdr => 0x43
  | .encStatus => 0x44
  | .decStatus => 0x45
  | .poolAlloc => 0x48
  | .poolRelRlc => 0x49
  | .poolRelPdcp => 0x4A
  | .poolIsAcked => 0x4B

/-- The command of an opcode byte; every byte R93 does not list is unknown (R95). -/
def opcodeOf : Nat → Option Opcode
  | 0x01 => some .reset
  | 0x02 => some .configure
  | 0x03 => some .reestablish
  | 0x04 => some .stop
  | 0x05 => some .getMetrics
  | 0x06 => some .readVar
  | 0x10 => some .writeSdu
  | 0x11 => some .discardSdu
  | 0x20 => some .readPdu
  | 0x21 => some .writePdu
  | 0x22 => some .getBufferState
  | 0x23 => some .handleControlPdu
  | 0x24 => some .getStatusPdu
  | 0x30 => some .texpPollRetx
  | 0x31 => some .texpReordering
  | 0x32 => some .texpStatusProhibit
  | 0x40 => some .txModBase
  | 0x41 => some .rxModBase
  | 0x42 => some .encDataHdr
  | 0x43 => some .decDataHdr
  | 0x44 => some .encStatus
  | 0x45 => some .decStatus
  | 0x48 => some .poolAlloc
  | 0x49 => some .poolRelRlc
  | 0x4A => some .poolRelPdcp
  | 0x4B => some .poolIsAcked
  | _ => none

/-- How many argument words a command has before any repeated group (R93). -/
def Opcode.fixedArgs : Opcode → Nat
  | .configure => 7
  | .encStatus => 3
  | .writeSdu | .encDataHdr | .poolAlloc => 2
  | .readVar | .discardSdu | .readPdu | .writePdu | .handleControlPdu | .getStatusPdu
  | .txModBase | .rxModBase | .decDataHdr | .decStatus | .poolRelRlc | .poolRelPdcp
  | .poolIsAcked => 1
  | .reset | .reestablish | .stop | .getMetrics | .getBufferState | .texpPollRetx
  | .texpReordering | .texpStatusProhibit => 0

/-- Whether a payload of `len` bytes follows the argument words (the mark `P` of R93). -/
def Opcode.hasPayload : Opcode → Bool
  | .writeSdu | .writePdu | .handleControlPdu | .decDataHdr | .decStatus => true
  | .reset | .configure | .reestablish | .stop | .getMetrics | .readVar | .discardSdu | .readPdu
  | .getBufferState | .getStatusPdu | .texpPollRetx | .texpReordering | .texpStatusProhibit
  | .txModBase | .rxModBase | .encDataHdr | .encStatus | .poolAlloc | .poolRelRlc | .poolRelPdcp
  | .poolIsAcked => false

/-- How many result words a command's response has before any repeated group: present whatever the
result code (R92, R93). -/
def Opcode.fixedResults : Opcode → Nat
  | .decDataHdr => 3
  | .getMetrics | .decStatus => 2
  | .readVar | .readPdu | .getBufferState | .getStatusPdu | .txModBase | .rxModBase | .encDataHdr
  | .encStatus | .poolAlloc | .poolIsAcked => 1
  | .reset | .configure | .reestablish | .stop | .writeSdu | .discardSdu | .writePdu
  | .handleControlPdu | .texpPollRetx | .texpReordering | .texpStatusProhibit | .poolRelRlc
  | .poolRelPdcp => 0

/-- Why a descriptor is no command (R95; U9 of spec/93_implementation_defined.md). -/
inductive DecodeError where
  /-- the descriptor has no opcode word -/
  | noWords
  /-- the opcode byte is not in R93 -/
  | unknownOpcode (op : Nat)
  /-- the opcode word has a non-zero bit among bits 23:0 -/
  | reservedBits (op : Opcode)
  /-- the number of argument words is not the one R93 fixes -/
  | wordCount (op : Opcode)
  /-- the payload has not `len` bytes, or the command has no payload -/
  | payloadLength (op : Opcode)
deriving DecidableEq, Repr

/-- How many zero result words the response to a malformed descriptor carries: those of its opcode
(R92, U18); none when the opcode is unknown. -/
def DecodeError.resultWords : DecodeError → Nat
  | .noWords => 0
  | .unknownOpcode _ => 0
  | .reservedBits op => op.fixedResults
  | .wordCount op => op.fixedResults
  | .payloadLength op => op.fixedResults

/-- The repeated pairs `nw0`, `nw1` of ENC_STATUS (R93); none when a word is left over. -/
def pairsOfWords : List Word → Option (List (Word × Word))
  | [] => some []
  | [_] => none
  | a :: b :: rest => (pairsOfWords rest).map ((a, b) :: ·)

/-- The words of the repeated pairs of ENC_STATUS. -/
def wordsOfPairs (l : List (Word × Word)) : List Word := l.flatMap fun nw => [nw.1, nw.2]

/-- A command with a payload whose length argument is `len` (R91). -/
def withPayload (op : Opcode) (len : Word) (bytes : List Byte) (i : Instr) :
    Except DecodeError Instr :=
  if bytes.length = len.toNat then .ok i else .error (.payloadLength op)

/-- The command an opcode, its argument words and its payload spell (R91, R93). -/
def decodeArgs (op : Opcode) (args : List Word) (bytes : List Byte) : Except DecodeError Instr :=
  if !op.hasPayload && !bytes.isEmpty then .error (.payloadLength op)
  else
    match op, args with
    | .reset, [] => .ok .reset
    | .configure, [v0, v1, v2, v3, v4, v5, v6] => .ok (.configure v0 v1 v2 v3 v4 v5 v6)
    | .reestablish, [] => .ok .reestablish
    | .stop, [] => .ok .stop
    | .getMetrics, [] => .ok .getMetrics
    | .readVar, [var] => .ok (.readVar var)
    | .writeSdu, [pdcpSn, len] => withPayload op len bytes (.writeSdu pdcpSn bytes)
    | .discardSdu, [pdcpSn] => .ok (.discardSdu pdcpSn)
    | .readPdu, [maxBytes] => .ok (.readPdu maxBytes)
    | .writePdu, [len] => withPayload op len bytes (.writePdu bytes)
    | .getBufferState, [] => .ok .getBufferState
    | .handleControlPdu, [len] => withPayload op len bytes (.handleControlPdu bytes)
    | .getStatusPdu, [maxBytes] => .ok (.getStatusPdu maxBytes)
    | .texpPollRetx, [] => .ok .texpPollRetx
    | .texpReordering, [] => .ok .texpReordering
    | .texpStatusProhibit, [] => .ok .texpStatusProhibit
    | .txModBase, [sn] => .ok (.txModBase sn)
    | .rxModBase, [sn] => .ok (.rxModBase sn)
    | .encDataHdr, hw :: nLi :: li =>
      if li.length = nLi.toNat then .ok (.encDataHdr hw li) else .error (.wordCount op)
    | .decDataHdr, [len] => withPayload op len bytes (.decDataHdr bytes)
    | .encStatus, maxLen :: ackSn :: nNack :: rest =>
      match pairsOfWords rest with
      | some nacks =>
        if nacks.length = nNack.toNat then .ok (.encStatus maxLen ackSn nacks)
        else .error (.wordCount op)
      | none => .error (.wordCount op)
    | .decStatus, [len] => withPayload op len bytes (.decStatus bytes)
    | .poolAlloc, [rlcSn, pdcpSn] => .ok (.poolAlloc rlcSn pdcpSn)
    | .poolRelRlc, [id] => .ok (.poolRelRlc id)
    | .poolRelPdcp, [id] => .ok (.poolRelPdcp id)
    | .poolIsAcked, [pdcpSn] => .ok (.poolIsAcked pdcpSn)
    | _, _ => .error (.wordCount op)

/-- The decoder: bits 31:24 of word 0 are the opcode, bits 23:0 must be zero (R91, R95). Total on
every descriptor; a malformed one is rejected by name. -/
def decode (d : Descriptor) : Except DecodeError Instr :=
  match d.words with
  | [] => .error .noWords
  | w0 :: args =>
    let code := (w0.extractLsb' 24 8).toNat
    match opcodeOf code with
    | none => .error (.unknownOpcode code)
    | some op =>
      if (w0.extractLsb' 0 24).toNat = 0 then decodeArgs op args d.bytes
      else .error (.reservedBits op)

/-- The opcode of a command. -/
def Instr.opcode : Instr → Opcode
  | .reset => .reset
  | .configure .. => .configure
  | .reestablish => .reestablish
  | .stop => .stop
  | .getMetrics => .getMetrics
  | .readVar _ => .readVar
  | .writeSdu .. => .writeSdu
  | .discardSdu _ => .discardSdu
  | .readPdu _ => .readPdu
  | .writePdu _ => .writePdu
  | .getBufferState => .getBufferState
  | .handleControlPdu _ => .handleControlPdu
  | .getStatusPdu _ => .getStatusPdu
  | .texpPollRetx => .texpPollRetx
  | .texpReordering => .texpReordering
  | .texpStatusProhibit => .texpStatusProhibit
  | .txModBase _ => .txModBase
  | .rxModBase _ => .rxModBase
  | .encDataHdr .. => .encDataHdr
  | .decDataHdr _ => .decDataHdr
  | .encStatus .. => .encStatus
  | .decStatus _ => .decStatus
  | .poolAlloc .. => .poolAlloc
  | .poolRelRlc _ => .poolRelRlc
  | .poolRelPdcp _ => .poolRelPdcp
  | .poolIsAcked _ => .poolIsAcked

/-- Word 0 of a command: the opcode in bits 31:24, zero below (R91). -/
def Opcode.word (op : Opcode) : Word := BitVec.ofNat 8 op.code ++ (0#24)

/-- The length argument of a payload (R91). -/
def lengthWord (bytes : List Byte) : Word := BitVec.ofNat 32 bytes.length

/-- The argument words of a command (R93). -/
def Instr.args : Instr → List Word
  | .configure v0 v1 v2 v3 v4 v5 v6 => [v0, v1, v2, v3, v4, v5, v6]
  | .readVar var => [var]
  | .writeSdu pdcpSn bytes => [pdcpSn, lengthWord bytes]
  | .discardSdu pdcpSn => [pdcpSn]
  | .readPdu maxBytes => [maxBytes]
  | .writePdu bytes => [lengthWord bytes]
  | .handleControlPdu bytes => [lengthWord bytes]
  | .getStatusPdu maxBytes => [maxBytes]
  | .txModBase sn => [sn]
  | .rxModBase sn => [sn]
  | .encDataHdr hw li => hw :: BitVec.ofNat 32 li.length :: li
  | .decDataHdr bytes => [lengthWord bytes]
  | .encStatus maxLen ackSn nacks =>
    maxLen :: ackSn :: BitVec.ofNat 32 nacks.length :: wordsOfPairs nacks
  | .decStatus bytes => [lengthWord bytes]
  | .poolAlloc rlcSn pdcpSn => [rlcSn, pdcpSn]
  | .poolRelRlc id => [id]
  | .poolRelPdcp id => [id]
  | .poolIsAcked pdcpSn => [pdcpSn]
  | .reset | .reestablish | .stop | .getMetrics | .getBufferState | .texpPollRetx
  | .texpReordering | .texpStatusProhibit => []

/-- The payload of a command (R93). -/
def Instr.payload : Instr → List Byte
  | .writeSdu _ bytes => bytes
  | .writePdu bytes => bytes
  | .handleControlPdu bytes => bytes
  | .decDataHdr bytes => bytes
  | .decStatus bytes => bytes
  | .reset | .configure .. | .reestablish | .stop | .getMetrics | .readVar _ | .discardSdu _
  | .readPdu _ | .getBufferState | .getStatusPdu _ | .texpPollRetx | .texpReordering
  | .texpStatusProhibit | .txModBase _ | .rxModBase _ | .encDataHdr .. | .encStatus ..
  | .poolAlloc .. | .poolRelRlc _ | .poolRelPdcp _ | .poolIsAcked _ => []

/-- The encoder: the descriptor of a command (R91, R93). -/
def encode (i : Instr) : Descriptor where
  words := i.opcode.word :: i.args
  bytes := i.payload

/-- Word `k` of an instruction whose bits are `w`, numbered as spec/opcode_table.json numbers them. -/
def tableWordAt (w k : Nat) : Word := BitVec.ofNat 32 (w >>> (32 * k))

/-- How many words the instruction in `w` has: word 0, the fixed arguments and, for the two commands
with a repeated group, the group its count word announces (R93). -/
def tableWordCount (w : Nat) : Nat :=
  match opcodeOf ((tableWordAt w 0).extractLsb' 24 8).toNat with
  | none => 1
  | some .encDataHdr => 3 + (tableWordAt w 2).toNat
  | some .encStatus => 4 + 2 * (tableWordAt w 3).toNat
  | some op => 1 + op.fixedArgs

/-- How many payload bytes the instruction in `w` has: its `len` argument, the last word (R91). -/
def tablePayloadLength (w : Nat) : Nat :=
  match opcodeOf ((tableWordAt w 0).extractLsb' 24 8).toNat with
  | none => 0
  | some op => if op.hasPayload then (tableWordAt w op.fixedArgs).toNat else 0

/-- The instruction whose low `nbits` bits are those of `w` and whose other bits are zero, laid out as
a descriptor of the command port: words first, then payload bytes (R91). -/
def tableDescriptor (nbits w : Nat) : Descriptor :=
  let v := w % 2 ^ nbits
  let n := tableWordCount v
  { words := (List.range n).map (tableWordAt v)
    bytes := (List.range (tablePayloadLength v)).map
      fun j => BitVec.ofNat 8 (v >>> (32 * n + 8 * j)) }

/-- The instruction the decoder reads from a word of spec/opcode_table.json. -/
def decodeTableWord (nbits w : Nat) : Option Instr :=
  match decode (tableDescriptor nbits w) with
  | .ok i => some i
  | .error _ => none

end Sys2Proof
end

