-- ==== Sys2Proof/Machine/State.lean ====
section
/-!
DEFINITION. The state of the engine as plain data: everything spec/10_state.md names, the ports, and
the model's own draw counter; the reasons a step can stop; and the state after reset
(spec/70_reset_and_hazards.md rule R290).
-/
namespace Sys2Proof.Machine

/-- A table indexed by numbers (SNs or pool indices), held as the list of its valid entries in rising
order of the index. An index that is not listed is an invalid entry (R27, R31) or a slot with
`in_use = false` (R33): U2 lets a model hold those as absent. -/
abbrev Table (α : Type) := List (Nat × α)

/-- The five private buffer spaces of R70. -/
inductive Space where
  /-- SDU store: `SDU_Q` -/
  | sdu
  /-- Tx PDU store: `TX_WINDOW[sn].buf` -/
  | txPdu
  /-- Rx PDU store: `RX_WINDOW[sn].buf` -/
  | rxPdu
  /-- Rx segment store: `RX_SEGMENTS[sn].ranges` -/
  | rxSegment
  /-- Rx SDU store: `RX_SDU` -/
  | rxSdu
deriving DecidableEq, Repr

/-- A queued SDU: one record of `SDU_Q` (R26). -/
structure SduEntry where
  pdcpSn : Word
  bytes : List Byte
deriving DecidableEq, Repr

/-- One valid entry of `TX_WINDOW` (R27). `segs` are pool indices. -/
structure TxEntry where
  hdr : Header
  buf : List Byte
  retxCount : Word
  segs : List Nat
deriving DecidableEq, Repr

/-- One entry of `RETX_Q`; `soEnd` is one past the last byte (R23). -/
structure RetxEntry where
  sn : Sn
  isSegment : Bool
  soStart : Nat
  soEnd : Nat
deriving DecidableEq, Repr

/-- The transmitter counters, queues, window and flags (R25 to R29). -/
structure Tx where
  /-- `VT_A` -/
  vtA : Sn
  /-- `VT_S` -/
  vtS : Sn
  /-- `POLL_SN` -/
  pollSn : Sn
  /-- `PDU_WITHOUT_POLL` -/
  pduWithoutPoll : Word
  /-- `BYTE_WITHOUT_POLL` -/
  byteWithoutPoll : Word
  /-- `SDU_Q`, head first -/
  sduQ : List SduEntry
  /-- `TX_HEAD_OFF` -/
  headOff : Nat
  /-- `TX_WINDOW` -/
  window : Table TxEntry
  /-- `RETX_Q`, head first -/
  retxQ : List RetxEntry
  /-- `POLL_RETX_RUNNING` -/
  pollRetxRunning : Bool
  /-- `POLL_RETX_EXPIRED` -/
  pollRetxExpired : Bool
  /-- `STATUS_PROHIBIT_RUNNING` -/
  statusProhibitRunning : Bool
deriving DecidableEq, Repr

/-- One valid entry of `RX_WINDOW` (R31). -/
structure RxEntry where
  hdr : Header
  buf : List Byte
deriving DecidableEq, Repr

/-- A run of received bytes of a parent payload, from offset `so` (R31). -/
structure ByteRange where
  so : Nat
  bytes : List Byte
deriving DecidableEq, Repr

/-- One valid entry of `RX_SEGMENTS` (R31): `bounds` is a set of offsets, held in rising order. -/
structure SegEntry where
  ranges : List ByteRange
  bounds : List Nat
  tlKnown : Bool
  tl : Nat
  fiSKnown : Bool
  fiS : Bool
  fiE : Bool
deriving DecidableEq, Repr

/-- The receiver counters, flags, tables and the SDU in progress (R30 to R32). -/
structure Rx where
  /-- `VR_R` -/
  vrR : Sn
  /-- `VR_X` -/
  vrX : Sn
  /-- `VR_MS` -/
  vrMs : Sn
  /-- `VR_H` -/
  vrH : Sn
  /-- `POLL_RECEIVED` -/
  pollReceived : Bool
  /-- `DO_STATUS` -/
  doStatus : Bool
  /-- `REORD_RUNNING` -/
  reordRunning : Bool
  /-- `RX_WINDOW` -/
  window : Table RxEntry
  /-- `RX_SEGMENTS` -/
  segments : Table SegEntry
  /-- `RX_SDU` -/
  sdu : List Byte
  /-- `RX_SDU_ACTIVE` -/
  sduActive : Bool
deriving DecidableEq, Repr

/-- A pool slot with `in_use = true` (R33). -/
structure Slot where
  rlcSn : Sn
  pdcpSn : Word
  rlcReleased : Bool
  pdcpReleased : Bool
deriving DecidableEq, Repr

/-- The segment pool: the slots in use and the free-index stack, top first (R33). -/
structure Pool where
  slots : Table Slot
  free : List Nat
deriving DecidableEq, Repr

/-- Configuration registers 0 to 6; register 7 is hard-wired (R40). -/
structure CfgRegs where
  tPollRetx : Word
  pollPdu : Word
  pollByte : Word
  maxRetxThresh : Word
  tReordering : Word
  tStatusProhibit : Word
  txQueueLength : Word
deriving DecidableEq, Repr

/-- The three timers, numbered as R115 numbers them. -/
inductive TimerId where
  | pollRetx | reordering | statusProhibit
deriving DecidableEq, Repr

/-- Per timer of the external timer service, whether an expiry is pending (R50, R270). -/
structure TimerService where
  pollRetx : Bool
  reordering : Bool
  statusProhibit : Bool
deriving DecidableEq, Repr

/-- The events of R268. -/
inductive Event where
  | deliverSdu (bytes : List Byte)
  | notifyDelivery (pdcpSns : List Word)
  | notifyFailure (pdcpSns : List Word)
  | protocolFailure
  | timerStart (timer : TimerId) (duration : Word)
  | timerStop (timer : TimerId)
deriving DecidableEq, Repr

/-- What the engine places on its ports: an event on the event port (R268) or a response descriptor
on the command port (R92). -/
inductive Output where
  | event (e : Event)
  | response (r : Descriptor)
deriving DecidableEq, Repr

/-- The result codes of R260. -/
inductive ResultCode where
  | ok | errIllegalCommand | errNotEnabledState | errFailed | errQueueFull | errPoolExhausted
  | errSduSize | errCorruptHeader | dropOutOfWindow | dropDuplicate | dropAckOutOfRange
  | infoAlreadyInWindow | infoNotFound | errProtocolFailure
deriving DecidableEq, Repr

/-- The two halves of the engine (R81). -/
inductive Half where
  | tx | rx
deriving DecidableEq, Repr

/-- A clearing command of which only one half is done (R85, only while `DUAL_SEQ`): the half still to
clear, and what `ENABLED` becomes when it is (true for REESTABLISH, false for STOP). -/
structure Clearing where
  half : Half
  enable : Bool
deriving DecidableEq, Repr

/-- The state of the machine. -/
structure State where
  /-- the implementation parameters (R8); no instruction writes them -/
  params : Params
  /-- `CFG` registers 0 to 6 (R40) -/
  cfg : CfgRegs
  /-- `ENABLED` (R34) -/
  enabled : Bool
  /-- `FAILED` (R34) -/
  failed : Bool
  /-- `CFG_VALID` (R34) -/
  cfgValid : Bool
  /-- the transmitter (R25 to R29) -/
  tx : Tx
  /-- the segment pool (R33) -/
  pool : Pool
  /-- the receiver (R30 to R32) -/
  rx : Rx
  /-- `TX_SDU_COUNT` (R35) -/
  txSduCount : Word
  /-- `LOST_PDU_COUNT` (R35) -/
  lostPduCount : Word
  /-- the external timer service's pending expiries (R50) -/
  timers : TimerService
  /-- a clearing command of which the second half is due (R85) -/
  clearing : Option Clearing
  /-- the command port: the descriptors the hosts present, in the one total order of R80 -/
  port : List Descriptor
  /-- what the engine has placed on its event and response ports, oldest first (R82, R90, R268) -/
  out : List Output
  /-- the model's own draw counter: how many free values have been taken -/
  draws : Nat
deriving DecidableEq, Repr

/-- Why the machine stops with a fault. -/
inductive Fault where
  /-- Raised by REASSEMBLE (WRITE_PDU), READ_PDU's packing and `build_segment` when a rule reads
  buffer bytes that do not exist: R72 makes `MemRead` defined only inside the buffer and asks for a
  fault of the model. Safe: no state reached from reset raises it. -/
  | readOutside (space : Space)
  /-- Raised by WRITE_PDU and TEXP_REORDERING when the scan of R225 or R235 for the first SN not fully
  received finds all 1024 entries of `RX_WINDOW` valid, so that the scan as written has no end. Safe:
  R225 says no entry at distance 512 or more is valid, so no state reached from reset raises it. -/
  | endlessScan
deriving DecidableEq, Repr

/-- Why the model refuses a step. -/
inductive Refusal where
  /-- Raised by the dispatcher for an instruction without a meaning (none is left). Safe. -/
  | notModelled (mnemonic : String)
  /-- Raised by `step` when the parameters in the state break the constraints of R8: the model is not
  instantiated for them (U15). Safe: no instruction writes the parameters. -/
  | parametersOutOfRange
deriving DecidableEq, Repr

/-- What a meaning answers. -/
abbrev Answer := Host.Outcome State Fault Refusal

/-- `n` consecutive pool indices from `k`, the lowest first: `FREE` after clearing, index 0 on top
(R33). -/
def indicesFrom : (n k : Nat) → List Nat
  | 0, _ => []
  | n + 1, k => k :: indicesFrom n (k + 1)

/-- The transmitter after reset and clearing (R25 to R29, R290). -/
def Tx.cleared (p : Params) : Tx where
  vtA := p.snInit
  vtS := p.snInit
  pollSn := p.snInit
  pduWithoutPoll := 0
  byteWithoutPoll := 0
  sduQ := []
  headOff := 0
  window := []
  retxQ := []
  pollRetxRunning := false
  pollRetxExpired := false
  statusProhibitRunning := false

/-- The receiver after reset and clearing (R30 to R32, R290). -/
def Rx.cleared (p : Params) : Rx where
  vrR := p.snInit
  vrX := p.snInit
  vrMs := p.snInit
  vrH := p.snInit
  pollReceived := false
  doStatus := false
  reordRunning := false
  window := []
  segments := []
  sdu := []
  sduActive := false

/-- The pool after reset and clearing: every slot free, index 0 on top (R33, R165, R290). -/
def Pool.cleared (p : Params) : Pool where
  slots := []
  free := indicesFrom p.poolCapacity 0

/-- The engine right after reset (R290), for any parameters. `CFG` registers 0 to 6 have no value in
the spec; they hold 0 here (DESIGN CHOICE, unsafe, log entry 1). -/
def State.initial (p : Params) : State where
  params := p
  cfg := ⟨0, 0, 0, 0, 0, 0, 0⟩
  enabled := false
  failed := false
  cfgValid := false
  tx := Tx.cleared p
  pool := Pool.cleared p
  rx := Rx.cleared p
  txSduCount := 0
  lostPduCount := 0
  timers := ⟨false, false, false⟩
  clearing := none
  port := []
  out := []
  draws := 0

/-- The machine right after reset, with the default parameters of R8 (R290). -/
def State.reset : State := State.initial {}

end Sys2Proof.Machine
end

