-- ==== Sys2Proof/Machine/Ops.lean ====
section
/-!
DEFINITION. The operations every meaning is made of: tables, buffer bytes, responses and events,
result codes, timers, the gates before a command, SN arithmetic, the fatal failure and the leaving of
it, and clearing (spec/20_memory.md, spec/30_encoding.md, spec/40_sn_arithmetic.md,
spec/46_management.md, spec/60_exceptions.md).
-/
namespace Sys2Proof.Machine

/-! ### Tables and buffers -/

/-- The valid entry at an index, if there is one: `T[i].valid` and `T[i]` of R10. -/
def tableGet {α : Type} : Table α → Nat → Option α
  | [], _ => none
  | (k, v) :: t, i => if k = i then some v else tableGet t i

/-- `T[i] <- v` with `valid: true`. -/
def tableSet {α : Type} : Table α → Nat → α → Table α
  | [], i, v => [(i, v)]
  | (k, w) :: t, i, v =>
    if i < k then (i, v) :: (k, w) :: t
    else if i = k then (i, v) :: t
    else (k, w) :: tableSet t i v

/-- `T[i].valid <- false`. -/
def tableErase {α : Type} (t : Table α) (i : Nat) : Table α := t.filter fun e => decide (e.1 ≠ i)

/-- The canonical form of a table: indices strictly rising and below `bound`. -/
def tableWf {α : Type} (bound : Nat) : Table α → Bool
  | [] => true
  | (k, _) :: t => decide (k < bound) && t.all (fun e => decide (k < e.1)) && tableWf bound t

/-- Whether `T[sn].valid`. -/
def validAt {α : Type} (t : Table α) (sn : Sn) : Bool := (tableGet t sn.toNat).isSome

/-- `MemRead(buf, off, n)` of R72: defined only inside the buffer; outside it is a fault of the model,
never a value. -/
def memRead (space : Space) (buf : List Byte) (off n : Nat) : Except Fault (List Byte) :=
  if off + n ≤ buf.length then .ok ((buf.drop off).take n) else .error (.readOutside space)

/-- `MemWrite(buf, off, bytes)` of R72, for `off ≤ |buf|`: replaces bytes and grows the buffer when
needed. -/
def memWrite (buf : List Byte) (off : Nat) (bytes : List Byte) : List Byte :=
  buf.take off ++ bytes ++ buf.drop (off + bytes.length)

/-- The byte a list of ranges holds at an offset. -/
def rangeByte : List ByteRange → Nat → Option Byte
  | [], _ => none
  | r :: rs, off =>
    if r.so ≤ off ∧ off < r.so + r.bytes.length then r.bytes[off - r.so]? else rangeByte rs off

/-- The model's read of one byte of memory: space, owner key, byte offset (R70). The owner is a
position of `SDU_Q`, an SN, or, for the one `RX_SDU` buffer, nothing. -/
def byteAt (s : State) (space : Space) (owner off : Nat) : Option Byte :=
  match space with
  | .sdu => s.tx.sduQ[owner]? >>= fun e => e.bytes[off]?
  | .txPdu => tableGet s.tx.window owner >>= fun e => e.buf[off]?
  | .rxPdu => tableGet s.rx.window owner >>= fun e => e.buf[off]?
  | .rxSegment => tableGet s.rx.segments owner >>= fun e => rangeByte e.ranges off
  | .rxSdu => s.rx.sdu[off]?

/-- The canonical form of memory: every store keyed by SN lists SNs in strictly rising order, and so
does the pool arena its indices; an entry that is not listed is invalid (R31, R33, R70, R77). -/
def Memory.wf (s : State) : Bool :=
  tableWf 1024 s.tx.window && tableWf 1024 s.rx.window && tableWf 1024 s.rx.segments &&
    tableWf s.params.poolCapacity s.pool.slots

/-! ### Numbers on the ports -/

/-- The numeric result codes (R260). -/
def codeOfResult : ResultCode → Nat
  | .ok => 0x00
  | .errIllegalCommand => 0x10
  | .errNotEnabledState => 0x11
  | .errFailed => 0x12
  | .errQueueFull => 0x20
  | .errPoolExhausted => 0x21
  | .errSduSize => 0x22
  | .errCorruptHeader => 0x30
  | .dropOutOfWindow => 0x31
  | .dropDuplicate => 0x32
  | .dropAckOutOfRange => 0x33
  | .infoAlreadyInWindow => 0x40
  | .infoNotFound => 0x41
  | .errProtocolFailure => 0x50

/-- Timer identifiers on the timer interface (R115). -/
def codeOfTimer : TimerId → Nat
  | .pollRetx => 0
  | .reordering => 1
  | .statusProhibit => 2

/-- The numeric event codes (R268). -/
def codeOfEvent : Event → Nat
  | .deliverSdu _ => 1
  | .notifyDelivery _ => 2
  | .notifyFailure _ => 3
  | .protocolFailure => 4
  | .timerStart .. => 5
  | .timerStop _ => 6

/-! ### Responses and events -/

/-- The response descriptor of R92: word 0 carries the result code in bits 7:0 and zero above, then
the result words; returned bytes follow. -/
def responseOf (c : ResultCode) (results : List Word) (bytes : List Byte) : Descriptor where
  words := BitVec.ofNat 32 (codeOfResult c) :: results
  bytes := bytes

/-- `emit Event(args)` (R10, R268). -/
def emit (e : Event) (s : State) : State := { s with out := s.out ++ [.event e] }

/-- `return Code(value)`: the command's one response (R10, R90, R260). -/
def respond (c : ResultCode) (results : List Word) (bytes : List Byte) (s : State) : State :=
  { s with out := s.out ++ [.response (responseOf c results bytes)] }

/-- The response of a refused command: `m` result words, present and zero, and no bytes (R92, U18). -/
def respondError (c : ResultCode) (m : Nat) (s : State) : State :=
  respond c (List.replicate m 0) [] s

/-- `OK` with returned bytes: the result word `len` and the bytes (R92). -/
def respondBytes (bytes : List Byte) (s : State) : State :=
  respond .ok [BitVec.ofNat 32 bytes.length] bytes s

/-- The one result word for the number `n` where no rule states the word of a number that does not fit
it: then a free value, drawn afresh (R135; log entries 20 and 21). -/
def wordOrFree (free : Nat → Word) (n : Nat) (s : State) : Word × State :=
  if n < 2 ^ 32 then (BitVec.ofNat 32 n, s)
  else (free s.draws, { s with draws := s.draws + 1 })

/-- An internal computation that may meet an undefined `MemRead`, as an answer of the machine. -/
def answerOf : Except Fault State → Answer
  | .ok s => .next s
  | .error f => .fault f

/-! ### The gates before a command (R261, R267) -/

/-- Descriptor checks come first: an illegal command changes nothing and returns
`ERR_ILLEGAL_COMMAND` with its opcode's `m` result words (R95, R261 (1)). -/
def requireLegal (legal : Bool) (m : Nat) (body : State → Answer) (s : State) : Answer :=
  if legal then body s else .next (respondError .errIllegalCommand m s)

/-- The refusal of data-path commands: `ERR_FAILED` first, then `ERR_NOT_ENABLED_STATE` (R261 (2)
(3), R267). -/
def dataPath (m : Nat) (body : State → Answer) (s : State) : Answer :=
  if s.failed then .next (respondError .errFailed m s)
  else if !s.enabled || !s.cfgValid then .next (respondError .errNotEnabledState m s)
  else body s

/-! ### Sequence-number arithmetic (spec/40_sn_arithmetic.md) -/

/-- `d_base(x) = (x - base) mod 1024` as a plain number (R11, R130, R132). -/
def modBase (base x : Sn) : Nat := (x - base).toNat

/-- `tx_mod_base(sn)` (R130). -/
def txModBase (s : State) (sn : Sn) : Nat := modBase s.tx.vtA sn

/-- `rx_mod_base(sn)` (R131). -/
def rxModBase (s : State) (sn : Sn) : Nat := modBase s.rx.vrR sn

/-- `VT_MS`, derived (R25, R133). -/
def vtMs (s : State) : Sn := s.tx.vtA + BitVec.ofNat 10 windowSize

/-- `VR_MR`, derived (R30, R133). -/
def vrMr (s : State) : Sn := s.rx.vrR + BitVec.ofNat 10 windowSize

/-- The SN `k` steps after `x` (R133). -/
def snAdd (x : Sn) (k : Nat) : Sn := x + BitVec.ofNat 10 k

/-- Reading a configuration register by number; register 7 is hard-wired to 512 (R40). -/
def readCfg (c : CfgRegs) : Fin 8 → Word
  | 0 => c.tPollRetx
  | 1 => c.pollPdu
  | 2 => c.pollByte
  | 3 => c.maxRetxThresh
  | 4 => c.tReordering
  | 5 => c.tStatusProhibit
  | 6 => c.txQueueLength
  | 7 => BitVec.ofNat 32 windowSize

/-! ### Timers (R270 to R272) -/

/-- The running flag of a timer (R29, R30). -/
def timerRunning (t : TimerId) (s : State) : Bool :=
  match t with
  | .pollRetx => s.tx.pollRetxRunning
  | .reordering => s.rx.reordRunning
  | .statusProhibit => s.tx.statusProhibitRunning

/-- Writes a timer's running flag and, with it, whether the timer service holds a pending expiry. -/
def setTimer (t : TimerId) (b : Bool) (s : State) : State :=
  match t with
  | .pollRetx =>
    { s with tx := { s.tx with pollRetxRunning := b }, timers := { s.timers with pollRetx := b } }
  | .reordering =>
    { s with rx := { s.rx with reordRunning := b }, timers := { s.timers with reordering := b } }
  | .statusProhibit =>
    { s with tx := { s.tx with statusProhibitRunning := b },
             timers := { s.timers with statusProhibit := b } }

/-- Arming a timer: the running flag, the event, and a pending expiry that replaces any other (R270). -/
def startTimer (t : TimerId) (duration : Word) (s : State) : State :=
  emit (.timerStart t duration) (setTimer t true s)

/-- Stopping a timer cancels its pending expiry (R270). -/
def stopTimer (t : TimerId) (s : State) : State := emit (.timerStop t) (setTimer t false s)

/-- A timer's expiry is taken: timers are single-shot (R50, R270). -/
def expireTimer (t : TimerId) (s : State) : State := setTimer t false s

/-- `timer_stop` for a timer whose running flag is 1 (R250, R252). -/
def stopIfRunning (t : TimerId) (s : State) : State :=
  if timerRunning t s then stopTimer t s else s

/-! ### The fatal failure and the way out of it (R266) -/

/-- Entry of `protocol_failure()`: `FAILED <- 1`, the event, and the code `ERR_PROTOCOL_FAILURE` with
`m` zero result words. Nothing else is saved and nothing already written is undone (R266). -/
def protocolFailure (m : Nat) (s : State) : State :=
  respondError .errProtocolFailure m (emit .protocolFailure { s with failed := true })

/-- Leaving the failed state, by RESET, STOP or REESTABLISH only: `FAILED <- 0` and `ENABLED` as the
command says (R250, R252, R253, R266). -/
def leaveFailure (enable : Bool) (s : State) : State :=
  { s with failed := false, enabled := enable }

/-! ### Clearing (R252) -/

/-- The transmitter and the pool cleared: the transmitter half of `clear_all` (R81, R252). -/
def clearTx (s : State) : State :=
  { s with tx := Tx.cleared s.params, pool := Pool.cleared s.params }

/-- The receiver cleared: the receiver half of `clear_all` (R81, R252). -/
def clearRx (s : State) : State := { s with rx := Rx.cleared s.params }

/-- The first lines of `clear_all()`: `timer_stop` for each running timer, in the order POLL_RETX,
REORDERING, STATUS_PROHIBIT (R252). -/
def stopTimers (s : State) : State :=
  stopIfRunning .statusProhibit (stopIfRunning .reordering (stopIfRunning .pollRetx s))

/-- `clear_all()`: the running timers stopped, then everything cleared, with no other event (R252). -/
def clearAll (s : State) : State := clearRx (clearTx (stopTimers s))

/-- One half cleared, under `DUAL_SEQ` (R81, R85). -/
def clearHalf (h : Half) (s : State) : State :=
  match h with
  | .tx => clearTx s
  | .rx => clearRx s

/-- A clearing command (REESTABLISH or STOP). With one sequencer it is one step. Under `DUAL_SEQ` the
timers are stopped first, in the order of R252, and then the two halves are cleared in two steps, in an
order that is a free value; the second is taken by the next step of the machine (R85, log entry 7). -/
def clearingCommand (enable : Bool) (s : State) : State :=
  if s.params.dualSeq then
    let first : Half := if Config.receiverFirst s.draws then .rx else .tx
    let second : Half := if Config.receiverFirst s.draws then .tx else .rx
    { clearHalf first (stopTimers s) with
      clearing := some ⟨second, enable⟩, draws := s.draws + 1 }
  else respond .ok [] [] (leaveFailure enable (clearAll s))

/-- The second step of a clearing command under `DUAL_SEQ` (R85): the other half, then the flags and
the response of the command. -/
def finishClearing (c : Clearing) (s : State) : State :=
  respond .ok [] [] (leaveFailure c.enable (clearHalf c.half { s with clearing := none }))

end Sys2Proof.Machine
end

