-- ==== Sys2Proof/Machine/Codec.lean ====
section
/-!
DEFINITION. The wire header codec: bit strings, the Data-PDU header and the STATUS PDU, and the
meanings of ENC_DATA_HDR, DEC_DATA_HDR, ENC_STATUS and DEC_STATUS (spec/41_header_codec.md; layouts
in spec/30_encoding.md rules R100 to R112). The codec reads only its operands.
-/
namespace Sys2Proof.Machine

/-! ### Bit strings (R140) -/

/-- `put`: the `n` low bits of `v`, most significant first (R140). -/
def bitsOf : (n v : Nat) → List Bool
  | 0, _ => []
  | n + 1, v => v.testBit n :: bitsOf n v

/-- The unsigned number a bit string spells, most significant bit first (R140). -/
def natOfBits (bits : List Bool) : Nat := bits.foldl (fun a b => 2 * a + b.toNat) 0

/-- The bits of a byte string: bit 7 of byte 0 first (R9, R73). -/
def bitsOfBytes (bytes : List Byte) : List Bool := bytes.flatMap fun b => bitsOf 8 b.toNat

/-- The first `n` bytes of a bit string, with zero bits past its end. -/
def takeBytes : (n : Nat) → List Bool → List Byte
  | 0, _ => []
  | n + 1, bits =>
    BitVec.ofNat 8 (natOfBits ((bits ++ List.replicate 8 false).take 8)) :: takeBytes n (bits.drop 8)

/-- `bytes(W)`: zero bits up to a multiple of 8, first bit in bit 7 of byte 0 (R140). -/
def bytesOfBits (bits : List Bool) : List Byte := takeBytes ((bits.length + 7) / 8) bits

/-! ### Data-PDU header -/

/-- `ceil(1.5 * n)` in integer arithmetic (R9, R135). -/
def ceilOneAndHalf (n : Nat) : Nat := n + (n + 1) / 2

/-- `hdr_len` (R103, R142). -/
def hdrLen (h : Header) : Nat := 2 + (if h.rf then 2 else 0) + ceilOneAndHalf h.li.length

/-- The chain of 12-bit pairs: an `e` bit, set while another pair follows, and 11 bits of `li` (R102). -/
def liBits : List Nat → List Bool
  | [] => []
  | l :: rest => (!rest.isEmpty) :: (bitsOf 11 l ++ liBits rest)

/-- The bit string of a Data-PDU header (R100 to R102, R141). -/
def headerBits (h : Header) : List Bool :=
  [true, h.rf, h.p, h.fiS, h.fiE, !h.li.isEmpty] ++ bitsOf 10 h.sn.toNat ++
    (if h.rf then h.lsf :: bitsOf 15 h.so else []) ++ liBits h.li

/-- `encode_data_header` (R141). -/
def encodeDataHeader (h : Header) : List Byte := bytesOfBits (headerBits h)

/-- The `require` lines of R141. -/
def headerEncodable (p : Params) (h : Header) : Bool :=
  h.dc && decide (h.li.length ≤ p.nLiMax) && h.li.all (fun l => decide (1 ≤ l ∧ l ≤ 2047)) &&
    (h.rf || (!h.lsf && decide (h.so = 0))) && decide (h.so ≤ 32767)

/-- The extension chain while `e = 1`, with `cap` more length indicators allowed (R143). None when the
chain runs past the bytes, holds more indicators than the capacity, or a zero. -/
def decodeLis : (cap : Nat) → List Bool → Option (List Nat)
  | 0, _ => none
  | cap + 1, bits =>
    if bits.length < 12 then none
    else
      let v := natOfBits ((bits.drop 1).take 11)
      if v = 0 then none
      else if bits.head? = some true then (decodeLis cap (bits.drop 12)).map (v :: ·)
      else some [v]

/-- The fixed and segment fields of a Data-PDU header, with no length indicators yet (R100, R101);
the bytes must hold them. -/
def decodeFixed (bits : List Bool) : Header :=
  let rf := bits.getD 1 false
  { dc := bits.getD 0 false
    rf := rf
    p := bits.getD 2 false
    fiS := bits.getD 3 false
    fiE := bits.getD 4 false
    sn := BitVec.ofNat 10 (natOfBits ((bits.drop 6).take 10))
    lsf := rf && bits.getD 16 false
    so := if rf then natOfBits ((bits.drop 17).take 15) else 0
    li := [] }

/-- `decode_data_header` (R143): the header and its length, or none for `CorruptHeader`. -/
def decodeDataHeader (p : Params) (bytes : List Byte) : Option (Header × Nat) :=
  if bytes.length < 2 then none
  else
    let bits := bitsOfBytes bytes
    let h := decodeFixed bits
    if !h.dc then none
    else if h.rf && decide (bytes.length < 4) then none
    else
      let rest := bits.drop (if h.rf then 32 else 16)
      let lis := if bits.getD 5 false then decodeLis p.nLiMax rest else some []
      match lis with
      | none => none
      | some li =>
        let h := { h with li := li }
        let len := hdrLen h
        if bytes.length ≤ len then none
        else if bytes.length - len ≤ li.sum then none
        else some (h, len)

/-! ### STATUS PDU -/

/-- The bits of one NACK element: 12, or 42 with segment offsets (R110, R111). -/
def nackCost (n : Nack) : Nat := if n.hasSo then 42 else 12

/-- `status_len` (R111). -/
def statusLen (st : StatusPdu) : Nat := (15 + (st.nacks.map nackCost).sum + 7) / 8

/-- One pass of the loop of R145: the last NACK is dropped and, unless another element for its SN
remains, `ack_sn` is lowered to it (D26, C6). -/
def dropLastNack (st : StatusPdu) : StatusPdu :=
  match st.nacks.getLast? with
  | none => st
  | some last =>
    let rest := st.nacks.dropLast
    { ackSn := if rest.any (fun n => decide (n.nackSn = last.nackSn)) then st.ackSn else last.nackSn
      nacks := rest }

/-- The loop of `truncate_status`, at most `fuel` rounds (R145). -/
def truncateLoop (maxLen : Nat) : (fuel : Nat) → StatusPdu → StatusPdu
  | 0, st => st
  | fuel + 1, st =>
    if !st.nacks.isEmpty && decide (maxLen < statusLen st) then
      truncateLoop maxLen fuel (dropLastNack st)
    else st

/-- `truncate_status` (R145): none when not even the ACK-only form fits. -/
def truncateStatus (st : StatusPdu) (maxLen : Nat) : Option StatusPdu :=
  if maxLen < 2 then none else some (truncateLoop maxLen st.nacks.length st)

/-- The bits of the NACK elements in wire order; the first `e1` says whether another follows (R110). -/
def nackBits : List Nack → List Bool
  | [] => []
  | n :: rest =>
    bitsOf 10 n.nackSn.toNat ++ [!rest.isEmpty, n.hasSo] ++
      (if n.hasSo then bitsOf 15 n.soStart ++ bitsOf 15 n.soEnd else []) ++ nackBits rest

/-- The bit string of a STATUS PDU (R110). -/
def statusBits (st : StatusPdu) : List Bool :=
  [false, false, false, false] ++ bitsOf 10 st.ackSn.toNat ++ [!st.nacks.isEmpty] ++
    nackBits st.nacks

/-- `encode_status` (R146): the empty string when nothing fits. As in the pseudocode of R146 and R145,
`max_len` alone decides what is dropped, so that R149 holds for every status. -/
def encodeStatus (st : StatusPdu) (maxLen : Nat) : List Byte :=
  match truncateStatus st maxLen with
  | none => []
  | some t => bytesOfBits (statusBits t)

/-- The NACK elements while `e1 = 1`, with `cap` more allowed (R148). -/
def decodeNacks : (cap : Nat) → List Bool → Option (List Nack)
  | 0, _ => none
  | cap + 1, bits =>
    if bits.length < 12 then none
    else
      let sn := BitVec.ofNat 10 (natOfBits (bits.take 10))
      let more := bits.getD 10 false
      let rest := bits.drop 12
      if bits.getD 11 false then
        if rest.length < 30 then none
        else
          let n : Nack := ⟨sn, true, natOfBits (rest.take 15), natOfBits ((rest.drop 15).take 15)⟩
          if more then (decodeNacks cap (rest.drop 30)).map (n :: ·) else some [n]
      else
        let n : Nack := ⟨sn, false, 0, 0⟩
        if more then (decodeNacks cap rest).map (n :: ·) else some [n]

/-- `decode_status` (R148): none for a malformed PDU; bits after the last element are ignored (R112). -/
def decodeStatus (bytes : List Byte) : Option StatusPdu :=
  if bytes.length < 2 then none
  else
    let bits := bitsOfBytes bytes
    if natOfBits (bits.take 4) ≠ 0 then none
    else
      let ackSn := BitVec.ofNat 10 (natOfBits ((bits.drop 4).take 10))
      let nacks := if bits.getD 14 false then decodeNacks 1024 (bits.drop 15) else some []
      nacks.map fun l => ⟨ackSn, l⟩

/-! ### The diagnostic commands -/

/-- ENC_DATA_HDR (R141; operand words R94). A failed `require` is `ERR_ILLEGAL_COMMAND`. R8 gives
`N_LI_MAX` no upper bound, so a header can have 2^32 bytes or more, for which no rule states the `len`
word: then that word is a free value, the bytes are as ever (DESIGN CHOICE, log entry 21). -/
def execEncDataHdr (hw : Word) (li : List Word) (s : State) : Answer :=
  let h := headerOfWords hw li
  requireLegal (legalLiCount s.params li.length && headerEncodable s.params h) 1
    (fun s =>
      let bytes := encodeDataHeader h
      let len := wordOrFree Config.encodedHeaderLength bytes.length s
      .next (respond .ok [len.1] bytes len.2)) s

/-- DEC_DATA_HDR (R143): the header word, the count and length, and the length indicators (R93). -/
def execDecDataHdr (bytes : List Byte) (s : State) : Answer :=
  requireLegal (legalLength s.params bytes.length) 3
    (fun s =>
      match decodeDataHeader s.params bytes with
      | none => .next (respondError .errCorruptHeader 3 s)
      | some (h, len) =>
        .next (respond .ok
          (wordOfHeader h :: wordOfNat h.li.length :: wordOfNat len :: h.li.map wordOfNat) [] s)) s

/-- ENC_STATUS (R146; operand words R94). The 15-bit offset fields of `nw1` cannot break the `require`
line of R146, and its SN widths are the descriptor checks of R95. A list of 513 to 1024 elements,
which R95 admits, is encoded as R145 and R146 say and decodes to itself as R149 says; against these stands
the clause of R22 that ENC_STATUS never produces more than 512 (DESIGN CHOICE, log entry 19). -/
def execEncStatus (maxLen ackSn : Word) (nacks : List (Word × Word)) (s : State) : Answer :=
  requireLegal
    (legalLength s.params maxLen.toNat && legalSn ackSn && legalNackCount nacks.length &&
      nacks.all legalNackWords) 1
    (fun s =>
      .next (respondBytes
        (encodeStatus ⟨snOfWord ackSn, nacks.map nackOfWords⟩ maxLen.toNat) s)) s

/-- DEC_STATUS (R148): `ack_sn`, the count, and the pairs `nw0`, `nw1` (R93, R94). -/
def execDecStatus (bytes : List Byte) (s : State) : Answer :=
  requireLegal (legalLength s.params bytes.length) 2
    (fun s =>
      match decodeStatus bytes with
      | none => .next (respondError .errCorruptHeader 2 s)
      | some st =>
        .next (respond .ok
          (wordOfSn st.ackSn :: wordOfNat st.nacks.length :: st.nacks.flatMap wordsOfNack) [] s)) s

end Sys2Proof.Machine
end

