-- ==== Sys2Proof/Machine/Flags.lean ====
section
/-!
DEFINITION. Every flag the engine computes: the flags word of READ_VAR (spec/30_encoding.md rule R94),
the window predicates (spec/40_sn_arithmetic.md rule R134) and the poll bit (spec/43_transmitter.md
rules R183 and R184).
-/
namespace Sys2Proof.Machine

/-- The flags word: bit 0 `POLL_RECEIVED`, 1 `DO_STATUS`, 2 `REORD_RUNNING`, 3 `POLL_RETX_RUNNING`,
4 `POLL_RETX_EXPIRED`, 5 `STATUS_PROHIBIT_RUNNING`, 6 `ENABLED`, 7 `FAILED`, 8 `CFG_VALID` (R94). -/
def flagsWord (s : State) : Word :=
  (BitVec.ofBool s.cfgValid ++ BitVec.ofBool s.failed ++ BitVec.ofBool s.enabled ++
    BitVec.ofBool s.tx.statusProhibitRunning ++ BitVec.ofBool s.tx.pollRetxExpired ++
    BitVec.ofBool s.tx.pollRetxRunning ++ BitVec.ofBool s.rx.reordRunning ++
    BitVec.ofBool s.rx.doStatus ++ BitVec.ofBool s.rx.pollReceived).setWidth 32

/-- `inside_rx_window(sn)` (R134, R221). -/
def insideRxWindow (s : State) (sn : Sn) : Bool := decide (rxModBase s sn < windowSize)

/-- `tx_window_full()` (R134). -/
def txWindowFull (s : State) : Bool := decide (windowSize ≤ txModBase s s.tx.vtS)

/-- `tx_window_empty()` (R134). -/
def txWindowEmpty (s : State) : Bool := decide (s.tx.vtS = s.tx.vtA)

/-- `ack_in_range(a)`: both ends of `[VT_A, VT_S]` included (R134, R188). -/
def ackInRange (s : State) (a : Sn) : Bool := decide (txModBase s a ≤ txModBase s s.tx.vtS)

/-- `rx_ahead(x, y)` (R134). -/
def rxAhead (s : State) (x y : Sn) : Bool := decide (rxModBase s y < rxModBase s x)

/-- `poll_required()`, evaluated on the state after the PDU was accounted for (R183). -/
def pollRequired (s : State) : Bool :=
  (decide (s.cfg.pollPdu ≠ 0) && decide (s.cfg.pollPdu < s.tx.pduWithoutPoll)) ||
  (decide (s.cfg.pollByte ≠ 0) && decide (s.cfg.pollByte < s.tx.byteWithoutPoll)) ||
  s.tx.pollRetxExpired ||
  txWindowFull s ||
  (s.tx.sduQ.isEmpty && s.tx.retxQ.isEmpty) ||
  (decide (s.cfg.pollPdu = 0) && decide (s.cfg.pollByte = 0) &&
    decide (s.params.pollPeriod ≠ 0) && decide (s.params.pollPeriod ≤ s.tx.pduWithoutPoll.toNat))

/-- `apply_poll()` (R184). -/
def applyPoll (s : State) : State :=
  startTimer .pollRetx s.cfg.tPollRetx
    { s with tx := { s.tx with
        pollSn := s.tx.vtS - 1
        pduWithoutPoll := 0
        byteWithoutPoll := 0
        pollRetxExpired := false } }

/-- The end of every Data-PDU transmission (R178, R180, R210): the poll bit is computed on the state
after accounting, a poll is applied when it is set, and the response carries the header with that bit
followed by the payload. -/
def transmit (h : Header) (payload : List Byte) (s : State) : State :=
  if pollRequired s then respondBytes (encodeDataHeader { h with p := true } ++ payload) (applyPoll s)
  else respondBytes (encodeDataHeader { h with p := false } ++ payload) s

end Sys2Proof.Machine
end

