-- ==== Sys2Proof/Machine/Management.lean ====
section
/-!
DEFINITION. The management commands RESET, CONFIGURE, REESTABLISH, STOP, GET_METRICS and READ_VAR
(spec/46_management.md).
-/
namespace Sys2Proof.Machine

/-- The configuration registers after RESET: unspecified, each a free value (R250, U1, log entry 9). -/
def cfgUnspecified (draw : Nat) : CfgRegs where
  tPollRetx := Config.cfgAfterReset draw 0
  pollPdu := Config.cfgAfterReset draw 1
  pollByte := Config.cfgAfterReset draw 2
  maxRetxThresh := Config.cfgAfterReset draw 3
  tReordering := Config.cfgAfterReset draw 4
  tStatusProhibit := Config.cfgAfterReset draw 5
  txQueueLength := Config.cfgAfterReset draw 6

/-- RESET (R250). -/
def execReset (s : State) : Answer :=
  let s := leaveFailure false (clearAll s)
  .next (respond .ok [] [] { s with
    cfgValid := false
    txSduCount := 0
    lostPduCount := 0
    cfg := cfgUnspecified s.draws
    clearing := none
    draws := s.draws + 1 })

/-- CONFIGURE (R251): only while stopped, with `max_retx_thresh` and `tx_queue_length` at least 1. -/
def execConfigure (v0 v1 v2 v3 v4 v5 v6 : Word) (s : State) : Answer :=
  if s.enabled then .next (respondError .errNotEnabledState 0 s)
  else if v3 = 0 ∨ v6 = 0 then .next (respondError .errIllegalCommand 0 s)
  else .next (respond .ok [] [] { s with cfg := ⟨v0, v1, v2, v3, v4, v5, v6⟩, cfgValid := true })

/-- REESTABLISH (R252). -/
def execReestablish (s : State) : Answer :=
  if s.cfgValid then .next (clearingCommand true s)
  else .next (respondError .errNotEnabledState 0 s)

/-- STOP (R253). -/
def execStop (s : State) : Answer := .next (clearingCommand false s)

/-- GET_METRICS (R254). -/
def execGetMetrics (s : State) : Answer :=
  .next (respond .ok [s.txSduCount, s.lostPduCount] [] s)

/-- The value of a variable, zero-extended to 32 bits (R94, R255). -/
def readVar (v : Var) (s : State) : Word :=
  match v with
  | .vtA => wordOfSn s.tx.vtA
  | .vtS => wordOfSn s.tx.vtS
  | .vtMs => wordOfSn (vtMs s)
  | .pollSn => wordOfSn s.tx.pollSn
  | .pduWithoutPoll => s.tx.pduWithoutPoll
  | .byteWithoutPoll => s.tx.byteWithoutPoll
  | .vrR => wordOfSn s.rx.vrR
  | .vrMr => wordOfSn (vrMr s)
  | .vrX => wordOfSn s.rx.vrX
  | .vrMs => wordOfSn s.rx.vrMs
  | .vrH => wordOfSn s.rx.vrH
  | .flags => flagsWord s
  | .sduQLength => wordOfNat s.tx.sduQ.length
  | .retxQLength => wordOfNat s.tx.retxQ.length
  | .txWindowCount => wordOfNat s.tx.window.length
  | .rxWindowCount => wordOfNat s.rx.window.length
  | .freeSlots => wordOfNat s.pool.free.length

/-- READ_VAR (R255); a number above 16 is illegal (R95). -/
def execReadVar (var : Word) (s : State) : Answer :=
  match varOfNat var.toNat with
  | none => .next (respondError .errIllegalCommand 1 s)
  | some v => .next (respond .ok [readVar v s] [] s)

end Sys2Proof.Machine
end

