-- ==== Sys2Proof/Machine/Resegmentation.lean ====
section
/-!
DEFINITION. Resegmentation of retransmissions: `build_segment`, run by READ_PDU
(spec/44_resegmentation.md rules R210 to R212).
-/
namespace Sys2Proof.Machine

/-- The boundaries `b[1..N]` of a parent payload: the running sums of its length indicators from
`acc` (R210, R231). -/
def boundariesFrom : (acc : Nat) → List Nat → List Nat
  | _, [] => []
  | acc, l :: rest => (acc + l) :: boundariesFrom (acc + l) rest

/-- The inner boundaries `b[1..N]` of a payload (R210). -/
def innerBoundaries (h : Header) : List Nat := boundariesFrom 0 h.li

/-- `inner(s, e)`: the inner boundaries strictly between `s` and `e` (R210). -/
def innerBetween (h : Header) (s e : Nat) : List Nat :=
  (innerBoundaries h).filter fun x => decide (s < x ∧ x < e)

/-- `cost(s, e)`: the length of a segment PDU that carries `[s, e)` (R210). -/
def segmentCost (h : Header) (s e : Nat) : Nat :=
  4 + ceilOneAndHalf (innerBetween h s e).length + (e - s)

/-- A segment `[s, e)` fits the grant and the header capacity (R210). -/
def segmentFits (p : Params) (h : Header) (maxBytes s e : Nat) : Bool :=
  decide (segmentCost h s e ≤ maxBytes) && decide ((innerBetween h s e).length ≤ p.nLiMax)

/-- The greatest `e` in `(s, s + n]` whose segment fits, if any (R210). -/
def greatestEnd (p : Params) (h : Header) (maxBytes s : Nat) : (n : Nat) → Option Nat
  | 0 => none
  | n + 1 =>
    if segmentFits p h maxBytes s (s + (n + 1)) then some (s + (n + 1))
    else greatestEnd p h maxBytes s n

/-- The successive differences of `prev` followed by the list (R210, R223). -/
def differencesFrom : (prev : Nat) → List Nat → List Nat
  | _, [] => []
  | prev, x :: rest => (x - prev) :: differencesFrom x rest

/-- The header of the segment `[s, e)` of a parent of `len` payload bytes (R210). -/
def segmentHeader (h : Header) (sn : Sn) (len s e : Nat) : Header where
  dc := true
  rf := true
  p := false
  fiS := if s = 0 then h.fiS else !(innerBoundaries h).contains s
  fiE := if e = len then h.fiE else !(innerBoundaries h).contains e
  sn := sn
  lsf := decide (e = len)
  so := s
  li := differencesFrom s (innerBetween h s e)

/-- The retransmission queue after the segment `[.., e)` of its head was sent: the remainder replaces
the head, or the head is popped when nothing remains (R210). -/
def requeueRemainder (r : RetxEntry) (e : Nat) (rest : List RetxEntry) : List RetxEntry :=
  if e < r.soEnd then ⟨r.sn, true, e, r.soEnd⟩ :: rest else rest

/-- `build_segment(r, T, max_bytes)` for the head `r` of `RETX_Q`, whose other entries are `rest`
(R210). An empty response when no byte fits (R211). -/
def buildSegment (r : RetxEntry) (rest : List RetxEntry) (t : TxEntry) (maxBytes : Nat)
    (s : State) : Except Fault State :=
  match greatestEnd s.params t.hdr maxBytes r.soStart (r.soEnd - r.soStart) with
  | none => .ok (respondBytes [] s)
  | some e =>
    match memRead .txPdu t.buf r.soStart (e - r.soStart) with
    | .error f => .error f
    | .ok payload =>
      .ok (transmit (segmentHeader t.hdr r.sn t.buf.length r.soStart e) payload
        { s with tx := { s.tx with retxQ := requeueRemainder r e rest } })

end Sys2Proof.Machine
end

