-- ==== Sys2Proof/Machine/Pool.lean ====
section
/-!
DEFINITION. The segment pool and delivery tracker, and the meanings of POOL_ALLOC, POOL_REL_RLC,
POOL_REL_PDCP and POOL_IS_ACKED (spec/42_segment_pool.md).
-/
namespace Sys2Proof.Machine

/-- `allocate(rlc_sn, pdcp_sn)` (R160): none for `Exhausted`. -/
def poolAllocate (rlcSn : Sn) (pdcpSn : Word) (pool : Pool) : Option (Nat × Pool) :=
  match pool.free with
  | [] => none
  | id :: rest => some (id, ⟨tableSet pool.slots id ⟨rlcSn, pdcpSn, false, false⟩, rest⟩)

/-- A slot after one of its halves was released: kept while the other half is not, freed onto the top
of `FREE` when both are (R161, R162). -/
def poolStore (id : Nat) (slot : Slot) (pool : Pool) : Pool :=
  if slot.rlcReleased && slot.pdcpReleased then
    ⟨tableErase pool.slots id, id :: pool.free⟩
  else ⟨tableSet pool.slots id slot, pool.free⟩

/-- `release_by_rlc(id)` (R161). On a slot that is not in use its `require` fails and nothing changes;
only the host error U6 lets the transmitter meet that (log entry 10). -/
def releaseByRlc (id : Nat) (pool : Pool) : Pool :=
  match tableGet pool.slots id with
  | none => pool
  | some slot => poolStore id { slot with rlcReleased := true } pool

/-- `release_by_pdcp(id)` (R162). -/
def releaseByPdcp (id : Nat) (pool : Pool) : Pool :=
  match tableGet pool.slots id with
  | none => pool
  | some slot => poolStore id { slot with pdcpReleased := true } pool

/-- The records in use that reference `pdcp_sn`, in rising order of their index (R163, R164). -/
def recordsFor (pool : Pool) (pdcpSn : Word) : Table Slot :=
  pool.slots.filter fun e => decide (e.2.pdcpSn = pdcpSn)

/-- `records_of(pdcp_sn)` (R164). -/
def recordsOf (pool : Pool) (pdcpSn : Word) : List Nat := (recordsFor pool pdcpSn).map (·.1)

/-- `is_sdu_fully_acked(pdcp_sn)`: false when no record references it (R163, D19). -/
def isSduFullyAcked (pool : Pool) (pdcpSn : Word) : Bool :=
  !(recordsFor pool pdcpSn).isEmpty && (recordsFor pool pdcpSn).all (·.2.rlcReleased)

/-- Reading `POOL[id].pdcp_sn`. Of a slot that is not in use the field has any value: a free value of
`PDCP_SN_BITS` bits, drawn afresh at each read (U2, U6, log entry 10). -/
def slotPdcpSn (id : Nat) (s : State) : Word × State :=
  match tableGet s.pool.slots id with
  | some slot => (slot.pdcpSn, s)
  | none =>
    (BitVec.ofNat 32 ((Config.unusedSlotPdcpSn s.draws id).toNat % 2 ^ s.params.pdcpSnBits),
      { s with draws := s.draws + 1 })

/-- POOL_ALLOC (R160). -/
def execPoolAlloc (rlcSn pdcpSn : Word) (s : State) : Answer :=
  requireLegal (legalSn rlcSn && legalPdcpSn s.params pdcpSn) 1
    (fun s =>
      match poolAllocate (snOfWord rlcSn) pdcpSn s.pool with
      | none => .next (respondError .errPoolExhausted 1 s)
      | some (id, pool) => .next (respond .ok [wordOfNat id] [] { s with pool := pool })) s

/-- The `require` line of R161 and R162: the index names a slot in use. -/
def slotInUse (s : State) (id : Nat) : Bool :=
  decide (id < s.params.poolCapacity) && (tableGet s.pool.slots id).isSome

/-- POOL_REL_RLC (R161). -/
def execPoolRelRlc (id : Word) (s : State) : Answer :=
  requireLegal (slotInUse s id.toNat) 0
    (fun s => .next (respond .ok [] [] { s with pool := releaseByRlc id.toNat s.pool })) s

/-- POOL_REL_PDCP (R162). -/
def execPoolRelPdcp (id : Word) (s : State) : Answer :=
  requireLegal (slotInUse s id.toNat) 0
    (fun s => .next (respond .ok [] [] { s with pool := releaseByPdcp id.toNat s.pool })) s

/-- POOL_IS_ACKED: 1 or 0 (R163). -/
def execPoolIsAcked (pdcpSn : Word) (s : State) : Answer :=
  requireLegal (legalPdcpSn s.params pdcpSn) 1
    (fun s =>
      .next (respond .ok [if isSduFullyAcked s.pool pdcpSn then 1 else 0] [] s)) s

end Sys2Proof.Machine
end

