-- ==== Sys2Proof/Machine/StatusReception.lean ====
section
/-!
DEFINITION. STATUS reception and HANDLE_CONTROL_PDU (spec/43_transmitter.md rules R188 to R192).
-/
namespace Sys2Proof.Machine

/-- A list of PDCP SNs with one more, unless it is there already: `touched` of R189 and the list of
R164 keep the first of each. -/
def addOnce (l : List Word) (q : Word) : List Word := if l.contains q then l else l ++ [q]

/-- The records of an acknowledged PDU, in order: each one's PDCP SN is noted and its RLC half
released (R190). -/
def releaseSegs : List Nat → List Word → State → List Word × State
  | [], touched, s => (touched, s)
  | id :: ids, touched, s =>
    let r := slotPdcpSn id s
    releaseSegs ids (addOnce touched r.1) { r.2 with pool := releaseByRlc id r.2.pool }

/-- `pdcp_sns_of(sn)`: the PDCP SNs of a PDU's records, later duplicates removed (R164). -/
def pdcpSnsOf : List Nat → List Word → State → List Word × State
  | [], acc, s => (acc, s)
  | id :: ids, acc, s =>
    let r := slotPdcpSn id s
    pdcpSnsOf ids (addOnce acc r.1) r.2

/-- `ack_sn_step(sn)`: the PDU leaves the window with its retransmission entries, and the floor moves
when it stood there (R190). -/
def ackSnStep (sn : Sn) (touched : List Word) (s : State) : List Word × State :=
  let r : List Word × State :=
    match tableGet s.tx.window sn.toNat with
    | none => (touched, s)
    | some t =>
      let r := releaseSegs t.segs touched s
      (r.1, { r.2 with tx := { r.2.tx with
        window := tableErase r.2.tx.window sn.toNat
        retxQ := r.2.tx.retxQ.filter fun e => decide (e.sn ≠ sn) } })
  (r.1, if sn = r.2.tx.vtA then { r.2 with tx := { r.2.tx with vtA := sn + 1 } } else r.2)

/-- `nack_to_entry(e, sn, L)`: the byte range to resend; a range that does not fit the PDU, or covers
it, is the whole PDU. The wire `so_end` is inclusive and 0x7FFF means the end (R191, R110). -/
def nackToEntry (e : Nack) (sn : Sn) (len : Nat) : RetxEntry :=
  let whole : RetxEntry := ⟨sn, false, 0, len⟩
  if !e.hasSo then whole
  else
    let stop := if e.soEnd = 0x7FFF then len else e.soEnd + 1
    if len ≤ e.soStart ∨ len < stop ∨ stop ≤ e.soStart then whole
    else if e.soStart = 0 ∧ stop = len then whole
    else ⟨sn, true, e.soStart, stop⟩

/-- The entries of one NACKed SN are queued while the queue has room (R191). -/
def queueNacks (capacity : Nat) (sn : Sn) (len : Nat) : List Nack → List RetxEntry → List RetxEntry
  | [], q => q
  | e :: es, q =>
    queueNacks capacity sn len es
      (if q.length < capacity then q ++ [nackToEntry e sn len] else q)

/-- `nack_sn_step(sn, N, queued_before)` for the window entry `t` of `sn` (R191). -/
def nackSnStep (sn : Sn) (t : TxEntry) (nacks : List Nack) (queuedBefore : List Sn) (s : State) :
    State :=
  if queuedBefore.contains sn then s
  else
    let count := t.retxCount + 1
    let s := { s with tx := { s.tx with
      retxQ := queueNacks s.params.retxQCapacity sn t.buf.length nacks s.tx.retxQ
      window := tableSet s.tx.window sn.toNat { t with retxCount := count } } }
    if count = s.cfg.maxRetxThresh then
      let r := pdcpSnsOf t.segs [] s
      emit (.notifyFailure r.1) r.2
    else s

/-- One SN of the walk: NACKed and still in the window, or acknowledged (R189). -/
def walkStep (nacks : List Nack) (queuedBefore : List Sn) (sn : Sn) (touched : List Word)
    (s : State) : List Word × State :=
  let mine := nacks.filter fun e => decide (e.nackSn = sn)
  match tableGet s.tx.window sn.toNat with
  | some t =>
    if mine.isEmpty then ackSnStep sn touched s
    else (touched, nackSnStep sn t mine queuedBefore s)
  | none => ackSnStep sn touched s

/-- `walk(S, a0, n)`: the `n` SNs from `sn`, the base being captured at entry (R189). -/
def walk (nacks : List Nack) (queuedBefore : List Sn) :
    (n : Nat) → (sn : Sn) → List Word → State → List Word × State
  | 0, _, touched, s => (touched, s)
  | n + 1, sn, touched, s =>
    let r := walkStep nacks queuedBefore sn touched s
    walk nacks queuedBefore n (sn + 1) r.1 r.2

/-- The floor after stepping over the absent SNs below `stop`, at most `n` of them (R190). -/
def floorFrom (w : Table TxEntry) (stop : Sn) : (n : Nat) → (a : Sn) → Sn
  | 0, a => a
  | n + 1, a => if a ≠ stop ∧ !validAt w a then floorFrom w stop n (a + 1) else a

/-- `fix_floor()`: the floor steps over SNs an earlier STATUS already freed (R190). -/
def fixFloor (s : State) : State :=
  { s with tx := { s.tx with
      vtA := floorFrom s.tx.window s.tx.vtS (txModBase s s.tx.vtS) s.tx.vtA } }

/-- The partly sent SDU at the head of the queue has this PDCP SN (R192). -/
def partlySent (tx : Tx) (q : Word) : Bool :=
  match tx.sduQ with
  | [] => false
  | head :: _ => decide (head.pdcpSn = q) && decide (0 < tx.headOff)

/-- The PDCP halves of all records of an SDU are released (R192). -/
def releaseRecords : List Nat → Pool → Pool
  | [], pool => pool
  | id :: ids, pool => releaseRecords ids (releaseByPdcp id pool)

/-- The loop of `notify`: which of the touched PDCP SNs are fully acknowledged and wholly sent, in
order, with their records freed (R192). -/
def notifyLoop (tx : Tx) : List Word → Pool → List Word × Pool
  | [], pool => ([], pool)
  | q :: qs, pool =>
    if isSduFullyAcked pool q && !partlySent tx q then
      let r := notifyLoop tx qs (releaseRecords (recordsOf pool q) pool)
      (q :: r.1, r.2)
    else notifyLoop tx qs pool

/-- `notify(touched)`: at most one `notify_delivery` (R192). -/
def notify (touched : List Word) (s : State) : State :=
  let r := notifyLoop s.tx touched s.pool
  let s := { s with pool := r.2 }
  if r.1.isEmpty then s else emit (.notifyDelivery r.1) s

/-- The poll-retransmit timer stops when `POLL_SN` lies below `ack_sn`, from the base (R188, D16). -/
def stopPollIfCovered (n : Nat) (s : State) : State :=
  if s.tx.pollRetxRunning && decide (txModBase s s.tx.pollSn < n) then stopTimer .pollRetx s else s

/-- The processing of an accepted STATUS (R188). -/
def processStatus (st : StatusPdu) (s : State) : State :=
  let n := txModBase s st.ackSn
  let s := stopPollIfCovered n s
  let r := walk st.nacks (s.tx.retxQ.map (·.sn)) n s.tx.vtA [] s
  respond .ok [] [] (notify r.1 (fixFloor r.2))

/-- HANDLE_CONTROL_PDU on an engine that accepts it, also run by WRITE_PDU (R188, R220). -/
def handleControlPdu (bytes : List Byte) (s : State) : State :=
  match decodeStatus bytes with
  | none => respondError .errCorruptHeader 0 s
  | some st =>
    if ackInRange s st.ackSn then processStatus st s else respondError .dropAckOutOfRange 0 s

/-- HANDLE_CONTROL_PDU (R188). -/
def execHandleControlPdu (bytes : List Byte) (s : State) : Answer :=
  requireLegal (legalLength s.params bytes.length) 0
    (dataPath 0 fun s => .next (handleControlPdu bytes s)) s

end Sys2Proof.Machine
end

