-- ==== Sys2Proof/Machine/StatusReport.lean ====
section
/-!
DEFINITION. STATUS generation and GET_STATUS_PDU (spec/45_receiver.md rule R240).
-/
namespace Sys2Proof.Machine

/-- The SNs among the `n` SNs from `x` that are not fully received, in rising order (R235, R240). -/
def missingFrom (w : Table RxEntry) : (n : Nat) → (x : Sn) → List Sn
  | 0, _ => []
  | n + 1, x =>
    if validAt w x then missingFrom w n (x + 1) else x :: missingFrom w n (x + 1)

/-- The untruncated report: `ack_sn = VR_MS` and one whole-SN NACK per missing SN in
`[VR_R, VR_MS)` (R240). -/
def statusReport (s : State) : StatusPdu where
  ackSn := s.rx.vrMs
  nacks := (missingFrom s.rx.window (rxModBase s s.rx.vrMs) s.rx.vrR).map fun x => ⟨x, false, 0, 0⟩

/-- `GET_STATUS_PDU(max_bytes)` as a function of the state: pure (R240). -/
def statusPduBytes (maxBytes : Nat) (s : State) : List Byte := encodeStatus (statusReport s) maxBytes

/-- GET_STATUS_PDU (R240). -/
def execGetStatusPdu (maxBytes : Word) (s : State) : Answer :=
  requireLegal (legalLength s.params maxBytes.toNat) 1
    (dataPath 1 fun s => .next (respondBytes (statusPduBytes maxBytes.toNat s) s)) s

end Sys2Proof.Machine
end

