-- ==== Sys2Proof/Machine/Receiver.lean ====
section
/-!
DEFINITION. The receiver: WRITE_PDU with segment merge, reassembly and the reordering timer, and
TEXP_REORDERING (spec/45_receiver.md rules R220 to R235).
-/
namespace Sys2Proof.Machine

/-! ### Segment merge (R223) -/

/-- Some range holds the offset. -/
def covered (ranges : List ByteRange) (off : Nat) : Bool :=
  ranges.any fun r => decide (r.so ≤ off ∧ off < r.so + r.bytes.length)

/-- The offsets of a segment's bytes that no range covers, with their bytes, rising (R223). -/
def newBytes (ranges : List ByteRange) (s : Nat) (d : List Byte) : List (Nat × Byte) :=
  (d.zipIdx.map fun e => (s + e.2, e.1)).filter fun e => !covered ranges e.1

/-- The maximal runs of a rising list of offsets (R223). -/
def runsOf : List (Nat × Byte) → List ByteRange
  | [] => []
  | (off, b) :: rest =>
    match runsOf rest with
    | [] => [⟨off, [b]⟩]
    | r :: rs => if off + 1 = r.so then ⟨off, b :: r.bytes⟩ :: rs else ⟨off, [b]⟩ :: r :: rs

/-- A range put into a list kept sorted by `so` (R223). -/
def insertRange (r : ByteRange) : List ByteRange → List ByteRange
  | [] => [r]
  | x :: xs => if r.so ≤ x.so then r :: x :: xs else x :: insertRange r xs

/-- Ranges that touch, one ending where the next starts, become one (R223). -/
def coalesce : List ByteRange → List ByteRange
  | [] => []
  | r :: rest =>
    match coalesce rest with
    | [] => [r]
    | x :: xs =>
      if r.so + r.bytes.length = x.so then ⟨r.so, r.bytes ++ x.bytes⟩ :: xs else r :: x :: xs

/-- An offset put into a set of offsets held in rising order. -/
def insertBound (x : Nat) : List Nat → List Nat
  | [] => [x]
  | y :: ys => if x < y then x :: y :: ys else if x = y then y :: ys else y :: insertBound x ys

/-- The SDU boundaries a segment `[s, e)` announces through its LIs and FI bits (R223). -/
def announcedBounds (h : Header) (s e : Nat) : List Nat :=
  boundariesFrom s h.li ++ (if 0 < s ∧ h.fiS = false then [s] else []) ++
    (if h.lsf = false ∧ h.fiE = false then [e] else [])

/-- The entry `RX_SEGMENTS[sn]`, or an empty one (R223). The fields an empty entry leaves open are read
only once the flag beside them is set. -/
def segEntryOf (table : Table SegEntry) (sn : Sn) : SegEntry :=
  (tableGet table sn.toNat).getD ⟨[], [], false, 0, false, false, false⟩

/-- The segment agrees with what is known of its parent's length (R223). -/
def segmentConsistent (entry : SegEntry) (h : Header) (e : Nat) : Bool :=
  !(entry.tlKnown && decide (entry.tl < e)) &&
  !(h.lsf && entry.tlKnown && decide (e ≠ entry.tl)) &&
  !(h.lsf && entry.ranges.any fun r => decide (e < r.so + r.bytes.length))

/-- The entry with a segment's new bytes, boundaries and framing merged in (R223). -/
def mergedEntry (entry : SegEntry) (h : Header) (new : List (Nat × Byte)) (e : Nat) : SegEntry where
  ranges := coalesce ((runsOf new).foldl (fun acc r => insertRange r acc) entry.ranges)
  bounds := (announcedBounds h h.so e).foldl (fun acc x => insertBound x acc) entry.bounds
  tlKnown := entry.tlKnown || h.lsf
  tl := if h.lsf then e else entry.tl
  fiSKnown := entry.fiSKnown || decide (h.so = 0)
  fiS := if h.so = 0 then h.fiS else entry.fiS
  fiE := if h.lsf then h.fiE else entry.fiE

/-- The bytes of the parent payload when one range holds them all (R223). -/
def completePayload (entry : SegEntry) : Option (List Byte) :=
  match entry.ranges with
  | [r] =>
    if entry.tlKnown ∧ r.so = 0 ∧ r.bytes.length = entry.tl then some r.bytes else none
  | _ => none

/-- The header rebuilt for a completed parent (R223). -/
def rebuiltHeader (entry : SegEntry) (sn : Sn) : Header where
  dc := true
  rf := false
  p := false
  fiS := entry.fiS
  fiE := entry.fiE
  sn := sn
  lsf := false
  so := 0
  li := differencesFrom 0 (entry.bounds.filter fun x => decide (0 < x ∧ x < entry.tl))

/-- `merge_segment(h, D)`: the code when the segment is not accepted, else the receiver with it
(R223). -/
def mergeSegment (h : Header) (d : List Byte) (rx : Rx) : Except ResultCode Rx :=
  let e := h.so + d.length
  let entry := segEntryOf rx.segments h.sn
  if !segmentConsistent entry h e then .error .errCorruptHeader
  else
    let new := newBytes entry.ranges h.so d
    if new.isEmpty then .error .dropDuplicate
    else
      let entry := mergedEntry entry h new e
      match completePayload entry with
      | some bytes =>
        .ok { rx with
          window := tableSet rx.window h.sn.toNat ⟨rebuiltHeader entry h.sn, bytes⟩
          segments := tableErase rx.segments h.sn.toNat }
      | none => .ok { rx with segments := tableSet rx.segments h.sn.toNat entry }

/-! ### The window after an accepted PDU -/

/-- `update_vr_h(sn)` (R224). -/
def updateVrH (sn : Sn) (s : State) : State :=
  if rxModBase s s.rx.vrH ≤ rxModBase s sn then { s with rx := { s.rx with vrH := sn + 1 } } else s

/-- The first SN at or after `x` that is not fully received, looking at `n` SNs; none if there is no
such SN among them (R225, R235). -/
def firstMissing (w : Table RxEntry) : (n : Nat) → (x : Sn) → Option Sn
  | 0, _ => none
  | n + 1, x => if validAt w x then firstMissing w n (x + 1) else some x

/-- A scan from `x` over all 1024 SNs: without an end when every entry is valid. -/
def scanMissing (w : Table RxEntry) (x : Sn) : Except Fault Sn :=
  match firstMissing w 1024 x with
  | some m => .ok m
  | none => .error .endlessScan

/-- `update_vr_ms()` (R225). -/
def updateVrMs (s : State) : Except Fault State :=
  match scanMissing s.rx.window s.rx.vrMs with
  | .ok m => .ok { s with rx := { s.rx with vrMs := m } }
  | .error f => .error f

/-- `handle_poll(sn)` (R226). -/
def handlePoll (sn : Sn) (s : State) : State :=
  { s with rx := { s.rx with
      pollReceived := true
      doStatus := s.rx.doStatus || decide (rxModBase s sn < rxModBase s s.rx.vrMs) } }

/-- The stop condition of the reordering timer (R228). -/
def reordMustStop (s : State) : Bool :=
  decide (s.rx.vrX = s.rx.vrR) || (!insideRxWindow s s.rx.vrX && decide (s.rx.vrX ≠ vrMr s))

/-- Arming the reordering timer with the snapshot `VR_X <- VR_H` (R228, R235). -/
def armReordering (s : State) : State :=
  startTimer .reordering s.cfg.tReordering { s with rx := { s.rx with vrX := s.rx.vrH } }

/-- `update_reordering_timer()` (R228). -/
def updateReorderingTimer (s : State) : State :=
  let s := if s.rx.reordRunning && reordMustStop s then stopTimer .reordering s else s
  if !s.rx.reordRunning && decide (0 < rxModBase s s.rx.vrH) then armReordering s else s

/-! ### Reassembly (R230, R231) -/

/-- `deliver_sdu(RX_SDU)` when a fragment ends an SDU in progress (R231). -/
def deliverIfEnded (ends : Bool) (s : State) : State :=
  if ends && s.rx.sduActive then
    let done := emit (.deliverSdu s.rx.sdu) s
    { done with rx := { done.rx with sdu := [], sduActive := false } }
  else s

/-- One fragment appended to, or starting, the SDU in progress; an SDU that grows too long, and a
continuation of nothing, are discarded (R231, D24). -/
def takeFragment (continues : Bool) (f : List Byte) (s : State) : State :=
  if continues then
    if s.rx.sduActive then
      if s.params.maxSduBytes < s.rx.sdu.length + f.length then
        { s with rx := { s.rx with sdu := [], sduActive := false } }
      else { s with rx := { s.rx with sdu := memWrite s.rx.sdu s.rx.sdu.length f } }
    else s
  else if s.params.maxSduBytes < f.length then
    { s with rx := { s.rx with sdu := [], sduActive := false } }
  else { s with rx := { s.rx with sdu := f, sduActive := true } }

/-- `consume(E)` from offset `off` on, with the LIs of the fragments still to come; `continues` says
that the next fragment continues an SDU begun in an earlier PDU (R231). -/
def consumeFrom (entry : RxEntry) : (li : List Nat) → (off : Nat) → (continues : Bool) → State →
    Except Fault State
  | [], off, continues, s =>
    match memRead .rxPdu entry.buf off (entry.buf.length - off) with
    | .error f => .error f
    | .ok f => .ok (deliverIfEnded (!entry.hdr.fiE) (takeFragment continues f s))
  | l :: li, off, continues, s =>
    match memRead .rxPdu entry.buf off l with
    | .error f => .error f
    | .ok f => consumeFrom entry li (off + l) false (deliverIfEnded true (takeFragment continues f s))

/-- `consume(E)` (R231). -/
def consume (entry : RxEntry) (s : State) : Except Fault State :=
  consumeFrom entry entry.hdr.li 0 entry.hdr.fiS s

/-- The consumed SN leaves both tables and the window moves on (R230). -/
def advanceVrR (s : State) : State :=
  { s with rx := { s.rx with
      window := tableErase s.rx.window s.rx.vrR.toNat
      segments := tableErase s.rx.segments s.rx.vrR.toNat
      vrR := s.rx.vrR + 1 } }

/-- `REASSEMBLE()`, at most `n` rounds (R230). Every round frees one of the 1024 entries, so 1024
rounds are all there can be. -/
def reassemble : (n : Nat) → State → Except Fault State
  | 0, s => .ok s
  | n + 1, s =>
    match tableGet s.rx.window s.rx.vrR.toNat with
    | none => .ok s
    | some entry =>
      match consume entry s with
      | .error f => .error f
      | .ok s => reassemble n (advanceVrR s)

/-! ### WRITE_PDU -/

/-- The five steps after a Data PDU was stored: `VR_H`, `VR_MS`, the poll, reassembly, the timer
(R220, D21). -/
def afterAccept (h : Header) (s : State) : Except Fault State :=
  match updateVrMs (updateVrH h.sn s) with
  | .error f => .error f
  | .ok s =>
    match reassemble 1024 (if h.p then handlePoll h.sn s else s) with
    | .error f => .error f
    | .ok s => .ok (respond .ok [] [] (updateReorderingTimer s))

/-- A complete PDU stored as it came; segments of its SN are discarded (R222). -/
def storeComplete (h : Header) (d : List Byte) (rx : Rx) : Rx :=
  { rx with
    window := tableSet rx.window h.sn.toNat ⟨h, d⟩
    segments := tableErase rx.segments h.sn.toNat }

/-- A Data PDU with header `h` and payload `d` (R220). -/
def receiveData (h : Header) (d : List Byte) (s : State) : Except Fault State :=
  if !insideRxWindow s h.sn then .ok (respondError .dropOutOfWindow 0 s)
  else if validAt s.rx.window h.sn then .ok (respondError .dropDuplicate 0 s)
  else if h.rf then
    match mergeSegment h d s.rx with
    | .error c => .ok (respondError c 0 s)
    | .ok rx => afterAccept h { s with rx := rx }
  else afterAccept h { s with rx := storeComplete h d s.rx }

/-- WRITE_PDU on an engine that accepts it (R220): a STATUS PDU goes to the transmitter in the same
step (R106, C1). -/
def writePdu (bytes : List Byte) (s : State) : Except Fault State :=
  match bytes with
  | [] => .ok (respondError .errCorruptHeader 0 s)
  | b :: _ =>
    if b.getLsbD 7 then
      match decodeDataHeader s.params bytes with
      | none => .ok (respondError .errCorruptHeader 0 s)
      | some (h, len) => receiveData h (bytes.drop len) s
    else .ok (handleControlPdu bytes s)

/-- WRITE_PDU (R220). -/
def execWritePdu (bytes : List Byte) (s : State) : Answer :=
  requireLegal (legalLength s.params bytes.length) 0
    (dataPath 0 fun s => answerOf (writePdu bytes s)) s

/-! ### Reordering expiry -/

/-- The SNs from `VR_MS` up to but not including `VR_X` that are not fully received (R235). -/
def lostSns (s : State) : List Sn :=
  missingFrom s.rx.window (rxModBase s s.rx.vrX - rxModBase s s.rx.vrMs) s.rx.vrMs

/-- The effects of a reordering expiry after `VR_MS` was advanced to `m` (R235). -/
def afterExpiry (m : Sn) (s : State) : State :=
  let s := { s with rx := { s.rx with
    vrMs := m
    doStatus := s.rx.doStatus || s.rx.pollReceived } }
  if rxAhead s s.rx.vrH s.rx.vrMs then armReordering s else s

/-- TEXP_REORDERING on an engine that accepts it (R235); a stale expiry changes nothing (R271). -/
def texpReordering (s : State) : Except Fault State :=
  if s.rx.reordRunning then
    let s := expireTimer .reordering s
    let s := { s with lostPduCount := s.lostPduCount + BitVec.ofNat 32 (lostSns s).length }
    match scanMissing s.rx.window (if rxAhead s s.rx.vrX s.rx.vrMs then s.rx.vrX else s.rx.vrMs) with
    | .error f => .error f
    | .ok m => .ok (respond .ok [] [] (afterExpiry m s))
  else .ok (respond .ok [] [] s)

/-- TEXP_REORDERING (R235). -/
def execTexpReordering (s : State) : Answer :=
  dataPath 0 (fun s => answerOf (texpReordering s)) s

end Sys2Proof.Machine
end

