-- ==== Sys2Proof/Machine/SnArithmetic.lean ====
section
/-!
DEFINITION. The sequence-number arithmetic unit: TX_MOD_BASE and RX_MOD_BASE
(spec/40_sn_arithmetic.md rules R130 and R131).
-/
namespace Sys2Proof.Machine

/-- TX_MOD_BASE: `(sn - VT_A) mod 1024` (R130). -/
def execTxModBase (sn : Word) (s : State) : Answer :=
  requireLegal (legalSn sn) 1
    (fun s => .next (respond .ok [wordOfNat (txModBase s (snOfWord sn))] [] s)) s

/-- RX_MOD_BASE: `(sn - VR_R) mod 1024` (R131). -/
def execRxModBase (sn : Word) (s : State) : Answer :=
  requireLegal (legalSn sn) 1
    (fun s => .next (respond .ok [wordOfNat (rxModBase s (snOfWord sn))] [] s)) s

end Sys2Proof.Machine
end

