-- ==== Sys2Proof/Machine/Transmitter.lean ====
section
/-!
DEFINITION. The transmitter but for STATUS reception: WRITE_SDU, DISCARD_SDU, READ_PDU, TEXP_POLL_RETX,
TEXP_STATUS_PROHIBIT and GET_BUFFER_STATE (spec/43_transmitter.md rules R170 to R184, R193 to R195).
-/
namespace Sys2Proof.Machine

/-! ### Upper-layer commands -/

/-- WRITE_SDU on an engine that accepts it: size before queue-full (R170, R261). -/
def writeSdu (pdcpSn : Word) (bytes : List Byte) (s : State) : State :=
  if bytes.length = 0 ∨ s.params.maxSduBytes < bytes.length then respondError .errSduSize 0 s
  else if s.tx.sduQ.length = s.cfg.txQueueLength.toNat then respondError .errQueueFull 0 s
  else
    respond .ok [] []
      { s with
        tx := { s.tx with sduQ := s.tx.sduQ ++ [⟨pdcpSn, bytes⟩] }
        txSduCount := s.txSduCount + 1 }

/-- WRITE_SDU (R170). -/
def execWriteSdu (pdcpSn : Word) (bytes : List Byte) (s : State) : Answer :=
  requireLegal (legalPdcpSn s.params pdcpSn) 0
    (dataPath 0 fun s => .next (writeSdu pdcpSn bytes s)) s

/-- The position of the first queued SDU with this `pdcp_sn` (R171). -/
def queuePosition (q : List SduEntry) (pdcpSn : Word) : Option Nat :=
  q.findIdx? fun e => decide (e.pdcpSn = pdcpSn)

/-- DISCARD_SDU on an engine that accepts it: an unsent SDU leaves the queue; the partly sent head and
an SDU with pool records are reported as already placed (R171, D20). -/
def discardSdu (pdcpSn : Word) (s : State) : State :=
  let partlySent : Nat → Bool := fun i => decide (i = 0) && decide (0 < s.tx.headOff)
  let placed := !(recordsOf s.pool pdcpSn).isEmpty
  match queuePosition s.tx.sduQ pdcpSn with
  | some i =>
    if partlySent i then respondError .infoAlreadyInWindow 0 s
    else respond .ok [] [] { s with tx := { s.tx with sduQ := s.tx.sduQ.eraseIdx i } }
  | none =>
    if placed then respondError .infoAlreadyInWindow 0 s else respondError .infoNotFound 0 s

/-- DISCARD_SDU (R171). -/
def execDiscardSdu (pdcpSn : Word) (s : State) : Answer :=
  requireLegal (legalPdcpSn s.params pdcpSn) 0
    (dataPath 0 fun s => .next (discardSdu pdcpSn s)) s

/-! ### READ_PDU -/

/-- `schedule_oldest()` (R177): none when the window floor is missing, which the caller turns into the
fatal failure; otherwise the oldest unacknowledged SN is queued whole unless it is queued already. -/
def scheduleOldest (s : State) : Option State :=
  if s.tx.vtA = s.tx.vtS then some s
  else
    match tableGet s.tx.window s.tx.vtA.toNat with
    | none => none
    | some t =>
      if s.tx.retxQ.any fun e => decide (e.sn = s.tx.vtA) then some s
      else some { s with tx := { s.tx with
        retxQ := s.tx.retxQ ++ [⟨s.tx.vtA, false, 0, t.buf.length⟩] } }

/-- `drop_stale_retx()` (R178): entries whose SN is no longer in the window leave the head. -/
def dropStale (w : Table TxEntry) : List RetxEntry → List RetxEntry
  | [] => []
  | e :: rest => if validAt w e.sn then e :: rest else dropStale w rest

/-- `build_retx(max_bytes)` for the head `r` of `RETX_Q` (R178): the whole PDU when it fits and is
asked for whole, else a segment. A head that is not in the window was dropped before (R178). -/
def buildRetx (r : RetxEntry) (rest : List RetxEntry) (maxBytes : Nat) (s : State) :
    Except Fault State :=
  match tableGet s.tx.window r.sn.toNat with
  | none => .ok (respondBytes [] s)
  | some t =>
    if !r.isSegment && decide (hdrLen t.hdr + t.buf.length ≤ maxBytes) then
      .ok (transmit t.hdr t.buf { s with tx := { s.tx with retxQ := rest } })
    else buildSegment r rest t maxBytes s

/-- What the packing loop of R180 carries: the payload, the fragment lengths, the pool records, the
queue, head offset and pool as they stand, `fi.e`, and whether the pool ran out. -/
structure Packing where
  payload : List Byte
  lens : List Nat
  segs : List Nat
  queue : List SduEntry
  headOff : Nat
  pool : Pool
  fiE : Bool
  exhausted : Bool
deriving DecidableEq, Repr

/-- The loop of `build_new` over the queue (R180). It stops when the queue is empty, the header is
full, the previous fragment is too long for an LI, no byte fits, the pool is exhausted, or a fragment
does not end its SDU. -/
def packLoop (p : Params) (sn : Sn) (maxBytes : Nat) :
    List SduEntry → Packing → Except Fault Packing
  | [], st => .ok { st with queue := [] }
  | head :: rest, st =>
    let st := { st with queue := head :: rest }
    let k := st.segs.length
    if p.nLiMax < k then .ok st
    else if 2047 < st.lens.getLastD 0 then .ok st
    else
      let used := 2 + ceilOneAndHalf k + st.payload.length
      if maxBytes < used + 1 then .ok st
      else
        match poolAllocate sn head.pdcpSn st.pool with
        | none => .ok { st with exhausted := true }
        | some (id, pool) =>
          let rem := head.bytes.length - st.headOff
          let take := min rem (maxBytes - used)
          match memRead .sdu head.bytes st.headOff take with
          | .error f => .error f
          | .ok bytes =>
            let st := { st with
              payload := memWrite st.payload st.payload.length bytes
              lens := st.lens ++ [take]
              segs := st.segs ++ [id]
              pool := pool }
            if take = rem then packLoop p sn maxBytes rest { st with headOff := 0, fiE := false }
            else .ok { st with headOff := st.headOff + take, fiE := true }

/-- The header of a new Data PDU (R180). -/
def newHeader (sn : Sn) (fiS : Bool) (st : Packing) : Header where
  dc := true
  rf := false
  p := false
  fiS := fiS
  fiE := st.fiE
  sn := sn
  lsf := false
  so := 0
  li := st.lens.dropLast

/-- The state after a new Data PDU was packed: queue, pool and window written, `VT_S` and the poll
counters advanced (R180). -/
def accountNew (h : Header) (st : Packing) (s : State) : State :=
  { s with
    pool := st.pool
    tx := { s.tx with
      sduQ := st.queue
      headOff := st.headOff
      window := tableSet s.tx.window s.tx.vtS.toNat ⟨h, st.payload, 0, st.segs⟩
      vtS := s.tx.vtS + 1
      pduWithoutPoll := s.tx.pduWithoutPoll + 1
      byteWithoutPoll := s.tx.byteWithoutPoll + BitVec.ofNat 32 st.payload.length } }

/-- `build_new(max_bytes)` (R180). With nothing packed no state changes: `ERR_POOL_EXHAUSTED` when the
pool is the reason, else an empty result. -/
def buildNew (maxBytes : Nat) (s : State) : Except Fault State :=
  if txWindowFull s || s.tx.sduQ.isEmpty || decide (maxBytes < 3) then .ok (respondBytes [] s)
  else
    match packLoop s.params s.tx.vtS maxBytes s.tx.sduQ
        ⟨[], [], [], s.tx.sduQ, s.tx.headOff, s.pool, false, false⟩ with
    | .error f => .error f
    | .ok st =>
      if st.segs.isEmpty then
        .ok (if st.exhausted then respondError .errPoolExhausted 1 s else respondBytes [] s)
      else
        let h := newHeader s.tx.vtS (decide (0 < s.tx.headOff)) st
        .ok (transmit h st.payload (accountNew h st s))

/-- Branches (c) and (d) of READ_PDU: retransmission, then new data (R173). -/
def sendData (maxBytes : Nat) (s : State) : Except Fault State :=
  let s := { s with tx := { s.tx with retxQ := dropStale s.tx.window s.tx.retxQ } }
  match s.tx.retxQ with
  | r :: rest => buildRetx r rest maxBytes s
  | [] => buildNew maxBytes s

/-- Branches (b), (c) and (d) of READ_PDU (R173). -/
def readData (maxBytes : Nat) (s : State) : Except Fault State :=
  if txWindowFull s && s.tx.retxQ.isEmpty then
    match scheduleOldest s with
    | none => .ok (protocolFailure 1 s)
    | some s => sendData maxBytes s
  else sendData maxBytes s

/-- The draw of R175: false with one sequencer; under `DUAL_SEQ` a free bit, one per READ_PDU that
reaches the status branch. -/
def drawRxBusy (s : State) : Bool × State :=
  if s.params.dualSeq then (Config.rxBusy s.draws, { s with draws := s.draws + 1 }) else (false, s)

/-- The effects of sending a STATUS PDU: the two flags are cleared and the status-prohibit timer is
armed unless its duration is 0 (R174, R176). -/
def statusSent (s : State) : State :=
  let s := { s with rx := { s.rx with doStatus := false, pollReceived := false } }
  if s.cfg.tStatusProhibit ≠ 0 then startTimer .statusProhibit s.cfg.tStatusProhibit s else s

/-- READ_PDU on an engine that accepts it (R173, R174). When the status branch yields nothing the grant
goes on to data in the same command. -/
def readPdu (maxBytes : Nat) (s : State) : Except Fault State :=
  if s.rx.doStatus && !s.tx.statusProhibitRunning then
    match drawRxBusy s with
    | (true, s) => readData maxBytes s
    | (false, s) =>
      let report := statusPduBytes maxBytes s
      if report.isEmpty then readData maxBytes s
      else .ok (respondBytes report (statusSent s))
  else readData maxBytes s

/-- READ_PDU (R173). -/
def execReadPdu (maxBytes : Word) (s : State) : Answer :=
  requireLegal (legalLength s.params maxBytes.toNat) 1
    (dataPath 1 fun s => answerOf (readPdu maxBytes.toNat s)) s

/-! ### Timer expiries -/

/-- TEXP_POLL_RETX on an engine that accepts it (R193); a stale expiry changes nothing (R271). -/
def texpPollRetx (s : State) : State :=
  if s.tx.pollRetxRunning then
    let s := expireTimer .pollRetx s
    let s := { s with tx := { s.tx with pollRetxExpired := true } }
    if (s.tx.retxQ.isEmpty && s.tx.sduQ.isEmpty) || txWindowFull s then
      match scheduleOldest s with
      | none => protocolFailure 0 s
      | some s => respond .ok [] [] s
    else respond .ok [] [] s
  else respond .ok [] [] s

/-- TEXP_POLL_RETX (R193). -/
def execTexpPollRetx (s : State) : Answer := dataPath 0 (fun s => .next (texpPollRetx s)) s

/-- TEXP_STATUS_PROHIBIT on an engine that accepts it (R194, R271). -/
def texpStatusProhibit (s : State) : State :=
  if s.tx.statusProhibitRunning then respond .ok [] [] (expireTimer .statusProhibit s)
  else respond .ok [] [] s

/-- TEXP_STATUS_PROHIBIT (R194). -/
def execTexpStatusProhibit (s : State) : Answer :=
  dataPath 0 (fun s => .next (texpStatusProhibit s)) s

/-! ### Buffer state -/

/-- The first term of GET_BUFFER_STATE: the size of the untruncated report when a STATUS is due and
not prohibited. Under `DUAL_SEQ` it is a draw between 0 and that size (R195, U12). -/
def statusTerm (s : State) : Nat × State :=
  if s.rx.doStatus && !s.tx.statusProhibitRunning then
    let size := (statusPduBytes s.params.maxPduBytes s).length
    if s.params.dualSeq then
      (min (Config.statusTerm s.draws) size, { s with draws := s.draws + 1 })
    else (size, s)
  else (0, s)

/-- The retransmission term of one entry: its range and its header estimate (R195). -/
def retxTerm (w : Table TxEntry) (e : RetxEntry) : Nat :=
  match tableGet w e.sn.toNat with
  | none => 0
  | some t =>
    (e.soEnd - e.soStart) + 2 + (if e.isSegment then 2 else 0) + ceilOneAndHalf t.hdr.li.length

/-- The new-data term: all pending SDU bytes as if packed into one PDU (R195). -/
def newDataTerm (tx : Tx) : Nat :=
  if tx.sduQ.isEmpty then 0
  else (tx.sduQ.map (·.bytes.length)).sum - tx.headOff + 2 + ceilOneAndHalf (tx.sduQ.length - 1)

/-- GET_BUFFER_STATE on an engine that accepts it (R195). A `CFG.tx_queue_length` of up to 2^32 - 1 (R40)
lets the sum reach 2^32, which R135 (b) rules out and for which no rule states the result word: then the
word is a free value (DESIGN CHOICE, log entry 20). -/
def getBufferState (s : State) : State :=
  let term := statusTerm s
  let n := term.1 + (s.tx.retxQ.map (retxTerm s.tx.window)).sum + newDataTerm s.tx
  let word := wordOrFree Config.bufferStateSum n term.2
  respond .ok [word.1] [] word.2

/-- GET_BUFFER_STATE (R195). -/
def execGetBufferState (s : State) : Answer := dataPath 1 (fun s => .next (getBufferState s)) s

end Sys2Proof.Machine
end

