-- ==== Sys2Proof/Machine/Dispatch.lean ====
section
/-!
DEFINITION. The dispatcher: one arm per command, each a call of that command's meaning.
-/
namespace Sys2Proof.Machine

-- One arm per row of spec/opcode_table.json, in the table's order.
def exec (i : Instr) (s : State) : Host.Outcome State Fault Refusal :=
  match i with
  | .reset => Sys2Proof.Machine.execReset s
  | .configure v0 v1 v2 v3 v4 v5 v6 => Sys2Proof.Machine.execConfigure v0 v1 v2 v3 v4 v5 v6 s
  | .reestablish => Sys2Proof.Machine.execReestablish s
  | .stop => Sys2Proof.Machine.execStop s
  | .getMetrics => Sys2Proof.Machine.execGetMetrics s
  | .readVar var => Sys2Proof.Machine.execReadVar var s
  | .writeSdu pdcpSn bytes => Sys2Proof.Machine.execWriteSdu pdcpSn bytes s
  | .discardSdu pdcpSn => Sys2Proof.Machine.execDiscardSdu pdcpSn s
  | .readPdu maxBytes => Sys2Proof.Machine.execReadPdu maxBytes s
  | .writePdu bytes => Sys2Proof.Machine.execWritePdu bytes s
  | .getBufferState => Sys2Proof.Machine.execGetBufferState s
  | .handleControlPdu bytes => Sys2Proof.Machine.execHandleControlPdu bytes s
  | .getStatusPdu maxBytes => Sys2Proof.Machine.execGetStatusPdu maxBytes s
  | .texpPollRetx => Sys2Proof.Machine.execTexpPollRetx s
  | .texpReordering => Sys2Proof.Machine.execTexpReordering s
  | .texpStatusProhibit => Sys2Proof.Machine.execTexpStatusProhibit s
  | .txModBase sn => Sys2Proof.Machine.execTxModBase sn s
  | .rxModBase sn => Sys2Proof.Machine.execRxModBase sn s
  | .encDataHdr hw li => Sys2Proof.Machine.execEncDataHdr hw li s
  | .decDataHdr bytes => Sys2Proof.Machine.execDecDataHdr bytes s
  | .encStatus maxLen ackSn nacks => Sys2Proof.Machine.execEncStatus maxLen ackSn nacks s
  | .decStatus bytes => Sys2Proof.Machine.execDecStatus bytes s
  | .poolAlloc rlcSn pdcpSn => Sys2Proof.Machine.execPoolAlloc rlcSn pdcpSn s
  | .poolRelRlc id => Sys2Proof.Machine.execPoolRelRlc id s
  | .poolRelPdcp id => Sys2Proof.Machine.execPoolRelPdcp id s
  | .poolIsAcked pdcpSn => Sys2Proof.Machine.execPoolIsAcked pdcpSn s

end Sys2Proof.Machine
end

