-- ==== Sys2Proof/Machine/Port.lean ====
section
/-!
DEFINITION. The command port: how the next descriptor is taken and what a malformed one is answered
(spec/30_encoding.md rules R90 to R95).
-/
namespace Sys2Proof.Machine

/-- The next descriptor on the command port, and the state with it taken (R36, R90). -/
def takeCommand (s : State) : Option (Descriptor × State) :=
  match s.port with
  | [] => none
  | d :: rest => some (d, { s with port := rest })

/-- The answer to a descriptor the decoder rejects: no state change, no event, and
`ERR_ILLEGAL_COMMAND` with the result words of its opcode (R92, R95, U9, U18). -/
def answerMalformed (e : DecodeError) (s : State) : State :=
  respondError .errIllegalCommand e.resultWords s

/-- A descriptor presented so that the next step takes it. -/
def presentNext (d : Descriptor) (s : State) : State :=
  { s with port := d :: s.port, clearing := none }

end Sys2Proof.Machine
end

