-- ==== Sys2Proof/Machine/Step.lean ====
section
/-!
DEFINITION. One step of the machine: the next command of the port, executed atomically
(spec/20_memory.md rule R80, spec/10_state.md rule R36).
-/
namespace Sys2Proof.Machine

/-- One step. Parameters outside R8 are refused (U15). A clearing command of which the second half is
due is finished first (R85). Otherwise the next descriptor is taken, decoded and executed (R80, R90);
an engine with no command to take is idle and stays as it is (R278, R290). -/
def step (s : State) : Host.Outcome State Fault Refusal :=
  if !s.params.valid then .refused .parametersOutOfRange
  else
    match s.clearing with
    | some c => .next (finishClearing c s)
    | none =>
      match takeCommand s with
      | none => .next s
      | some (d, t) =>
        match decode d with
        | .error e => .next (answerMalformed e t)
        | .ok i => exec i t

/-- The instruction of a table word put where `step` takes its next command from: at the front of the
command port, with no clearing command half done. -/
def State.withFetchWord (s : State) (nbits w : Nat) : State := presentNext (tableDescriptor nbits w) s

end Sys2Proof.Machine
end

