-- ==== Sys2Proof/Safety.lean ====
section
/-!
DEFINITION. What counts as a safe state: the invariants of spec/10_state.md section 7 (rules R45 to
R48) with what they need to be kept by every step, each a decidable proposition over plain data; and
the terms the claims are written in.
-/
namespace Sys2Proof.Machine

/-- The engine accepts data-path commands (R267). -/
abbrev Accepting (s : State) : Prop := s.failed = false ∧ s.enabled = true ∧ s.cfgValid = true

/-- R45: the transmit window never overflows. -/
abbrev TxWindowBound (s : State) : Prop := modBase s.tx.vtA s.tx.vtS ≤ 512

/-- R46 for the window entry `t` at index `k`: buffer and header are there and agree, and the SN lies
in `[VT_A, VT_S)`. The header is one the encoder accepts, stored without a poll bit (R180). -/
abbrev TxEntryOk (s : State) (k : Nat) (t : TxEntry) : Prop :=
  1 ≤ t.buf.length ∧ t.hdr.sn = BitVec.ofNat 10 k ∧ t.hdr.dc = true ∧ t.hdr.rf = false ∧
  t.hdr.p = false ∧ t.hdr.lsf = false ∧ t.hdr.so = 0 ∧ t.hdr.li.sum < t.buf.length ∧
  (∀ l ∈ t.hdr.li, 1 ≤ l ∧ l ≤ 2047) ∧ t.hdr.li.length ≤ s.params.nLiMax ∧
  t.segs.length = t.hdr.li.length + 1 ∧
  modBase s.tx.vtA (BitVec.ofNat 10 k) < modBase s.tx.vtA s.tx.vtS

/-- R46: the transmit window is a table over SNs whose every entry is sound, and the window floor is
there unless nothing is unacknowledged. -/
abbrev TxWindowSound (s : State) : Prop :=
  tableWf 1024 s.tx.window = true ∧
  (∀ e ∈ s.tx.window, TxEntryOk s e.1 e.2) ∧
  (s.tx.vtA ≠ s.tx.vtS → validAt s.tx.window s.tx.vtA = true)

/-- R26: queued SDUs have 1 to `MAX_SDU_BYTES` bytes, and `TX_HEAD_OFF` stays inside the head; it is 0
when the queue is empty. -/
abbrev SduQueueSound (s : State) : Prop :=
  (∀ e ∈ s.tx.sduQ, 1 ≤ e.bytes.length ∧ e.bytes.length ≤ s.params.maxSduBytes) ∧
  (s.tx.sduQ = [] → s.tx.headOff = 0) ∧
  (∀ e ∈ s.tx.sduQ.head?, s.tx.headOff < e.bytes.length)

/-- R23: a retransmission entry names a byte range of a PDU that is in the window, all of it unless it
is a segment. -/
abbrev RetxEntryOk (s : State) (r : RetxEntry) : Prop :=
  ∃ t ∈ tableGet s.tx.window r.sn.toNat, r.soStart < r.soEnd ∧ r.soEnd ≤ t.buf.length ∧
    (r.isSegment = false → r.soStart = 0 ∧ r.soEnd = t.buf.length)

/-- The transmitter invariant: R23, R26, R45 and R46 together. -/
abbrev TxSound (s : State) : Prop :=
  TxWindowBound s ∧ TxWindowSound s ∧ SduQueueSound s ∧ ∀ r ∈ s.tx.retxQ, RetxEntryOk s r

/-- R47 and R245 (1), (4): `VR_R <= VR_MS <= VR_H` relative to `VR_R`, at most 512 apart, with `VR_R`
and `VR_MS` themselves not fully received. -/
abbrev RxCountersSound (s : State) : Prop :=
  rxModBase s s.rx.vrMs ≤ rxModBase s s.rx.vrH ∧ rxModBase s s.rx.vrH ≤ 512 ∧
  validAt s.rx.window s.rx.vrR = false ∧ validAt s.rx.window s.rx.vrMs = false

/-- R47 for the reception window: every entry lies in `[VR_R, VR_H)` and its length indicators stay
inside its payload (R104, R223). -/
abbrev RxWindowSound (s : State) : Prop :=
  tableWf 1024 s.rx.window = true ∧
  ∀ e ∈ s.rx.window, rxModBase s (BitVec.ofNat 10 e.1) < rxModBase s s.rx.vrH ∧
    e.2.hdr.li.sum < e.2.buf.length

/-- Ranges as R31 and R223 keep them: none empty, sorted by `so`, disjoint, and no two touching. -/
abbrev RangesApart (l : List ByteRange) : Prop :=
  (∀ r ∈ l, r.bytes ≠ []) ∧ l.Pairwise fun a b => a.so + a.bytes.length < b.so

/-- R31 for partly received PDUs: the SN lies in `[VR_R, VR_H)`, the ranges are sorted and apart, the
boundaries are in strictly rising order, a known total length is not 0 and bounds every range, and
`fi_s` is known once byte 0 is held (R223). -/
abbrev RxSegmentsSound (s : State) : Prop :=
  tableWf 1024 s.rx.segments = true ∧
  ∀ e ∈ s.rx.segments, rxModBase s (BitVec.ofNat 10 e.1) < rxModBase s s.rx.vrH ∧
    RangesApart e.2.ranges ∧ e.2.bounds.Pairwise (· < ·) ∧
    (e.2.tlKnown = true → 1 ≤ e.2.tl ∧ ∀ r ∈ e.2.ranges, r.so + r.bytes.length ≤ e.2.tl) ∧
    (∀ r ∈ e.2.ranges, r.so = 0 → e.2.fiSKnown = true)

/-- The reordering timer's snapshot stays inside the window while the timer runs (R228). -/
abbrev ReorderingSound (s : State) : Prop :=
  s.rx.reordRunning = true →
    0 < rxModBase s s.rx.vrX ∧ rxModBase s s.rx.vrX ≤ rxModBase s s.rx.vrH

/-- R32: no bytes are held while no SDU is in progress, and never more than `MAX_SDU_BYTES`. -/
abbrev RxSduSound (s : State) : Prop :=
  (s.rx.sduActive = false → s.rx.sdu = []) ∧ s.rx.sdu.length ≤ s.params.maxSduBytes

/-- The receiver invariant: R31, R32, R47 and R228 together. -/
abbrev RxSound (s : State) : Prop :=
  RxCountersSound s ∧ RxWindowSound s ∧ RxSegmentsSound s ∧ ReorderingSound s ∧ RxSduSound s

/-- R33: the pool is a table over the pool indices, and `FREE` holds exactly the indices of the slots
that are not in use, each once. -/
abbrev PoolSound (s : State) : Prop :=
  tableWf s.params.poolCapacity s.pool.slots = true ∧
  s.pool.free.Nodup ∧
  (∀ id ∈ s.pool.free, id < s.params.poolCapacity ∧ tableGet s.pool.slots id = none) ∧
  s.pool.free.length + s.pool.slots.length = s.params.poolCapacity

/-- R50: the engine's running flags and the timer service's pending expiries agree; and no timer runs
while a clearing command is half done, since its first step stops them all (R252, log entry 7). -/
abbrev TimersAgree (s : State) : Prop :=
  s.timers.pollRetx = s.tx.pollRetxRunning ∧ s.timers.reordering = s.rx.reordRunning ∧
  s.timers.statusProhibit = s.tx.statusProhibitRunning ∧
  (s.clearing ≠ none → s.tx.pollRetxRunning = false ∧ s.tx.statusProhibitRunning = false ∧
    s.rx.reordRunning = false)

/-- R34, R40 and R252: an enabled engine is configured, and a configured one has legal registers. -/
abbrev ConfigSound (s : State) : Prop :=
  (s.enabled = true → s.cfgValid = true) ∧
  (s.cfgValid = true → s.cfg.maxRetxThresh ≠ 0 ∧ s.cfg.txQueueLength ≠ 0) ∧
  (∀ c ∈ s.clearing, c.enable = true → s.cfgValid = true)

/-- R26, R28 (capacity): the SDU queue holds at most `CFG.tx_queue_length` entries, and none while the
engine is stopped. -/
abbrev QueueBounded (s : State) : Prop :=
  s.tx.sduQ.length ≤ s.cfg.txQueueLength.toNat ∧ (s.enabled = false → s.tx.sduQ = []) ∧
  (∀ c ∈ s.clearing, c.half = Half.rx → s.tx.sduQ = [])

/-- The invariant of the whole engine. -/
structure EngineSound (s : State) : Prop where
  memory : Memory.wf s = true
  tx : TxSound s
  rx : RxSound s
  pool : PoolSound s
  timers : TimersAgree s
  config : ConfigSound s
  queue : QueueBounded s

/-- Every PDU in the transmit window has its records in the pool, their PDCP halves not released: what
R160, R190 and R192 keep as long as no host uses the pool diagnostics beside traffic (U6). -/
abbrev RecordsInUse (s : State) : Prop :=
  ∀ e ∈ s.tx.window, ∀ id ∈ e.2.segs, ∃ slot ∈ tableGet s.pool.slots id, slot.pdcpReleased = false

/-- A step is safe when it answers a next state: no fault and no refusal. -/
def Completes (a : Answer) : Prop := ∃ t, a = .next t

/-! ### Terms of the claims -/

/-- The data-path commands: ops 0x10 to 0x32 (R267). -/
def isDataPath (i : Instr) : Bool :=
  match i with
  | .writeSdu .. | .discardSdu _ | .readPdu _ | .writePdu _ | .getBufferState | .handleControlPdu _
  | .getStatusPdu _ | .texpPollRetx | .texpReordering | .texpStatusProhibit => true
  | .reset | .configure .. | .reestablish | .stop | .getMetrics | .readVar _ | .txModBase _
  | .rxModBase _ | .encDataHdr .. | .decDataHdr _ | .encStatus .. | .decStatus _ | .poolAlloc ..
  | .poolRelRlc _ | .poolRelPdcp _ | .poolIsAcked _ => false

/-- The commands accepted in every state: the diagnostic ones, GET_METRICS and READ_VAR (R267). -/
def isObservation (i : Instr) : Bool :=
  match i with
  | .getMetrics | .readVar _ | .txModBase _ | .rxModBase _ | .encDataHdr .. | .decDataHdr _
  | .encStatus .. | .decStatus _ | .poolAlloc .. | .poolRelRlc _ | .poolRelPdcp _
  | .poolIsAcked _ => true
  | .reset | .configure .. | .reestablish | .stop | .writeSdu .. | .discardSdu _ | .readPdu _
  | .writePdu _ | .getBufferState | .handleControlPdu _ | .getStatusPdu _ | .texpPollRetx
  | .texpReordering | .texpStatusProhibit => false

/-- The `timer_stop` events of `clear_all()`, in its order, for the timers that run (R252). -/
def stopEvents (s : State) : List Output :=
  (if s.tx.pollRetxRunning then [Output.event (.timerStop .pollRetx)] else []) ++
  (if s.rx.reordRunning then [Output.event (.timerStop .reordering)] else []) ++
  (if s.tx.statusProhibitRunning then [Output.event (.timerStop .statusProhibit)] else [])

/-- A STATUS is due and not prohibited: the test of READ_PDU's first branch (R173 (a)). -/
abbrev StatusDue (s : State) : Prop := s.rx.doStatus = true ∧ s.tx.statusProhibitRunning = false

/-- The bytes still to be placed into new Data PDUs, in queue order (R26, R196 (5)). -/
def pendingBytes (tx : Tx) : List Byte := (tx.sduQ.flatMap (·.bytes)).drop tx.headOff

/-- How many bytes of each queued SDU are still to be placed, head first (R26). -/
def pendingLengths (tx : Tx) : List Nat :=
  match tx.sduQ with
  | [] => []
  | e :: rest => (e.bytes.length - tx.headOff) :: rest.map (·.bytes.length)

/-- The fragments a payload is cut into by its length indicators; the last runs to the end (R104). -/
def fragmentsOf : List Nat → List Byte → List (List Byte)
  | [], d => [d]
  | l :: rest, d => d.take l :: fragmentsOf rest (d.drop l)

/-- The layout of the fixed and segment fields of a Data-PDU header, byte by byte (R100, R101). -/
def fixedHeaderBytes (h : Header) : List Byte :=
  [BitVec.ofNat 8 (128 + 64 * h.rf.toNat + 32 * h.p.toNat + 16 * h.fiS.toNat + 8 * h.fiE.toNat +
      4 * (!h.li.isEmpty).toNat + h.sn.toNat / 256),
    BitVec.ofNat 8 (h.sn.toNat % 256)] ++
  (if h.rf then
    [BitVec.ofNat 8 (128 * h.lsf.toNat + h.so / 256), BitVec.ofNat 8 (h.so % 256)] else [])

/-- The layout of the length indicators of a Data-PDU header, byte by byte: 12 bits each, the topmost
saying whether another follows; two take three bytes, an odd last one two with a zero nibble (R102). -/
def liBytes : List Nat → List Byte
  | [] => []
  | [a] => [BitVec.ofNat 8 (a / 16), BitVec.ofNat 8 (a % 16 * 16)]
  | a :: b :: rest =>
    [BitVec.ofNat 8 (128 + a / 16),
      BitVec.ofNat 8 (a % 16 * 16 + 8 * (!rest.isEmpty).toNat + b / 256),
      BitVec.ofNat 8 (b % 256)] ++ liBytes rest

/-- The number that the `n` bits of a byte string from bit `off` on spell, bit 7 of byte 0 being bit 0 and
the first bit the most significant (R9, R73). It means something only inside the string. -/
def bitsAt (b : List Byte) (off n : Nat) : Nat :=
  b.foldl (fun v x => v * 256 + x.toNat) 0 / 2 ^ (8 * b.length - (off + n)) % 2 ^ n

/-- What DEC_DATA_HDR calls corrupt, field by field (R100 to R104, R143): fewer than 2 bytes, `dc = 0`, a
segment of fewer than 4 bytes, an announced pair `k` that runs past the bytes, exceeds the header
capacity or holds the length indicator 0, and a chain of `n` pairs behind which the pad nibble is
missing, no payload byte is left, or the length indicators leave none for the last fragment. -/
def HeaderMalformed (p : Params) (b : List Byte) : Prop :=
  let start := if bitsAt b 1 1 = 1 then 32 else 16
  let more (k : Nat) : Prop := bitsAt b (if k = 0 then 5 else start + 12 * (k - 1)) 1 = 1
  let li (k : Nat) := bitsAt b (start + 12 * k + 1) 11
  b.length < 2 ∨ bitsAt b 0 1 = 0 ∨ (bitsAt b 1 1 = 1 ∧ b.length < 4) ∨
  (∃ k, (∀ j, j ≤ k → more j) ∧
    (8 * b.length < start + 12 * (k + 1) ∨ p.nLiMax ≤ k ∨ li k = 0)) ∨
  (∃ n, (∀ j, j < n → more j) ∧ ¬ more n ∧
    b.length ≤ start / 8 + (n + (n + 1) / 2) + ((List.range n).map li).sum)

/-- The bit at which NACK element `k` of a STATUS PDU starts: elements have 12 bits, or 42 when `e2` says
that offsets follow (R110). -/
def nackStart (b : List Byte) : (k : Nat) → Nat
  | 0 => 15
  | k + 1 => nackStart b k + (if bitsAt b (nackStart b k + 11) 1 = 1 then 42 else 12)

/-- What DEC_STATUS calls corrupt, field by field (R110, R112, R148): fewer than 2 bytes, a first nibble
other than 0, and an announced NACK element `k` that runs past the bytes, with its offsets or without,
or is one too many. -/
def StatusMalformed (b : List Byte) : Prop :=
  let more (k : Nat) : Prop := bitsAt b (if k = 0 then 14 else nackStart b (k - 1) + 10) 1 = 1
  b.length < 2 ∨ bitsAt b 0 4 ≠ 0 ∨
  ∃ k, (∀ j, j ≤ k → more j) ∧
    (8 * b.length < nackStart b k + 12 ∨ 1024 ≤ k ∨
      (bitsAt b (nackStart b k + 11) 1 = 1 ∧ 8 * b.length < nackStart b k + 42))

/-- `a` is a NACKed SN of a STATUS PDU (R189). -/
def isNacked (st : StatusPdu) (a : Sn) : Bool := st.nacks.any fun e => decide (e.nackSn = a)

/-- The pool indices of the PDUs that a STATUS acknowledges among the `n` SNs from `a0` on, in the order
of the walk (R189, R190). -/
def ackedRecords (w : Table TxEntry) (st : StatusPdu) (a0 : Sn) (n : Nat) : List Nat :=
  (List.range n).flatMap fun k =>
    if isNacked st (snAdd a0 k) then []
    else
      match tableGet w (snAdd a0 k).toNat with
      | none => []
      | some t => t.segs

/-- The PDCP SNs that pool records name, each once, in the order of their first record (R164, R189). -/
def pdcpSnsAt (pool : Pool) (ids : List Nat) : List Word :=
  (ids.filterMap fun id => (tableGet pool.slots id).map (·.pdcpSn)).eraseDups

/-- What a NACK element asks for of a PDU of `len` payload bytes: the byte range it names, when that
lies inside the PDU and is not all of it, else the whole PDU. The wire end is inclusive and 0x7FFF is
the end of the PDU (R110, R191). -/
def requestedRange (e : Nack) (sn : Sn) (len : Nat) : RetxEntry :=
  let stop := if e.soEnd = 0x7FFF then len else e.soEnd + 1
  if e.hasSo = true ∧ e.soStart < stop ∧ stop ≤ len ∧ (0 < e.soStart ∨ stop < len) then
    ⟨sn, true, e.soStart, stop⟩
  else ⟨sn, false, 0, len⟩

/-- `a` stood in the retransmission queue when the STATUS came: `queued_before` of R189. -/
def queuedBefore (s : State) (a : Sn) : Bool := s.tx.retxQ.any fun e => decide (e.sn = a)

/-- The retransmission queue after the `n` SNs from `VT_A` on were walked: an acknowledged PDU takes its
entries out; a NACKed one that was not queued before is asked for once per NACK element, in wire
order, while the queue has room; any other SN leaves the queue alone (R189 to R191). -/
def retxQueueAfter (s : State) (st : StatusPdu) (n : Nat) : List RetxEntry :=
  (List.range n).foldl (init := s.tx.retxQ) fun q k =>
    let a := snAdd s.tx.vtA k
    match tableGet s.tx.window a.toNat with
    | none => q
    | some t =>
      if !isNacked st a then q.filter fun r => decide (r.sn ≠ a)
      else if queuedBefore s a then q
      else
        q ++ ((st.nacks.filter fun e => decide (e.nackSn = a)).map fun e =>
          requestedRange e a t.buf.length).take (s.params.retxQCapacity - q.length)

/-- The `notify_failure` events of the same walk: one for each PDU whose counter reaches
`CFG.max_retx_thresh`, with the PDCP SNs of its records (R191). -/
def failuresOf (s : State) (st : StatusPdu) (n : Nat) : List Event :=
  (List.range n).filterMap fun k =>
    let a := snAdd s.tx.vtA k
    match tableGet s.tx.window a.toNat with
    | none => none
    | some t =>
      if isNacked st a = true ∧ queuedBefore s a = false ∧ t.retxCount + 1 = s.cfg.maxRetxThresh then
        some (.notifyFailure (pdcpSnsAt s.pool t.segs))
      else none

/-- The fields of the NACK elements of a STATUS PDU behind the bits of `v`, as one number, the first bit
the highest: SN, `e1` (another element follows), `e2` (offsets follow), and the offsets (R110). -/
def nackNumber : (v : Nat) → List Nack → Nat
  | v, [] => v
  | v, e :: rest =>
    let w := ((v * 1024 + e.nackSn.toNat) * 2 + (!rest.isEmpty).toNat) * 2 + e.hasSo.toNat
    nackNumber (if e.hasSo then (w * 32768 + e.soStart) * 32768 + e.soEnd else w) rest

/-- The layout of a STATUS PDU, byte by byte: four zero bits, `ack_sn`, `e1`, the NACK elements and zero
bits up to a whole byte (R110, R111). -/
def statusBytes (st : StatusPdu) : List Byte :=
  let bits := 15 + (st.nacks.map fun e => if e.hasSo then 42 else 12).sum
  let size := (bits + 7) / 8
  let v := nackNumber (st.ackSn.toNat * 2 + (!st.nacks.isEmpty).toNat) st.nacks * 2 ^ (8 * size - bits)
  (List.range size).map fun j => BitVec.ofNat 8 (v / 2 ^ (8 * (size - 1 - j)))

/-- A fragment of a consumed PDU (R231). -/
structure Fragment where
  /-- it continues an SDU begun in an earlier PDU -/
  continues : Bool
  bytes : List Byte
  /-- its last byte ends an SDU -/
  ends : Bool
deriving DecidableEq, Repr

/-- The fragments of a received PDU: the first continues an SDU when `fi.s` says so, the last ends one
unless `fi.e` says not, and all before the last end one (R231). -/
def rxFragments (e : RxEntry) : List Fragment :=
  (fragmentsOf e.hdr.li e.buf).zipIdx.map fun x =>
    ⟨e.hdr.fiS && decide (x.2 = 0), x.1, decide (x.2 < e.hdr.li.length) || !e.hdr.fiE⟩

/-- The SDU in progress with one more fragment: a continuation of nothing is discarded, a fragment that
starts an SDU discards an unfinished one, and an SDU of more than `limit` bytes is discarded (R231). -/
def sduWith (limit : Nat) (cur : Option (List Byte)) (f : Fragment) : Option (List Byte) :=
  match (if f.continues then cur.map (· ++ f.bytes) else some f.bytes) with
  | none => none
  | some x => if x.length ≤ limit then some x else none

/-- The SDUs that fragments complete, in order, and the SDU in progress after them (R230, R231). -/
def sdusOf (limit : Nat) : Option (List Byte) → List Fragment → List (List Byte) × Option (List Byte)
  | cur, [] => ([], cur)
  | cur, f :: rest =>
    let x := sduWith limit cur f
    if f.ends then (x.toList ++ (sdusOf limit none rest).1, (sdusOf limit none rest).2)
    else sdusOf limit x rest

/-- From `s` to `t` a Data PDU `h` was accepted that left `stored` in the reception window and `partials`
in the segment store before anything was consumed. Everything from the old `VR_R` up to the first SN
not fully received has left both tables; `VR_H` is raised past the SN; `VR_MS` stands on the first SN at
or after its old value not fully received; the poll is remembered, and a STATUS is due when the SN is
below `VR_MS`. Outside the receiver only the reordering timer and the outputs change (R220, R224 to
R226, R230). -/
def ReceiverMoved (s t : State) (h : Header) (stored : Sn → Option RxEntry)
    (partials : Sn → Option SegEntry) : Prop :=
  let d (x : Sn) := modBase s.rx.vrR x
  (∀ x : Sn, d x < d t.rx.vrR → (stored x).isSome = true) ∧ stored t.rx.vrR = none ∧
  (∀ x : Sn, tableGet t.rx.window x.toNat = if d x < d t.rx.vrR then none else stored x) ∧
  (∀ x : Sn, tableGet t.rx.segments x.toNat = if d x < d t.rx.vrR then none else partials x) ∧
  t.rx.vrH = (if d s.rx.vrH ≤ d h.sn then h.sn + 1 else s.rx.vrH) ∧
  d s.rx.vrMs ≤ d t.rx.vrMs ∧ stored t.rx.vrMs = none ∧
  (∀ x : Sn, d s.rx.vrMs ≤ d x → d x < d t.rx.vrMs → (stored x).isSome = true) ∧
  t.rx.pollReceived = (s.rx.pollReceived || h.p) ∧
  t.rx.doStatus = (s.rx.doStatus || (h.p && decide (d h.sn < d t.rx.vrMs))) ∧
  t = { s with rx := t.rx, timers := { s.timers with reordering := t.timers.reordering }
               out := t.out }

/-- From `s` to `t` the PDUs of `stored` from the old `VR_R` up to the new one were consumed in SN order:
the SDUs that their fragments complete are delivered in order and byte for byte, and `RX_SDU` holds the
SDU that is in progress after them. Then come the reordering timer's events and the response `OK`
(R220, R230, R231). -/
def SdusDelivered (s t : State) (stored : Sn → Option RxEntry) : Prop :=
  let consumed := (List.range (modBase s.rx.vrR t.rx.vrR)).filterMap fun k => stored (snAdd s.rx.vrR k)
  let sdus := sdusOf s.params.maxSduBytes (if s.rx.sduActive then some s.rx.sdu else none)
    (consumed.flatMap rxFragments)
  t.rx.sdu = sdus.2.getD [] ∧ t.rx.sduActive = sdus.2.isSome ∧
  ∃ timer : List Output,
    (∀ o ∈ timer, o = .event (.timerStop .reordering) ∨
      o = .event (.timerStart .reordering s.cfg.tReordering)) ∧
    t.out = s.out ++ sdus.1.map (fun x => .event (.deliverSdu x)) ++ timer ++
      [.response (responseOf .ok [] [])]

/-- `e` is what R223 makes of the entry `old` of a parent PDU when the segment `h` with payload `d` is
merged: every byte held before, unchanged, and the segment's bytes at the offsets that were free; the
boundaries known before, the segment's own and its aligned ends; the total length and `fi.e` from a
last segment, `fi.s` from a first. A field is read only once it is known. -/
def SegmentMerged (old e : SegEntry) (h : Header) (d : List Byte) : Prop :=
  let stop := h.so + d.length
  (∀ off : Nat, rangeByte e.ranges off =
    if (rangeByte old.ranges off).isSome = true then rangeByte old.ranges off
    else if h.so ≤ off ∧ off < stop then d[off - h.so]? else none) ∧
  RangesApart e.ranges ∧
  (∀ x : Nat, x ∈ e.bounds ↔ x ∈ old.bounds ∨
    (∃ j, j < h.li.length ∧ x = h.so + (h.li.take (j + 1)).sum) ∨
    (0 < h.so ∧ h.fiS = false ∧ x = h.so) ∨ (h.lsf = false ∧ h.fiE = false ∧ x = stop)) ∧
  e.bounds.Pairwise (· < ·) ∧
  e.tlKnown = (old.tlKnown || h.lsf) ∧ e.fiSKnown = (old.fiSKnown || decide (h.so = 0)) ∧
  (e.tlKnown = true → e.tl = (if h.lsf then stop else old.tl) ∧
    e.fiE = (if h.lsf then h.fiE else old.fiE)) ∧
  (e.fiSKnown = true → e.fiS = (if h.so = 0 then h.fiS else old.fiS))

/-- The parent PDU that a segment entry completes, when its length is known and all its bytes are held:
length indicators are the distances of the boundaries inside the payload (R223). -/
def parentOf (sn : Sn) (e : SegEntry) (bytes : List Byte) : RxEntry :=
  let inner := e.bounds.filter fun x => decide (0 < x ∧ x < e.tl)
  { hdr := { dc := true, rf := false, p := false, fiS := e.fiS, fiE := e.fiE, sn := sn, lsf := false
             so := 0, li := List.zipWith (· - ·) inner (0 :: inner) }
    buf := bytes }

end Sys2Proof.Machine
end

