-- ==== Sys2Proof/Certificates/Slice0/Obligations.lean ====
section
/-!
DEFINITION. The statements of this row, one definition each. A docstring names the rule of spec/ the
statement formalises; a statement that rests on a choice of the model says so. An equation
`exec i s = .next t` says that the command completes, what it answers, and that every field of the
state `t` does not name is as it was.
-/
open Sys2Proof Sys2Proof.Machine

/-! ### The command port -/

/-- R91, R93: decoding the descriptor of a command gives the command back, for all 26 commands and
every operand a descriptor can carry. -/
def Obligations.DecodeEncodeRoundTrip : Prop :=
  ∀ i : Instr, i.encodable = true → decode (encode i) = .ok i

/-- R91, R93: a descriptor has one meaning: whatever decodes is the encoding of its command. -/
def Obligations.EncodeDecodeRoundTrip : Prop :=
  ∀ (d : Descriptor) (i : Instr), decode d = .ok i → encode i = d ∧ i.encodable = true

/-- R93: descriptors written out from the opcode map decode to the commands they stand for, one per
family: WRITE_SDU, CONFIGURE, READ_PDU, TEXP_REORDERING, ENC_DATA_HDR, ENC_STATUS, POOL_ALLOC. -/
def Obligations.SampleWordsDecode : Prop :=
  decode ⟨[0x10000000#32, 7#32, 2#32], [0xAA#8, 0xBB#8]⟩ = .ok (.writeSdu 7 [0xAA, 0xBB]) ∧
  decode ⟨[0x02000000#32, 50#32, 0#32, 0#32, 4#32, 35#32, 0#32, 128#32], []⟩ =
    .ok (.configure 50 0 0 4 35 0 128) ∧
  decode ⟨[0x20000000#32, 25#32], []⟩ = .ok (.readPdu 25) ∧
  decode ⟨[0x31000000#32], []⟩ = .ok .texpReordering ∧
  decode ⟨[0x42000000#32, 0x141#32, 2#32, 10#32, 2047#32], []⟩ = .ok (.encDataHdr 0x141 [10, 2047]) ∧
  decode ⟨[0x44000000#32, 100#32, 10#32, 1#32, 3#32, 0#32], []⟩ = .ok (.encStatus 100 10 [(3, 0)]) ∧
  decode ⟨[0x48000000#32, 0#32, 7#32], []⟩ = .ok (.poolAlloc 0 7)

/-- R95, R92: a descriptor that is no command, and a command with an argument above its width or its
limit, are answered `ERR_ILLEGAL_COMMAND` with the zero result words of their opcode, whatever the
flags of the engine hold (R261 (1)); nothing else changes and no event is emitted. R95 names the unknown
opcode, the reserved bits, the widths and the limits; that a word count that does not match is illegal
too is U9 of spec/93_implementation_defined.md. That a payload whose length is not `len`, bytes where
the command takes none, and a descriptor with no word at all are answered the same way is the model's
choice, read from R91 by inference (DEDUCED, log entry 11). -/
def Obligations.IllegalCommandRefused : Prop :=
  (∀ (bytes : List Byte) (s : State) (rest : List Descriptor),
    s.params.valid = true → s.clearing = none → s.port = ⟨[], bytes⟩ :: rest →
    step s = .next (respond .errIllegalCommand [] [] { s with port := rest })) ∧
  (∀ (w0 : Word) (args : List Word) (bytes : List Byte) (s : State) (rest : List Descriptor),
    s.params.valid = true → s.clearing = none → s.port = ⟨w0 :: args, bytes⟩ :: rest →
    (opcodeOf (w0.toNat / 2 ^ 24) = none →
      step s = .next (respond .errIllegalCommand [] [] { s with port := rest })) ∧
    (∀ op, opcodeOf (w0.toNat / 2 ^ 24) = some op →
      (w0.toNat % 2 ^ 24 ≠ 0 ∨
        (op ≠ .encDataHdr ∧ op ≠ .encStatus ∧ args.length ≠ op.fixedArgs) ∨
        (op = .encDataHdr ∧ ∀ n ∈ args[1]?, args.length ≠ 2 + n.toNat) ∨
        (op = .encStatus ∧ ∀ n ∈ args[2]?, args.length ≠ 3 + 2 * n.toNat) ∨
        (op.hasPayload = true ∧ ∃ n ∈ args.getLast?, bytes.length ≠ n.toNat) ∨
        (op.hasPayload = false ∧ bytes ≠ [])) →
      step s = .next (respond .errIllegalCommand (List.replicate op.fixedResults 0) []
        { s with port := rest }))) ∧
  (∀ (i : Instr) (s : State), i.legal s.params = false →
    exec i s =
      .next (respond .errIllegalCommand (List.replicate i.opcode.fixedResults 0) [] s))

/-- R36, R80, R90: a step takes the next descriptor of the command port and executes the command it
decodes to, on the state with the descriptor taken; with no descriptor the engine is idle. The command
of a table word placed by `withFetchWord` is the one that runs. Only while a clearing command is half
done (R85, log entry 7) does the step finish that command instead. -/
def Obligations.StepRunsDecoded : Prop :=
  ∀ s : State, s.params.valid = true →
    (s.clearing = none →
      (∀ (d : Descriptor) (rest : List Descriptor) (i : Instr), s.port = d :: rest →
        decode d = .ok i → step s = exec i { s with port := rest }) ∧
      (s.port = [] → step s = .next s)) ∧
    (∀ c : Clearing, s.clearing = some c → step s = .next (finishClearing c s)) ∧
    (∀ (nbits w : Nat) (i : Instr), decodeTableWord nbits w = some i →
      step (s.withFetchWord nbits w) = exec i { s with clearing := none })

/-- R93, R260, R268, R115, R92: the opcode byte of every command, that the decoder knows these bytes and
no others, the numeric result codes, event codes and timer identifiers, and word 0 of a response. -/
def Obligations.PortNumbers : Prop :=
  [Opcode.reset, .configure, .reestablish, .stop, .getMetrics, .readVar, .writeSdu, .discardSdu,
    .readPdu, .writePdu, .getBufferState, .handleControlPdu, .getStatusPdu, .texpPollRetx,
    .texpReordering, .texpStatusProhibit, .txModBase, .rxModBase, .encDataHdr, .decDataHdr,
    .encStatus, .decStatus, .poolAlloc, .poolRelRlc, .poolRelPdcp, .poolIsAcked].map Opcode.code =
    [0x01, 0x02, 0x03, 0x04, 0x05, 0x06, 0x10, 0x11, 0x20, 0x21, 0x22, 0x23, 0x24, 0x30, 0x31,
      0x32, 0x40, 0x41, 0x42, 0x43, 0x44, 0x45, 0x48, 0x49, 0x4A, 0x4B] ∧
  (∀ (n : Nat) (op : Opcode), opcodeOf n = some op ↔ op.code = n) ∧
  (∀ n : Nat, (∃ op, opcodeOf n = some op) ↔
    n ∈ [0x01, 0x02, 0x03, 0x04, 0x05, 0x06, 0x10, 0x11, 0x20, 0x21, 0x22, 0x23, 0x24, 0x30, 0x31,
      0x32, 0x40, 0x41, 0x42, 0x43, 0x44, 0x45, 0x48, 0x49, 0x4A, 0x4B]) ∧
  [ResultCode.ok, .errIllegalCommand, .errNotEnabledState, .errFailed, .errQueueFull,
    .errPoolExhausted, .errSduSize, .errCorruptHeader, .dropOutOfWindow, .dropDuplicate,
    .dropAckOutOfRange, .infoAlreadyInWindow, .infoNotFound, .errProtocolFailure].map codeOfResult =
    [0x00, 0x10, 0x11, 0x12, 0x20, 0x21, 0x22, 0x30, 0x31, 0x32, 0x33, 0x40, 0x41, 0x50] ∧
  [TimerId.pollRetx, .reordering, .statusProhibit].map codeOfTimer = [0, 1, 2] ∧
  (∀ (b : List Byte) (l : List Word) (t : TimerId) (d : Word),
    [Event.deliverSdu b, .notifyDelivery l, .notifyFailure l, .protocolFailure, .timerStart t d,
      .timerStop t].map codeOfEvent = [1, 2, 3, 4, 5, 6]) ∧
  (∀ (c : ResultCode) (rs : List Word) (b : List Byte) (s : State),
    respond c rs b s = { s with
      out := s.out ++ [.response ⟨BitVec.ofNat 32 (codeOfResult c) :: rs, b⟩] })

/-- R90, R92, R260, R268: every command returns exactly one response, after its events; the response
of a refused command carries its opcode's result words, all zero, and no bytes. A clearing command
under `DUAL_SEQ` answers in its second step (`DualClearing`). -/
def Obligations.OneResponsePerCommand : Prop :=
  ∀ (i : Instr) (s t : State), exec i s = .next t →
    (s.params.dualSeq = false ∨ (i ≠ .reestablish ∧ i ≠ .stop)) →
    t.port = s.port ∧
    ∃ (events : List Event) (c : ResultCode) (results : List Word) (bytes : List Byte),
      t.out = s.out ++ events.map .event ++ [.response (responseOf c results bytes)] ∧
      i.opcode.fixedResults ≤ results.length ∧
      (c ≠ .ok → results = List.replicate i.opcode.fixedResults 0 ∧ bytes = [])

/-- R260 (column "state change"): a command that answers a code other than `OK` and
`ERR_PROTOCOL_FAILURE` changes nothing and emits no event. The draw counter is the model's own field.
`TxSound` rules out stale retransmission entries, which READ_PDU drops before it finds the pool
exhausted (R178). -/
def Obligations.RefusedCommandChangesNothing : Prop :=
  ∀ (i : Instr) (s t : State) (pre : List Output) (c : ResultCode) (results : List Word)
    (bytes : List Byte), TxSound s →
    (s.params.dualSeq = false ∨ (i ≠ .reestablish ∧ i ≠ .stop)) →
    exec i s = .next t → t.out = pre ++ [.response (responseOf c results bytes)] →
    c ≠ .ok → c ≠ .errProtocolFailure →
    t = { s with out := s.out ++ [.response (responseOf c results bytes)], draws := t.draws }

/-- R267: while `FAILED = 1` a data-path command returns `ERR_FAILED`, otherwise while `ENABLED = 0` or
`CFG_VALID = 0` it returns `ERR_NOT_ENABLED_STATE`, and nothing else changes; the diagnostic commands,
GET_METRICS and READ_VAR are accepted in every state. -/
def Obligations.DataPathRefused : Prop :=
  (∀ (i : Instr) (s : State), isDataPath i = true → i.legal s.params = true →
    (s.failed = true →
      exec i s = .next (respond .errFailed (List.replicate i.opcode.fixedResults 0) [] s)) ∧
    (s.failed = false → s.enabled = false ∨ s.cfgValid = false →
      exec i s =
        .next (respond .errNotEnabledState (List.replicate i.opcode.fixedResults 0) [] s))) ∧
  (∀ (i : Instr) (s : State), isObservation i = true →
    ∃ (t : State) (c : ResultCode) (results : List Word) (bytes : List Byte),
      exec i s = .next t ∧ t.out = s.out ++ [.response (responseOf c results bytes)] ∧
      c ≠ .errFailed ∧ c ≠ .errNotEnabledState)

/-! ### Management -/

/-- R290: the state after the reset input and after the RESET command, for every choice of the
parameters. Registers 0 to 6 of `CFG` have no reset value in the spec and are not mentioned; register
7 reads 512. R250: RESET is accepted in every state and emits `timer_stop` for each running timer and
nothing else. -/
def Obligations.ResetLeaves : Prop :=
  (∀ (t : State), (∃ p, t = State.initial p) ∨ (∃ s, exec .reset s = .next t) →
    t.tx.vtA = t.params.snInit ∧ t.tx.vtS = t.params.snInit ∧ t.tx.pollSn = t.params.snInit ∧
    vtMs t = t.params.snInit + 512 ∧ t.tx.pduWithoutPoll = 0 ∧ t.tx.byteWithoutPoll = 0 ∧
    t.tx.sduQ = [] ∧ t.tx.headOff = 0 ∧ (∀ sn, validAt t.tx.window sn = false) ∧ t.tx.retxQ = [] ∧
    t.tx.pollRetxRunning = false ∧ t.tx.pollRetxExpired = false ∧
    t.tx.statusProhibitRunning = false ∧
    t.rx.vrR = t.params.snInit ∧ t.rx.vrX = t.params.snInit ∧ t.rx.vrMs = t.params.snInit ∧
    t.rx.vrH = t.params.snInit ∧ vrMr t = t.params.snInit + 512 ∧
    t.rx.pollReceived = false ∧ t.rx.doStatus = false ∧ t.rx.reordRunning = false ∧
    (∀ sn, validAt t.rx.window sn = false) ∧ (∀ sn, validAt t.rx.segments sn = false) ∧
    t.rx.sdu = [] ∧ t.rx.sduActive = false ∧
    (∀ id, tableGet t.pool.slots id = none) ∧ t.pool.free = List.range t.params.poolCapacity ∧
    t.enabled = false ∧ t.failed = false ∧ t.cfgValid = false ∧ t.txSduCount = 0 ∧
    t.lostPduCount = 0 ∧ readCfg t.cfg 7 = 512) ∧
  State.reset = State.initial {} ∧
  (∀ s : State, ∃ t, exec .reset s = .next t ∧
    t.out = s.out ++ stopEvents s ++ [.response ⟨[0], []⟩] ∧ t.params = s.params ∧
    t.port = s.port ∧ (∀ space owner off, byteAt t space owner off = none))

/-- R251: CONFIGURE writes the seven registers and `CFG_VALID` while the engine is stopped, if
`max_retx_thresh` and `tx_queue_length` are at least 1. -/
def Obligations.ConfigureWritesRegisters : Prop :=
  ∀ (v0 v1 v2 v3 v4 v5 v6 : Word) (s : State),
    (s.enabled = true → exec (.configure v0 v1 v2 v3 v4 v5 v6) s =
      .next (respond .errNotEnabledState [] [] s)) ∧
    (s.enabled = false → (v3 = 0 ∨ v6 = 0) → exec (.configure v0 v1 v2 v3 v4 v5 v6) s =
      .next (respond .errIllegalCommand [] [] s)) ∧
    (s.enabled = false → v3 ≠ 0 → v6 ≠ 0 → exec (.configure v0 v1 v2 v3 v4 v5 v6) s =
      .next (respond .ok [] [] { s with
        cfg := { tPollRetx := v0, pollPdu := v1, pollByte := v2, maxRetxThresh := v3,
                 tReordering := v4, tStatusProhibit := v5, txQueueLength := v6 }
        cfgValid := true }))

/-- R252, R253 (one sequencer): REESTABLISH and STOP clear both halves and the pool, stop the running
timers, keep `CFG.*`, `CFG_VALID` and the metrics, clear `FAILED`, and leave the engine enabled or
stopped; REESTABLISH of an unconfigured engine is refused. `timers` is the timer service's side: its
expiries of the stopped timers are cancelled (R270). -/
def Obligations.ClearingCommands : Prop :=
  ∀ s : State,
    let cleared (enable : Bool) : State :=
      { s with
        tx := { vtA := s.params.snInit, vtS := s.params.snInit, pollSn := s.params.snInit,
                pduWithoutPoll := 0, byteWithoutPoll := 0, sduQ := [], headOff := 0, window := [],
                retxQ := [], pollRetxRunning := false, pollRetxExpired := false,
                statusProhibitRunning := false }
        pool := { slots := [], free := List.range s.params.poolCapacity }
        rx := { vrR := s.params.snInit, vrX := s.params.snInit, vrMs := s.params.snInit,
                vrH := s.params.snInit, pollReceived := false, doStatus := false,
                reordRunning := false, window := [], segments := [], sdu := [], sduActive := false }
        timers := { pollRetx := s.timers.pollRetx && !s.tx.pollRetxRunning
                    reordering := s.timers.reordering && !s.rx.reordRunning
                    statusProhibit := s.timers.statusProhibit && !s.tx.statusProhibitRunning }
        enabled := enable
        failed := false
        out := s.out ++ stopEvents s ++ [.response ⟨[0], []⟩] }
    (s.cfgValid = false → exec .reestablish s = .next (respond .errNotEnabledState [] [] s)) ∧
    (s.params.dualSeq = false →
      (s.cfgValid = true → exec .reestablish s = .next (cleared true)) ∧
      exec .stop s = .next (cleared false))

/-- R85, R252, R253: under `DUAL_SEQ` REESTABLISH and STOP clear the two halves in two steps, in an order
that is a free value; after the second the engine is as one sequencer leaves it, and the command has its
one response. That the running timers are stopped with the first step, in the order of R252 whichever
half comes first, that the flags change with the second, and that no command comes between the two
steps, is the model's choice (log entry 7). -/
def Obligations.DualClearing : Prop :=
  ∀ (s : State) (enable : Bool), s.params.dualSeq = true → s.params.valid = true →
    (enable = true → s.cfgValid = true) →
    ∃ t u : State,
      exec (if enable then .reestablish else .stop) s = .next t ∧ step t = .next u ∧
      t.out = s.out ++ stopEvents s ∧ t.enabled = s.enabled ∧ t.failed = s.failed ∧
      (t.tx = Tx.cleared s.params ∧ t.pool = Pool.cleared s.params ∧
          t.rx = { s.rx with reordRunning := false } ∨
        t.tx = { s.tx with pollRetxRunning := false, statusProhibitRunning := false } ∧
          t.pool = s.pool ∧ t.rx = Rx.cleared s.params) ∧
      u = { s with
        tx := Tx.cleared s.params
        pool := Pool.cleared s.params
        rx := Rx.cleared s.params
        timers := { pollRetx := s.timers.pollRetx && !s.tx.pollRetxRunning
                    reordering := s.timers.reordering && !s.rx.reordRunning
                    statusProhibit := s.timers.statusProhibit && !s.tx.statusProhibitRunning }
        clearing := none
        enabled := enable
        failed := false
        draws := s.draws + 1
        out := s.out ++ stopEvents s ++ [.response ⟨[0], []⟩] }

/-- R254, R255, R94: GET_METRICS returns the two counters and READ_VAR the variable its number names,
zero-extended; both in every state, changing nothing. A number above 16 is illegal. -/
def Obligations.ObservationCommands : Prop :=
  ∀ s : State,
    let value : Nat → Nat
      | 0 => s.tx.vtA.toNat
      | 1 => s.tx.vtS.toNat
      | 2 => (s.tx.vtA.toNat + 512) % 1024
      | 3 => s.tx.pollSn.toNat
      | 4 => s.tx.pduWithoutPoll.toNat
      | 5 => s.tx.byteWithoutPoll.toNat
      | 6 => s.rx.vrR.toNat
      | 7 => (s.rx.vrR.toNat + 512) % 1024
      | 8 => s.rx.vrX.toNat
      | 9 => s.rx.vrMs.toNat
      | 10 => s.rx.vrH.toNat
      | 11 => s.rx.pollReceived.toNat + 2 * s.rx.doStatus.toNat + 4 * s.rx.reordRunning.toNat +
          8 * s.tx.pollRetxRunning.toNat + 16 * s.tx.pollRetxExpired.toNat +
          32 * s.tx.statusProhibitRunning.toNat + 64 * s.enabled.toNat + 128 * s.failed.toNat +
          256 * s.cfgValid.toNat
      | 12 => s.tx.sduQ.length
      | 13 => s.tx.retxQ.length
      | 14 => s.tx.window.length
      | 15 => s.rx.window.length
      | _ => s.pool.free.length
    exec .getMetrics s = .next (respond .ok [s.txSduCount, s.lostPduCount] [] s) ∧
    (∀ var : Word, var.toNat ≤ 16 →
      exec (.readVar var) s = .next (respond .ok [BitVec.ofNat 32 (value var.toNat)] [] s)) ∧
    (∀ var : Word, 16 < var.toNat →
      exec (.readVar var) s = .next (respond .errIllegalCommand [0] [] s))

/-! ### Sequence-number arithmetic -/

/-- R130, R131: TX_MOD_BASE returns `(sn - VT_A) mod 1024` and RX_MOD_BASE `(sn - VR_R) mod 1024`, in
every state, and neither writes anything; an argument above 1023 is illegal. -/
def Obligations.ModBaseValues : Prop :=
  ∀ (sn : Word) (s : State),
    (sn.toNat ≤ 1023 →
      exec (.txModBase sn) s =
        .next (respond .ok [BitVec.ofNat 32 ((sn.toNat + 1024 - s.tx.vtA.toNat) % 1024)] [] s) ∧
      exec (.rxModBase sn) s =
        .next (respond .ok [BitVec.ofNat 32 ((sn.toNat + 1024 - s.rx.vrR.toNat) % 1024)] [] s)) ∧
    (1023 < sn.toNat →
      exec (.txModBase sn) s = .next (respond .errIllegalCommand [0] [] s) ∧
      exec (.rxModBase sn) s = .next (respond .errIllegalCommand [0] [] s))

/-! ### The wire codec -/

/-- R103, R142: the encoded header of every header `h` has `2 + (rf ? 2 : 0) + ceil(1.5 * n_li)` bytes,
and the length the decoder returns is that of the header it returns. -/
def Obligations.HeaderLength : Prop :=
  (∀ h : Header, (encodeDataHeader h).length =
    2 + (if h.rf then 2 else 0) + (h.li.length + (h.li.length + 1) / 2)) ∧
  (∀ (p : Params) (b : List Byte) (h : Header) (len : Nat), decodeDataHeader p b = some (h, len) →
    len = 2 + (if h.rf then 2 else 0) + (h.li.length + (h.li.length + 1) / 2))

/-- R144: for every header the encoder accepts and every payload longer than the sum of its length
indicators, decoding the encoding gives the header back; and what decodes was encoded from the header
found, but for the pad nibble of an odd count, which the encoder writes as 0. -/
def Obligations.DataHeaderRoundTrip : Prop :=
  ∀ p : Params,
    (∀ (h : Header) (d : List Byte), headerEncodable p h = true → h.li.sum < d.length →
      decodeDataHeader p (encodeDataHeader h ++ d) = some (h, hdrLen h)) ∧
    (∀ (b : List Byte) (h : Header) (len : Nat), decodeDataHeader p b = some (h, len) →
      headerEncodable p h = true ∧ len ≤ b.length ∧
      (h.li.length % 2 = 0 → encodeDataHeader h = b.take len) ∧
      (h.li.length % 2 = 1 → ∃ last : Byte, b[len - 1]? = some last ∧
        encodeDataHeader h = b.take (len - 1) ++ [last &&& 0xF0]))

/-- R141, R94: ENC_DATA_HDR encodes the header its operand words spell, or refuses it when a `require`
line fails. The encoding is the layout of R100 to R102 byte by byte, its last nibble 0 when the count is
odd. For a header of 2^32 bytes or more no rule states the `len` word, so it is a word that nothing is
said of, drawn afresh: the model's choice (DESIGN CHOICE, log entry 21); the draw counter is the model's
own field. -/
def Obligations.EncodeHeaderCommand : Prop :=
  ∀ (hw : Word) (li : List Word) (s : State),
    let h : Header :=
      { dc := hw.getLsbD 0, rf := hw.getLsbD 1, p := hw.getLsbD 2, fiE := hw.getLsbD 3
        fiS := hw.getLsbD 4, lsf := hw.getLsbD 5
        sn := BitVec.ofNat 10 (hw.toNat / 2 ^ 6), so := hw.toNat / 2 ^ 16, li := li.map (·.toNat) }
    let good : Prop := h.dc = true ∧ li.length ≤ s.params.nLiMax ∧
      (∀ l ∈ h.li, 1 ≤ l ∧ l ≤ 2047) ∧ (h.rf = true ∨ (h.lsf = false ∧ h.so = 0)) ∧ h.so ≤ 32767
    (good → hdrLen h < 2 ^ 32 → exec (.encDataHdr hw li) s =
      .next (respond .ok [BitVec.ofNat 32 (hdrLen h)] (encodeDataHeader h) s)) ∧
    (good → 2 ^ 32 ≤ hdrLen h → ∃ len : Word, exec (.encDataHdr hw li) s =
      .next (respond .ok [len] (encodeDataHeader h) { s with draws := s.draws + 1 })) ∧
    (good → encodeDataHeader h = fixedHeaderBytes h ++ liBytes h.li) ∧
    (¬ good → exec (.encDataHdr hw li) s = .next (respond .errIllegalCommand [0] [] s))

/-- R143, R93, R94: DEC_DATA_HDR returns the header word, the count, the header length and the length
indicators of a Data PDU; applied to an encoded header and a long enough payload it returns that
header. Fewer than 2 bytes, `dc = 0`, no payload, and length indicators that leave no byte for the
last fragment are corrupt. The last clause says for any bytes which are corrupt (`HeaderMalformed`,
field by field: also a segment of fewer than 4 bytes, a chain past the bytes, more length indicators than
`N_LI_MAX`, a length indicator 0, a missing pad nibble) and that all others decode. -/
def Obligations.DecodeHeaderCommand : Prop :=
  ∀ s : State,
    (∀ (h : Header) (d : List Byte), headerEncodable s.params h = true → h.li.sum < d.length →
      (encodeDataHeader h ++ d).length ≤ s.params.maxPduBytes →
      exec (.decDataHdr (encodeDataHeader h ++ d)) s = .next (respond .ok
        (BitVec.ofNat 32 (h.dc.toNat + 2 * h.rf.toNat + 4 * h.p.toNat + 8 * h.fiE.toNat +
            16 * h.fiS.toNat + 32 * h.lsf.toNat + 64 * h.sn.toNat + 65536 * h.so) ::
          BitVec.ofNat 32 h.li.length :: BitVec.ofNat 32 (hdrLen h) ::
          h.li.map (BitVec.ofNat 32 ·)) [] s)) ∧
    (∀ (h : Header) (d : List Byte), headerEncodable s.params h = true → d.length ≤ h.li.sum →
      (encodeDataHeader h ++ d).length ≤ s.params.maxPduBytes →
      exec (.decDataHdr (encodeDataHeader h ++ d)) s =
        .next (respond .errCorruptHeader [0, 0, 0] [] s)) ∧
    (∀ b : List Byte, b.length ≤ s.params.maxPduBytes →
      (b.length < 2 ∨ ∃ b0 ∈ b.head?, b0.getLsbD 7 = false) →
      exec (.decDataHdr b) s = .next (respond .errCorruptHeader [0, 0, 0] [] s)) ∧
    (∀ b : List Byte, b.length ≤ s.params.maxPduBytes →
      (HeaderMalformed s.params b →
        exec (.decDataHdr b) s = .next (respond .errCorruptHeader [0, 0, 0] [] s)) ∧
      (¬ HeaderMalformed s.params b →
        ∃ results, exec (.decDataHdr b) s = .next (respond .ok results [] s)))

/-- R145: greedy truncation keeps the longest prefix of the NACKs that fits and lowers `ack_sn` to the
first dropped element for whose SN no element stands before it; so a dropped element whose SN has another
one that is kept leaves `ack_sn` alone, and when every dropped element has one `ack_sn` stays as it was.
When the NACK SNs are distinct that is the first SN whose report was dropped. Under 2 bytes nothing fits. -/
def Obligations.TruncationLaw : Prop :=
  ∀ (st : StatusPdu) (maxLen : Nat),
    let again (j : Nat) : Prop :=
      ∀ n ∈ st.nacks[j]?, ∃ e ∈ st.nacks.take j, e.nackSn = n.nackSn
    (maxLen < 2 → encodeStatus st maxLen = []) ∧
    (2 ≤ maxLen → ∃ k, k ≤ st.nacks.length ∧
      (15 + ((st.nacks.take k).map fun n => if n.hasSo then 42 else 12).sum + 7) / 8 ≤ maxLen ∧
      (∀ j, k < j → j ≤ st.nacks.length →
        maxLen < (15 + ((st.nacks.take j).map fun n => if n.hasSo then 42 else 12).sum + 7) / 8) ∧
      ∃ ack : Sn, truncateStatus st maxLen = some ⟨ack, st.nacks.take k⟩ ∧
        (k = st.nacks.length → ack = st.ackSn) ∧
        ((st.nacks.map (·.nackSn)).Nodup → ∀ n ∈ st.nacks[k]?, ack = n.nackSn) ∧
        ((∀ j, k ≤ j → again j) → ack = st.ackSn) ∧
        (∀ j, k ≤ j → (∀ i, k ≤ i → i < j → again i) → ¬ again j →
          ∀ n ∈ st.nacks[j]?, ack = n.nackSn))

/-- R146, R110, R111, R94, R22: ENC_STATUS returns the truncated status as bytes, `status_len` of them,
or no bytes when fewer than 2 are allowed. `statusBytes` lays the fields of R110 out as one number, most
significant bit first, with zero bits up to a whole byte. That non-zero offset bits of `nw1` are accepted
and ignored when the element has no segment offsets is the model's choice (DEDUCED, log entry 11). That
lists of 513 to 1024 elements are truncated for `max_len` alone, as R145 and R146 say, where R22 says that
ENC_STATUS never produces more than 512, is the model's choice (DESIGN CHOICE, log entry 19). -/
def Obligations.EncodeStatusCommand : Prop :=
  ∀ (maxLen ackSn : Word) (nacks : List (Word × Word)) (s : State),
    maxLen.toNat ≤ s.params.maxPduBytes → ackSn.toNat ≤ 1023 → nacks.length ≤ 1024 →
    (∀ nw ∈ nacks, nw.1.toNat < 2 ^ 11 ∧ nw.2.getLsbD 15 = false ∧ nw.2.getLsbD 31 = false) →
    let st : StatusPdu :=
      { ackSn := BitVec.ofNat 10 ackSn.toNat
        nacks := nacks.map fun nw =>
          { nackSn := BitVec.ofNat 10 nw.1.toNat, hasSo := nw.1.getLsbD 10
            soStart := if nw.1.getLsbD 10 then nw.2.toNat % 2 ^ 15 else 0
            soEnd := if nw.1.getLsbD 10 then nw.2.toNat / 2 ^ 16 % 2 ^ 15 else 0 } }
    ∃ bytes : List Byte,
      exec (.encStatus maxLen ackSn nacks) s =
        .next (respond .ok [BitVec.ofNat 32 bytes.length] bytes s) ∧
      (maxLen.toNat < 2 → bytes = []) ∧
      (2 ≤ maxLen.toNat → ∃ t, truncateStatus st maxLen.toNat = some t ∧
        bytes = bytesOfBits (statusBits t) ∧ bytes = statusBytes t ∧
        bytes.length = (15 + (t.nacks.map fun n => if n.hasSo then 42 else 12).sum + 7) / 8 ∧
        bytes.length ≤ maxLen.toNat)

/-- R149: for every status that meets the `require` line of R146 (and holds offsets 0 where it has
none, R22) and is allowed its length, decoding the encoding gives it back. For 513 to 1024 NACK elements
R149 and R146 are followed, where R22 says that ENC_STATUS never produces more than 512: the model's choice
(DESIGN CHOICE, log entry 19). -/
def Obligations.StatusRoundTrip : Prop :=
  ∀ (st : StatusPdu) (maxLen : Nat),
    (∀ n ∈ st.nacks, n.soStart ≤ 32767 ∧ n.soEnd ≤ 32767) →
    (∀ n ∈ st.nacks, n.hasSo = false → n.soStart = 0 ∧ n.soEnd = 0) →
    st.nacks.length ≤ 1024 →
    (15 + (st.nacks.map fun n => if n.hasSo then 42 else 12).sum + 7) / 8 ≤ maxLen →
    decodeStatus (encodeStatus st maxLen) = some st

/-- R148, R93, R94: DEC_STATUS returns `ack_sn`, the count and the pairs of a STATUS PDU; bytes after
the last element are ignored (R112). Fewer than 2 bytes, and a first nibble other than 0, are
corrupt. The last clause says for any bytes which are corrupt (`StatusMalformed`, field by field: also a
chain of NACK elements cut short, with or without offsets, and a 1025th element) and that all others
decode. -/
def Obligations.DecodeStatusCommand : Prop :=
  ∀ s : State,
    (∀ (st : StatusPdu) (tail : List Byte),
      (∀ n ∈ st.nacks, n.soStart ≤ 32767 ∧ n.soEnd ≤ 32767) →
      (∀ n ∈ st.nacks, n.hasSo = false → n.soStart = 0 ∧ n.soEnd = 0) →
      st.nacks.length ≤ 1024 →
      (bytesOfBits (statusBits st) ++ tail).length ≤ s.params.maxPduBytes →
      exec (.decStatus (bytesOfBits (statusBits st) ++ tail)) s = .next (respond .ok
        (BitVec.ofNat 32 st.ackSn.toNat :: BitVec.ofNat 32 st.nacks.length ::
          st.nacks.flatMap fun n =>
            [BitVec.ofNat 32 (n.nackSn.toNat + 1024 * n.hasSo.toNat),
             BitVec.ofNat 32 (n.soStart + 65536 * n.soEnd)]) [] s)) ∧
    (∀ b : List Byte, b.length ≤ s.params.maxPduBytes →
      (b.length < 2 ∨ ∃ b0 ∈ b.head?, b0.toNat / 16 ≠ 0) →
      exec (.decStatus b) s = .next (respond .errCorruptHeader [0, 0] [] s)) ∧
    (∀ b : List Byte, b.length ≤ s.params.maxPduBytes →
      (StatusMalformed b →
        exec (.decStatus b) s = .next (respond .errCorruptHeader [0, 0] [] s)) ∧
      (¬ StatusMalformed b →
        ∃ results, exec (.decStatus b) s = .next (respond .ok results [] s)))

/-! ### The segment pool -/

/-- R160: POOL_ALLOC takes the index on top of `FREE` for a fresh record, or returns
`ERR_POOL_EXHAUSTED` with no state change. -/
def Obligations.PoolAllocTakesTop : Prop :=
  ∀ (rlcSn pdcpSn : Word) (s : State), rlcSn.toNat ≤ 1023 → pdcpSn.toNat < 2 ^ s.params.pdcpSnBits →
    (s.pool.free = [] →
      exec (.poolAlloc rlcSn pdcpSn) s = .next (respond .errPoolExhausted [0] [] s)) ∧
    (∀ (id : Nat) (rest : List Nat), s.pool.free = id :: rest → ∃ slots : Table Slot,
      exec (.poolAlloc rlcSn pdcpSn) s =
        .next (respond .ok [BitVec.ofNat 32 id] [] { s with pool := ⟨slots, rest⟩ }) ∧
      ∀ k, tableGet slots k =
        if k = id then some ⟨BitVec.ofNat 10 rlcSn.toNat, pdcpSn, false, false⟩
        else tableGet s.pool.slots k)

/-- R161, R162: POOL_REL_RLC and POOL_REL_PDCP mark their half of a slot in use, and free the slot onto
the top of `FREE` when both halves are released; on any other index they are illegal and change
nothing. -/
def Obligations.PoolReleaseHalves : Prop :=
  ∀ (id : Word) (s : State),
    ((s.params.poolCapacity ≤ id.toNat ∨ tableGet s.pool.slots id.toNat = none) →
      exec (.poolRelRlc id) s = .next (respond .errIllegalCommand [] [] s) ∧
      exec (.poolRelPdcp id) s = .next (respond .errIllegalCommand [] [] s)) ∧
    (∀ slot : Slot, id.toNat < s.params.poolCapacity → tableGet s.pool.slots id.toNat = some slot →
      (∃ pool : Pool, exec (.poolRelRlc id) s = .next (respond .ok [] [] { s with pool := pool }) ∧
        pool.free = (if slot.pdcpReleased then id.toNat :: s.pool.free else s.pool.free) ∧
        ∀ k, tableGet pool.slots k =
          if k = id.toNat then
            (if slot.pdcpReleased then none else some { slot with rlcReleased := true })
          else tableGet s.pool.slots k) ∧
      (∃ pool : Pool, exec (.poolRelPdcp id) s = .next (respond .ok [] [] { s with pool := pool }) ∧
        pool.free = (if slot.rlcReleased then id.toNat :: s.pool.free else s.pool.free) ∧
        ∀ k, tableGet pool.slots k =
          if k = id.toNat then
            (if slot.rlcReleased then none else some { slot with pdcpReleased := true })
          else tableGet s.pool.slots k))

/-- R163: POOL_IS_ACKED returns 1 when some record references the PDCP SN and every such record has its
RLC half released, else 0; it writes nothing. -/
def Obligations.PoolIsAcked : Prop :=
  ∀ (q : Word) (s : State), q.toNat < 2 ^ s.params.pdcpSnBits →
    let recs := s.pool.slots.filter fun e => e.2.pdcpSn = q
    ((recs ≠ [] ∧ ∀ e ∈ recs, e.2.rlcReleased = true) →
      exec (.poolIsAcked q) s = .next (respond .ok [1] [] s)) ∧
    ((recs = [] ∨ ∃ e ∈ recs, e.2.rlcReleased = false) →
      exec (.poolIsAcked q) s = .next (respond .ok [0] [] s))

/-! ### Transmitter -/

/-- R170: WRITE_SDU queues an SDU of 1 to `MAX_SDU_BYTES` bytes and counts it, unless the queue is
full; the size is checked first. The bytes stored are those of the new queue entry; every other byte of
memory reads as before. That an SDU longer than `MAX_PDU_BYTES` is never an illegal command, so that it
is queued when it has at most `MAX_SDU_BYTES` bytes, is the model's reading of R95 (DEDUCED, log
entry 15). -/
def Obligations.WriteSduQueues : Prop :=
  ∀ (q : Word) (d : List Byte) (s : State), Accepting s → q.toNat < 2 ^ s.params.pdcpSnBits →
    (d = [] ∨ s.params.maxSduBytes < d.length →
      exec (.writeSdu q d) s = .next (respond .errSduSize [] [] s)) ∧
    (d ≠ [] → d.length ≤ s.params.maxSduBytes →
      (s.tx.sduQ.length = s.cfg.txQueueLength.toNat →
        exec (.writeSdu q d) s = .next (respond .errQueueFull [] [] s)) ∧
      (s.tx.sduQ.length ≠ s.cfg.txQueueLength.toNat →
        exec (.writeSdu q d) s = .next (respond .ok [] [] { s with
          tx := { s.tx with sduQ := s.tx.sduQ ++ [⟨q, d⟩] }, txSduCount := s.txSduCount + 1 }) ∧
        ∀ (t : State), exec (.writeSdu q d) s = .next t → ∀ (space : Space) (owner off : Nat),
          byteAt t space owner off =
            if space = .sdu ∧ owner = s.tx.sduQ.length then d[off]? else byteAt s space owner off))

/-- R171: DISCARD_SDU removes the first queued SDU with the PDCP SN unless it is the partly sent head;
otherwise it reports whether the SDU was placed already, and changes nothing. -/
def Obligations.DiscardSduRemoves : Prop :=
  ∀ (q : Word) (s : State), Accepting s → q.toNat < 2 ^ s.params.pdcpSnBits →
    (∀ (pre post : List SduEntry) (e : SduEntry), s.tx.sduQ = pre ++ e :: post → e.pdcpSn = q →
      (∀ x ∈ pre, x.pdcpSn ≠ q) →
      (¬ (pre = [] ∧ 0 < s.tx.headOff) → exec (.discardSdu q) s =
        .next (respond .ok [] [] { s with tx := { s.tx with sduQ := pre ++ post } })) ∧
      (pre = [] → 0 < s.tx.headOff → exec (.discardSdu q) s =
        .next (respond .infoAlreadyInWindow [] [] s))) ∧
    ((∀ x ∈ s.tx.sduQ, x.pdcpSn ≠ q) →
      ((∃ e ∈ s.pool.slots, e.2.pdcpSn = q) → exec (.discardSdu q) s =
        .next (respond .infoAlreadyInWindow [] [] s)) ∧
      ((∀ e ∈ s.pool.slots, e.2.pdcpSn ≠ q) → exec (.discardSdu q) s =
        .next (respond .infoNotFound [] [] s)))

/-- R174: the status branch of READ_PDU. A free bit `busy` (0 with one sequencer, R175) may make the
receiver unavailable. When it does not and the grant has 2 bytes, the STATUS PDU of R240 is the
response, `DO_STATUS` and `POLL_RECEIVED` are cleared and the status-prohibit timer is armed unless its
duration is 0. Otherwise the grant goes on to data exactly as if no STATUS were due. -/
def Obligations.ReadPduStatusBranch : Prop :=
  ∀ (n : Word) (s : State), Accepting s → n.toNat ≤ s.params.maxPduBytes → StatusDue s →
    ∃ busy : Bool, (s.params.dualSeq = false → busy = false) ∧
      let drawn : State := { s with draws := if s.params.dualSeq then s.draws + 1 else s.draws }
      let report := encodeStatus (statusReport s) n.toNat
      (busy = false → 2 ≤ n.toNat → report ≠ [] ∧
        (s.cfg.tStatusProhibit = 0 → exec (.readPdu n) s =
          .next (respond .ok [BitVec.ofNat 32 report.length] report { drawn with
            rx := { s.rx with doStatus := false, pollReceived := false } })) ∧
        (s.cfg.tStatusProhibit ≠ 0 → exec (.readPdu n) s =
          .next (respond .ok [BitVec.ofNat 32 report.length] report { drawn with
            rx := { s.rx with doStatus := false, pollReceived := false }
            tx := { s.tx with statusProhibitRunning := true }
            timers := { s.timers with statusProhibit := true }
            out := s.out ++ [.event (.timerStart .statusProhibit s.cfg.tStatusProhibit)] }))) ∧
      (busy = true ∨ n.toNat < 2 →
        ∀ t, exec (.readPdu n) { drawn with rx := { s.rx with doStatus := false } } = .next t →
          exec (.readPdu n) s = .next { t with rx := { t.rx with doStatus := true } })

/-- R183, R184: when a Data PDU carries a poll, and what a poll writes. `u` is the state after the PDU
was accounted for. -/
def Obligations.PollRule : Prop :=
  ∀ (h : Header) (payload : List Byte) (u : State),
    let poll : Prop :=
      (u.cfg.pollPdu ≠ 0 ∧ u.cfg.pollPdu.toNat < u.tx.pduWithoutPoll.toNat) ∨
      (u.cfg.pollByte ≠ 0 ∧ u.cfg.pollByte.toNat < u.tx.byteWithoutPoll.toNat) ∨
      u.tx.pollRetxExpired = true ∨ 512 ≤ modBase u.tx.vtA u.tx.vtS ∨
      (u.tx.sduQ = [] ∧ u.tx.retxQ = []) ∨
      (u.cfg.pollPdu = 0 ∧ u.cfg.pollByte = 0 ∧ u.params.pollPeriod ≠ 0 ∧
        u.params.pollPeriod ≤ u.tx.pduWithoutPoll.toNat)
    let pdu (p : Bool) := encodeDataHeader { h with p := p } ++ payload
    (poll → transmit h payload u =
      respond .ok [BitVec.ofNat 32 (pdu true).length] (pdu true) { u with
        tx := { u.tx with pollSn := u.tx.vtS - 1, pduWithoutPoll := 0, byteWithoutPoll := 0,
                          pollRetxExpired := false, pollRetxRunning := true }
        timers := { u.timers with pollRetx := true }
        out := u.out ++ [.event (.timerStart .pollRetx u.cfg.tPollRetx)] }) ∧
    (¬ poll → transmit h payload u =
      respond .ok [BitVec.ofNat 32 (pdu false).length] (pdu false) u)

/-- R180, R196 (5): with no STATUS due, no retransmission, room in the window, a grant of 3 bytes, a
queued SDU and a free pool slot, READ_PDU sends a new Data PDU. Its payload is the next pending bytes in
queue order; its length indicators are the lengths of the SDUs it completes but for the last fragment;
its framing bits say whether it starts and ends inside an SDU; one pool slot is taken per fragment, in
the order of `FREE`; the PDU is stored in the window under `VT_S`, which advances; nothing else changes
but what `transmit` writes for a poll (R183, R184). Every stored byte is at (Tx PDU store, `VT_S`).
Packing goes on as long as it can: a PDU that ends inside an SDU fills the grant, and one that ends with
an SDU leaves the queue empty, or the next fragment has no pool slot, no room for one byte behind its
length indicator, no place in the header, or a last fragment too long for a length indicator before it. -/
def Obligations.NewDataPdu : Prop :=
  ∀ (n : Word) (s : State), Accepting s → n.toNat ≤ s.params.maxPduBytes → 3 ≤ n.toNat →
    ¬ StatusDue s → s.tx.retxQ = [] → modBase s.tx.vtA s.tx.vtS < 512 → SduQueueSound s →
    s.tx.sduQ ≠ [] → s.pool.free ≠ [] →
    ∃ (h : Header) (payload : List Byte) (segs : List Nat) (popped : List SduEntry) (u : State),
      exec (.readPdu n) s = .next (transmit h payload u) ∧
      u = { s with
        pool := u.pool
        tx := { s.tx with
          sduQ := u.tx.sduQ, headOff := u.tx.headOff
          window := tableSet s.tx.window s.tx.vtS.toNat ⟨h, payload, 0, segs⟩
          vtS := s.tx.vtS + 1
          pduWithoutPoll := s.tx.pduWithoutPoll + 1
          byteWithoutPoll := s.tx.byteWithoutPoll + BitVec.ofNat 32 payload.length } } ∧
      h = { dc := true, rf := false, p := false, fiS := decide (0 < s.tx.headOff)
            fiE := decide (0 < u.tx.headOff), sn := s.tx.vtS, lsf := false, so := 0, li := h.li } ∧
      1 ≤ payload.length ∧
      2 + (h.li.length + (h.li.length + 1) / 2) + payload.length ≤ n.toNat ∧
      pendingBytes s.tx = payload ++ pendingBytes u.tx ∧
      s.tx.sduQ = popped ++ u.tx.sduQ ∧
      popped.length = h.li.length + (if 0 < u.tx.headOff then 0 else 1) ∧
      h.li = (pendingLengths s.tx).take h.li.length ∧ h.li.length ≤ s.params.nLiMax ∧
      (∀ l ∈ h.li, 1 ≤ l ∧ l ≤ 2047) ∧
      (0 < u.tx.headOff →
        2 + (h.li.length + (h.li.length + 1) / 2) + payload.length = n.toNat) ∧
      (u.tx.headOff = 0 →
        u.tx.sduQ = [] ∨ u.pool.free = [] ∨ s.params.nLiMax < h.li.length + 1 ∨
        2047 < payload.length - h.li.sum ∨
        n.toNat < 2 + (h.li.length + 1 + (h.li.length + 2) / 2) + payload.length + 1) ∧
      segs.length = h.li.length + 1 ∧ s.pool.free = segs ++ u.pool.free ∧
      (PoolSound s → ∀ k, tableGet u.pool.slots k =
        match segs.findIdx? (· = k) with
        | some j => (s.tx.sduQ[j]?).map fun e => ⟨s.tx.vtS, e.pdcpSn, false, false⟩
        | none => tableGet s.pool.slots k) ∧
      (∀ (space : Space) (owner off : Nat), space ≠ .sdu →
        byteAt (transmit h payload u) space owner off =
          if space = .txPdu ∧ owner = s.tx.vtS.toNat then payload[off]?
          else byteAt s space owner off)

/-- R181, R180, R211: when READ_PDU sends nothing. With nothing to retransmit and room in the window it
answers `len = 0` when no SDU is queued or the grant is under 3 bytes, and `ERR_POOL_EXHAUSTED` when
the first fragment finds no pool slot. An entry that must be segmented sends at least one byte with any
grant of 5 bytes and nothing with less; the queue then keeps its head. Where nothing is sent nothing
changes. -/
def Obligations.NothingToSend : Prop :=
  (∀ (n : Word) (s : State), Accepting s → n.toNat ≤ s.params.maxPduBytes → ¬ StatusDue s →
    s.tx.retxQ = [] → modBase s.tx.vtA s.tx.vtS < 512 →
    (s.tx.sduQ = [] ∨ n.toNat < 3 → exec (.readPdu n) s = .next (respond .ok [0] [] s)) ∧
    (s.tx.sduQ ≠ [] → 3 ≤ n.toNat → s.pool.free = [] →
      exec (.readPdu n) s = .next (respond .errPoolExhausted [0] [] s))) ∧
  (∀ (n : Word) (s : State) (rest : List RetxEntry) (r : RetxEntry) (t : TxEntry),
    Accepting s → n.toNat ≤ s.params.maxPduBytes → ¬ StatusDue s → s.tx.retxQ = r :: rest →
    tableGet s.tx.window r.sn.toNat = some t → r.soStart < r.soEnd → r.soEnd ≤ t.buf.length →
    (r.isSegment = true ∨
      n.toNat < 2 + (if t.hdr.rf then 2 else 0) + (t.hdr.li.length + (t.hdr.li.length + 1) / 2) +
        t.buf.length) →
    (n.toNat < 5 → exec (.readPdu n) s = .next (respond .ok [0] [] s)) ∧
    (5 ≤ n.toNat → ∃ (u : State) (pre : List Output) (pdu : List Byte),
      exec (.readPdu n) s = .next u ∧
      u.out = pre ++ [.response (responseOf .ok [BitVec.ofNat 32 pdu.length] pdu)] ∧
      5 ≤ pdu.length ∧ pdu.length ≤ n.toNat))

/-- R178: a whole-PDU entry at the head of the retransmission queue (after stale entries, which are
dropped) that fits the grant is sent with its stored header and payload and a fresh poll bit; the entry
leaves the queue; the two encodings of the header differ in bit 5 of byte 0 alone. -/
def Obligations.WholeRetransmission : Prop :=
  ∀ (n : Word) (s : State) (stale rest : List RetxEntry) (r : RetxEntry) (t : TxEntry),
    Accepting s → n.toNat ≤ s.params.maxPduBytes → ¬ StatusDue s →
    s.tx.retxQ = stale ++ r :: rest → (∀ e ∈ stale, validAt s.tx.window e.sn = false) →
    tableGet s.tx.window r.sn.toNat = some t → r.isSegment = false →
    2 + (if t.hdr.rf then 2 else 0) + (t.hdr.li.length + (t.hdr.li.length + 1) / 2) + t.buf.length
      ≤ n.toNat →
    exec (.readPdu n) s =
      .next (transmit t.hdr t.buf { s with tx := { s.tx with retxQ := rest } }) ∧
    ∃ (b0 : Byte) (tail : List Byte), b0.getLsbD 5 = false ∧
      encodeDataHeader { t.hdr with p := false } = b0 :: tail ∧
      encodeDataHeader { t.hdr with p := true } = (b0 ||| 0x20) :: tail

/-- R210, R212: an entry that is a segment, or does not fit whole, is sent as the longest segment that
fits the grant and the header capacity; header, framing bits and length indicators are rebuilt from the
parent's boundaries, `lsf` says whether the segment ends the parent, and the remainder replaces the
entry at the head. With no such segment nothing is sent and the queue keeps its head. For a segment
offset above 32767, which only `MAX_PDU_BYTES` above 32769 allows, R141 gives no encoding, and that the
PDU is sent with the low 15 bits of the offset is the model's choice (log entry 17). -/
def Obligations.SegmentRetransmission : Prop :=
  ∀ (n : Word) (s : State) (stale rest : List RetxEntry) (r : RetxEntry) (t : TxEntry),
    Accepting s → n.toNat ≤ s.params.maxPduBytes → ¬ StatusDue s →
    s.tx.retxQ = stale ++ r :: rest → (∀ e ∈ stale, validAt s.tx.window e.sn = false) →
    tableGet s.tx.window r.sn.toNat = some t → r.soEnd ≤ t.buf.length →
    (r.isSegment = true ∨
      n.toNat < 2 + (if t.hdr.rf then 2 else 0) + (t.hdr.li.length + (t.hdr.li.length + 1) / 2) +
        t.buf.length) →
    let bounds := (List.range t.hdr.li.length).map fun j => (t.hdr.li.take (j + 1)).sum
    let inner (e : Nat) := bounds.filter fun x => decide (r.soStart < x ∧ x < e)
    let fits (e : Nat) : Prop :=
      4 + ((inner e).length + ((inner e).length + 1) / 2) + (e - r.soStart) ≤ n.toNat ∧
        (inner e).length ≤ s.params.nLiMax
    (∀ e, r.soStart < e → e ≤ r.soEnd → fits e → (∀ e', e < e' → e' ≤ r.soEnd → ¬ fits e') →
      exec (.readPdu n) s = .next (transmit
        { dc := true, rf := true, p := false
          fiS := if r.soStart = 0 then t.hdr.fiS else !bounds.contains r.soStart
          fiE := if e = t.buf.length then t.hdr.fiE else !bounds.contains e
          sn := r.sn, lsf := decide (e = t.buf.length), so := r.soStart
          li := List.zipWith (· - ·) (inner e) (r.soStart :: inner e) }
        ((t.buf.drop r.soStart).take (e - r.soStart))
        { s with tx := { s.tx with retxQ :=
          if e < r.soEnd then ⟨r.sn, true, e, r.soEnd⟩ :: rest else rest } })) ∧
    ((∀ e, r.soStart < e → e ≤ r.soEnd → ¬ fits e) →
      exec (.readPdu n) s =
        .next (respond .ok [0] [] { s with tx := { s.tx with retxQ := r :: rest } }))

/-- R177, R173 (b), R266: with the window full and nothing queued for retransmission, READ_PDU queues
the oldest unacknowledged PDU whole and goes on to retransmit it. When READ_PDU or TEXP_POLL_RETX must
schedule it and the window floor is missing, the fatal failure is taken: `FAILED` is set,
`protocol_failure` is emitted, the command answers `ERR_PROTOCOL_FAILURE`, what was written before
stays, and nothing else changes. -/
def Obligations.OldestScheduled : Prop :=
  (∀ (n : Word) (s : State) (t : TxEntry), Accepting s → n.toNat ≤ s.params.maxPduBytes →
    ¬ StatusDue s → s.tx.retxQ = [] → 512 ≤ modBase s.tx.vtA s.tx.vtS →
    tableGet s.tx.window s.tx.vtA.toNat = some t →
    exec (.readPdu n) s = exec (.readPdu n)
      { s with tx := { s.tx with retxQ := [⟨s.tx.vtA, false, 0, t.buf.length⟩] } }) ∧
  (∀ (s : State), Accepting s → s.tx.vtA ≠ s.tx.vtS →
    tableGet s.tx.window s.tx.vtA.toNat = none →
    (∀ n : Word, n.toNat ≤ s.params.maxPduBytes → ¬ StatusDue s → s.tx.retxQ = [] →
      512 ≤ modBase s.tx.vtA s.tx.vtS →
      exec (.readPdu n) s = .next (respond .errProtocolFailure [0] []
        { s with failed := true, out := s.out ++ [.event .protocolFailure] })) ∧
    (s.tx.pollRetxRunning = true →
      (s.tx.retxQ = [] ∧ s.tx.sduQ = []) ∨ 512 ≤ modBase s.tx.vtA s.tx.vtS →
      exec .texpPollRetx s = .next (respond .errProtocolFailure [] []
        { s with
          failed := true
          tx := { s.tx with pollRetxRunning := false, pollRetxExpired := true }
          timers := { s.timers with pollRetx := false }
          out := s.out ++ [.event .protocolFailure] })))

/-- R173, R196 (4): in every branch READ_PDU returns at most `max_bytes` bytes, from any state. -/
def Obligations.GrantNeverExceeded : Prop :=
  ∀ (n : Word) (s t : State), exec (.readPdu n) s = .next t →
    ∃ (events : List Event) (c : ResultCode) (pdu : List Byte),
      t.out = s.out ++ events.map .event ++
        [.response (responseOf c [BitVec.ofNat 32 pdu.length] pdu)] ∧
      pdu.length ≤ n.toNat

/-- R193, R194, R271: TEXP_POLL_RETX stops the timer, sets the expired flag and, when both queues are
empty or the window is full, queues the oldest unacknowledged PDU (R177) unless it is queued already (a
missing one is `OldestScheduled`). TEXP_STATUS_PROHIBIT clears `STATUS_PROHIBIT_RUNNING`. A stale expiry
changes nothing. That the PDU is queued even when the retransmission queue holds `RETX_Q_CAPACITY`
entries (R28) is the model's reading of R177, which has no test (DEDUCED, log entry 16). -/
def Obligations.TransmitterExpiries : Prop :=
  ∀ s : State, Accepting s →
    let expired (q : List RetxEntry) : State :=
      { s with
        tx := { s.tx with pollRetxRunning := false, pollRetxExpired := true, retxQ := q }
        timers := { s.timers with pollRetx := false } }
    let wanted : Prop :=
      (s.tx.retxQ = [] ∧ s.tx.sduQ = []) ∨ 512 ≤ modBase s.tx.vtA s.tx.vtS
    (s.tx.pollRetxRunning = false → exec .texpPollRetx s = .next (respond .ok [] [] s)) ∧
    (s.tx.pollRetxRunning = true →
      (¬ wanted ∨ s.tx.vtA = s.tx.vtS →
        exec .texpPollRetx s = .next (respond .ok [] [] (expired s.tx.retxQ))) ∧
      (∀ t : TxEntry, wanted → s.tx.vtA ≠ s.tx.vtS →
        tableGet s.tx.window s.tx.vtA.toNat = some t →
        ((∃ e ∈ s.tx.retxQ, e.sn = s.tx.vtA) →
          exec .texpPollRetx s = .next (respond .ok [] [] (expired s.tx.retxQ))) ∧
        ((∀ e ∈ s.tx.retxQ, e.sn ≠ s.tx.vtA) →
          exec .texpPollRetx s = .next (respond .ok [] [] (expired
            (s.tx.retxQ ++ [⟨s.tx.vtA, false, 0, t.buf.length⟩])))))) ∧
    (s.tx.statusProhibitRunning = true → exec .texpStatusProhibit s = .next (respond .ok [] []
      { s with tx := { s.tx with statusProhibitRunning := false }
               timers := { s.timers with statusProhibit := false } })) ∧
    (s.tx.statusProhibitRunning = false →
      exec .texpStatusProhibit s = .next (respond .ok [] [] s))

/-- R195: GET_BUFFER_STATE adds the pending STATUS, every retransmission entry with its header estimate,
and the queued SDU bytes as if packed into one PDU; it writes nothing. Under `DUAL_SEQ` the first term
is any number up to that value (U12). A sum of 2^32 or more, which R135 (b) rules out and for which no
rule states the one result word, gives a word that nothing is said of: the model's choice (log
entry 20). The draw counter is the model's own field. -/
def Obligations.BufferStateSum : Prop :=
  ∀ s : State, Accepting s →
    let ceil (k : Nat) := k + (k + 1) / 2
    let retx : Nat := (s.tx.retxQ.map fun e =>
      match tableGet s.tx.window e.sn.toNat with
      | none => 0
      | some t => (e.soEnd - e.soStart) + 2 + (if e.isSegment then 2 else 0) +
          ceil t.hdr.li.length).sum
    let fresh : Nat := match s.tx.sduQ with
      | [] => 0
      | q => (q.map (·.bytes.length)).sum - s.tx.headOff + 2 + ceil (q.length - 1)
    let report := encodeStatus (statusReport s) s.params.maxPduBytes
    ∃ (term : Nat) (word : Word),
      exec .getBufferState s = .next (respond .ok [word] [] { s with
        draws := s.draws + (if s.params.dualSeq = true ∧ StatusDue s then 1 else 0) +
          (if term + retx + fresh < 2 ^ 32 then 0 else 1) }) ∧
      (term + retx + fresh < 2 ^ 32 → word.toNat = term + retx + fresh) ∧
      (¬ StatusDue s → term = 0) ∧ term ≤ report.length ∧
      (StatusDue s → s.params.dualSeq = false → term = report.length)

/-! ### STATUS reception -/

/-- R188, R220, R221, R261 (4): what HANDLE_CONTROL_PDU and WRITE_PDU drop, with the code each check
returns, in the order of the checks; a dropped PDU changes nothing and emits nothing. WRITE_PDU of a
STATUS PDU is HANDLE_CONTROL_PDU (R106). -/
def Obligations.DroppedPdus : Prop :=
  ∀ (b : List Byte) (s : State), Accepting s → b.length ≤ s.params.maxPduBytes →
    (decodeStatus b = none →
      exec (.handleControlPdu b) s = .next (respond .errCorruptHeader [] [] s)) ∧
    (∀ st, decodeStatus b = some st → modBase s.tx.vtA s.tx.vtS < modBase s.tx.vtA st.ackSn →
      exec (.handleControlPdu b) s = .next (respond .dropAckOutOfRange [] [] s)) ∧
    (b = [] → exec (.writePdu b) s = .next (respond .errCorruptHeader [] [] s)) ∧
    (∀ b0 rest, b = b0 :: rest → b0.getLsbD 7 = false →
      exec (.writePdu b) s = exec (.handleControlPdu b) s) ∧
    (∀ b0 rest, b = b0 :: rest → b0.getLsbD 7 = true →
      (decodeDataHeader s.params b = none →
        exec (.writePdu b) s = .next (respond .errCorruptHeader [] [] s)) ∧
      (∀ h len, decodeDataHeader s.params b = some (h, len) →
        (512 ≤ modBase s.rx.vrR h.sn →
          exec (.writePdu b) s = .next (respond .dropOutOfWindow [] [] s)) ∧
        (modBase s.rx.vrR h.sn < 512 → validAt s.rx.window h.sn = true →
          exec (.writePdu b) s = .next (respond .dropDuplicate [] [] s))))

/-- R188, R189, R190: an accepted STATUS is processed to the end. Of the SNs from `VT_A` up to but not
including `ack_sn`, those it does not NACK leave the window with their retransmission entries, and
those it NACKs stay, their counters one higher unless they were queued already; other SNs are
untouched. The floor then stands on the first SN left, or on `VT_S`. The poll timer stops if `POLL_SN`
was covered. The rest of the transmitter, the receiver and the configuration are unchanged. What is
queued is `NackQueuesRetransmission`, what the pool holds and what is reported `AckedSduReported`. -/
def Obligations.StatusWalk : Prop :=
  ∀ (b : List Byte) (s : State) (st : StatusPdu), Accepting s → b.length ≤ s.params.maxPduBytes →
    decodeStatus b = some st → modBase s.tx.vtA st.ackSn ≤ modBase s.tx.vtA s.tx.vtS → TxSound s →
    let n := modBase s.tx.vtA st.ackSn
    let acked (x : Sn) : Prop := modBase s.tx.vtA x < n ∧ isNacked st x = false
    ∃ t : State, exec (.handleControlPdu b) s = .next t ∧
      (∀ x : Sn,
        (acked x → tableGet t.tx.window x.toNat = none) ∧
        (modBase s.tx.vtA x < n → isNacked st x = true →
          tableGet t.tx.window x.toNat = (tableGet s.tx.window x.toNat).map fun e =>
            { e with retxCount :=
                if ∃ r ∈ s.tx.retxQ, r.sn = x then e.retxCount else e.retxCount + 1 }) ∧
        (n ≤ modBase s.tx.vtA x →
          tableGet t.tx.window x.toNat = tableGet s.tx.window x.toNat)) ∧
      (∀ x : Sn, modBase s.tx.vtA x < modBase s.tx.vtA t.tx.vtA →
        tableGet t.tx.window x.toNat = none) ∧
      modBase s.tx.vtA t.tx.vtA ≤ modBase s.tx.vtA s.tx.vtS ∧
      (t.tx.vtA = s.tx.vtS ∨ validAt t.tx.window t.tx.vtA = true) ∧
      (∀ r, r ∈ s.tx.retxQ → ¬ acked r.sn → r ∈ t.tx.retxQ) ∧
      (∀ r, r ∈ t.tx.retxQ → ¬ acked r.sn ∧ (r ∈ s.tx.retxQ ∨
        (modBase s.tx.vtA r.sn < n ∧ isNacked st r.sn = true ∧ ∀ e ∈ s.tx.retxQ, e.sn ≠ r.sn))) ∧
      t.tx.pollRetxRunning =
        (s.tx.pollRetxRunning && !decide (modBase s.tx.vtA s.tx.pollSn < n)) ∧
      t = { s with
        tx := { s.tx with vtA := t.tx.vtA, window := t.tx.window, retxQ := t.tx.retxQ
                          pollRetxRunning := t.tx.pollRetxRunning }
        pool := t.pool
        timers := { s.timers with pollRetx :=
          if s.tx.pollRetxRunning = true ∧ modBase s.tx.vtA s.tx.pollSn < n then false
          else s.timers.pollRetx }
        draws := t.draws, out := t.out }

/-- R189, R190, R191, R268: what an accepted STATUS queues for retransmission. For every NACKed PDU in the
window that was not queued when the STATUS came, each NACK element for its SN, in wire order, queues the
range it asks for (`requestedRange`) while the queue has room; what is acknowledged leaves the queue.
`notify_failure` is emitted, in SN order, for each PDU whose counter now equals `CFG.max_retx_thresh`,
with the PDCP SNs of its records. Second clause: a STATUS whose one NACK names the window floor, not
queued yet, with room in the queue, to the last field. Here the range asked for is written out: the
whole PDU when none is given, or when it does not fit the PDU or covers it; the wire end is inclusive and
0x7FFF is the end of the PDU. -/
def Obligations.NackQueuesRetransmission : Prop :=
  (∀ (b : List Byte) (s : State) (st : StatusPdu), Accepting s → b.length ≤ s.params.maxPduBytes →
    decodeStatus b = some st → modBase s.tx.vtA st.ackSn ≤ modBase s.tx.vtA s.tx.vtS →
    RecordsInUse s →
    let n := modBase s.tx.vtA st.ackSn
    ∃ (t : State) (deliveries : List Event), exec (.handleControlPdu b) s = .next t ∧
      t.tx.retxQ = retxQueueAfter s st n ∧
      (deliveries = [] ∨ ∃ qs, deliveries = [.notifyDelivery qs]) ∧
      t.out = s.out ++
        (if s.tx.pollRetxRunning = true ∧ modBase s.tx.vtA s.tx.pollSn < n then
          [.event (.timerStop .pollRetx)] else []) ++
        (failuresOf s st n ++ deliveries).map .event ++ [.response (responseOf .ok [] [])]) ∧
  (∀ (b : List Byte) (s : State) (e : Nack) (t : TxEntry), Accepting s →
    b.length ≤ s.params.maxPduBytes → decodeStatus b = some ⟨s.tx.vtA + 1, [e]⟩ →
    e.nackSn = s.tx.vtA → s.tx.vtA ≠ s.tx.vtS → tableGet s.tx.window s.tx.vtA.toNat = some t →
    (∀ r ∈ s.tx.retxQ, r.sn ≠ s.tx.vtA) → s.tx.retxQ.length < s.params.retxQCapacity →
    (s.tx.pollRetxRunning = true → s.tx.pollSn ≠ s.tx.vtA) →
    (∀ id ∈ t.segs, (tableGet s.pool.slots id).isSome = true) →
    let len := t.buf.length
    let stop := if e.soEnd = 0x7FFF then len else e.soEnd + 1
    let entry : RetxEntry :=
      if e.hasSo = true ∧ e.soStart < stop ∧ stop ≤ len ∧ (0 < e.soStart ∨ stop < len) then
        ⟨s.tx.vtA, true, e.soStart, stop⟩
      else ⟨s.tx.vtA, false, 0, len⟩
    let sns := (t.segs.filterMap fun id => (tableGet s.pool.slots id).map (·.pdcpSn)).eraseDups
    exec (.handleControlPdu b) s = .next (respond .ok [] [] { s with
      tx := { s.tx with
        retxQ := s.tx.retxQ ++ [entry]
        window := tableSet s.tx.window s.tx.vtA.toNat { t with retxCount := t.retxCount + 1 } }
      out := s.out ++
        (if t.retxCount + 1 = s.cfg.maxRetxThresh then [.event (.notifyFailure sns)] else []) }))

/-- R190, R192, R48: what an accepted STATUS does to the pool and which SDUs it reports. The records of the
PDUs it acknowledges have their RLC halves released. Reported, in the order in which they were first
touched, are exactly the PDCP SNs of those records that are not partly sent and whose every record has
its RLC half released, before or now; their records leave the pool, onto `FREE`. Every other slot is as
it was. With nothing to report no event is emitted. Second clause: the acknowledgement of the window
floor, whose PDU carries the one record of an SDU that is wholly sent, to the last field. -/
def Obligations.AckedSduReported : Prop :=
  (∀ (b : List Byte) (s : State) (st : StatusPdu), Accepting s → b.length ≤ s.params.maxPduBytes →
    decodeStatus b = some st → modBase s.tx.vtA st.ackSn ≤ modBase s.tx.vtA s.tx.vtS →
    PoolSound s → RecordsInUse s →
    let released := ackedRecords s.tx.window st s.tx.vtA (modBase s.tx.vtA st.ackSn)
    let recordsOf (q : Word) := s.pool.slots.filter fun e => decide (e.2.pdcpSn = q)
    let sns := (pdcpSnsAt s.pool released).filter fun q =>
      (recordsOf q).all (fun e => e.2.rlcReleased || released.contains e.1) &&
        !(decide (0 < s.tx.headOff) && (s.tx.sduQ.head?.any fun h => decide (h.pdcpSn = q)))
    ∃ (t : State) (before : List Output), exec (.handleControlPdu b) s = .next t ∧
      (∀ k : Nat, tableGet t.pool.slots k =
        match tableGet s.pool.slots k with
        | none => none
        | some slot =>
          if slot.pdcpSn ∈ sns then none
          else some { slot with rlcReleased := slot.rlcReleased || released.contains k }) ∧
      t.pool.free = (sns.flatMap fun q => (recordsOf q).map (·.1)).reverse ++ s.pool.free ∧
      (∀ qs, .event (.notifyDelivery qs) ∉ before) ∧
      t.out = s.out ++ before ++ (if sns = [] then [] else [.event (.notifyDelivery sns)]) ++
        [.response (responseOf .ok [] [])]) ∧
  (∀ (b : List Byte) (s : State) (t : TxEntry) (id : Nat) (slot : Slot), Accepting s →
    b.length ≤ s.params.maxPduBytes → decodeStatus b = some ⟨s.tx.vtA + 1, []⟩ →
    s.tx.vtA ≠ s.tx.vtS → tableGet s.tx.window s.tx.vtA.toNat = some t → t.segs = [id] →
    s.tx.vtA + 1 = s.tx.vtS ∨ validAt s.tx.window (s.tx.vtA + 1) = true →
    PoolSound s → tableGet s.pool.slots id = some slot → slot.pdcpReleased = false →
    (∀ e ∈ s.pool.slots, e.2.pdcpSn = slot.pdcpSn → e.1 = id) →
    (s.tx.sduQ = [] ∨ s.tx.headOff = 0) → s.tx.pollRetxRunning = false →
    exec (.handleControlPdu b) s = .next (respond .ok [] [] { s with
      tx := { s.tx with
        vtA := s.tx.vtA + 1
        window := tableErase s.tx.window s.tx.vtA.toNat
        retxQ := s.tx.retxQ.filter fun e => decide (e.sn ≠ s.tx.vtA) }
      pool := { slots := tableErase s.pool.slots id, free := id :: s.pool.free }
      out := s.out ++ [.event (.notifyDelivery [slot.pdcpSn])] }))

/-- R192, R268, R48: HANDLE_CONTROL_PDU emits, in this order, at most one `timer_stop` (for POLL_RETX),
the `notify_failure` events, and at most one `notify_delivery`. A PDCP SN is reported only when some
record of it was in the pool and every one had its RLC half released, before this STATUS or because this
STATUS acknowledges its PDU. A reported PDCP SN is listed once, is not partly sent, and has no record
left, so that POOL_IS_ACKED answers 0 for it and no later STATUS reports it again from those records. -/
def Obligations.DeliveryReportedOnce : Prop :=
  ∀ (b : List Byte) (s t : State), PoolSound s → exec (.handleControlPdu b) s = .next t →
    ∃ (stops failures deliveries : List Event) (c : ResultCode),
      t.out = s.out ++ (stops ++ failures ++ deliveries).map .event ++
        [.response (responseOf c [] [])] ∧
      (stops = [] ∨ stops = [.timerStop .pollRetx]) ∧
      (∀ e ∈ failures, ∃ qs, e = .notifyFailure qs) ∧
      (deliveries = [] ∨ ∃ qs, deliveries = [.notifyDelivery qs] ∧ qs ≠ [] ∧ qs.Nodup ∧
        ∀ q ∈ qs, isSduFullyAcked t.pool q = false ∧ (∀ e ∈ t.pool.slots, e.2.pdcpSn ≠ q) ∧
          (∀ head ∈ t.tx.sduQ.head?, head.pdcpSn = q → t.tx.headOff = 0) ∧
          (∃ e ∈ s.pool.slots, e.2.pdcpSn = q) ∧
          (∀ e ∈ s.pool.slots, e.2.pdcpSn = q → e.2.rlcReleased = true ∨
            ∃ st ∈ decodeStatus b,
              e.1 ∈ ackedRecords s.tx.window st s.tx.vtA (modBase s.tx.vtA st.ackSn)))

/-! ### Receiver -/

/-- R220, R222, R224, R225, R226, R230: an accepted complete Data PDU. The command completes. The
window holds the PDU (and no segments of its SN), then everything from the old `VR_R` up to the first
SN not fully received is consumed and leaves both tables; `VR_H` is raised past the SN, `VR_MS` stands
on the first SN at or after its old value not fully received, the poll is remembered and a STATUS is
due at once when the SN is below `VR_MS` (`ReceiverMoved`). The transmitter, the pool, the configuration
and the counters of the engine are unchanged; a byte of the PDU still in the window reads as it was
written. -/
def Obligations.CompletePduStored : Prop :=
  ∀ (b : List Byte) (s : State) (h : Header) (len : Nat), Accepting s → RxSound s →
    b.length ≤ s.params.maxPduBytes → decodeDataHeader s.params b = some (h, len) → h.rf = false →
    modBase s.rx.vrR h.sn < 512 → validAt s.rx.window h.sn = false →
    ∃ t : State, exec (.writePdu b) s = .next t ∧
      ReceiverMoved s t h
        (fun x => if x = h.sn then some ⟨h, b.drop len⟩ else tableGet s.rx.window x.toNat)
        (fun x => if x = h.sn then none else tableGet s.rx.segments x.toNat) ∧
      (∀ off, modBase s.rx.vrR t.rx.vrR ≤ modBase s.rx.vrR h.sn →
        byteAt t .rxPdu h.sn.toNat off = (b.drop len)[off]?)

/-- R228, R220: after an accepted Data PDU, complete (which the window test accepts) or a segment (which the
merge accepts too), the reordering timer runs exactly when `VR_H` is ahead of `VR_R`. It keeps its snapshot
`VR_X` while that is still ahead of `VR_R`; otherwise it is stopped, and armed again with `VR_X = VR_H` and
`CFG.t_reordering`. Its events come after the delivered SDUs. -/
def Obligations.ReorderingTimerRule : Prop :=
  ∀ (b : List Byte) (s t : State) (h : Header) (len : Nat), Accepting s → RxSound s →
    b.length ≤ s.params.maxPduBytes → decodeDataHeader s.params b = some (h, len) →
    modBase s.rx.vrR h.sn < 512 → validAt s.rx.window h.sn = false →
    exec (.writePdu b) s = .next t →
    (h.rf = false ∨ ∃ pre, t.out = pre ++ [.response (responseOf .ok [] [])]) →
    let kept : Prop := s.rx.reordRunning = true ∧
      modBase s.rx.vrR t.rx.vrR < modBase s.rx.vrR s.rx.vrX
    t.rx.reordRunning = decide (0 < modBase t.rx.vrR t.rx.vrH) ∧
    t.rx.vrX = (if t.rx.reordRunning = true ∧ ¬ kept then t.rx.vrH else s.rx.vrX) ∧
    ∃ sdus : List (List Byte), t.out = s.out ++ sdus.map (fun d => .event (.deliverSdu d)) ++
      (if s.rx.reordRunning = true ∧ ¬ kept then [.event (.timerStop .reordering)] else []) ++
      (if t.rx.reordRunning = true ∧ ¬ kept then
        [.event (.timerStart .reordering s.cfg.tReordering)] else []) ++
      [.response (responseOf .ok [] [])]

/-- R230, R231, R74: what is delivered when a complete Data PDU is accepted. All PDUs from the old `VR_R` up
to the first SN not fully received are consumed in SN order, each cut at its length indicators
(`SdusDelivered`): every fragment that ends an SDU is delivered with what came before it, in order, byte
for byte; a continuation of nothing, an unfinished SDU followed by a fragment that starts a new one, and
an SDU of more than `MAX_SDU_BYTES` bytes are discarded silently. Second clause: the PDU at `VR_R` with
the next SN still missing is consumed at once, written out for SDUs that are not too long and a
continuation that has an SDU to continue; a last fragment that does not end one stays in `RX_SDU`. -/
def Obligations.InOrderDelivery : Prop :=
  (∀ (b : List Byte) (s : State) (h : Header) (len : Nat), Accepting s → RxSound s →
    b.length ≤ s.params.maxPduBytes → decodeDataHeader s.params b = some (h, len) → h.rf = false →
    modBase s.rx.vrR h.sn < 512 → validAt s.rx.window h.sn = false →
    ∃ t : State, exec (.writePdu b) s = .next t ∧ SdusDelivered s t fun x =>
      if x = h.sn then some ⟨h, b.drop len⟩ else tableGet s.rx.window x.toNat) ∧
  (∀ (b : List Byte) (s : State) (h : Header) (len : Nat) (first : List Byte)
    (others : List (List Byte)), Accepting s → RxSound s → b.length ≤ s.params.maxPduBytes →
    decodeDataHeader s.params b = some (h, len) → h.rf = false → h.sn = s.rx.vrR →
    validAt s.rx.window (s.rx.vrR + 1) = false →
    fragmentsOf h.li (b.drop len) = first :: others →
    (h.fiS = true → s.rx.sduActive = true) →
    let sdus := ((if h.fiS then s.rx.sdu else []) ++ first) :: others
    (∀ x ∈ sdus, x.length ≤ s.params.maxSduBytes) →
    ∃ (t : State) (timer : List Output), exec (.writePdu b) s = .next t ∧
      t.rx.vrR = s.rx.vrR + 1 ∧
      (∀ o ∈ timer, o = .event (.timerStop .reordering) ∨
        o = .event (.timerStart .reordering s.cfg.tReordering)) ∧
      t.out = s.out ++
        (if h.fiE then sdus.dropLast else sdus).map (fun d => .event (.deliverSdu d)) ++
        timer ++ [.response (responseOf .ok [] [])] ∧
      t.rx.sdu = (if h.fiE then sdus.getLast (List.cons_ne_nil _ _) else []) ∧
      t.rx.sduActive = h.fiE)

/-- R223, R220, R224 to R231: a segment that contradicts a known total length is corrupt, one that brings no
new byte is a duplicate, and neither changes anything. Otherwise it is accepted. `e` is the entry merged
from what was held and the segment (`SegmentMerged`: bytes, boundaries, total length, framing bits).
While some byte of the parent is missing, or its length is not known, `e` stands in the segment store and
the reception window holds nothing for the SN. Once all are held the rebuilt parent stands in the window
and the segments of the SN are gone. Then `VR_H`, `VR_MS`, the poll, `VR_R` and the tables move as for any
accepted PDU (`ReceiverMoved`), and what is consumed is delivered (`SdusDelivered`). -/
def Obligations.SegmentMerge : Prop :=
  ∀ (b : List Byte) (s : State) (h : Header) (len : Nat), Accepting s → RxSound s →
    b.length ≤ s.params.maxPduBytes → decodeDataHeader s.params b = some (h, len) → h.rf = true →
    modBase s.rx.vrR h.sn < 512 → validAt s.rx.window h.sn = false →
    let d := b.drop len
    let stop := h.so + d.length
    let held (off : Nat) : Option Byte := byteAt s .rxSegment h.sn.toNat off
    let contradicts : Prop := ∃ e ∈ tableGet s.rx.segments h.sn.toNat,
      (e.tlKnown = true ∧ e.tl < stop) ∨ (h.lsf = true ∧ e.tlKnown = true ∧ stop ≠ e.tl) ∨
      (h.lsf = true ∧ ∃ r ∈ e.ranges, stop < r.so + r.bytes.length)
    let complete (e : SegEntry) : Prop := e.tlKnown = true ∧
      ∀ off, off < e.tl → (rangeByte e.ranges off).isSome = true
    let stored (parent : Option RxEntry) (x : Sn) : Option RxEntry :=
      if x = h.sn then parent else tableGet s.rx.window x.toNat
    (contradicts → exec (.writePdu b) s = .next (respond .errCorruptHeader [] [] s)) ∧
    (¬ contradicts → (∀ off, h.so ≤ off → off < stop → (held off).isSome = true) →
      exec (.writePdu b) s = .next (respond .dropDuplicate [] [] s)) ∧
    (¬ contradicts → (∃ off, h.so ≤ off ∧ off < stop ∧ held off = none) →
      ∃ (t : State) (e : SegEntry) (parent : Option RxEntry), exec (.writePdu b) s = .next t ∧
        SegmentMerged
          ((tableGet s.rx.segments h.sn.toNat).getD ⟨[], [], false, 0, false, false, false⟩) e h d ∧
        (¬ complete e → parent = none) ∧
        (complete e → e.fiSKnown = true ∧ ∃ bytes : List Byte,
          parent = some (parentOf h.sn e bytes) ∧ bytes.length = e.tl ∧
          ∀ off, bytes[off]? = rangeByte e.ranges off) ∧
        ReceiverMoved s t h (stored parent)
          (fun x => if x = h.sn then (if parent.isSome then none else some e)
            else tableGet s.rx.segments x.toNat) ∧
        SdusDelivered s t (stored parent))

/-- R214, R210, R223: the two segments that `build_segment` makes of a parent PDU cut at any offset,
written to a receiver in either order, rebuild the parent: header (but for the poll bit), length
indicators and payload. The SN is inside the window, above `VR_R`, with nothing of it received yet. -/
def Obligations.SegmentsRebuildParent : Prop :=
  ∀ (s : State) (h : Header) (d : List Byte) (m : Nat), Accepting s → RxSound s →
    headerEncodable s.params h = true → h.rf = false → h.li.sum < d.length →
    0 < m → m < d.length → d.length ≤ 32767 →
    modBase s.rx.vrR h.sn < 512 → h.sn ≠ s.rx.vrR → validAt s.rx.window h.sn = false →
    validAt s.rx.segments h.sn = false →
    let front := encodeDataHeader (segmentHeader h h.sn d.length 0 m) ++ d.take m
    let back := encodeDataHeader (segmentHeader h h.sn d.length m d.length) ++ d.drop m
    front.length ≤ s.params.maxPduBytes → back.length ≤ s.params.maxPduBytes →
    ∃ a t a' t' : State,
      exec (.writePdu front) s = .next a ∧ exec (.writePdu back) a = .next t ∧
      exec (.writePdu back) s = .next a' ∧ exec (.writePdu front) a' = .next t' ∧
      tableGet t.rx.window h.sn.toNat = some ⟨{ h with p := false }, d⟩ ∧
      tableGet t'.rx.window h.sn.toNat = some ⟨{ h with p := false }, d⟩ ∧
      validAt t.rx.segments h.sn = false ∧ validAt t'.rx.segments h.sn = false

/-- R221: duplicate idempotence. A complete Data PDU that was accepted once is dropped the second time,
as a duplicate or as out of window, and changes nothing. -/
def Obligations.DuplicateIdempotent : Prop :=
  ∀ (b : List Byte) (s t : State) (h : Header) (len : Nat), Accepting s → RxSound s →
    b.length ≤ s.params.maxPduBytes → decodeDataHeader s.params b = some (h, len) → h.rf = false →
    modBase s.rx.vrR h.sn < 512 → validAt s.rx.window h.sn = false →
    exec (.writePdu b) s = .next t →
    exec (.writePdu b) t = .next (respond .dropDuplicate [] [] t) ∨
      exec (.writePdu b) t = .next (respond .dropOutOfWindow [] [] t)

/-- R235, R271: TEXP_REORDERING. A stale expiry changes nothing. Otherwise the SNs from `VR_MS` up to but
not including `VR_X` that are not fully received are counted lost, `VR_MS` moves to the first SN not
fully received at or after the later of the two, a STATUS becomes due if a poll was received, and the
timer is armed again, with `VR_X = VR_H`, exactly when `VR_H` is still ahead of `VR_MS`. -/
def Obligations.ReorderingExpiry : Prop :=
  ∀ s : State, Accepting s →
    (s.rx.reordRunning = false → exec .texpReordering s = .next (respond .ok [] [] s)) ∧
    (s.rx.reordRunning = true → RxSound s →
      let d (x : Sn) := modBase s.rx.vrR x
      let start := if d s.rx.vrMs < d s.rx.vrX then s.rx.vrX else s.rx.vrMs
      let lost := ((List.range 1024).filter fun k =>
        decide (d s.rx.vrMs ≤ k ∧ k < d s.rx.vrX) &&
          !validAt s.rx.window (s.rx.vrR + BitVec.ofNat 10 k)).length
      ∃ m : Sn, d start ≤ d m ∧ validAt s.rx.window m = false ∧
        (∀ x : Sn, d start ≤ d x → d x < d m → validAt s.rx.window x = true) ∧
        let again := decide (d m < d s.rx.vrH)
        exec .texpReordering s = .next (respond .ok [] [] { s with
          lostPduCount := s.lostPduCount + BitVec.ofNat 32 lost
          rx := { s.rx with
            vrMs := m
            doStatus := s.rx.doStatus || s.rx.pollReceived
            vrX := if again then s.rx.vrH else s.rx.vrX
            reordRunning := again }
          timers := { s.timers with reordering := again }
          out := s.out ++
            (if again then [.event (.timerStart .reordering s.cfg.tReordering)] else []) }))

/-- R240: GET_STATUS_PDU returns the encoding, truncated to the grant (R145), of `ack_sn = VR_MS` with
one whole-SN NACK for every SN of `[VR_R, VR_MS)` not fully received, in rising order; it writes
nothing. With the receiver invariant there are at most 512 of them (R22). -/
def Obligations.StatusReport : Prop :=
  ∀ (n : Word) (s : State), Accepting s → n.toNat ≤ s.params.maxPduBytes →
    ∃ missing : List Sn,
      (∀ x : Sn, x ∈ missing ↔
        modBase s.rx.vrR x < modBase s.rx.vrR s.rx.vrMs ∧ validAt s.rx.window x = false) ∧
      missing.Pairwise (fun x y => modBase s.rx.vrR x < modBase s.rx.vrR y) ∧
      (RxSound s → missing.length ≤ 512) ∧
      let report := encodeStatus
        ⟨s.rx.vrMs, missing.map fun x => ⟨x, false, 0, 0⟩⟩ n.toNat
      exec (.getStatusPdu n) s =
        .next (respond .ok [BitVec.ofNat 32 report.length] report s)

/-- R74, R196 (5), R245 (3): one SDU crosses the link. The SDU alone in a transmitter's queue, read with
a grant that holds it and written to a receiver that expects its SN, is delivered whole and unaltered,
once. -/
def Obligations.SduCrossesLink : Prop :=
  ∀ (n q : Word) (sdu : List Byte) (s r : State), Accepting s → Accepting r → RxSound r →
    ¬ StatusDue s → s.tx.retxQ = [] → modBase s.tx.vtA s.tx.vtS < 512 →
    s.tx.sduQ = [⟨q, sdu⟩] → s.tx.headOff = 0 → sdu ≠ [] → s.pool.free ≠ [] →
    sdu.length + 2 ≤ n.toNat → n.toNat ≤ s.params.maxPduBytes →
    sdu.length + 2 ≤ r.params.maxPduBytes → sdu.length ≤ r.params.maxSduBytes →
    r.rx.vrR = s.tx.vtS → validAt r.rx.window (r.rx.vrR + 1) = false →
    ∃ (t u : State) (pre mid : List Output) (pdu : List Byte),
      exec (.readPdu n) s = .next t ∧
      t.out = pre ++ [.response (responseOf .ok [BitVec.ofNat 32 pdu.length] pdu)] ∧
      exec (.writePdu pdu) r = .next u ∧
      u.out = r.out ++ [.event (.deliverSdu sdu)] ++ mid ++ [.response (responseOf .ok [] [])] ∧
      ∀ x, .event (.deliverSdu x) ∉ mid

/-! ### Frames and invariants -/

/-- R70: which commands leave which buffer bytes alone. The commands that store nothing leave every
byte of all five spaces as it was; READ_PDU writes only the Tx PDU store at `VT_S` (and pops the SDU
queue); DISCARD_SDU moves only queue positions; HANDLE_CONTROL_PDU only frees entries of the Tx PDU
store; WRITE_PDU of a Data PDU leaves the two transmitter spaces alone. -/
def Obligations.MemoryFrame : Prop :=
  (∀ (i : Instr) (s t : State), exec i s = .next t →
    (isObservation i = true ∨ (∃ v0 v1 v2 v3 v4 v5 v6, i = .configure v0 v1 v2 v3 v4 v5 v6) ∨
      i = .getBufferState ∨ (∃ n, i = .getStatusPdu n) ∨ i = .texpPollRetx ∨ i = .texpReordering ∨
      i = .texpStatusProhibit) →
    ∀ space owner off, byteAt t space owner off = byteAt s space owner off) ∧
  (∀ (n : Word) (s t : State), exec (.readPdu n) s = .next t → ∀ space owner off,
    space ≠ .sdu → ¬ (space = .txPdu ∧ owner = s.tx.vtS.toNat) →
    byteAt t space owner off = byteAt s space owner off) ∧
  (∀ (q : Word) (s t : State), exec (.discardSdu q) s = .next t → ∀ space owner off,
    space ≠ .sdu → byteAt t space owner off = byteAt s space owner off) ∧
  (∀ (b : List Byte) (s t : State), exec (.handleControlPdu b) s = .next t → ∀ space owner off,
    byteAt t space owner off = byteAt s space owner off ∨
      (space = .txPdu ∧ tableGet t.tx.window owner = none)) ∧
  (∀ (b : List Byte) (s t : State), exec (.writePdu b) s = .next t →
    (∃ b0 ∈ b.head?, b0.getLsbD 7 = true) → ∀ space owner off,
    space = .sdu ∨ space = .txPdu → byteAt t space owner off = byteAt s space owner off)

/-- R40, R34, R35, R81, R266, C1: who may write what. `CFG.*` changes only by CONFIGURE (and becomes
unspecified by RESET), `CFG_VALID` only by those two, `ENABLED` becomes 1 only by REESTABLISH, `FAILED`
is left only by RESET, STOP and REESTABLISH, `TX_SDU_COUNT` changes only by WRITE_SDU and RESET,
`LOST_PDU_COUNT` only by TEXP_REORDERING and RESET; a received STATUS changes no receiver state and a
received Data PDU no transmitter state. The parameters never change. -/
def Obligations.WhoWritesWhat : Prop :=
  ∀ (i : Instr) (s t : State), exec i s = .next t →
    let clears : Prop := i = .reset ∨ i = .reestablish ∨ i = .stop
    let configures : Prop := ∃ v0 v1 v2 v3 v4 v5 v6, i = .configure v0 v1 v2 v3 v4 v5 v6
    t.params = s.params ∧
    (i ≠ .reset → ¬ configures → t.cfg = s.cfg ∧ t.cfgValid = s.cfgValid) ∧
    (s.enabled = false → t.enabled = true → i = .reestablish) ∧
    (s.failed = true → t.failed = false → clears) ∧
    (s.failed = false → t.failed = true → i = .texpPollRetx ∨ ∃ n, i = .readPdu n) ∧
    (t.txSduCount ≠ s.txSduCount → i = .reset ∨ ∃ q d, i = .writeSdu q d) ∧
    (t.lostPduCount ≠ s.lostPduCount → i = .reset ∨ i = .texpReordering) ∧
    (∀ b, (i = .handleControlPdu b ∨
      (i = .writePdu b ∧ ∃ b0 ∈ b.head?, b0.getLsbD 7 = false)) → t.rx = s.rx) ∧
    (∀ b, i = .writePdu b → (∃ b0 ∈ b.head?, b0.getLsbD 7 = true) →
      t.tx = s.tx ∧ t.pool = s.pool)

/-- R45, R46, R23, R26: every step keeps the transmitter invariant: the window never overflows, every
PDU in it has buffer and header, the floor is there, the queue and the retransmission ranges are
sound. -/
def Obligations.TxInvariant : Prop :=
  ∀ s t : State, TxSound s → step s = .next t → TxSound t

/-- R47, R245 (1) (4), R31, R32, R228: every step keeps the receiver invariant. -/
def Obligations.RxInvariant : Prop :=
  ∀ s t : State, RxSound s → step s = .next t → RxSound t

/-- R33, R50, R34, R40, R26: every step keeps the pool and its free stack complementary, the running
flags in agreement with the timer service, an enabled engine configured, the SDU queue bounded, and
(with the pool and windows sound) the canonical form of memory. -/
def Obligations.ControlInvariants : Prop :=
  ∀ s t : State, step s = .next t →
    (PoolSound s → PoolSound t) ∧ (TimersAgree s → TimersAgree t) ∧
    (ConfigSound s → ConfigSound t) ∧ (QueueBounded s → QueueBounded t) ∧
    (Memory.wf s = true → TxSound s → RxSound s → PoolSound s → Memory.wf t = true)

/-- R290, R45 to R47: the state after reset, for all legal parameters, has the invariant. -/
def Obligations.InvariantAtReset : Prop :=
  EngineSound State.reset ∧ ∀ p : Params, p.valid = true → EngineSound (State.initial p)

/-- R83, R305: from every state with the invariant, whatever stands on the command port, a step
completes: no fault and no refusal, and the invariant holds again. -/
def Obligations.EveryStepCompletes : Prop :=
  ∀ s : State, EngineSound s → s.params.valid = true →
    ∃ t : State, step s = .next t ∧ EngineSound t

/-- R266: the fatal failure is unreachable: from a state with the transmitter invariant no step sets
`FAILED` or emits `protocol_failure`. -/
def Obligations.FailureUnreachable : Prop :=
  ∀ s t : State, TxSound s → s.failed = false → step s = .next t →
    t.failed = false ∧ ∃ added, t.out = s.out ++ added ∧ .event .protocolFailure ∉ added
end

