-- ==== Sys2Proof/Laws/State.lean ====
section
/-!
SUPPORT. One lemma per field per state update: what an operation of Sys2Proof/Machine/Ops.lean leaves in
each field of the state. All hold by unfolding alone; later proofs cite them instead of the record.
-/
namespace Sys2Proof.Machine


/-! ### Outputs -/

@[simp] theorem emit_params (e : Event) (s : State) : (emit e s).params = s.params := rfl
@[simp] theorem emit_cfg (e : Event) (s : State) : (emit e s).cfg = s.cfg := rfl
@[simp] theorem emit_enabled (e : Event) (s : State) : (emit e s).enabled = s.enabled := rfl
@[simp] theorem emit_failed (e : Event) (s : State) : (emit e s).failed = s.failed := rfl
@[simp] theorem emit_cfgValid (e : Event) (s : State) : (emit e s).cfgValid = s.cfgValid := rfl
@[simp] theorem emit_tx (e : Event) (s : State) : (emit e s).tx = s.tx := rfl
@[simp] theorem emit_pool (e : Event) (s : State) : (emit e s).pool = s.pool := rfl
@[simp] theorem emit_rx (e : Event) (s : State) : (emit e s).rx = s.rx := rfl
@[simp] theorem emit_txSduCount (e : Event) (s : State) : (emit e s).txSduCount = s.txSduCount := rfl
@[simp] theorem emit_lostPduCount (e : Event) (s : State) : (emit e s).lostPduCount = s.lostPduCount := rfl
@[simp] theorem emit_timers (e : Event) (s : State) : (emit e s).timers = s.timers := rfl
@[simp] theorem emit_clearing (e : Event) (s : State) : (emit e s).clearing = s.clearing := rfl
@[simp] theorem emit_port (e : Event) (s : State) : (emit e s).port = s.port := rfl
@[simp] theorem emit_out (e : Event) (s : State) : (emit e s).out = s.out ++ [.event e] := rfl
@[simp] theorem emit_draws (e : Event) (s : State) : (emit e s).draws = s.draws := rfl

@[simp] theorem respond_params (c : ResultCode) (rs : List Word) (b : List Byte) (s : State) :
    (respond c rs b s).params = s.params := rfl
@[simp] theorem respond_cfg (c : ResultCode) (rs : List Word) (b : List Byte) (s : State) :
    (respond c rs b s).cfg = s.cfg := rfl
@[simp] theorem respond_enabled (c : ResultCode) (rs : List Word) (b : List Byte) (s : State) :
    (respond c rs b s).enabled = s.enabled := rfl
@[simp] theorem respond_failed (c : ResultCode) (rs : List Word) (b : List Byte) (s : State) :
    (respond c rs b s).failed = s.failed := rfl
@[simp] theorem respond_cfgValid (c : ResultCode) (rs : List Word) (b : List Byte) (s : State) :
    (respond c rs b s).cfgValid = s.cfgValid := rfl
@[simp] theorem respond_tx (c : ResultCode) (rs : List Word) (b : List Byte) (s : State) :
    (respond c rs b s).tx = s.tx := rfl
@[simp] theorem respond_pool (c : ResultCode) (rs : List Word) (b : List Byte) (s : State) :
    (respond c rs b s).pool = s.pool := rfl
@[simp] theorem respond_rx (c : ResultCode) (rs : List Word) (b : List Byte) (s : State) :
    (respond c rs b s).rx = s.rx := rfl
@[simp] theorem respond_txSduCount (c : ResultCode) (rs : List Word) (b : List Byte) (s : State) :
    (respond c rs b s).txSduCount = s.txSduCount := rfl
@[simp] theorem respond_lostPduCount (c : ResultCode) (rs : List Word) (b : List Byte) (s : State) :
    (respond c rs b s).lostPduCount = s.lostPduCount := rfl
@[simp] theorem respond_timers (c : ResultCode) (rs : List Word) (b : List Byte) (s : State) :
    (respond c rs b s).timers = s.timers := rfl
@[simp] theorem respond_clearing (c : ResultCode) (rs : List Word) (b : List Byte) (s : State) :
    (respond c rs b s).clearing = s.clearing := rfl
@[simp] theorem respond_port (c : ResultCode) (rs : List Word) (b : List Byte) (s : State) :
    (respond c rs b s).port = s.port := rfl
@[simp] theorem respond_out (c : ResultCode) (rs : List Word) (b : List Byte) (s : State) :
    (respond c rs b s).out = s.out ++ [.response (responseOf c rs b)] := rfl
@[simp] theorem respond_draws (c : ResultCode) (rs : List Word) (b : List Byte) (s : State) :
    (respond c rs b s).draws = s.draws := rfl

@[simp] theorem respondError_eq (c : ResultCode) (m : Nat) (s : State) :
    respondError c m s = respond c (List.replicate m 0) [] s := rfl
@[simp] theorem respondBytes_eq (b : List Byte) (s : State) :
    respondBytes b s = respond .ok [BitVec.ofNat 32 b.length] b s := rfl


/-! ### Timers -/

/-- `setTimer` in one form for all three timers: the running flag and the pending expiry of the timer
named, and nothing else. -/
theorem setTimer_eq (t : TimerId) (b : Bool) (s : State) :
    setTimer t b s = { s with
      tx := { s.tx with
        pollRetxRunning := if t = .pollRetx then b else s.tx.pollRetxRunning
        statusProhibitRunning := if t = .statusProhibit then b else s.tx.statusProhibitRunning }
      rx := { s.rx with reordRunning := if t = .reordering then b else s.rx.reordRunning }
      timers := {
        pollRetx := if t = .pollRetx then b else s.timers.pollRetx
        reordering := if t = .reordering then b else s.timers.reordering
        statusProhibit := if t = .statusProhibit then b else s.timers.statusProhibit } } := by
  cases t <;> rfl

@[simp] theorem setTimer_params (t : TimerId) (b : Bool) (s : State) : (setTimer t b s).params = s.params := by
  cases t <;> rfl
@[simp] theorem setTimer_cfg (t : TimerId) (b : Bool) (s : State) : (setTimer t b s).cfg = s.cfg := by
  cases t <;> rfl
@[simp] theorem setTimer_enabled (t : TimerId) (b : Bool) (s : State) : (setTimer t b s).enabled = s.enabled := by
  cases t <;> rfl
@[simp] theorem setTimer_failed (t : TimerId) (b : Bool) (s : State) : (setTimer t b s).failed = s.failed := by
  cases t <;> rfl
@[simp] theorem setTimer_cfgValid (t : TimerId) (b : Bool) (s : State) : (setTimer t b s).cfgValid = s.cfgValid := by
  cases t <;> rfl
@[simp] theorem setTimer_pool (t : TimerId) (b : Bool) (s : State) : (setTimer t b s).pool = s.pool := by
  cases t <;> rfl
@[simp] theorem setTimer_txSduCount (t : TimerId) (b : Bool) (s : State) : (setTimer t b s).txSduCount = s.txSduCount := by
  cases t <;> rfl
@[simp] theorem setTimer_lostPduCount (t : TimerId) (b : Bool) (s : State) : (setTimer t b s).lostPduCount = s.lostPduCount := by
  cases t <;> rfl
@[simp] theorem setTimer_clearing (t : TimerId) (b : Bool) (s : State) : (setTimer t b s).clearing = s.clearing := by
  cases t <;> rfl
@[simp] theorem setTimer_port (t : TimerId) (b : Bool) (s : State) : (setTimer t b s).port = s.port := by
  cases t <;> rfl
@[simp] theorem setTimer_out (t : TimerId) (b : Bool) (s : State) : (setTimer t b s).out = s.out := by
  cases t <;> rfl
@[simp] theorem setTimer_draws (t : TimerId) (b : Bool) (s : State) : (setTimer t b s).draws = s.draws := by
  cases t <;> rfl
@[simp] theorem timerRunning_setTimer (t : TimerId) (b : Bool) (s : State) :
    timerRunning t (setTimer t b s) = b := by cases t <;> rfl
@[simp] theorem setTimer_tx_window (t : TimerId) (b : Bool) (s : State) :
    (setTimer t b s).tx.window = s.tx.window := by cases t <;> rfl
@[simp] theorem setTimer_rx_window (t : TimerId) (b : Bool) (s : State) :
    (setTimer t b s).rx.window = s.rx.window := by cases t <;> rfl
@[simp] theorem setTimer_rx_segments (t : TimerId) (b : Bool) (s : State) :
    (setTimer t b s).rx.segments = s.rx.segments := by cases t <;> rfl

@[simp] theorem startTimer_params (t : TimerId) (d : Word) (s : State) : (startTimer t d s).params = s.params := by
  cases t <;> rfl
@[simp] theorem startTimer_cfg (t : TimerId) (d : Word) (s : State) : (startTimer t d s).cfg = s.cfg := by
  cases t <;> rfl
@[simp] theorem startTimer_enabled (t : TimerId) (d : Word) (s : State) : (startTimer t d s).enabled = s.enabled := by
  cases t <;> rfl
@[simp] theorem startTimer_failed (t : TimerId) (d : Word) (s : State) : (startTimer t d s).failed = s.failed := by
  cases t <;> rfl
@[simp] theorem startTimer_cfgValid (t : TimerId) (d : Word) (s : State) : (startTimer t d s).cfgValid = s.cfgValid := by
  cases t <;> rfl
@[simp] theorem startTimer_tx (t : TimerId) (d : Word) (s : State) : (startTimer t d s).tx = (setTimer t true s).tx := rfl
@[simp] theorem startTimer_pool (t : TimerId) (d : Word) (s : State) : (startTimer t d s).pool = s.pool := by
  cases t <;> rfl
@[simp] theorem startTimer_rx (t : TimerId) (d : Word) (s : State) : (startTimer t d s).rx = (setTimer t true s).rx := rfl
@[simp] theorem startTimer_txSduCount (t : TimerId) (d : Word) (s : State) : (startTimer t d s).txSduCount = s.txSduCount := by
  cases t <;> rfl
@[simp] theorem startTimer_lostPduCount (t : TimerId) (d : Word) (s : State) : (startTimer t d s).lostPduCount = s.lostPduCount := by
  cases t <;> rfl
@[simp] theorem startTimer_timers (t : TimerId) (d : Word) (s : State) : (startTimer t d s).timers = (setTimer t true s).timers := rfl
@[simp] theorem startTimer_clearing (t : TimerId) (d : Word) (s : State) : (startTimer t d s).clearing = s.clearing := by
  cases t <;> rfl
@[simp] theorem startTimer_port (t : TimerId) (d : Word) (s : State) : (startTimer t d s).port = s.port := by
  cases t <;> rfl
@[simp] theorem startTimer_out (t : TimerId) (d : Word) (s : State) :
    (startTimer t d s).out = s.out ++ [.event (.timerStart t d)] := by cases t <;> rfl
@[simp] theorem startTimer_draws (t : TimerId) (d : Word) (s : State) : (startTimer t d s).draws = s.draws := by
  cases t <;> rfl
@[simp] theorem stopTimer_params (t : TimerId) (s : State) : (stopTimer t s).params = s.params := by
  cases t <;> rfl
@[simp] theorem stopTimer_cfg (t : TimerId) (s : State) : (stopTimer t s).cfg = s.cfg := by
  cases t <;> rfl
@[simp] theorem stopTimer_enabled (t : TimerId) (s : State) : (stopTimer t s).enabled = s.enabled := by
  cases t <;> rfl
@[simp] theorem stopTimer_failed (t : TimerId) (s : State) : (stopTimer t s).failed = s.failed := by
  cases t <;> rfl
@[simp] theorem stopTimer_cfgValid (t : TimerId) (s : State) : (stopTimer t s).cfgValid = s.cfgValid := by
  cases t <;> rfl
@[simp] theorem stopTimer_tx (t : TimerId) (s : State) : (stopTimer t s).tx = (setTimer t false s).tx := rfl
@[simp] theorem stopTimer_pool (t : TimerId) (s : State) : (stopTimer t s).pool = s.pool := by
  cases t <;> rfl
@[simp] theorem stopTimer_rx (t : TimerId) (s : State) : (stopTimer t s).rx = (setTimer t false s).rx := rfl
@[simp] theorem stopTimer_txSduCount (t : TimerId) (s : State) : (stopTimer t s).txSduCount = s.txSduCount := by
  cases t <;> rfl
@[simp] theorem stopTimer_lostPduCount (t : TimerId) (s : State) : (stopTimer t s).lostPduCount = s.lostPduCount := by
  cases t <;> rfl
@[simp] theorem stopTimer_timers (t : TimerId) (s : State) : (stopTimer t s).timers = (setTimer t false s).timers := rfl
@[simp] theorem stopTimer_clearing (t : TimerId) (s : State) : (stopTimer t s).clearing = s.clearing := by
  cases t <;> rfl
@[simp] theorem stopTimer_port (t : TimerId) (s : State) : (stopTimer t s).port = s.port := by
  cases t <;> rfl
@[simp] theorem stopTimer_out (t : TimerId) (s : State) :
    (stopTimer t s).out = s.out ++ [.event (.timerStop t)] := by cases t <;> rfl
@[simp] theorem stopTimer_draws (t : TimerId) (s : State) : (stopTimer t s).draws = s.draws := by
  cases t <;> rfl
@[simp] theorem expireTimer_eq (t : TimerId) (s : State) : expireTimer t s = setTimer t false s := rfl

/-! ### The polls, the clearing and the failure -/

@[simp] theorem applyPoll_rx (s : State) : (applyPoll s).rx = s.rx := rfl
@[simp] theorem applyPoll_pool (s : State) : (applyPoll s).pool = s.pool := rfl
@[simp] theorem applyPoll_params (s : State) : (applyPoll s).params = s.params := rfl
@[simp] theorem applyPoll_cfg (s : State) : (applyPoll s).cfg = s.cfg := rfl
@[simp] theorem applyPoll_window (s : State) : (applyPoll s).tx.window = s.tx.window := rfl
@[simp] theorem applyPoll_retxQ (s : State) : (applyPoll s).tx.retxQ = s.tx.retxQ := rfl
@[simp] theorem applyPoll_sduQ (s : State) : (applyPoll s).tx.sduQ = s.tx.sduQ := rfl
@[simp] theorem applyPoll_vtS (s : State) : (applyPoll s).tx.vtS = s.tx.vtS := rfl
@[simp] theorem applyPoll_vtA (s : State) : (applyPoll s).tx.vtA = s.tx.vtA := rfl
@[simp] theorem clearTx_tx (s : State) : (clearTx s).tx = Tx.cleared s.params := rfl
@[simp] theorem clearTx_pool (s : State) : (clearTx s).pool = Pool.cleared s.params := rfl
@[simp] theorem clearTx_rx (s : State) : (clearTx s).rx = s.rx := rfl
@[simp] theorem clearRx_rx (s : State) : (clearRx s).rx = Rx.cleared s.params := rfl
@[simp] theorem clearRx_tx (s : State) : (clearRx s).tx = s.tx := rfl
@[simp] theorem clearRx_pool (s : State) : (clearRx s).pool = s.pool := rfl
@[simp] theorem leaveFailure_failed (b : Bool) (s : State) : (leaveFailure b s).failed = false := rfl
@[simp] theorem leaveFailure_enabled (b : Bool) (s : State) : (leaveFailure b s).enabled = b := rfl
@[simp] theorem protocolFailure_failed (m : Nat) (s : State) : (protocolFailure m s).failed = true := rfl

end Sys2Proof.Machine
end

