-- ==== Sys2Proof/Laws/Tables.lean ====
section
/-!
SUPPORT. The laws of tables and buffers: what reading after a write gives, and that every write keeps
the canonical form (spec/20_memory.md rules R70 and R72).
-/
namespace Sys2Proof.Machine

/-! ### Reading after writing -/

@[simp] theorem tableGet_nil {α : Type} (i : Nat) : tableGet ([] : Table α) i = none := rfl

theorem tableGet_cons {α : Type} (k : Nat) (v : α) (t : Table α) (i : Nat) :
    tableGet ((k, v) :: t) i = if k = i then some v else tableGet t i := rfl

/-- Reading any index after a write: the value written there, and elsewhere what was there. -/
theorem tableGet_tableSet {α : Type} (t : Table α) (i : Nat) (v : α) (j : Nat) :
    tableGet (tableSet t i v) j = if j = i then some v else tableGet t j := by
  induction t with
  | nil => simp [tableSet, tableGet_cons, eq_comm]
  | cons e t ih =>
    obtain ⟨k, w⟩ := e
    unfold tableSet
    split
    · rw [tableGet_cons]
      by_cases h : i = j
      · simp [h]
      · simp [h, Ne.symm h]
    · split
      · rename_i _ h
        subst h
        by_cases h : i = j
        · simp [tableGet_cons, h]
        · simp [tableGet_cons, h, Ne.symm h]
      · rw [tableGet_cons, tableGet_cons, ih]
        by_cases h : k = j
        · have : j ≠ i := by omega
          simp [h, this]
        · simp [h]

@[simp] theorem tableGet_tableSet_self {α : Type} (t : Table α) (i : Nat) (v : α) :
    tableGet (tableSet t i v) i = some v := by simp [tableGet_tableSet]

/-- Reading any index after an erasure. -/
theorem tableGet_tableErase {α : Type} (t : Table α) (i j : Nat) :
    tableGet (tableErase t i) j = if j = i then none else tableGet t j := by
  induction t with
  | nil => simp [tableErase]
  | cons e t ih =>
    obtain ⟨k, w⟩ := e
    unfold tableErase at ih ⊢
    by_cases hk : k = i
    · rw [List.filter_cons_of_neg (by simp [hk]), ih, tableGet_cons]
      by_cases h : j = i
      · simp [h]
      · simp [h, hk, Ne.symm h]
    · rw [List.filter_cons_of_pos (by simp [hk]), tableGet_cons, tableGet_cons, ih]
      by_cases h : k = j
      · have : j ≠ i := by omega
        simp [h, this]
      · simp [h]

@[simp] theorem tableGet_tableErase_self {α : Type} (t : Table α) (i : Nat) :
    tableGet (tableErase t i) i = none := by simp [tableGet_tableErase]

/-- What is found is listed. -/
theorem mem_of_tableGet {α : Type} {t : Table α} {i : Nat} {v : α} (h : tableGet t i = some v) :
    (i, v) ∈ t := by
  induction t with
  | nil => simp at h
  | cons e t ih =>
    obtain ⟨k, w⟩ := e
    rw [tableGet_cons] at h
    split at h
    · simp_all
    · exact List.mem_cons_of_mem _ (ih h)

/-! ### The canonical form -/

theorem tableWf_cons {α : Type} (bound k : Nat) (v : α) (t : Table α) :
    tableWf bound ((k, v) :: t) = true ↔
      k < bound ∧ (∀ e ∈ t, k < e.1) ∧ tableWf bound t = true := by
  simp [tableWf, and_assoc]

/-- In a canonical table what is listed is found. -/
theorem tableGet_of_mem {α : Type} {bound : Nat} {t : Table α} (hw : tableWf bound t = true) {i : Nat}
    {v : α} (h : (i, v) ∈ t) : tableGet t i = some v := by
  induction t with
  | nil => simp at h
  | cons e t ih =>
    obtain ⟨k, w⟩ := e
    obtain ⟨-, hlt, hw⟩ := (tableWf_cons ..).mp hw
    rw [tableGet_cons]
    rcases List.mem_cons.mp h with h | h
    · cases h; simp
    · have := hlt _ h
      rw [if_neg (by simp at this; omega)]
      exact ih hw h

theorem mem_tableSet {α : Type} {t : Table α} {i : Nat} {v : α} {e : Nat × α}
    (h : e ∈ tableSet t i v) : e = (i, v) ∨ e ∈ t := by
  induction t with
  | nil => simpa [tableSet] using h
  | cons x t ih =>
    obtain ⟨k, w⟩ := x
    unfold tableSet at h
    split at h
    · simpa using h
    · split at h
      · rcases List.mem_cons.mp h with h | h
        · exact .inl h
        · exact .inr (List.mem_cons_of_mem _ h)
      · rcases List.mem_cons.mp h with h | h
        · exact .inr (by simp [h])
        · exact (ih h).imp_right (List.mem_cons_of_mem _)

/-- A write at an index below the bound keeps the canonical form. -/
theorem tableWf_tableSet {α : Type} {bound : Nat} {t : Table α} (hw : tableWf bound t = true) {i : Nat}
    (hi : i < bound) (v : α) : tableWf bound (tableSet t i v) = true := by
  induction t with
  | nil => simp [tableSet, tableWf, hi]
  | cons x t ih =>
    obtain ⟨k, w⟩ := x
    obtain ⟨hk, hlt, ht⟩ := (tableWf_cons ..).mp hw
    unfold tableSet
    split
    · rename_i hik
      refine (tableWf_cons ..).mpr ⟨hi, ?_, hw⟩
      rintro e he
      rcases List.mem_cons.mp he with he | he
      · simpa [he] using hik
      · exact lt_trans hik (hlt e he)
    · split
      · rename_i _ h
        exact (tableWf_cons ..).mpr ⟨hi, h ▸ hlt, ht⟩
      · refine (tableWf_cons ..).mpr ⟨hk, ?_, ih ht⟩
        intro e he
        rcases mem_tableSet he with he | he
        · simp [he]; omega
        · exact hlt e he

/-- An erasure keeps the canonical form. -/
theorem tableWf_tableErase {α : Type} {bound : Nat} {t : Table α} (hw : tableWf bound t = true)
    (i : Nat) : tableWf bound (tableErase t i) = true := by
  induction t with
  | nil => simpa [tableErase] using hw
  | cons x t ih =>
    obtain ⟨k, w⟩ := x
    obtain ⟨hk, hlt, ht⟩ := (tableWf_cons ..).mp hw
    unfold tableErase at ih ⊢
    by_cases h : k = i
    · simpa [List.filter_cons, h] using ih ht
    · rw [List.filter_cons_of_pos (by simp [h])]
      exact (tableWf_cons ..).mpr ⟨hk, fun e he => hlt e (List.mem_of_mem_filter he), ih ht⟩

/-- Two canonical tables that read alike are equal. -/
theorem tableWf_ext {α : Type} {bound : Nat} {t u : Table α} (ht : tableWf bound t = true)
    (hu : tableWf bound u = true) (h : ∀ i, tableGet t i = tableGet u i) : t = u := by
  induction t generalizing u with
  | nil =>
    cases u with
    | nil => rfl
    | cons y u => simp [tableGet] at h; simpa using h y.1
  | cons x t ih =>
    cases u with
    | nil => simp [tableGet] at h; simpa using h x.1
    | cons y u =>
      obtain ⟨k, v⟩ := x
      obtain ⟨l, w⟩ := y
      obtain ⟨-, hlt, ht'⟩ := (tableWf_cons ..).mp ht
      obtain ⟨-, hlu, hu'⟩ := (tableWf_cons ..).mp hu
      have hkl : k = l := by
        by_contra hne
        rcases Nat.lt_or_gt_of_ne hne with hlt' | hgt'
        · have hm := mem_of_tableGet (t := (l, w) :: u) (i := k) (v := v)
            (by rw [← h k]; simp [tableGet_cons])
          rcases List.mem_cons.mp hm with hm | hm
          · simp at hm; omega
          · have := hlu _ hm; simp at this; omega
        · have hm := mem_of_tableGet (t := (k, v) :: t) (i := l) (v := w)
            (by rw [h l]; simp [tableGet_cons])
          rcases List.mem_cons.mp hm with hm | hm
          · simp at hm; omega
          · have := hlt _ hm; simp at this; omega
      subst hkl
      have hvw : v = w := by simpa [tableGet_cons] using h k
      subst hvw
      rw [ih ht' hu' fun i => ?_]
      by_cases hi : k = i
      · subst hi
        have absent : ∀ {s : Table α}, (∀ e ∈ s, k < e.1) → tableGet s k = none := by
          intro s hs
          cases hg : tableGet s k with
          | none => rfl
          | some a => exact absurd (hs _ (mem_of_tableGet hg)) (by simp)
        rw [absent hlt, absent hlu]
      · simpa [tableGet_cons, hi] using h i

/-! ### Buffers (R72) -/

/-- `MemRead` gives exactly the bytes asked for. -/
theorem memRead_ok {space : Space} {buf : List Byte} {off n : Nat} {b : List Byte}
    (h : memRead space buf off n = .ok b) :
    off + n ≤ buf.length ∧ b = (buf.drop off).take n ∧ b.length = n := by
  unfold memRead at h
  split at h
  · cases h; refine ⟨‹_›, rfl, ?_⟩; simp; omega
  · cases h

/-- Inside the buffer `MemRead` answers. -/
theorem memRead_of_le (space : Space) {buf : List Byte} {off n : Nat} (h : off + n ≤ buf.length) :
    memRead space buf off n = .ok ((buf.drop off).take n) := if_pos h

/-- `MemWrite` at the end of a buffer appends. -/
@[simp] theorem memWrite_length (buf bytes : List Byte) : memWrite buf buf.length bytes = buf ++ bytes := by
  simp [memWrite]

/-- Reading inside a write gives the bytes written. -/
theorem memWrite_inside {buf bytes : List Byte} {off i : Nat} (h : off ≤ buf.length)
    (hi : i < bytes.length) : (memWrite buf off bytes)[off + i]? = bytes[i]? := by
  simp [memWrite, List.getElem?_append, Nat.min_eq_left h, hi]

/-- Reading outside a write gives what was there. -/
theorem memWrite_outside {buf bytes : List Byte} {off i : Nat} (h : off ≤ buf.length)
    (hi : i < off ∨ off + bytes.length ≤ i) : (memWrite buf off bytes)[i]? = buf[i]? := by
  rcases hi with hi | hi
  · simp [memWrite, Nat.min_eq_left h, hi, Nat.lt_add_right]
  · simp only [memWrite, List.getElem?_append, List.length_append, List.length_take,
      Nat.min_eq_left h, List.getElem?_drop]
    rw [if_neg (by omega)]
    congr 1; omega

/-! ### Memory -/

/-- The state after reset has memory in canonical form. -/
theorem Memory_wf_initial (p : Params) : Memory.wf (State.initial p) = true := by
  simp [Memory.wf, State.initial, Tx.cleared, Rx.cleared, Pool.cleared, tableWf]

theorem Memory_wf_reset : Memory.wf State.reset = true := Memory_wf_initial {}

theorem Memory_wf_iff (s : State) : Memory.wf s = true ↔
    tableWf 1024 s.tx.window = true ∧ tableWf 1024 s.rx.window = true ∧
      tableWf 1024 s.rx.segments = true ∧ tableWf s.params.poolCapacity s.pool.slots = true := by
  simp [Memory.wf, and_assoc]

/-- Every write to a store keyed by SN keeps its canonical form. -/
theorem tableWf_set_sn {α : Type} {t : Table α} (hw : tableWf 1024 t = true) (x : Sn) (v : α) :
    tableWf 1024 (tableSet t x.toNat v) = true := tableWf_tableSet hw x.isLt v

/-- Storing a complete PDU keeps the canonical form of the receiver's stores. -/
theorem storeComplete_wf {h : Header} {d : List Byte} {rx : Rx} (hw : tableWf 1024 rx.window = true)
    (hs : tableWf 1024 rx.segments = true) :
    tableWf 1024 (storeComplete h d rx).window = true ∧
      tableWf 1024 (storeComplete h d rx).segments = true :=
  ⟨tableWf_set_sn hw _ _, tableWf_tableErase hs _⟩

/-- Merging a segment keeps the canonical form of the receiver's stores. -/
theorem mergeSegment_wf {h : Header} {d : List Byte} {rx rx' : Rx}
    (hm : mergeSegment h d rx = .ok rx') (hw : tableWf 1024 rx.window = true)
    (hs : tableWf 1024 rx.segments = true) :
    tableWf 1024 rx'.window = true ∧ tableWf 1024 rx'.segments = true := by
  unfold mergeSegment at hm
  simp only at hm
  split at hm
  · cases hm
  split at hm
  · cases hm
  split at hm <;> cases hm
  · exact ⟨tableWf_set_sn hw _ _, tableWf_tableErase hs _⟩
  · exact ⟨hw, tableWf_set_sn hs _ _⟩

/-- Consuming the PDU at `VR_R` keeps the canonical form. -/
theorem advanceVrR_wf {s : State} (hw : Memory.wf s = true) : Memory.wf (advanceVrR s) = true := by
  rw [Memory_wf_iff] at hw ⊢
  exact ⟨hw.1, tableWf_tableErase hw.2.1 _, tableWf_tableErase hw.2.2.1 _, hw.2.2.2⟩

/-- Storing a new Data PDU keeps the canonical form of the transmit window. -/
theorem accountNew_wf {h : Header} {st : Packing} {s : State}
    (hw : tableWf 1024 s.tx.window = true) : tableWf 1024 (accountNew h st s).tx.window = true :=
  tableWf_set_sn hw _ _

/-- Clearing leaves memory empty, hence canonical. -/
theorem clearAll_wf (s : State) : Memory.wf (clearAll s) = true := by
  simp [Memory.wf, clearAll, clearRx, clearTx, Tx.cleared, Rx.cleared, Pool.cleared, tableWf]

end Sys2Proof.Machine
end

