-- ==== Sys2Proof/Laws/Ops.lean ====
section
/-!
SUPPORT. One lemma per shared operation of Sys2Proof/Machine/Ops.lean that says once what it can do: the
gates before a command, answers, clearing, the fatal failure, and sequence-number arithmetic.
-/
namespace Sys2Proof.Machine

/-! ### Gates and answers -/

@[simp] theorem requireLegal_true (m : Nat) (body : State → Answer) (s : State) :
    requireLegal true m body s = body s := rfl

@[simp] theorem requireLegal_false (m : Nat) (body : State → Answer) (s : State) :
    requireLegal false m body s = .next (respondError .errIllegalCommand m s) := rfl

/-- What the legality gate can do: run the body, or refuse. -/
theorem requireLegal_cases {legal : Bool} {m : Nat} {body : State → Answer} {s t : State}
    (h : requireLegal legal m body s = .next t) :
    (legal = true ∧ body s = .next t) ∨
      (legal = false ∧ t = respondError .errIllegalCommand m s) := by
  cases legal
  · exact .inr ⟨rfl, by cases h; rfl⟩
  · exact .inl ⟨rfl, h⟩

/-- An accepting engine runs the command. -/
theorem dataPath_accepting {s : State} (hf : s.failed = false) (he : s.enabled = true)
    (hc : s.cfgValid = true) (m : Nat) (body : State → Answer) : dataPath m body s = body s := by
  simp [dataPath, hf, he, hc]

/-- What the data-path gate can do (R267). -/
theorem dataPath_cases {m : Nat} {body : State → Answer} {s t : State}
    (h : dataPath m body s = .next t) :
    (s.failed = true ∧ t = respondError .errFailed m s) ∨
    (s.failed = false ∧ (s.enabled = false ∨ s.cfgValid = false) ∧
      t = respondError .errNotEnabledState m s) ∨
    (s.failed = false ∧ s.enabled = true ∧ s.cfgValid = true ∧ body s = .next t) := by
  unfold dataPath at h
  cases hf : s.failed <;> cases he : s.enabled <;> cases hc : s.cfgValid <;> simp_all

/-- A gate never stops by itself. -/
theorem dataPath_completes {m : Nat} {body : State → Answer} {s : State}
    (h : s.failed = false → s.enabled = true → s.cfgValid = true → ∃ t, body s = .next t) :
    ∃ t, dataPath m body s = .next t := by
  unfold dataPath
  split
  · exact ⟨_, rfl⟩
  · split
    · exact ⟨_, rfl⟩
    · exact h (by simp_all) (by simp_all) (by simp_all)

@[simp] theorem answerOf_ok (s : State) : answerOf (.ok s) = .next s := rfl
@[simp] theorem answerOf_error (f : Fault) : answerOf (.error f) = .fault f := rfl

theorem answerOf_next {x : Except Fault State} {t : State} (h : answerOf x = .next t) : x = .ok t := by
  cases x <;> simp_all [answerOf]

/-! ### Clearing -/

theorem indicesFrom_eq (n k : Nat) : indicesFrom n k = List.range' k n := by
  induction n generalizing k with
  | zero => rfl
  | succ n ih => simp [indicesFrom, ih, List.range'_succ]

/-- `FREE` after clearing: every index once, 0 on top (R33). -/
theorem Pool_cleared_free (p : Params) : (Pool.cleared p).free = List.range p.poolCapacity := by
  simp [Pool.cleared, indicesFrom_eq, List.range_eq_range']

/-- Stopping a timer that may run, in one form: flag and expiry are 0 after it if it ran, the event is
emitted if it ran, and nothing else changes. -/
theorem stopIfRunning_eq (t : TimerId) (s : State) :
    stopIfRunning t s = { s with
      tx := { s.tx with
        pollRetxRunning := s.tx.pollRetxRunning && !decide (t = .pollRetx)
        statusProhibitRunning := s.tx.statusProhibitRunning && !decide (t = .statusProhibit) }
      rx := { s.rx with reordRunning := s.rx.reordRunning && !decide (t = .reordering) }
      timers := {
        pollRetx := s.timers.pollRetx && !(decide (t = .pollRetx) && timerRunning t s)
        reordering := s.timers.reordering && !(decide (t = .reordering) && timerRunning t s)
        statusProhibit := s.timers.statusProhibit &&
          !(decide (t = .statusProhibit) && timerRunning t s) }
      out := s.out ++ if timerRunning t s then [.event (.timerStop t)] else [] } := by
  obtain ⟨params, cfg, en, fl, cv, ⟨t1, t2, t3, t4, t5, t6, t7, t8, t9, pr, pe, sp⟩, pool,
    ⟨r1, r2, r3, r4, r5, r6, rr, r8, r9, r10, r11⟩, c1, c2, ⟨a, b, c⟩, cl, port, out, draws⟩ := s
  cases t <;> cases pr <;> cases rr <;> cases sp <;>
    simp [stopIfRunning, timerRunning, stopTimer, setTimer, emit]

/-- Stopping the running timers in one form (R252): flags and pending expiries are 0 after it, each for
a timer that ran, and the events are in the order of the rule. -/
theorem stopTimers_eq (s : State) :
    stopTimers s = { s with
      tx := { s.tx with pollRetxRunning := false, statusProhibitRunning := false }
      rx := { s.rx with reordRunning := false }
      timers := {
        pollRetx := s.timers.pollRetx && !s.tx.pollRetxRunning
        reordering := s.timers.reordering && !s.rx.reordRunning
        statusProhibit := s.timers.statusProhibit && !s.tx.statusProhibitRunning }
      out := s.out ++
        (if s.tx.pollRetxRunning then [.event (.timerStop .pollRetx)] else []) ++
        (if s.rx.reordRunning then [.event (.timerStop .reordering)] else []) ++
        (if s.tx.statusProhibitRunning then [.event (.timerStop .statusProhibit)] else []) } := by
  simp only [stopTimers, stopIfRunning_eq, timerRunning]
  simp
  rfl

/-- `clear_all()` in one form (R252). -/
theorem clearAll_eq (s : State) :
    clearAll s = { stopTimers s with
      tx := Tx.cleared s.params, pool := Pool.cleared s.params, rx := Rx.cleared s.params } := by
  simp only [clearAll, clearTx, clearRx, stopTimers_eq]

/-- The two halves in either order are the whole (R81, R85, R252). -/
theorem clearHalf_comm (s : State) : clearHalf .tx (clearHalf .rx s) = clearHalf .rx (clearHalf .tx s) :=
  rfl

theorem clearHalf_stopTimers (s : State) :
    clearHalf .rx (clearHalf .tx (stopTimers s)) = clearAll s := rfl

/-- The fatal failure in one form: what it writes and emits (R266). -/
theorem protocolFailure_eq (m : Nat) (s : State) :
    protocolFailure m s = { s with
      failed := true
      out := s.out ++ [.event .protocolFailure,
        .response (responseOf .errProtocolFailure (List.replicate m 0) [])] } := by
  simp [protocolFailure, respondError, respond, emit]

/-! ### Sequence-number arithmetic -/

@[simp] theorem modBase_self (b : Sn) : modBase b b = 0 := by simp [modBase]

theorem modBase_lt (b x : Sn) : modBase b x < 1024 := (x - b).isLt

/-- `d_base(x) = (x - base) mod 1024` on plain numbers (R11). -/
theorem modBase_eq (b x : Sn) : modBase b x = (x.toNat + 1024 - b.toNat) % 1024 := by
  simp only [modBase, BitVec.toNat_sub]
  have := b.isLt
  have := x.isLt
  omega

/-- The SN `k` steps above the base. -/
theorem modBase_add (b : Sn) {k : Nat} (hk : k < 1024) : modBase b (b + BitVec.ofNat 10 k) = k := by
  have := b.isLt
  rw [modBase_eq, BitVec.toNat_add, BitVec.toNat_ofNat]
  omega

/-- An SN is its distance above the base. -/
theorem eq_add_modBase (b x : Sn) : x = b + BitVec.ofNat 10 (modBase b x) := by
  apply BitVec.eq_of_toNat_eq
  have := b.isLt
  have := x.isLt
  rw [modBase_eq, BitVec.toNat_add, BitVec.toNat_ofNat]
  omega

theorem modBase_inj {b x y : Sn} (h : modBase b x = modBase b y) : x = y := by
  rw [eq_add_modBase b x, h, ← eq_add_modBase b y]

@[simp] theorem modBase_eq_zero {b x : Sn} : modBase b x = 0 ↔ x = b :=
  ⟨fun h => modBase_inj (b := b) (by simpa using h), fun h => by simp [h]⟩

/-- The next SN is one step further, unless it is the base itself. -/
theorem modBase_succ {b x : Sn} (h : modBase b x < 1023) : modBase b (x + 1) = modBase b x + 1 := by
  have hb := b.isLt
  have hx := x.isLt
  rw [modBase_eq] at h ⊢
  rw [modBase_eq, BitVec.toNat_add]
  have : (1#10).toNat = 1 := rfl
  change ((x.toNat + (1#10).toNat) % 2 ^ 10 + 1024 - b.toNat) % 1024 = _
  rw [this]
  omega

/-- Moving the base up by no more than the distance shortens the distance by as much. -/
theorem modBase_shift {b c x : Sn} (h : modBase b c ≤ modBase b x) :
    modBase c x = modBase b x - modBase b c := by
  have := b.isLt
  have := c.isLt
  have := x.isLt
  rw [modBase_eq b c, modBase_eq b x] at h
  rw [modBase_eq, modBase_eq, modBase_eq]
  omega

/-- The window ceilings are 512 above the bases (R133). -/
theorem modBase_vtMs (s : State) : modBase s.tx.vtA (vtMs s) = 512 := modBase_add _ (by decide)
theorem modBase_vrMr (s : State) : modBase s.rx.vrR (vrMr s) = 512 := modBase_add _ (by decide)

/-! ### Result words -/

/-- What a result word can be: the number, or a free value when it does not fit (R135). -/
theorem wordOrFree_cases (free : Nat → Word) (n : Nat) (s : State) :
    (n < 2 ^ 32 ∧ wordOrFree free n s = (BitVec.ofNat 32 n, s)) ∨
    (2 ^ 32 ≤ n ∧ ∃ w : Word, wordOrFree free n s = (w, { s with draws := s.draws + 1 })) := by
  unfold wordOrFree
  split
  · exact .inl ⟨by assumption, rfl⟩
  · exact .inr ⟨by omega, _, rfl⟩

/-! ### Scans over SNs -/

theorem sn_add_succ (x : Sn) (j : Nat) : x + 1 + BitVec.ofNat 10 j = x + BitVec.ofNat 10 (j + 1) := by
  apply BitVec.eq_of_toNat_eq
  have one : (1 : Sn).toNat = 1 := rfl
  simp only [BitVec.toNat_add, BitVec.toNat_ofNat, one]
  omega

/-- The first missing SN among `n`: it is missing, and all SNs before it are there (R225, R235). -/
theorem firstMissing_some {w : Table RxEntry} {n : Nat} {x m : Sn} (h : firstMissing w n x = some m) :
    ∃ k, k < n ∧ m = x + BitVec.ofNat 10 k ∧ validAt w m = false ∧
      ∀ j, j < k → validAt w (x + BitVec.ofNat 10 j) = true := by
  induction n generalizing x with
  | zero => simp [firstMissing] at h
  | succ n ih =>
    unfold firstMissing at h
    split at h
    · rename_i hv
      obtain ⟨k, hk, rfl, hm, hall⟩ := ih h
      have step := sn_add_succ x
      refine ⟨k + 1, by omega, step k, step k ▸ hm, fun j hj => ?_⟩
      cases j with
      | zero => simpa using hv
      | succ j => rw [← step j]; exact hall j (by omega)
    · cases h
      exact ⟨0, by omega, by simp, by simp_all, by omega⟩

/-- Without a missing SN among `n`, all `n` are there. -/
theorem firstMissing_none {w : Table RxEntry} {n : Nat} {x : Sn} (h : firstMissing w n x = none) :
    ∀ j, j < n → validAt w (x + BitVec.ofNat 10 j) = true := by
  induction n generalizing x with
  | zero => omega
  | succ n ih =>
    unfold firstMissing at h
    split at h
    · rename_i hv
      intro j hj
      cases j with
      | zero => simpa using hv
      | succ j =>
        have := ih h j (by omega)
        rwa [sn_add_succ] at this
    · cases h

/-- The scan over all SNs ends when some SN is missing. -/
theorem scanMissing_ok {w : Table RxEntry} {x y : Sn} (hy : validAt w y = false) :
    ∃ m, scanMissing w x = .ok m ∧ firstMissing w 1024 x = some m := by
  unfold scanMissing
  cases h : firstMissing w 1024 x with
  | some m => exact ⟨m, rfl, rfl⟩
  | none =>
    have := firstMissing_none h (modBase x y) (modBase_lt x y)
    rw [← eq_add_modBase] at this
    simp_all

/-! ### Steps -/

/-- What a step can do, once and for all (R36, R80, R85, R95). -/
theorem step_cases (s : State) :
    (s.params.valid = false ∧ step s = .refused .parametersOutOfRange) ∨
    (s.params.valid = true ∧ ∃ c, s.clearing = some c ∧ step s = .next (finishClearing c s)) ∨
    (s.params.valid = true ∧ s.clearing = none ∧ s.port = [] ∧ step s = .next s) ∨
    (s.params.valid = true ∧ s.clearing = none ∧ ∃ d rest, s.port = d :: rest ∧
      ((∃ e, decode d = .error e ∧ step s = .next (answerMalformed e { s with port := rest })) ∨
        ∃ i, decode d = .ok i ∧ step s = exec i { s with port := rest })) := by
  cases hv : s.params.valid
  · exact .inl ⟨rfl, by simp [step, hv]⟩
  · cases hc : s.clearing with
    | some c => exact .inr (.inl ⟨rfl, c, rfl, by simp [step, hv, hc]⟩)
    | none =>
      cases hp : s.port with
      | nil => exact .inr (.inr (.inl ⟨rfl, rfl, rfl, by simp [step, hv, hc, takeCommand, hp]⟩))
      | cons d rest =>
        refine .inr (.inr (.inr ⟨rfl, rfl, d, rest, rfl, ?_⟩))
        cases hd : decode d with
        | error e => exact .inl ⟨e, rfl, by simp [step, hv, hc, takeCommand, hp, hd]⟩
        | ok i => exact .inr ⟨i, rfl, by simp [step, hv, hc, takeCommand, hp, hd]⟩

end Sys2Proof.Machine
end

