-- ==== Sys2Proof/Laws/Codec.lean ====
section
/-!
SUPPORT. Lengths and values of the bit strings of the wire codec (spec/41_header_codec.md rule R140):
the lemmas the statements about encoding and decoding rest on.
-/
namespace Sys2Proof.Machine

@[simp] theorem bitsOf_length (n v : Nat) : (bitsOf n v).length = n := by
  induction n with
  | zero => rfl
  | succ n ih => simp [bitsOf, ih]

@[simp] theorem takeBytes_length (n : Nat) (bits : List Bool) : (takeBytes n bits).length = n := by
  induction n generalizing bits with
  | zero => rfl
  | succ n ih => simp [takeBytes, ih]

/-- `bytes(W)` has as many bytes as hold the bits (R140). -/
@[simp] theorem bytesOfBits_length (bits : List Bool) :
    (bytesOfBits bits).length = (bits.length + 7) / 8 := by simp [bytesOfBits]

@[simp] theorem bitsOfBytes_nil : bitsOfBytes [] = [] := rfl

@[simp] theorem bitsOfBytes_cons (b : Byte) (bs : List Byte) :
    bitsOfBytes (b :: bs) = bitsOf 8 b.toNat ++ bitsOfBytes bs := rfl

@[simp] theorem bitsOfBytes_append (a b : List Byte) :
    bitsOfBytes (a ++ b) = bitsOfBytes a ++ bitsOfBytes b := by simp [bitsOfBytes]

/-- A byte string of `n` bytes is a bit string of `8 * n` bits. -/
@[simp] theorem bitsOfBytes_length (b : List Byte) : (bitsOfBytes b).length = 8 * b.length := by
  induction b with
  | nil => rfl
  | cons x b ih => simp [ih]; omega

/-- Reading a bit string as a number, one more bit at the end. -/
theorem natOfBits_append_singleton (l : List Bool) (b : Bool) :
    natOfBits (l ++ [b]) = 2 * natOfBits l + b.toNat := by simp [natOfBits]

/-- Reading a concatenation: the first part counts for its power of two. -/
theorem natOfBits_append (l m : List Bool) :
    natOfBits (l ++ m) = natOfBits l * 2 ^ m.length + natOfBits m := by
  induction m using List.reverseRecOn with
  | nil => simp [natOfBits]
  | append_singleton m b ih =>
    rw [← List.append_assoc, natOfBits_append_singleton, natOfBits_append_singleton, ih]
    simp [pow_succ]
    ring

/-- A bit string of `n` bits spells a number below `2 ^ n`. -/
theorem natOfBits_lt (l : List Bool) : natOfBits l < 2 ^ l.length := by
  induction l using List.reverseRecOn with
  | nil => simp [natOfBits]
  | append_singleton l b ih =>
    rw [natOfBits_append_singleton]
    have := Bool.toNat_le b
    simp [pow_succ]
    omega

/-- `get` after `put`: the `n` low bits of `v` spell `v mod 2 ^ n` (R140). -/
@[simp] theorem natOfBits_bitsOf (n v : Nat) : natOfBits (bitsOf n v) = v % 2 ^ n := by
  induction n with
  | zero => simp [bitsOf, natOfBits, Nat.mod_one]
  | succ n ih =>
    rw [show bitsOf (n + 1) v = [v.testBit n] ++ bitsOf n v from rfl, natOfBits_append, ih,
      bitsOf_length, Nat.mod_pow_succ, ← Nat.toNat_testBit]
    simp only [natOfBits, List.foldl_cons, List.foldl_nil]
    ring

/-- `put` after `get`: the bits of the number a bit string spells are that bit string. -/
theorem bitsOf_natOfBits (l : List Bool) : bitsOf l.length (natOfBits l) = l := by
  induction l with
  | nil => rfl
  | cons b l ih =>
    have hlt := natOfBits_lt l
    have hval : natOfBits (b :: l) = b.toNat * 2 ^ l.length + natOfBits l := by
      have := natOfBits_append [b] l
      simpa [natOfBits] using this
    have low : ∀ n, n ≤ l.length → ∀ v w : Nat, v % 2 ^ l.length = w % 2 ^ l.length →
        bitsOf n v = bitsOf n w := by
      intro n
      induction n with
      | zero => intros; rfl
      | succ n ihn =>
        intro hn v w hvw
        have ht : v.testBit n = w.testBit n := by
          have h1 := Nat.testBit_mod_two_pow v l.length n
          have h2 := Nat.testBit_mod_two_pow w l.length n
          rw [hvw] at h1
          simp only [show n < l.length by omega, decide_true, Bool.true_and] at h1 h2
          exact h1.symm.trans h2
        simp [bitsOf, ht, ihn (by omega) v w hvw]
    have hhead : (natOfBits (b :: l)).testBit l.length = b := by
      rw [hval]
      cases b
      · simp [Nat.testBit_lt_two_pow hlt]
      · simp only [Bool.toNat_true, one_mul]
        rw [Nat.testBit_two_pow_add_eq]
        simp [Nat.testBit_lt_two_pow hlt]
    have htail : bitsOf l.length (natOfBits (b :: l)) = l := by
      rw [low l.length le_rfl (natOfBits (b :: l)) (natOfBits l) (by rw [hval]; simp), ih]
    simp only [List.length_cons, bitsOf, hhead, htail]

/-- The bits a byte string of packed bits holds: the bits themselves, then zero padding (R140). -/
theorem bitsOfBytes_takeBytes (n : Nat) (bits : List Bool) :
    bitsOfBytes (takeBytes n bits) = (bits ++ List.replicate (8 * n) false).take (8 * n) := by
  induction n generalizing bits with
  | zero => simp [takeBytes]
  | succ n ih =>
    have h8 : ((bits ++ List.replicate 8 false).take 8).length = 8 := by simp
    have hb : bitsOf 8 (natOfBits ((bits ++ List.replicate 8 false).take 8)) =
        (bits ++ List.replicate 8 false).take 8 := by
      have := bitsOf_natOfBits ((bits ++ List.replicate 8 false).take 8)
      rwa [h8] at this
    have hlt := natOfBits_lt ((bits ++ List.replicate 8 false).take 8)
    rw [h8] at hlt
    rw [takeBytes, bitsOfBytes_cons, ih, BitVec.toNat_ofNat, Nat.mod_eq_of_lt hlt, hb]
    apply List.ext_getElem?
    intro i
    simp only [List.getElem?_append, List.getElem?_take, List.getElem?_drop, List.length_take,
      List.length_append, List.length_replicate, List.length_drop, List.getElem?_replicate]
    split_ifs <;> first | rfl | omega | (congr 1; omega)

/-- What the decoder's reader sees of packed bits: the bits, then the pad. -/
theorem bitsOfBytes_bytesOfBits (bits : List Bool) :
    ∃ pad, bitsOfBytes (bytesOfBits bits) = bits ++ pad ∧ pad.length < 8 ∧
      ∀ b ∈ pad, b = false := by
  have hle : bits.length ≤ 8 * ((bits.length + 7) / 8) := by omega
  refine ⟨List.replicate (8 * ((bits.length + 7) / 8) - bits.length) false, ?_, ?_, ?_⟩
  · rw [bytesOfBits, bitsOfBytes_takeBytes, List.take_append, List.take_of_length_le hle,
      List.take_replicate, Nat.min_eq_left (by omega)]
  · simp; omega
  · intro b hb; exact List.eq_of_mem_replicate hb

/-- The number of bits of a header (R100 to R102). -/
theorem liBits_length (li : List Nat) : (liBits li).length = 12 * li.length := by
  induction li with
  | nil => rfl
  | cons l li ih => simp [liBits, ih]; omega

theorem headerBits_length (h : Header) :
    (headerBits h).length = 16 + (if h.rf then 16 else 0) + 12 * h.li.length := by
  cases hrf : h.rf <;> simp [headerBits, hrf, liBits_length] <;> omega

/-- The number of bits of a STATUS PDU (R110). -/
theorem nackBits_length (l : List Nack) : (nackBits l).length = (l.map nackCost).sum := by
  induction l with
  | nil => rfl
  | cons n l ih => cases h : n.hasSo <;> simp [nackBits, nackCost, h, ih] <;> omega

theorem statusBits_length (st : StatusPdu) :
    (statusBits st).length = 15 + (st.nacks.map nackCost).sum := by
  simp [statusBits, nackBits_length]; omega

/-! ### Truncation -/

@[simp] theorem dropLastNack_nacks (st : StatusPdu) :
    (dropLastNack st).nacks = st.nacks.dropLast := by
  unfold dropLastNack
  split
  · next h => simp [List.getLast?_eq_none_iff.mp h]
  · rfl

/-- What the loop of R145 can end with: a prefix of the elements, which fits or is empty. -/
theorem truncateLoop_nacks (maxLen fuel : Nat) (st : StatusPdu) (h : st.nacks.length ≤ fuel) :
    ∃ k ≤ st.nacks.length, (truncateLoop maxLen fuel st).nacks = st.nacks.take k ∧
      (k = 0 ∨ statusLen (truncateLoop maxLen fuel st) ≤ maxLen) := by
  induction fuel generalizing st with
  | zero => exact ⟨0, by omega, by simpa [truncateLoop] using h, .inl rfl⟩
  | succ fuel ih =>
    unfold truncateLoop
    split
    · next hc =>
      obtain ⟨k, hk, hn, hl⟩ := ih (dropLastNack st) (by simp; omega)
      simp only [dropLastNack_nacks, List.length_dropLast] at hk hn
      refine ⟨k, by omega, ?_, hl⟩
      rw [hn, List.dropLast_eq_take, List.take_take, Nat.min_eq_left hk]
    · next hc =>
      refine ⟨st.nacks.length, le_rfl, by simp, ?_⟩
      simp only [Bool.and_eq_true, Bool.not_eq_true', decide_eq_true_eq, not_and, not_lt] at hc
      cases hn : st.nacks with
      | nil => exact .inl rfl
      | cons n l => exact .inr (hc (by simp [hn]))

/-- What truncation can answer: nothing below 2 bytes, else a prefix of the elements, which fits or is
empty (R145). -/
theorem truncateStatus_cases (st : StatusPdu) (maxLen : Nat) :
    (maxLen < 2 ∧ truncateStatus st maxLen = none) ∨
    (2 ≤ maxLen ∧ ∃ t : StatusPdu, truncateStatus st maxLen = some t ∧
      ∃ k ≤ st.nacks.length, t.nacks = st.nacks.take k ∧ (k = 0 ∨ statusLen t ≤ maxLen)) := by
  unfold truncateStatus
  split
  · exact .inl ⟨by assumption, rfl⟩
  · exact .inr ⟨by omega, _, rfl, truncateLoop_nacks maxLen _ st le_rfl⟩

end Sys2Proof.Machine
end

