-- ==== Sys2Proof/Laws/Pool.lean ====
section
/-!
SUPPORT. What the pool operations can do (spec/42_segment_pool.md rules R160 to R163), and that they keep
the pool's canonical form.
-/
namespace Sys2Proof.Machine

/-- What an allocation can do: nothing when `FREE` is empty, else the top index is taken (R160). -/
theorem poolAllocate_cases (rlcSn : Sn) (pdcpSn : Word) (pool : Pool) :
    (pool.free = [] ∧ poolAllocate rlcSn pdcpSn pool = none) ∨
    ∃ id rest, pool.free = id :: rest ∧ poolAllocate rlcSn pdcpSn pool =
      some (id, ⟨tableSet pool.slots id ⟨rlcSn, pdcpSn, false, false⟩, rest⟩) := by
  unfold poolAllocate
  cases h : pool.free with
  | nil => exact .inl ⟨rfl, rfl⟩
  | cons id rest => exact .inr ⟨id, rest, rfl, rfl⟩

/-- What storing a slot back does: it is freed when both halves are released, else kept. -/
theorem poolStore_cases (id : Nat) (slot : Slot) (pool : Pool) :
    (slot.rlcReleased = true ∧ slot.pdcpReleased = true ∧
      poolStore id slot pool = ⟨tableErase pool.slots id, id :: pool.free⟩) ∨
    ((slot.rlcReleased = false ∨ slot.pdcpReleased = false) ∧
      poolStore id slot pool = ⟨tableSet pool.slots id slot, pool.free⟩) := by
  unfold poolStore
  cases slot.rlcReleased <;> cases slot.pdcpReleased <;> simp

/-- The slots after a slot was stored back, read at any index. -/
theorem tableGet_poolStore (id : Nat) (slot : Slot) (pool : Pool) (k : Nat) :
    tableGet (poolStore id slot pool).slots k =
      if k = id then (if slot.rlcReleased && slot.pdcpReleased then none else some slot)
      else tableGet pool.slots k := by
  rcases poolStore_cases id slot pool with ⟨h1, h2, h⟩ | ⟨h', h⟩
  · simp [h, h1, h2, tableGet_tableErase]
  · rcases h' with h' | h' <;> simp [h, h', tableGet_tableSet]

theorem poolStore_wf {bound id : Nat} {slot : Slot} {pool : Pool}
    (hw : tableWf bound pool.slots = true) (hi : id < bound) :
    tableWf bound (poolStore id slot pool).slots = true := by
  rcases poolStore_cases id slot pool with ⟨-, -, h⟩ | ⟨-, h⟩
  · rw [h]; exact tableWf_tableErase hw _
  · rw [h]; exact tableWf_tableSet hw hi _

/-- An index that is found in a canonical table is below its bound. -/
theorem lt_of_tableGet {α : Type} {bound : Nat} {t : Table α} (hw : tableWf bound t = true) {i : Nat}
    {v : α} (h : tableGet t i = some v) : i < bound := by
  have hm := mem_of_tableGet h
  clear h
  induction t with
  | nil => simp at hm
  | cons e t ih =>
    obtain ⟨k, w⟩ := e
    obtain ⟨hk, -, ht⟩ := (tableWf_cons ..).mp hw
    rcases List.mem_cons.mp hm with hm | hm
    · cases hm; exact hk
    · exact ih ht hm

/-- Both releases keep the canonical form. -/
theorem releaseByRlc_wf {bound : Nat} {pool : Pool} (hw : tableWf bound pool.slots = true) (id : Nat) :
    tableWf bound (releaseByRlc id pool).slots = true := by
  unfold releaseByRlc
  split
  · exact hw
  · rename_i h; exact poolStore_wf hw (lt_of_tableGet hw h)

theorem releaseByPdcp_wf {bound : Nat} {pool : Pool} (hw : tableWf bound pool.slots = true)
    (id : Nat) : tableWf bound (releaseByPdcp id pool).slots = true := by
  unfold releaseByPdcp
  split
  · exact hw
  · rename_i h; exact poolStore_wf hw (lt_of_tableGet hw h)

/-- Releasing the RLC half of a slot in use (R161). -/
theorem releaseByRlc_of_some {id : Nat} {slot : Slot} {pool : Pool}
    (h : tableGet pool.slots id = some slot) :
    releaseByRlc id pool = poolStore id { slot with rlcReleased := true } pool := by
  simp [releaseByRlc, h]

/-- Releasing the PDCP half of a slot in use (R162). -/
theorem releaseByPdcp_of_some {id : Nat} {slot : Slot} {pool : Pool}
    (h : tableGet pool.slots id = some slot) :
    releaseByPdcp id pool = poolStore id { slot with pdcpReleased := true } pool := by
  simp [releaseByPdcp, h]

/-- `is_sdu_fully_acked` as a proposition (R163). -/
theorem isSduFullyAcked_iff (pool : Pool) (q : Word) :
    isSduFullyAcked pool q = true ↔
      (∃ e ∈ pool.slots, e.2.pdcpSn = q) ∧
        ∀ e ∈ pool.slots, e.2.pdcpSn = q → e.2.rlcReleased = true := by
  simp [isSduFullyAcked, recordsFor, List.filter_eq_nil_iff, imp_iff_not_or]

end Sys2Proof.Machine
end

