-- ==== Sys2Proof/Laws/Engine.lean ====
section
/-!
SUPPORT. What the shared operations of the transmitter and the receiver can do: the retransmission
queue, the greatest segment, the scans, the set of boundaries, and the transmission of a Data PDU.
-/
namespace Sys2Proof.Machine

/-! ### Transmitter -/

/-- Dropping stale heads removes exactly the entries before the first one in the window (R178). -/
theorem dropStale_cases (w : Table TxEntry) (q : List RetxEntry) :
    (dropStale w q = [] ∧ ∀ e ∈ q, validAt w e.sn = false) ∨
    ∃ stale r rest, q = stale ++ r :: rest ∧ dropStale w q = r :: rest ∧
      validAt w r.sn = true ∧ ∀ e ∈ stale, validAt w e.sn = false := by
  induction q with
  | nil => exact .inl ⟨rfl, by simp⟩
  | cons x q ih =>
    unfold dropStale
    cases h : validAt w x.sn
    · simp only [Bool.false_eq_true, if_false]
      rcases ih with ⟨h1, h2⟩ | ⟨stale, r, rest, rfl, h2, h3, h4⟩
      · exact .inl ⟨h1, by simpa [h] using h2⟩
      · exact .inr ⟨x :: stale, r, rest, rfl, h2, h3, by simpa [h] using h4⟩
    · exact .inr ⟨[], x, q, rfl, by simp, h, by simp⟩

/-- With every entry in the window nothing is dropped. -/
theorem dropStale_of_valid {w : Table TxEntry} {q : List RetxEntry}
    (h : ∀ e ∈ q, validAt w e.sn = true) : dropStale w q = q := by
  cases q with
  | nil => rfl
  | cons x q => simp [dropStale, h x (by simp)]

/-- What scheduling the oldest SN can do (R177). -/
theorem scheduleOldest_cases (s : State) :
    (s.tx.vtA = s.tx.vtS ∧ scheduleOldest s = some s) ∨
    (s.tx.vtA ≠ s.tx.vtS ∧ tableGet s.tx.window s.tx.vtA.toNat = none ∧ scheduleOldest s = none) ∨
    (s.tx.vtA ≠ s.tx.vtS ∧ (∃ e ∈ s.tx.retxQ, e.sn = s.tx.vtA) ∧ scheduleOldest s = some s) ∨
    (s.tx.vtA ≠ s.tx.vtS ∧ (∀ e ∈ s.tx.retxQ, e.sn ≠ s.tx.vtA) ∧
      ∃ t, tableGet s.tx.window s.tx.vtA.toNat = some t ∧
        scheduleOldest s = some { s with tx := { s.tx with
          retxQ := s.tx.retxQ ++ [⟨s.tx.vtA, false, 0, t.buf.length⟩] } }) := by
  by_cases hv : s.tx.vtA = s.tx.vtS
  · exact .inl ⟨hv, by simp [scheduleOldest, hv]⟩
  · cases ht : tableGet s.tx.window s.tx.vtA.toNat with
    | none => exact .inr (.inl ⟨hv, rfl, by simp [scheduleOldest, hv, ht]⟩)
    | some t =>
      by_cases hq : ∃ e ∈ s.tx.retxQ, e.sn = s.tx.vtA
      · exact .inr (.inr (.inl ⟨hv, hq, by simp [scheduleOldest, hv, ht, hq]⟩))
      · refine .inr (.inr (.inr ⟨hv, by simpa using hq, t, rfl, ?_⟩))
        simp [scheduleOldest, hv, ht, hq]

/-- The greatest end of a segment, when there is one (R210). -/
theorem greatestEnd_some {p : Params} {h : Header} {maxBytes s n e : Nat}
    (he : greatestEnd p h maxBytes s n = some e) :
    s < e ∧ e ≤ s + n ∧ segmentFits p h maxBytes s e = true ∧
      ∀ e', e < e' → e' ≤ s + n → segmentFits p h maxBytes s e' = false := by
  induction n with
  | zero => simp [greatestEnd] at he
  | succ n ih =>
    unfold greatestEnd at he
    split at he
    · cases he
      exact ⟨by omega, le_refl _, by assumption, fun e' h1 h2 => absurd h1 (by omega)⟩
    · rename_i hf
      obtain ⟨h1, h2, h3, h4⟩ := ih he
      refine ⟨h1, by omega, h3, fun e' h5 h6 => ?_⟩
      rcases Nat.lt_or_ge (s + n) e' with h7 | h7
      · have : e' = s + (n + 1) := by omega
        subst this
        simpa using hf
      · exact h4 e' h5 h7

/-- Without a greatest end no end fits (R210, R211). -/
theorem greatestEnd_none {p : Params} {h : Header} {maxBytes s n : Nat}
    (he : greatestEnd p h maxBytes s n = none) :
    ∀ e, s < e → e ≤ s + n → segmentFits p h maxBytes s e = false := by
  induction n with
  | zero => intro e h1 h2; omega
  | succ n ih =>
    unfold greatestEnd at he
    split at he
    · cases he
    · rename_i hf
      intro e h1 h2
      rcases Nat.lt_or_ge (s + n) e with h3 | h3
      · have : e = s + (n + 1) := by omega
        subst this
        simpa using hf
      · exact ih he e h1 h3

@[simp] theorem boundariesFrom_length (acc : Nat) (li : List Nat) :
    (boundariesFrom acc li).length = li.length := by
  induction li generalizing acc with
  | nil => rfl
  | cons l li ih => simp [boundariesFrom, ih]

@[simp] theorem differencesFrom_length (prev : Nat) (l : List Nat) :
    (differencesFrom prev l).length = l.length := by
  induction l generalizing prev with
  | nil => rfl
  | cons x l ih => simp [differencesFrom, ih]

/-- The differences of the running sums are the numbers summed. -/
theorem differencesFrom_boundariesFrom (acc : Nat) (li : List Nat) :
    differencesFrom acc (boundariesFrom acc li) = li := by
  induction li generalizing acc with
  | nil => rfl
  | cons l li ih => simp [boundariesFrom, differencesFrom, ih]

/-- The end of every Data-PDU transmission: one response, with or without a poll (R178, R180, R210). -/
theorem transmit_cases (h : Header) (payload : List Byte) (s : State) :
    (pollRequired s = true ∧ transmit h payload s =
      respondBytes (encodeDataHeader { h with p := true } ++ payload) (applyPoll s)) ∨
    (pollRequired s = false ∧ transmit h payload s =
      respondBytes (encodeDataHeader { h with p := false } ++ payload) s) := by
  unfold transmit
  cases hp : pollRequired s
  · exact .inr ⟨rfl, by simp⟩
  · exact .inl ⟨rfl, by simp⟩

/-! ### Receiver -/

/-- The SNs a scan reports missing are exactly the missing ones among those it looks at (R235, R240). -/
theorem mem_missingFrom {w : Table RxEntry} {n : Nat} {x y : Sn} :
    y ∈ missingFrom w n x ↔ ∃ k, k < n ∧ y = x + BitVec.ofNat 10 k ∧ validAt w y = false := by
  induction n generalizing x with
  | zero => simp [missingFrom]
  | succ n ih =>
    have split0 : (∃ k, k < n + 1 ∧ y = x + BitVec.ofNat 10 k ∧ validAt w y = false) ↔
        (y = x ∧ validAt w y = false) ∨
          ∃ k, k < n ∧ y = x + 1 + BitVec.ofNat 10 k ∧ validAt w y = false := by
      constructor
      · rintro ⟨k, hk, hy, hv⟩
        cases k with
        | zero => exact .inl ⟨by simpa using hy, hv⟩
        | succ k => exact .inr ⟨k, by omega, by rw [sn_add_succ]; exact hy, hv⟩
      · rintro (⟨hy, hv⟩ | ⟨k, hk, hy, hv⟩)
        · exact ⟨0, by omega, by simpa using hy, hv⟩
        · exact ⟨k + 1, by omega, by rw [← sn_add_succ]; exact hy, hv⟩
    rw [split0]
    unfold missingFrom
    split
    · rename_i hv
      rw [ih]
      constructor
      · exact .inr
      · rintro (⟨rfl, hn⟩ | h)
        · simp_all
        · exact h
    · rename_i hv
      rw [List.mem_cons, ih]
      constructor
      · rintro (rfl | h)
        · exact .inl ⟨rfl, by simpa using hv⟩
        · exact .inr h
      · rintro (⟨rfl, -⟩ | h)
        · exact .inl rfl
        · exact .inr h

/-- Membership in a set of offsets after one was put in (R223). -/
theorem mem_insertBound {x y : Nat} {l : List Nat} : y ∈ insertBound x l ↔ y = x ∨ y ∈ l := by
  induction l with
  | nil => simp [insertBound]
  | cons z l ih =>
    unfold insertBound
    split
    · simp
    · split
      · rename_i _ h; subst h; simp
      · simp [ih]; tauto

/-- A set of offsets stays in strictly rising order (R223). -/
theorem insertBound_pairwise {x : Nat} {l : List Nat} (h : l.Pairwise (· < ·)) :
    (insertBound x l).Pairwise (· < ·) := by
  induction l with
  | nil => simp [insertBound]
  | cons z l ih =>
    unfold insertBound
    obtain ⟨hz, hl⟩ := List.pairwise_cons.mp h
    split
    · rename_i hxz
      exact List.pairwise_cons.mpr ⟨by
        rintro a (_ | ⟨_, ha⟩)
        · exact hxz
        · exact lt_trans hxz (hz a ha), h⟩
    · split
      · exact h
      · refine List.pairwise_cons.mpr ⟨fun a ha => ?_, ih hl⟩
        rcases mem_insertBound.mp ha with rfl | ha
        · omega
        · exact hz a ha

/-- What merging a segment can do: refuse it, complete its PDU, or keep it with the others (R223). -/
theorem mergeSegment_cases (h : Header) (d : List Byte) (rx : Rx) :
    mergeSegment h d rx = .error .errCorruptHeader ∨
    mergeSegment h d rx = .error .dropDuplicate ∨
    (∃ e, mergeSegment h d rx = .ok { rx with
        window := tableSet rx.window h.sn.toNat e
        segments := tableErase rx.segments h.sn.toNat }) ∨
    (∃ e, mergeSegment h d rx = .ok { rx with
        segments := tableSet rx.segments h.sn.toNat e }) := by
  unfold mergeSegment
  simp only
  split
  · exact .inl rfl
  · split
    · exact .inr (.inl rfl)
    · split
      · exact .inr (.inr (.inl ⟨_, rfl⟩))
      · exact .inr (.inr (.inr ⟨_, rfl⟩))

/-- What the reordering timer's stop condition says (R228). -/
theorem reordMustStop_iff (s : State) : reordMustStop s = true ↔
    s.rx.vrX = s.rx.vrR ∨ (512 ≤ modBase s.rx.vrR s.rx.vrX ∧ s.rx.vrX ≠ vrMr s) := by
  unfold reordMustStop insideRxWindow rxModBase windowSize
  rw [Bool.or_eq_true, Bool.and_eq_true, Bool.not_eq_true', decide_eq_true_iff,
    decide_eq_false_iff_not, Nat.not_lt, decide_eq_true_iff]

end Sys2Proof.Machine
end

