-- ==== Sys2Proof/Laws/PerInstr.lean ====
section
/-!
SUPPORT. The per-instruction family `OpcodeRow`: the descriptor of a command starts with the opcode
word of its row of spec/opcode_table.json, the decoder knows that opcode, and the fixed argument words
of the row are there (R91, R93).
-/
open Sys2Proof

/-- What the row of a command in the opcode map says of its encoding. -/
def Sys2Proof.Laws.OpcodeRow.Statement (i : Instr) : Prop :=
  (encode i).words = i.opcode.word :: i.args ∧ i.opcode.word.toNat = i.opcode.code * 2 ^ 24 ∧
    opcodeOf i.opcode.code = some i.opcode ∧ i.opcode.fixedArgs ≤ i.args.length

/-- Word 0 of a command is its opcode byte in bits 31:24 (R91). -/
theorem Sys2Proof.Opcode.word_toNat (op : Opcode) : op.word.toNat = op.code * 2 ^ 24 := by
  cases op <;> rfl

theorem Sys2Proof.Laws.OpcodeRow.reset :
    Sys2Proof.Laws.OpcodeRow.Statement .reset :=
  ⟨rfl, Opcode.word_toNat _, rfl, by simp [Instr.opcode, Instr.args, Opcode.fixedArgs]⟩

theorem Sys2Proof.Laws.OpcodeRow.configure (v0 v1 v2 v3 v4 v5 v6 : Word) :
    Sys2Proof.Laws.OpcodeRow.Statement (.configure v0 v1 v2 v3 v4 v5 v6) :=
  ⟨rfl, Opcode.word_toNat _, rfl, by simp [Instr.opcode, Instr.args, Opcode.fixedArgs]⟩

theorem Sys2Proof.Laws.OpcodeRow.reestablish :
    Sys2Proof.Laws.OpcodeRow.Statement .reestablish :=
  ⟨rfl, Opcode.word_toNat _, rfl, by simp [Instr.opcode, Instr.args, Opcode.fixedArgs]⟩

theorem Sys2Proof.Laws.OpcodeRow.stop :
    Sys2Proof.Laws.OpcodeRow.Statement .stop :=
  ⟨rfl, Opcode.word_toNat _, rfl, by simp [Instr.opcode, Instr.args, Opcode.fixedArgs]⟩

theorem Sys2Proof.Laws.OpcodeRow.getMetrics :
    Sys2Proof.Laws.OpcodeRow.Statement .getMetrics :=
  ⟨rfl, Opcode.word_toNat _, rfl, by simp [Instr.opcode, Instr.args, Opcode.fixedArgs]⟩

theorem Sys2Proof.Laws.OpcodeRow.readVar (var : Word) :
    Sys2Proof.Laws.OpcodeRow.Statement (.readVar var) :=
  ⟨rfl, Opcode.word_toNat _, rfl, by simp [Instr.opcode, Instr.args, Opcode.fixedArgs]⟩

theorem Sys2Proof.Laws.OpcodeRow.writeSdu (pdcpSn : Word) (bytes : List Byte) :
    Sys2Proof.Laws.OpcodeRow.Statement (.writeSdu pdcpSn bytes) :=
  ⟨rfl, Opcode.word_toNat _, rfl, by simp [Instr.opcode, Instr.args, Opcode.fixedArgs]⟩

theorem Sys2Proof.Laws.OpcodeRow.discardSdu (pdcpSn : Word) :
    Sys2Proof.Laws.OpcodeRow.Statement (.discardSdu pdcpSn) :=
  ⟨rfl, Opcode.word_toNat _, rfl, by simp [Instr.opcode, Instr.args, Opcode.fixedArgs]⟩

theorem Sys2Proof.Laws.OpcodeRow.readPdu (maxBytes : Word) :
    Sys2Proof.Laws.OpcodeRow.Statement (.readPdu maxBytes) :=
  ⟨rfl, Opcode.word_toNat _, rfl, by simp [Instr.opcode, Instr.args, Opcode.fixedArgs]⟩

theorem Sys2Proof.Laws.OpcodeRow.writePdu (bytes : List Byte) :
    Sys2Proof.Laws.OpcodeRow.Statement (.writePdu bytes) :=
  ⟨rfl, Opcode.word_toNat _, rfl, by simp [Instr.opcode, Instr.args, Opcode.fixedArgs]⟩

theorem Sys2Proof.Laws.OpcodeRow.getBufferState :
    Sys2Proof.Laws.OpcodeRow.Statement .getBufferState :=
  ⟨rfl, Opcode.word_toNat _, rfl, by simp [Instr.opcode, Instr.args, Opcode.fixedArgs]⟩

theorem Sys2Proof.Laws.OpcodeRow.handleControlPdu (bytes : List Byte) :
    Sys2Proof.Laws.OpcodeRow.Statement (.handleControlPdu bytes) :=
  ⟨rfl, Opcode.word_toNat _, rfl, by simp [Instr.opcode, Instr.args, Opcode.fixedArgs]⟩

theorem Sys2Proof.Laws.OpcodeRow.getStatusPdu (maxBytes : Word) :
    Sys2Proof.Laws.OpcodeRow.Statement (.getStatusPdu maxBytes) :=
  ⟨rfl, Opcode.word_toNat _, rfl, by simp [Instr.opcode, Instr.args, Opcode.fixedArgs]⟩

theorem Sys2Proof.Laws.OpcodeRow.texpPollRetx :
    Sys2Proof.Laws.OpcodeRow.Statement .texpPollRetx :=
  ⟨rfl, Opcode.word_toNat _, rfl, by simp [Instr.opcode, Instr.args, Opcode.fixedArgs]⟩

theorem Sys2Proof.Laws.OpcodeRow.texpReordering :
    Sys2Proof.Laws.OpcodeRow.Statement .texpReordering :=
  ⟨rfl, Opcode.word_toNat _, rfl, by simp [Instr.opcode, Instr.args, Opcode.fixedArgs]⟩

theorem Sys2Proof.Laws.OpcodeRow.texpStatusProhibit :
    Sys2Proof.Laws.OpcodeRow.Statement .texpStatusProhibit :=
  ⟨rfl, Opcode.word_toNat _, rfl, by simp [Instr.opcode, Instr.args, Opcode.fixedArgs]⟩

theorem Sys2Proof.Laws.OpcodeRow.txModBase (sn : Word) :
    Sys2Proof.Laws.OpcodeRow.Statement (.txModBase sn) :=
  ⟨rfl, Opcode.word_toNat _, rfl, by simp [Instr.opcode, Instr.args, Opcode.fixedArgs]⟩

theorem Sys2Proof.Laws.OpcodeRow.rxModBase (sn : Word) :
    Sys2Proof.Laws.OpcodeRow.Statement (.rxModBase sn) :=
  ⟨rfl, Opcode.word_toNat _, rfl, by simp [Instr.opcode, Instr.args, Opcode.fixedArgs]⟩

theorem Sys2Proof.Laws.OpcodeRow.encDataHdr (hw : Word) (li : List Word) :
    Sys2Proof.Laws.OpcodeRow.Statement (.encDataHdr hw li) :=
  ⟨rfl, Opcode.word_toNat _, rfl, by simp [Instr.opcode, Instr.args, Opcode.fixedArgs]⟩

theorem Sys2Proof.Laws.OpcodeRow.decDataHdr (bytes : List Byte) :
    Sys2Proof.Laws.OpcodeRow.Statement (.decDataHdr bytes) :=
  ⟨rfl, Opcode.word_toNat _, rfl, by simp [Instr.opcode, Instr.args, Opcode.fixedArgs]⟩

theorem Sys2Proof.Laws.OpcodeRow.encStatus (maxLen ackSn : Word) (nacks : List (Word × Word)) :
    Sys2Proof.Laws.OpcodeRow.Statement (.encStatus maxLen ackSn nacks) :=
  ⟨rfl, Opcode.word_toNat _, rfl, by simp [Instr.opcode, Instr.args, Opcode.fixedArgs]⟩

theorem Sys2Proof.Laws.OpcodeRow.decStatus (bytes : List Byte) :
    Sys2Proof.Laws.OpcodeRow.Statement (.decStatus bytes) :=
  ⟨rfl, Opcode.word_toNat _, rfl, by simp [Instr.opcode, Instr.args, Opcode.fixedArgs]⟩

theorem Sys2Proof.Laws.OpcodeRow.poolAlloc (rlcSn pdcpSn : Word) :
    Sys2Proof.Laws.OpcodeRow.Statement (.poolAlloc rlcSn pdcpSn) :=
  ⟨rfl, Opcode.word_toNat _, rfl, by simp [Instr.opcode, Instr.args, Opcode.fixedArgs]⟩

theorem Sys2Proof.Laws.OpcodeRow.poolRelRlc (id : Word) :
    Sys2Proof.Laws.OpcodeRow.Statement (.poolRelRlc id) :=
  ⟨rfl, Opcode.word_toNat _, rfl, by simp [Instr.opcode, Instr.args, Opcode.fixedArgs]⟩

theorem Sys2Proof.Laws.OpcodeRow.poolRelPdcp (id : Word) :
    Sys2Proof.Laws.OpcodeRow.Statement (.poolRelPdcp id) :=
  ⟨rfl, Opcode.word_toNat _, rfl, by simp [Instr.opcode, Instr.args, Opcode.fixedArgs]⟩

theorem Sys2Proof.Laws.OpcodeRow.poolIsAcked (pdcpSn : Word) :
    Sys2Proof.Laws.OpcodeRow.Statement (.poolIsAcked pdcpSn) :=
  ⟨rfl, Opcode.word_toNat _, rfl, by simp [Instr.opcode, Instr.args, Opcode.fixedArgs]⟩
end

