-- ==== Sys2Proof/Laws/Ranges.lean ====
section
/-!
SUPPORT. Ranges of received bytes (spec/10_state.md rule R31, spec/45_receiver.md rule R223): what finding
the new bytes of a segment, cutting them into runs, inserting the runs and coalescing can do, and in
`mergedEntry_ranges` what the merge does to the ranges as a whole.
-/
namespace Sys2Proof.Machine

/-- Ranges that are sorted and disjoint; they may touch. -/
abbrev RangesSorted (l : List ByteRange) : Prop :=
  (∀ r ∈ l, r.bytes ≠ []) ∧ l.Pairwise fun a b => a.so + a.bytes.length ≤ b.so

theorem RangesApart_sorted {l : List ByteRange} (h : RangesApart l) : RangesSorted l :=
  ⟨h.1, h.2.imp fun h => le_of_lt h⟩

/-- An offset is covered exactly when the ranges hold a byte there. -/
theorem rangeByte_isSome (l : List ByteRange) (off : Nat) :
    (rangeByte l off).isSome = covered l off := by
  induction l with
  | nil => rfl
  | cons r l ih =>
    unfold rangeByte covered
    rw [List.any_cons, ← covered, ← ih]
    split
    · rename_i h
      have : off - r.so < r.bytes.length := by omega
      simp [h, this]
    · rename_i h
      simp [h]

/-- Coalescing starts no range at a new offset. -/
theorem coalesce_so {l : List ByteRange} {x : ByteRange} (hx : x ∈ coalesce l) :
    ∃ y ∈ l, y.so = x.so := by
  induction l generalizing x with
  | nil => simp [coalesce] at hx
  | cons r l ih =>
    unfold coalesce at hx
    split at hx
    · simp at hx
      exact ⟨r, by simp, by rw [hx]⟩
    · rename_i y ys hy
      have tail : ∀ z ∈ y :: ys, ∃ w ∈ r :: l, w.so = z.so := fun z hz =>
        (ih (by rw [hy]; exact hz)).imp fun w hw => ⟨List.mem_cons_of_mem _ hw.1, hw.2⟩
      split at hx
      · rcases List.mem_cons.mp hx with rfl | hx
        · exact ⟨r, by simp, rfl⟩
        · exact tail x (List.mem_cons_of_mem _ hx)
      · rcases List.mem_cons.mp hx with rfl | hx
        · exact ⟨x, by simp, rfl⟩
        · exact tail x hx

/-- Coalescing sorted, disjoint ranges leaves no two that touch (R223). -/
theorem coalesce_apart {l : List ByteRange} (h : RangesSorted l) : RangesApart (coalesce l) := by
  induction l with
  | nil => exact ⟨by simp [coalesce], by simp [coalesce]⟩
  | cons r l ih =>
    obtain ⟨hn, hp⟩ := h
    obtain ⟨hr, hl⟩ := List.pairwise_cons.mp hp
    obtain ⟨in1, in2⟩ := ih ⟨fun x hx => hn x (List.mem_cons_of_mem _ hx), hl⟩
    have hrn : r.bytes ≠ [] := hn r (by simp)
    have le : ∀ x ∈ coalesce l, r.so + r.bytes.length ≤ x.so := fun x hx => by
      obtain ⟨y, hy, e⟩ := coalesce_so hx
      rw [← e]; exact hr y hy
    unfold coalesce
    split
    · exact ⟨by simpa using hrn, by simp⟩
    · rename_i x xs hx
      rw [hx] at in1 in2 le
      obtain ⟨i1, i2⟩ := List.pairwise_cons.mp in2
      split
      · rename_i e
        refine ⟨?_, List.pairwise_cons.mpr ⟨fun z hz => ?_, i2⟩⟩
        · rintro z (_ | ⟨_, hz⟩)
          · simpa using fun h => absurd h hrn
          · exact in1 z (List.mem_cons_of_mem _ hz)
        · have := i1 z hz
          simp only [List.length_append]
          omega
      · rename_i ne
        refine ⟨?_, List.pairwise_cons.mpr ⟨fun z hz => ?_, in2⟩⟩
        · rintro z (_ | ⟨_, hz⟩)
          · exact hrn
          · exact in1 z hz
        · have h1 := le x (by simp)
          rcases List.mem_cons.mp hz with rfl | hz
          · omega
          · have := i1 z hz
            omega

/-- Coalescing changes no byte (R223). -/
theorem rangeByte_coalesce (l : List ByteRange) (off : Nat) :
    rangeByte (coalesce l) off = rangeByte l off := by
  induction l with
  | nil => rfl
  | cons r l ih =>
    rw [coalesce, rangeByte, ← ih]
    split
    · rename_i h; rw [h]; simp only [rangeByte]
    · rename_i x xs h
      rw [h]
      split
      · rename_i e
        simp only [rangeByte, List.length_append]
        by_cases h1 : r.so ≤ off ∧ off < r.so + r.bytes.length
        · rw [if_pos (by omega), if_pos h1, List.getElem?_append_left (by omega)]
        · rw [if_neg h1]
          by_cases h2 : x.so ≤ off ∧ off < x.so + x.bytes.length
          · rw [if_pos (by omega), if_pos h2, List.getElem?_append_right (by omega)]
            congr 1
            omega
          · rw [if_neg (by omega), if_neg h2]
      · rw [rangeByte]

theorem mem_insertRange {r x : ByteRange} {l : List ByteRange} :
    x ∈ insertRange r l ↔ x = r ∨ x ∈ l := by
  induction l with
  | nil => simp [insertRange]
  | cons y l ih =>
    unfold insertRange
    split
    · simp
    · simp [ih]; tauto

/-- Two ranges with no offset in common. -/
abbrev RangeDisjoint (a b : ByteRange) : Prop :=
  a.so + a.bytes.length ≤ b.so ∨ b.so + b.bytes.length ≤ a.so

/-- A range put among sorted, disjoint ones that it does not overlap keeps them so (R223). -/
theorem insertRange_sorted {r : ByteRange} {l : List ByteRange} (hr : r.bytes ≠ [])
    (h : RangesSorted l) (hd : ∀ x ∈ l, RangeDisjoint r x) : RangesSorted (insertRange r l) := by
  refine ⟨fun x hx => ?_, ?_⟩
  · rcases mem_insertRange.mp hx with rfl | hx
    · exact hr
    · exact h.1 x hx
  · obtain ⟨hn, hp⟩ := h
    have pos : ∀ {b : List Byte}, b ≠ [] → 0 < b.length := fun h => List.length_pos_iff.mpr h
    induction l with
    | nil => simp [insertRange]
    | cons y l ih =>
      obtain ⟨hy, hl⟩ := List.pairwise_cons.mp hp
      have := hd y (by simp)
      have := pos hr
      have := pos (hn y (by simp))
      unfold insertRange
      split
      · refine List.pairwise_cons.mpr ⟨fun z hz => ?_, hp⟩
        rcases List.mem_cons.mp hz with rfl | hz
        · omega
        · have := hy z hz
          omega
      · refine List.pairwise_cons.mpr ⟨fun z hz => ?_, ih (fun x hx => hd x (List.mem_cons_of_mem _ hx))
          (fun x hx => hn x (List.mem_cons_of_mem _ hx)) hl⟩
        rcases mem_insertRange.mp hz with rfl | hz
        · omega
        · exact hy z hz

/-- A range put among others that it does not overlap adds its bytes (R223). -/
theorem rangeByte_insertRange {r : ByteRange} {l : List ByteRange} (hd : ∀ x ∈ l, RangeDisjoint r x)
    (off : Nat) : rangeByte (insertRange r l) off =
      if r.so ≤ off ∧ off < r.so + r.bytes.length then r.bytes[off - r.so]? else rangeByte l off := by
  induction l with
  | nil => rfl
  | cons y l ih =>
    unfold insertRange
    split
    · rfl
    · have hy := hd y (by simp)
      rw [rangeByte, ih fun x hx => hd x (List.mem_cons_of_mem _ hx), rangeByte]
      by_cases h1 : y.so ≤ off ∧ off < y.so + y.bytes.length
      · rw [if_pos h1, if_neg (by omega), if_pos h1]
      · rw [if_neg h1, if_neg h1]

/-- The runs of a rising list of offsets are sorted and apart, start at offsets of the list, and hold
exactly its bytes (R223). -/
theorem runsOf_spec {l : List (Nat × Byte)} (h : l.Pairwise fun a b => a.1 < b.1) :
    RangesApart (runsOf l) ∧
    (∀ r ∈ runsOf l, ∃ e ∈ l, r.so = e.1) ∧
    ∀ off, rangeByte (runsOf l) off = (l.find? fun e => decide (e.1 = off)).map (·.2) := by
  induction l with
  | nil => exact ⟨⟨by simp [runsOf], by simp [runsOf]⟩, by simp [runsOf], by
      simp [runsOf, rangeByte]⟩
  | cons e l ih =>
    obtain ⟨off0, b⟩ := e
    obtain ⟨hlt, hl⟩ := List.pairwise_cons.mp h
    obtain ⟨⟨i1, i2⟩, i4, i5⟩ := ih hl
    have start : ∀ r ∈ runsOf l, off0 < r.so := fun r hr => by
      obtain ⟨e, he, h⟩ := i4 r hr
      rw [h]; exact hlt e he
    have byte : ∀ off, (((off0, b) :: l).find? fun e => decide (e.1 = off)).map (·.2) =
        if off0 = off then some b else rangeByte (runsOf l) off := fun off => by
      by_cases hoff : off0 = off <;> simp [hoff, i5]
    unfold runsOf
    split
    · rename_i hnil
      rw [hnil] at byte
      refine ⟨⟨by simp, by simp⟩, by simp, fun off => ?_⟩
      rw [byte, rangeByte, rangeByte]
      by_cases hoff : off0 = off
      · subst hoff; simp
      · rw [if_neg hoff, if_neg (by simp; omega), rangeByte]
    · rename_i r rs hrs
      rw [hrs] at i1 i2 i4 start byte
      obtain ⟨j1, j2⟩ := List.pairwise_cons.mp i2
      have hr := start r (by simp)
      split
      · rename_i he
        refine ⟨⟨?_, List.pairwise_cons.mpr ⟨fun z hz => ?_, j2⟩⟩, ?_, fun off => ?_⟩
        · rintro z (_ | ⟨_, hz⟩)
          · simp
          · exact i1 z (List.mem_cons_of_mem _ hz)
        · have := j1 z hz
          simp only [List.length_cons]
          omega
        · rintro z (_ | ⟨_, hz⟩)
          · exact ⟨_, List.mem_cons_self, rfl⟩
          · obtain ⟨e, he, h⟩ := i4 z (List.mem_cons_of_mem _ hz)
            exact ⟨e, List.mem_cons_of_mem _ he, h⟩
        · rw [byte, rangeByte, rangeByte]
          simp only [List.length_cons]
          by_cases hoff : off0 = off
          · subst hoff
            rw [if_pos (by omega), if_pos rfl]
            simp
          · rw [if_neg hoff]
            by_cases h2 : r.so ≤ off ∧ off < r.so + r.bytes.length
            · rw [if_pos (by omega), if_pos h2]
              have : off - off0 = (off - r.so) + 1 := by omega
              rw [this, List.getElem?_cons_succ]
            · rw [if_neg (by omega), if_neg h2]
      · rename_i he
        refine ⟨⟨?_, List.pairwise_cons.mpr ⟨fun z hz => ?_, i2⟩⟩, ?_, fun off => ?_⟩
        · rintro z (_ | ⟨_, hz⟩)
          · simp
          · exact i1 z hz
        · rcases List.mem_cons.mp hz with rfl | hz
          · simp only [List.length_cons, List.length_nil]; omega
          · have := j1 z hz
            simp only [List.length_cons, List.length_nil]; omega
        · rintro z (_ | ⟨_, hz⟩)
          · exact ⟨_, List.mem_cons_self, rfl⟩
          · obtain ⟨e, he, h⟩ := i4 z hz
            exact ⟨e, List.mem_cons_of_mem _ he, h⟩
        · rw [byte, rangeByte]
          by_cases hoff : off0 = off
          · subst hoff; simp
          · rw [if_neg hoff, if_neg (by simp; omega)]

/-- Ranges put one after another among others, none of them overlapping (R223). -/
theorem insertRanges_spec {rs l : List ByteRange} (hr : RangesSorted rs) (hl : RangesSorted l)
    (hd : ∀ r ∈ rs, ∀ x ∈ l, RangeDisjoint r x) :
    RangesSorted (rs.foldl (fun acc r => insertRange r acc) l) ∧
    (∀ x, x ∈ rs.foldl (fun acc r => insertRange r acc) l ↔ x ∈ rs ∨ x ∈ l) ∧
    ∀ off, rangeByte (rs.foldl (fun acc r => insertRange r acc) l) off =
      if (rangeByte rs off).isSome then rangeByte rs off else rangeByte l off := by
  induction rs generalizing l with
  | nil => exact ⟨hl, by simp, by simp [rangeByte]⟩
  | cons r rs ih =>
    obtain ⟨hn, hp⟩ := hr
    obtain ⟨h1, h2⟩ := List.pairwise_cons.mp hp
    have hrn := hn r (by simp)
    have hdr := hd r (by simp)
    obtain ⟨a, b, c⟩ := ih ⟨fun x hx => hn x (List.mem_cons_of_mem _ hx), h2⟩
      (insertRange_sorted hrn hl hdr) (fun z hz x hx => by
        rcases mem_insertRange.mp hx with rfl | hx
        · exact .inr (h1 z hz)
        · exact hd z (List.mem_cons_of_mem _ hz) x hx)
    refine ⟨a, fun x => ?_, fun off => ?_⟩
    · rw [List.foldl_cons, b, mem_insertRange, List.mem_cons]; tauto
    · rw [List.foldl_cons, c, rangeByte_insertRange hdr, rangeByte]
      by_cases hoff : r.so ≤ off ∧ off < r.so + r.bytes.length
      · have none : rangeByte rs off = none := by
          rw [← Option.not_isSome_iff_eq_none, rangeByte_isSome, covered, List.any_eq_true]
          rintro ⟨z, hz, hc⟩
          have := h1 z hz
          simp at hc
          omega
        have : off - r.so < r.bytes.length := by omega
        simp [none, hoff, this]
      · rw [if_neg hoff, if_neg hoff]

/-- The new bytes of a segment: rising offsets, each inside the segment and not covered, with the
segment's byte (R223). -/
theorem newBytes_spec (ranges : List ByteRange) (s : Nat) (d : List Byte) :
    ((newBytes ranges s d).Pairwise fun a b => a.1 < b.1) ∧
    (∀ e ∈ newBytes ranges s d,
      covered ranges e.1 = false ∧ s ≤ e.1 ∧ d[e.1 - s]? = some e.2) ∧
    ∀ off, s ≤ off → off < s + d.length → covered ranges off = false →
      ∃ b, (off, b) ∈ newBytes ranges s d ∧ d[off - s]? = some b := by
  refine ⟨?_, fun e he => ?_, fun off h1 h2 hc => ?_⟩
  · unfold newBytes
    refine List.Pairwise.filter _ ?_
    rw [List.pairwise_map]
    refine (List.pairwise_iff_getElem.mpr fun i j hi hj hij => ?_)
    simp [List.getElem_zipIdx]
    omega
  · simp only [newBytes, List.mem_filter, List.mem_map, Bool.not_eq_true'] at he
    obtain ⟨⟨x, hx, rfl⟩, hc⟩ := he
    have hx := List.mem_zipIdx_iff_getElem?.mp (by simpa using hx)
    exact ⟨hc, by simp, by simpa using hx⟩
  · have hlt : off - s < d.length := by omega
    refine ⟨d[off - s], ?_, by simp [hlt]⟩
    simp only [newBytes, List.mem_filter, List.mem_map, Bool.not_eq_true']
    exact ⟨⟨(d[off - s], off - s), List.mem_zipIdx_iff_getElem?.mpr (by simp [hlt]), by
      simp; omega⟩, hc⟩

/-- What merging does to the ranges: they stay apart, every byte held before is held unchanged, and the
segment's bytes are held at the offsets that were free (R223). -/
theorem mergedEntry_ranges {entry : SegEntry} {h : Header} {d : List Byte}
    (hr : RangesApart entry.ranges) (e : Nat) :
    let merged := (mergedEntry entry h (newBytes entry.ranges h.so d) e).ranges
    RangesApart merged ∧ ∀ off, rangeByte merged off =
      if (rangeByte entry.ranges off).isSome = true then rangeByte entry.ranges off
      else if h.so ≤ off ∧ off < h.so + d.length then d[off - h.so]? else none := by
  obtain ⟨n1, n2, n3⟩ := newBytes_spec entry.ranges h.so d
  obtain ⟨r1, -, r3⟩ := runsOf_spec n1
  have found : ∀ off b, rangeByte (runsOf (newBytes entry.ranges h.so d)) off = some b →
      (off, b) ∈ newBytes entry.ranges h.so d := fun off b hb => by
    rw [r3, Option.map_eq_some_iff] at hb
    obtain ⟨⟨o, c⟩, h1, rfl⟩ := hb
    have h2 := List.find?_some h1
    simp only [decide_eq_true_eq] at h2
    rw [← h2]
    exact List.mem_of_find?_eq_some h1
  have disjoint : ∀ r ∈ runsOf (newBytes entry.ranges h.so d), ∀ x ∈ entry.ranges,
      RangeDisjoint r x := fun r hrun x hx => by
    by_contra hc
    have hrl := List.length_pos_iff.mpr (r1.1 r hrun)
    have hxl := List.length_pos_iff.mpr (hr.1 x hx)
    simp only [RangeDisjoint, not_or, Nat.not_le] at hc
    have both : ∃ off, (r.so ≤ off ∧ off < r.so + r.bytes.length) ∧
        x.so ≤ off ∧ off < x.so + x.bytes.length := by
      rcases Nat.le_total r.so x.so with h | h
      · exact ⟨x.so, by omega, by omega⟩
      · exact ⟨r.so, by omega, by omega⟩
    obtain ⟨off, h1, h2⟩ := both
    have hold : (rangeByte (runsOf (newBytes entry.ranges h.so d)) off).isSome = true := by
      rw [rangeByte_isSome]
      exact List.any_eq_true.mpr ⟨r, hrun, by simpa using h1⟩
    obtain ⟨b, hb⟩ := Option.isSome_iff_exists.mp hold
    have free := (n2 _ (found off b hb)).1
    have : covered entry.ranges off = true := List.any_eq_true.mpr ⟨x, hx, by simpa using h2⟩
    simp_all
  obtain ⟨i1, -, i3⟩ := insertRanges_spec (RangesApart_sorted r1) (RangesApart_sorted hr) disjoint
  refine ⟨coalesce_apart i1, fun off => ?_⟩
  change rangeByte (coalesce _) off = _
  rw [rangeByte_coalesce, i3]
  cases hb : rangeByte (runsOf (newBytes entry.ranges h.so d)) off with
  | some b =>
    obtain ⟨h1, h2, h3⟩ := n2 _ (found off b hb)
    rw [← rangeByte_isSome] at h1
    have := (List.getElem?_eq_some_iff.mp h3).1
    simp only at h2 this h3
    simp [h1, h2, h3]
    omega
  | none =>
    cases hc : (rangeByte entry.ranges off).isSome with
    | true => simp
    | false =>
      have h1 : rangeByte entry.ranges off = none := by simpa using hc
      rw [rangeByte_isSome] at hc
      have : ¬ (h.so ≤ off ∧ off < h.so + d.length) := fun ⟨h1, h2⟩ => by
        obtain ⟨b, hb', -⟩ := n3 off h1 h2 hc
        rw [r3, Option.map_eq_none_iff, List.find?_eq_none] at hb
        simpa using hb _ hb'
      rw [if_neg this]
      simp [h1]

end Sys2Proof.Machine
end

