-- ==== Sys2Proof/Tests/Slice0.lean ====
section
/-!
SUPPORT. Tests and witnesses. Expected results are those of spec/95_test_vectors.md (the section is
named beside each), of the byte tables of R141, R146 and R213, or worked out by hand from a rule. A
`witness_` theorem shows a concrete state and operands that meet the hypotheses of the obligation it
is named after.
-/
namespace Sys2Proof.Tests

open Sys2Proof Sys2Proof.Machine

/-! ### Helpers -/

/-- Parameters with a pool of four slots, so that states stay small. -/
def small : Params := { poolCapacity := 4 }

/-- An engine that went through CONFIGURE and REESTABLISH with the registers the vectors use
(spec/95_test_vectors.md, opening). -/
def engine (p : Params) (cfg : CfgRegs) : State :=
  { State.initial p with cfg := cfg, cfgValid := true, enabled := true }

/-- The registers of the vectors. -/
def regs : CfgRegs := ⟨50, 0, 0, 4, 35, 0, 128⟩

/-- A small running engine. -/
def fresh : State := engine small regs

/-- The state a command leaves, with the command's own outputs alone in `out`; a stop leaves the state
as it was. -/
def run (i : Instr) (s : State) : State :=
  match exec i { s with out := [] } with
  | .next t => t
  | .fault _ => s
  | .refused _ => s

/-- What a command puts on the ports. -/
def outputs (i : Instr) (s : State) : List Output := (run i s).out

/-- The response with result code `code`. -/
def resp (code : Nat) (results : List Word) (bytes : List Byte) : Output :=
  .response ⟨BitVec.ofNat 32 code :: results, bytes⟩

/-! ### Well-formedness: one ill-formed term per check, and its neighbour that is well-formed (R95) -/

theorem test_wf_readVar : (Instr.readVar 17).wellFormed {} = false ∧
    (Instr.readVar 16).wellFormed {} = true := by decide

theorem test_wf_pdcpSn : let p : Params := { pdcpSnBits := 5 }
    (Instr.writeSdu 32 [1]).wellFormed p = false ∧ (Instr.writeSdu 31 [1]).wellFormed p = true ∧
    (Instr.discardSdu 32).wellFormed p = false ∧ (Instr.discardSdu 31).wellFormed p = true ∧
    (Instr.poolAlloc 0 32).wellFormed p = false ∧ (Instr.poolAlloc 0 31).wellFormed p = true ∧
    (Instr.poolIsAcked 32).wellFormed p = false ∧ (Instr.poolIsAcked 31).wellFormed p = true := by
  decide

theorem test_wf_length : let p : Params := { maxPduBytes := 2 }
    (Instr.readPdu 3).wellFormed p = false ∧ (Instr.readPdu 2).wellFormed p = true ∧
    (Instr.getStatusPdu 3).wellFormed p = false ∧ (Instr.getStatusPdu 2).wellFormed p = true ∧
    (Instr.writePdu [1, 2, 3]).wellFormed p = false ∧ (Instr.writePdu [1, 2]).wellFormed p = true ∧
    (Instr.handleControlPdu [1, 2, 3]).wellFormed p = false ∧
    (Instr.handleControlPdu [1, 2]).wellFormed p = true ∧
    (Instr.decDataHdr [1, 2, 3]).wellFormed p = false ∧
    (Instr.decStatus [1, 2, 3]).wellFormed p = false ∧
    (Instr.encStatus 3 0 []).wellFormed p = false ∧
    (Instr.encStatus 2 0 []).wellFormed p = true := by decide

theorem test_wf_sn : (Instr.txModBase 1024).wellFormed {} = false ∧
    (Instr.rxModBase 1024).wellFormed {} = false ∧ (Instr.poolAlloc 1024 0).wellFormed {} = false ∧
    (Instr.encStatus 2 1024 []).wellFormed {} = false ∧
    (Instr.txModBase 1023).wellFormed {} = true ∧ (Instr.encStatus 2 1023 []).wellFormed {} = true := by
  decide

theorem test_wf_counts : let p : Params := { nLiMax := 1 }
    (Instr.encDataHdr 1 [3, 4]).wellFormed p = false ∧
    (Instr.encDataHdr 1 [3]).wellFormed p = true ∧
    legalNackCount 1025 = false ∧ legalNackCount 1024 = true := by decide

theorem test_wf_nack_words : (Instr.encStatus 9 0 [(0x800, 0)]).wellFormed {} = false ∧
    (Instr.encStatus 9 0 [(0, 0x8000)]).wellFormed {} = false ∧
    (Instr.encStatus 9 0 [(0, 0x80000000)]).wellFormed {} = false ∧
    (Instr.encStatus 9 0 [(0x7FF, 0x7FFF7FFF)]).wellFormed {} = true := by decide

/-- A payload of 2^32 bytes has no length word (R91). -/
theorem test_wf_encodable (bytes : List Byte) (h : bytes.length = 2 ^ 32) :
    (Instr.writePdu bytes).encodable = false ∧ (Instr.writePdu bytes).wellFormed {} = false := by
  simp [Instr.wellFormed, Instr.encodable, h]

/-! ### Decoding: a descriptor written out for every command (R91, R93) -/

theorem test_decode_management :
    decode ⟨[0x01000000], []⟩ = .ok .reset ∧
    decode ⟨[0x02000000, 1, 2, 3, 4, 5, 6, 7], []⟩ = .ok (.configure 1 2 3 4 5 6 7) ∧
    decode ⟨[0x03000000], []⟩ = .ok .reestablish ∧
    decode ⟨[0x04000000], []⟩ = .ok .stop ∧
    decode ⟨[0x05000000], []⟩ = .ok .getMetrics ∧
    decode ⟨[0x06000000, 11], []⟩ = .ok (.readVar 11) := by decide

theorem test_decode_data :
    decode ⟨[0x10000000, 7, 1], [0x11]⟩ = .ok (.writeSdu 7 [0x11]) ∧
    decode ⟨[0x11000000, 7], []⟩ = .ok (.discardSdu 7) ∧
    decode ⟨[0x20000000, 100], []⟩ = .ok (.readPdu 100) ∧
    decode ⟨[0x21000000, 3], [0x80, 0x02, 0xAA]⟩ = .ok (.writePdu [0x80, 0x02, 0xAA]) ∧
    decode ⟨[0x22000000], []⟩ = .ok .getBufferState ∧
    decode ⟨[0x23000000, 2], [0x00, 0x14]⟩ = .ok (.handleControlPdu [0x00, 0x14]) ∧
    decode ⟨[0x24000000, 4], []⟩ = .ok (.getStatusPdu 4) := by decide

theorem test_decode_timers :
    decode ⟨[0x30000000], []⟩ = .ok .texpPollRetx ∧
    decode ⟨[0x31000000], []⟩ = .ok .texpReordering ∧
    decode ⟨[0x32000000], []⟩ = .ok .texpStatusProhibit := by decide

theorem test_decode_diagnostics :
    decode ⟨[0x40000000, 104], []⟩ = .ok (.txModBase 104) ∧
    decode ⟨[0x41000000, 87], []⟩ = .ok (.rxModBase 87) ∧
    decode ⟨[0x42000000, 0x41, 2, 10, 2047], []⟩ = .ok (.encDataHdr 0x41 [10, 2047]) ∧
    decode ⟨[0x43000000, 2], [0x80, 0x00]⟩ = .ok (.decDataHdr [0x80, 0x00]) ∧
    decode ⟨[0x44000000, 100, 9, 2, 2, 0, 0x405, 0x160000], []⟩ =
      .ok (.encStatus 100 9 [(2, 0), (0x405, 0x160000)]) ∧
    decode ⟨[0x45000000, 2], [0x00, 0x14]⟩ = .ok (.decStatus [0x00, 0x14]) ∧
    decode ⟨[0x48000000, 1, 7], []⟩ = .ok (.poolAlloc 1 7) ∧
    decode ⟨[0x49000000, 3], []⟩ = .ok (.poolRelRlc 3) ∧
    decode ⟨[0x4A000000, 3], []⟩ = .ok (.poolRelPdcp 3) ∧
    decode ⟨[0x4B000000, 7], []⟩ = .ok (.poolIsAcked 7) := by decide

/-- What is no command is rejected by name (R95, U9). -/
theorem test_decode_rejects :
    decode ⟨[], []⟩ = .error .noWords ∧
    decode ⟨[0x07000000], []⟩ = .error (.unknownOpcode 7) ∧
    decode ⟨[0x00000000], []⟩ = .error (.unknownOpcode 0) ∧
    decode ⟨[0x01000001], []⟩ = .error (.reservedBits .reset) ∧
    decode ⟨[0x06000000], []⟩ = .error (.wordCount .readVar) ∧
    decode ⟨[0x42000000, 1, 2, 10], []⟩ = .error (.wordCount .encDataHdr) ∧
    decode ⟨[0x44000000, 1, 2, 1, 10], []⟩ = .error (.wordCount .encStatus) ∧
    decode ⟨[0x10000000, 7, 2], [0x11]⟩ = .error (.payloadLength .writeSdu) ∧
    decode ⟨[0x11000000, 7], [0x11]⟩ = .error (.payloadLength .discardSdu) := by decide

/-- Table words: operands the table gives no bits are zero, and the placed word runs next. -/
theorem test_decodeTableWord :
    decodeTableWord 32 0x20000000 = some (.readPdu 0) ∧
    decodeTableWord 32 0x10000000 = some (.writeSdu 0 []) ∧
    decodeTableWord 32 0x44000000 = some (.encStatus 0 0 []) ∧
    decodeTableWord 128 0x0000000B_00000002_00000041_42000000 =
      some (.encDataHdr 0x41 [0xB, 0]) ∧
    decodeTableWord 160 0x000007FF_0000000B_00000002_00000041_42000000 =
      some (.encDataHdr 0x41 [0xB, 0x7FF]) ∧
    decodeTableWord 32 0x07000000 = none := by decide

theorem test_step_runs_table_word :
    step (State.reset.withFetchWord 32 0x06000000) = exec (.readVar 0) State.reset := by
  rfl

/-! ### States the tests start from -/

/-- Two SDUs queued: pdcp 0 = `10 11 12`, pdcp 1 = `20 21`. -/
def queued : State := run (.writeSdu 1 [0x20, 0x21]) (run (.writeSdu 0 [0x10, 0x11, 0x12]) fresh)

/-- Both sent in one PDU, SN 0, with a poll. -/
def sent : State := run (.readPdu 100) queued

/-- SN 0 = `10` and SN 1 = `11` sent as two PDUs, the second with a poll (the base state `S5` of
section 2.4, cut to two PDUs). -/
def sentTwo : State :=
  run (.readPdu 3) (run (.readPdu 3) (run (.writeSdu 1 [0x11]) (run (.writeSdu 0 [0x10]) fresh)))

/-- The PDU of `sent` NACKed whole: it is queued for retransmission. -/
def nacked : State := run (.handleControlPdu [0x00, 0x06, 0x00, 0x00]) sent

/-- The parent PDU of R213, as the window holds it. -/
def parentEntry : TxEntry where
  hdr := { dc := true, rf := false, p := false, fiS := false, fiE := true, sn := 9, lsf := false
           so := 0, li := [8] }
  buf := [0x10, 0x11, 0x12, 0x13, 0x14, 0x15, 0x16, 0x17, 0x40, 0x41, 0x42, 0x43, 0x44, 0x45, 0x46,
    0x47, 0x48, 0x49, 0x4A, 0x4B, 0x4C]
  retxCount := 1
  segs := [0, 1]

/-- The parent PDU of R213 as SN 9, queued whole for retransmission. -/
def parent : State :=
  { fresh with tx := { fresh.tx with
      vtA := 9, vtS := 10, pollSn := 9, window := [(9, parentEntry)], retxQ := [⟨9, false, 0, 21⟩] } }

/-- A full transmit window of which only the floor is written out. -/
def fullWindow : State :=
  { sent with tx := { sent.tx with vtS := 512, pollSn := 511 } }

/-- The window of R266's hand-made state: full, its floor missing. -/
def floorMissing : State := { fullWindow with tx := { fullWindow.tx with window := [] } }

/-- SN 2 received, SN 0 and SN 1 missing. -/
def gap : State := run (.writePdu [0x80, 0x02, 0xAA]) fresh

/-- Bytes 2 and 3 of SN 0 received. -/
def partly : State := run (.writePdu [0xC0, 0x00, 0x00, 0x02, 0xCC, 0xDD]) fresh

/-- A STATUS is due: SN 0 came with a poll. -/
def due : State := run (.writePdu [0xA0, 0x00, 0xAA]) fresh

/-! ### The commands, one by one -/

/-- Section 2.7, row 20, from a state in which a timer runs (R250). -/
theorem test_reset : outputs .reset sent = [.event (.timerStop .pollRetx), resp 0 [] []] ∧
    flagsWord (run .reset sent) = 0 ∧ (run .reset sent).pool.free = [0, 1, 2, 3] ∧
    (run .reset sent).txSduCount = 0 := by decide

/-- Section 2.7, rows 4, 5 and 8. -/
theorem test_configure :
    outputs (.configure 50 0 0 0 35 0 128) (State.initial small) = [resp 0x10 [] []] ∧
    outputs (.configure 50 0 0 4 35 0 128) (State.initial small) = [resp 0 [] []] ∧
    flagsWord (run (.configure 50 0 0 4 35 0 128) (State.initial small)) = 0x100 ∧
    outputs (.configure 50 0 0 4 35 0 64) fresh = [resp 0x11 [] []] := by decide

/-- Section 2.7, rows 3 and 7. -/
theorem test_reestablish :
    outputs .reestablish (State.initial small) = [resp 0x11 [] []] ∧
    run .reestablish (run (.configure 50 0 0 4 35 0 128) (State.initial small)) =
      { fresh with out := [resp 0 [] []] } := by decide

/-- Section 2.7, rows 16 and 18: the metrics are kept. -/
theorem test_stop : outputs .stop sent = [.event (.timerStop .pollRetx), resp 0 [] []] ∧
    flagsWord (run .stop sent) = 0x100 ∧ (run .stop sent).txSduCount = 2 := by decide

/-- R254. -/
theorem test_getMetrics : outputs .getMetrics { sent with lostPduCount := 7 } = [resp 0 [2, 7] []] := by
  decide

/-- Section 2.7, rows 9 to 12, and the flags of row 15. -/
theorem test_readVar : [2, 7, 11, 16, 17].map (fun v => outputs (.readVar v) sent) =
    [[resp 0 [512] []], [resp 0 [512] []], [resp 0 [0x148] []], [resp 0 [2] []],
      [resp 0x10 [0] []]] := by decide

/-- Section 2.4, queue limits, `tx_queue_length = 2`; the size is checked first. -/
theorem test_writeSdu : let s := { queued with cfg := { regs with txQueueLength := 2 } }
    outputs (.writeSdu 0 []) s = [resp 0x22 [] []] ∧
    outputs (.writeSdu 2 [0x33]) s = [resp 0x20 [] []] ∧ queued.txSduCount = 2 := by decide

/-- Section 2.4, discard. -/
theorem test_discardSdu :
    let s := run (.writeSdu 6 [8]) (run (.writeSdu 5 [7]) (run (.writeSdu 4 [1, 2, 3, 4, 5, 6]) fresh))
    outputs (.discardSdu 5) s = [resp 0 [] []] ∧ outputs (.discardSdu 9) s = [resp 0x41 [] []] ∧
    outputs (.discardSdu 4) (run (.readPdu 5) s) = [resp 0x40 [] []] := by decide

/-- Section 2.4, packing of several SDUs: a PDU that ends inside its third SDU, then one that ends the
queue with a poll. -/
theorem test_readPdu_packs :
    let s := run (.writeSdu 3 [0x40, 0x41, 0x42, 0x43, 0x44])
      (run (.writeSdu 2 [0x30, 0x31, 0x32, 0x33]) { queued with pool := Pool.cleared {poolCapacity := 6} })
    outputs (.readPdu 12) s =
      [resp 0 [12] [0x8C, 0, 0x80, 0x30, 2, 0x10, 0x11, 0x12, 0x20, 0x21, 0x30, 0x31]] ∧
    outputs (.readPdu 12) (run (.readPdu 12) s) = [.event (.timerStart .pollRetx 50),
      resp 0 [11] [0xB4, 1, 0, 0x20, 0x32, 0x33, 0x40, 0x41, 0x42, 0x43, 0x44]] := by decide

/-- R213: three segments of the parent, and the grant of 16 instead. -/
theorem test_readPdu_segments :
    outputs (.readPdu 12) parent =
      [resp 0 [12] [0xC0, 9, 0, 0, 0x10, 0x11, 0x12, 0x13, 0x14, 0x15, 0x16, 0x17]] ∧
    outputs (.readPdu 12) (run (.readPdu 12) (run (.readPdu 12) parent)) =
      [.event (.timerStart .pollRetx 50),
        resp 0 [9] [0xF8, 9, 0x80, 0x10, 0x48, 0x49, 0x4A, 0x4B, 0x4C]] ∧
    outputs (.readPdu 16) parent = [resp 0 [16]
      [0xCC, 9, 0, 0, 0, 0x80, 0x10, 0x11, 0x12, 0x13, 0x14, 0x15, 0x16, 0x17, 0x40, 0x41]] := by decide

/-- Section 2.6, row 9 of the window table: length indicators cut the payload. -/
theorem test_writePdu_delivers :
    outputs (.writePdu [0x84, 0, 0, 0x20, 0xAA, 0xBB, 0xCC]) gap =
      [.event (.deliverSdu [0xAA, 0xBB]), .event (.deliverSdu [0xCC]), resp 0 [] []] := by decide

/-- Section 2.6, segment merge: the bytes held first are kept, the last piece completes the PDU. -/
theorem test_writePdu_merges :
    let s := run (.writePdu [0xD0, 0, 0x80, 5, 0xFF])
      (run (.writePdu [0xD8, 0, 0, 1, 0xB1, 0xC1, 0xD1, 0xE1]) partly)
    outputs (.writePdu [0xC8, 0, 0, 0, 0xAA]) s =
      [.event (.deliverSdu [0xAA, 0xB1]), .event (.deliverSdu [0xCC, 0xDD]),
        .event (.deliverSdu [0xE1, 0xFF]), .event (.timerStop .reordering), resp 0 [] []] := by decide

/-- Section 2.4 and Program 1, row 6: the queued SDUs, then a pending STATUS. -/
theorem test_getBufferState : outputs .getBufferState queued = [resp 0 [9] []] ∧
    outputs .getBufferState nacked = [resp 0 [9] []] ∧
    outputs .getBufferState due = [resp 0 [2] []] := by decide

/-- Section 2.4, STATUS reception, over two PDUs: ack 3 out of range, ack 2 of everything, a NACK of
SN 0 alone. -/
theorem test_handleControlPdu :
    outputs (.handleControlPdu [0x00, 0x0C]) sentTwo = [resp 0x33 [] []] ∧
    outputs (.handleControlPdu [0x00, 0x08]) sentTwo =
      [.event (.timerStop .pollRetx), .event (.notifyDelivery [0, 1]), resp 0 [] []] ∧
    outputs (.handleControlPdu [0x00, 0x0A, 0x00, 0x00]) sentTwo =
      [.event (.timerStop .pollRetx), .event (.notifyDelivery [1]), resp 0 [] []] ∧
    (run (.handleControlPdu [0x00, 0x0A, 0x00, 0x00]) sentTwo).tx.retxQ = [⟨0, false, 0, 1⟩] := by
  decide

/-- Section 2.4, NACK with segment offsets: `so_end` is inclusive on the wire. -/
theorem test_handleControlPdu_offsets :
    (run (.handleControlPdu [0x00, 0x06, 0x00, 0x20, 0x00, 0x00, 0x00, 0xB8]) sent).tx.retxQ =
      [⟨0, true, 0, 2⟩] := by decide

/-- Section 2.6, STATUS generation and truncation. -/
theorem test_getStatusPdu :
    let s := { fresh with rx := { fresh.rx with vrR := 1, vrMs := 4, vrH := 4, window :=
      [(2, ⟨⟨true, false, false, false, false, 2, false, 0, []⟩, [1]⟩),
       (3, ⟨⟨true, false, false, false, false, 3, false, 0, []⟩, [1]⟩)] } }
    [100, 4, 3, 1].map (fun n => outputs (.getStatusPdu n) s) =
      [[resp 0 [4] [0, 0x12, 0, 0x80]], [resp 0 [4] [0, 0x12, 0, 0x80]], [resp 0 [2] [0, 4]],
        [resp 0 [0] []]] := by decide +kernel

/-- Section 2.4, poll-retransmission expiry; the second one is stale. -/
theorem test_texpPollRetx : let s := run .texpPollRetx sentTwo
    s.tx.retxQ = [⟨0, false, 0, 1⟩] ∧ s.tx.pollRetxRunning = false ∧ s.tx.pollRetxExpired = true ∧
    run .texpPollRetx s = s := by decide

/-- Section 2.6, two gaps: the first expiry counts SN 0 and SN 1 lost here and moves past SN 2. -/
theorem test_texpReordering : let s := run .texpReordering gap
    s.lostPduCount = 2 ∧ s.rx.vrMs = 3 ∧ s.rx.reordRunning = false ∧ s.out = [resp 0 [] []] := by
  decide

/-- Section 2.6, status prohibit, rows 3 and 7. -/
theorem test_texpStatusProhibit :
    let s := run (.readPdu 100) { due with cfg := { regs with tStatusProhibit := 20 } }
    s.out = [.event (.timerStart .statusProhibit 20), resp 0 [2] [0, 4]] ∧
    (run .texpStatusProhibit s).tx.statusProhibitRunning = false := by decide

/-- Section 2.1. -/
theorem test_txModBase : let s := { fresh with tx := { fresh.tx with vtA := 1000 } }
    [104, 999, 1024].map (fun x => outputs (.txModBase x) s) =
      [[resp 0 [128] []], [resp 0 [1023] []], [resp 0x10 [0] []]] := by decide

/-- Section 2.1. -/
theorem test_rxModBase : let s := { fresh with rx := { fresh.rx with vrR := 600 } }
    [600, 87, 88, 599].map (fun x => outputs (.rxModBase x) s) =
      [[resp 0 [0] []], [resp 0 [511] []], [resp 0 [512] []], [resp 0 [1023] []]] := by decide

/-- R213: `fi = (0,1)`, SN 9, `li = [8]`, a segment at offset 0; and a header that is not DATA. -/
theorem test_encDataHdr :
    outputs (.encDataHdr 0x24B [8]) fresh = [resp 0 [6] [0xCC, 9, 0, 0, 0, 0x80]] ∧
    outputs (.encDataHdr 0x24A [8]) fresh = [resp 0x10 [0] []] := by decide

/-- Section 2.2: the segment of Program 3, a pad nibble that is ignored, and a length indicator 0. -/
theorem test_decDataHdr :
    outputs (.decDataHdr [0xF8, 0, 0x80, 0x10, 0x48, 0x49, 0x4A, 0x4B, 0x4C]) fresh =
      [resp 0 [0x10003F, 0, 4] []] ∧
    outputs (.decDataHdr [0x84, 0, 0, 0x2F, 0xAA, 0xBB, 0xCC]) fresh = [resp 0 [1, 1, 4, 2] []] ∧
    outputs (.decDataHdr [0x84, 0, 0, 0, 0xAA]) fresh = [resp 0x30 [0, 0, 0] []] := by decide

/-- Section 2.6, two gaps: ack 4, NACK 0, NACK 2 and its truncation to 4 bytes; and a row of the table of
R146 with offset bits that R22 makes 0. -/
theorem test_encStatus :
    outputs (.encStatus 100 10 [(3, 0x00160005)]) fresh = [resp 0 [4] [0, 0x2A, 0x01, 0x80]] ∧
    outputs (.encStatus 100 4 [(0, 0), (2, 0)]) fresh = [resp 0 [5] [0, 0x12, 0, 0x40, 0x10]] ∧
    outputs (.encStatus 4 4 [(0, 0), (2, 0)]) fresh = [resp 0 [4] [0, 0x0A, 0, 0]] := by decide

/-- Section 2.2: a NACK with offsets, and a STATUS cut short. -/
theorem test_decStatus :
    outputs (.decStatus [0, 0x0A, 0, 0x20, 2, 0x3F, 0xFF, 0x80]) fresh =
      [resp 0 [2, 1, 0x400, 0x7FFF0008] []] ∧
    outputs (.decStatus [0, 0x16]) fresh = [resp 0x30 [0, 0] []] := by decide

/-- Section 2.3, steps 1 to 3, `POOL_CAPACITY = 2`. -/
theorem test_poolAlloc : let s := engine { poolCapacity := 2 } regs
    let t := run (.poolAlloc 1 7) (run (.poolAlloc 0 7) s)
    t.out = [resp 0 [1] []] ∧ outputs (.poolAlloc 2 8) t = [resp 0x21 [0] []] := by decide

/-- Section 2.3, steps 4 to 11. -/
theorem test_poolRel_isAcked : let s := engine { poolCapacity := 2 } regs
    let t := run (.poolAlloc 1 7) (run (.poolAlloc 0 7) s)
    let u := run (.poolRelRlc 1) (run (.poolRelRlc 0) t)
    let v := run (.poolRelPdcp 0) (run (.poolRelPdcp 1) u)
    outputs (.poolIsAcked 7) t = [resp 0 [0] []] ∧ outputs (.poolIsAcked 7) u = [resp 0 [1] []] ∧
    v.pool.free = [0, 1] ∧ outputs (.poolIsAcked 7) v = [resp 0 [0] []] ∧
    outputs (.poolRelRlc 1) v = [resp 0x10 [] []] := by decide

/-- Section 2.7, last paragraph: the fatal failure and the ways out of it. -/
theorem test_protocolFailure : let s := run (.readPdu 10) floorMissing
    s.out = [.event .protocolFailure, resp 0x50 [0] []] ∧ s.failed = true ∧
    outputs (.writeSdu 0 [1]) s = [resp 0x12 [] []] ∧
    (run .reestablish s).failed = false ∧ flagsWord (run .reestablish s) = 0x140 := by decide

/-- Section 2.7, rows 21 and 22. -/
theorem test_step_illegal :
    step { fresh with port := [⟨[0x01000001], []⟩] } = .next { fresh with out := [resp 0x10 [] []] } ∧
    step { fresh with port := [⟨[0x07000000], []⟩] } = .next { fresh with out := [resp 0x10 [] []] } :=
  ⟨rfl, rfl⟩

/-! ### Witnesses: states and operands that meet the hypotheses of the obligations -/

theorem witness_DecodeEncodeRoundTrip : (Instr.encStatus 100 10 [(3, 0), (4, 0)]).encodable = true ∧
    (Instr.writeSdu 7 [0xAA, 0xBB]).encodable = true ∧ Instr.reset.encodable = true := by decide

theorem witness_EncodeDecodeRoundTrip :
    decode ⟨[0x10000000, 7, 2], [0xAA, 0xBB]⟩ = .ok (.writeSdu 7 [0xAA, 0xBB]) := by decide

/-- No words, an unknown opcode, reserved bits, wrong counts (also of the two commands with repeated
groups), a payload of another length, bytes where none belong, and two illegal arguments. -/
theorem witness_IllegalCommandRefused :
    let s : State := { fresh with port := [⟨[0x01000001], []⟩] }
    s.params.valid = true ∧ s.clearing = none ∧ s.port = ⟨[0x01000001], []⟩ :: [] ∧
    ({ fresh with port := [⟨[], [1]⟩] } : State).port = ⟨[], [1]⟩ :: [] ∧
    opcodeOf ((0x07000000 : Word).toNat / 2 ^ 24) = none ∧
    opcodeOf ((0x01000001 : Word).toNat / 2 ^ 24) = some .reset ∧
    (0x01000001 : Word).toNat % 2 ^ 24 ≠ 0 ∧ [(9 : Word)].length ≠ Opcode.reset.fixedArgs ∧
    opcodeOf ((0x42000000 : Word).toNat / 2 ^ 24) = some .encDataHdr ∧
    (∀ n ∈ [(1 : Word), 1, 10, 11][1]?, [(1 : Word), 1, 10, 11].length ≠ 2 + n.toNat) ∧
    opcodeOf ((0x44000000 : Word).toNat / 2 ^ 24) = some .encStatus ∧
    (∀ n ∈ [(9 : Word), 5, 1, 3][2]?, [(9 : Word), 5, 1, 3].length ≠ 3 + 2 * n.toNat) ∧
    (Opcode.writePdu.hasPayload = true ∧
      ∃ n ∈ [(1 : Word)].getLast?, ([] : List Byte).length ≠ n.toNat) ∧
    Opcode.reset.hasPayload = false ∧ ([1] : List Byte) ≠ [] ∧
    (Instr.readVar 17).legal s.params = false ∧ (Instr.txModBase 1024).legal s.params = false :=
  ⟨by decide, rfl, rfl, rfl, rfl, rfl, by decide +kernel, by decide, by simp [opcodeOf], by simp,
    by simp [opcodeOf], by simp, ⟨rfl, 1, rfl, by decide⟩, rfl, by decide, by decide, by decide⟩

theorem witness_StepRunsDecoded :
    let s : State := { fresh with port := [⟨[0x05000000], []⟩] }
    s.params.valid = true ∧ s.clearing = none ∧ s.port = ⟨[0x05000000], []⟩ :: [] ∧
    decode ⟨[0x05000000], []⟩ = .ok .getMetrics ∧ fresh.port = [] ∧
    ({ fresh with clearing := some ⟨.tx, true⟩ } : State).clearing = some ⟨.tx, true⟩ ∧
    decodeTableWord 32 0x05000000 = some .getMetrics := by decide

theorem witness_OneResponsePerCommand :
    exec (.readPdu 100) { queued with out := [] } = .next (run (.readPdu 100) queued) ∧
    queued.params.dualSeq = false ∧
    exec .getMetrics { fresh with params := { small with dualSeq := true } } =
      .next (run .getMetrics { fresh with params := { small with dualSeq := true } }) ∧
    Instr.getMetrics ≠ .reestablish ∧ Instr.getMetrics ≠ .stop :=
  ⟨rfl, rfl, rfl, by decide, by decide⟩

/-- An SDU of no bytes. -/
theorem witness_RefusedCommandChangesNothing :
    TxSound fresh ∧ TxSound sentTwo ∧ fresh.params.dualSeq = false ∧
    exec (.writeSdu 0 []) fresh = .next (respond .errSduSize [] [] fresh) ∧
    (respond .errSduSize [] [] fresh).out = [] ++ [.response (responseOf .errSduSize [] [])] ∧
    ResultCode.errSduSize ≠ .ok ∧ ResultCode.errSduSize ≠ .errProtocolFailure :=
  ⟨by decide, by decide, rfl, rfl, rfl, by decide, by decide⟩

theorem witness_DataPathRefused :
    isDataPath .getBufferState = true ∧ Instr.getBufferState.legal fresh.params = true ∧
    ({ fresh with failed := true } : State).failed = true ∧
    (State.initial small).failed = false ∧ (State.initial small).enabled = false ∧
    (State.initial small).cfgValid = false ∧ isObservation (.readVar 3) = true := by decide

theorem witness_ResetLeaves : ∃ t, exec .reset sent = .next t := ⟨_, rfl⟩

theorem witness_ConfigureWritesRegisters :
    fresh.enabled = true ∧ (State.initial small).enabled = false ∧ (1 : Word) ≠ 0 := by decide

theorem witness_ClearingCommands :
    (State.initial small).cfgValid = false ∧ sent.params.dualSeq = false ∧ sent.cfgValid = true := by
  decide

theorem witness_DualClearing : let s := engine { small with dualSeq := true } regs
    s.params.dualSeq = true ∧ s.params.valid = true ∧ s.cfgValid = true := by decide

theorem witness_ObservationCommands : (16 : Word).toNat ≤ 16 ∧ 16 < (17 : Word).toNat := by decide

theorem witness_ModBaseValues : (1023 : Word).toNat ≤ 1023 ∧ 1023 < (1024 : Word).toNat := by decide

theorem witness_HeaderLength :
    decodeDataHeader {} [0x84, 0, 0, 0x20, 0xAA, 0xBB, 0xCC] =
      some (⟨true, false, false, false, false, 0, false, 0, [2]⟩, 4) := by decide

theorem witness_DataHeaderRoundTrip :
    let h : Header := ⟨true, true, true, false, true, 1000, false, 32767, [1, 2]⟩
    headerEncodable {} h = true ∧ h.li.sum < ([7, 8, 9, 10] : List Byte).length ∧
    decodeDataHeader {} [0x84, 0, 0, 0x2F, 0xAA, 0xBB, 0xCC] =
      some (⟨true, false, false, false, false, 0, false, 0, [2]⟩, 4) := by decide

theorem witness_EncodeHeaderCommand :
    (0x7FFF0003 : Word).getLsbD 0 = true ∧ (0x7FFF0003 : Word).getLsbD 1 = true ∧
    (0x7FFF0003 : Word).toNat / 2 ^ 16 ≤ 32767 ∧ (2047 : Word).toNat ≤ 2047 ∧
    [(2047 : Word)].length ≤ fresh.params.nLiMax ∧ (0x80000003 : Word).toNat / 2 ^ 16 = 32768 := by
  decide +kernel

/-- The least count of length indicators whose header has 2^32 bytes, under parameters that admit it, and
the count below it (log entry 21). -/
theorem witness_EncodeHeaderCommand_length :
    let li (n : Nat) : List Word := List.replicate n 1
    let h (n : Nat) : Header := ⟨true, false, false, false, false, 0, false, 0, (li n).map (·.toNat)⟩
    let p : Params := { nLiMax := 2863311529 }
    (∀ n ≤ 2863311529, (li n).length ≤ p.nLiMax ∧ ∀ l ∈ (h n).li, 1 ≤ l ∧ l ≤ 2047) ∧
    p.valid = true ∧ 2 ^ 32 ≤ hdrLen (h 2863311529) ∧ hdrLen (h 2863311528) < 2 ^ 32 := by
  intro li h p
  have hlen : ∀ n, hdrLen (h n) = 2 + ceilOneAndHalf n := fun n => by simp [h, li, hdrLen]
  refine ⟨fun n hn => ⟨by simpa [li, p] using hn, fun l hl => ?_⟩, by decide +kernel, ?_, ?_⟩
  · simp only [h, li, List.map_replicate, List.mem_replicate] at hl
    simp [hl.2]
  · rw [hlen]; decide +kernel
  · rw [hlen]; decide +kernel

/-- The second clause at its edge: as many payload bytes as the length indicators. -/
theorem witness_DecodeHeaderCommand :
    let h : Header := ⟨true, false, false, false, false, 0, false, 0, [3]⟩
    headerEncodable fresh.params h = true ∧
    h.li.sum < ([1, 2, 3, 4] : List Byte).length ∧ ([1, 2, 3] : List Byte).length ≤ h.li.sum ∧
    (encodeDataHeader h ++ [1, 2, 3, 4]).length ≤ fresh.params.maxPduBytes ∧
    ([0x80] : List Byte).length < 2 ∧ (∃ b0 ∈ ([0x00, 0x14] : List Byte).head?, b0.getLsbD 7 = false) := by
  decide

/-- A segment of 3 bytes, a chain past the bytes, a length indicator 0, one too many for a capacity of 0, a
length indicator that leaves no payload; and a header that is not corrupt. -/
theorem witness_DecodeHeaderCommand_malformed :
    HeaderMalformed small [0xC0, 0, 0] ∧ HeaderMalformed small [0x84, 0x05] ∧
    HeaderMalformed small [0x84, 0, 0, 0, 0xAA] ∧
    HeaderMalformed { small with nLiMax := 0 } [0x84, 0, 0, 0x10, 0xAA, 0xBB] ∧
    HeaderMalformed small [0x84, 0, 0, 0x10, 0xAA] ∧
    ¬ HeaderMalformed small [0x80, 0, 0xAA] := by
  refine ⟨.inr (.inr (.inl (by decide))), .inr (.inr (.inr (.inl ⟨0, by decide, by decide⟩))),
    .inr (.inr (.inr (.inl ⟨0, by decide, by decide⟩))),
    .inr (.inr (.inr (.inl ⟨0, by decide, by decide⟩))),
    .inr (.inr (.inr (.inr ⟨1, by decide, by decide, by decide⟩))), ?_⟩
  rintro (h | h | h | ⟨k, h, -⟩ | ⟨n, h, -, hn⟩)
  · exact absurd h (by decide)
  · exact absurd h (by decide)
  · exact absurd h (by decide)
  · exact absurd (h 0 (Nat.zero_le k)) (by decide)
  · cases n with
    | zero => exact absurd hn (by decide)
    | succ n => exact absurd (h 0 (Nat.succ_pos n)) (by decide)

/-- A NACK element cut short, one whose offsets are, and a STATUS PDU that is not corrupt. -/
theorem witness_DecodeStatusCommand_malformed :
    StatusMalformed [0x00, 0x16, 0x00] ∧ StatusMalformed [0x00, 0x16, 0x00, 0x20, 0x00] ∧
    ¬ StatusMalformed [0x00, 0x14] := by
  refine ⟨.inr (.inr ⟨0, by decide, by decide⟩), .inr (.inr ⟨0, by decide, by decide⟩), ?_⟩
  rintro (h | h | ⟨k, h, -⟩)
  · exact absurd h (by decide)
  · exact absurd h (by decide)
  · exact absurd (h 0 (Nat.zero_le k)) (by decide)

/-- Two elements of SN 0, of which the second is dropped: `ack_sn` stays; with both dropped it is 0. -/
theorem witness_TruncationLaw_again :
    let st : StatusPdu := ⟨4, [⟨0, true, 0, 1⟩, ⟨0, true, 3, 4⟩]⟩
    truncateStatus st 8 = some ⟨4, [⟨0, true, 0, 1⟩]⟩ ∧ truncateStatus st 7 = some ⟨0, []⟩ := by
  decide

theorem witness_TruncationLaw :
    let st : StatusPdu := ⟨4, [⟨0, false, 0, 0⟩, ⟨2, false, 0, 0⟩]⟩
    (1 : Nat) < 2 ∧ 2 ≤ 4 ∧ (st.nacks.map (·.nackSn)).Nodup ∧
    truncateStatus st 4 = some ⟨2, [⟨0, false, 0, 0⟩]⟩ := by decide

/-- A grant of 1 and of 4 bytes, an element with offsets and one without, every bit that may be set. -/
theorem witness_EncodeStatusCommand :
    let nacks : List (Word × Word) := [(0x7FF, 0x7FFF7FFF), (0x3FF, 0x7FFF7FFF)]
    (4 : Word).toNat ≤ fresh.params.maxPduBytes ∧ (1 : Word).toNat < 2 ∧ 2 ≤ (4 : Word).toNat ∧
    (1023 : Word).toNat ≤ 1023 ∧ nacks.length ≤ 1024 ∧
    (∀ nw ∈ nacks, nw.1.toNat < 2 ^ 11 ∧ nw.2.getLsbD 15 = false ∧ nw.2.getLsbD 31 = false) :=
  ⟨by decide, by decide, by decide, by decide, by decide, by simp⟩

/-- R22 against R149 (log entry 19): whatever the encoder, if R149 holds of it then some status of 1024
elements, in 1538 bytes, is encoded with more than 512. So no ENC_STATUS keeps both rules. -/
theorem test_roundTrip_excludes_cap (enc : StatusPdu → Nat → List Byte)
    (r149 : ∀ st maxLen, st.nacks.length ≤ 1024 → statusLen st ≤ maxLen →
      decodeStatus (enc st maxLen) = some st) :
    ∃ st t : StatusPdu, st.nacks.length ≤ 1024 ∧ decodeStatus (enc st 1538) = some t ∧
      512 < t.nacks.length := by
  let st : StatusPdu := ⟨0, List.replicate 1024 ⟨0, false, 0, 0⟩⟩
  have hl : st.nacks.length = 1024 := List.length_replicate ..
  have hs : ∀ n, statusLen ⟨0, List.replicate n ⟨0, false, 0, 0⟩⟩ = (15 + n * 12 + 7) / 8 := fun n => by
    simp [statusLen, nackCost]
  exact ⟨st, st, hl.le, r149 st 1538 hl.le (hs 1024).le, by omega⟩

theorem witness_StatusRoundTrip :
    let st : StatusPdu := ⟨9, [⟨2, false, 0, 0⟩, ⟨5, true, 32767, 32767⟩]⟩
    (∀ n ∈ st.nacks, n.soStart ≤ 32767 ∧ n.soEnd ≤ 32767) ∧
    (∀ n ∈ st.nacks, n.hasSo = false → n.soStart = 0 ∧ n.soEnd = 0) ∧ st.nacks.length ≤ 1024 ∧
    (15 + (st.nacks.map fun n => if n.hasSo then 42 else 12).sum + 7) / 8 ≤ 9 := by decide

/-- R145, R146: 1024 elements of which none is dropped in the 1538 bytes they take, and one in a byte
less, which lowers `ack_sn` to its SN. -/
theorem test_truncateStatus_long :
    let st : StatusPdu := ⟨7, (List.range 1024).map fun i => ⟨BitVec.ofNat 10 i, false, 0, 0⟩⟩
    truncateStatus st 1538 = some st ∧
    (truncateStatus st 1537).map (fun t => (t.ackSn, t.nacks.length)) = some (1023, 1023) := by
  decide +kernel

theorem witness_DecodeStatusCommand :
    let st : StatusPdu := ⟨9, [⟨2, false, 0, 0⟩, ⟨5, true, 32767, 32767⟩]⟩
    (∀ n ∈ st.nacks, n.soStart ≤ 32767 ∧ n.soEnd ≤ 32767) ∧
    (∀ n ∈ st.nacks, n.hasSo = false → n.soStart = 0 ∧ n.soEnd = 0) ∧ st.nacks.length ≤ 1024 ∧
    (bytesOfBits (statusBits st) ++ [0xFF]).length ≤ fresh.params.maxPduBytes ∧
    ([0x00] : List Byte).length < 2 ∧ (∃ b0 ∈ ([0x10, 0x14] : List Byte).head?, b0.toNat / 16 ≠ 0) := by
  decide

theorem witness_PoolAllocTakesTop : (1023 : Word).toNat ≤ 1023 ∧
    (0xFFFFFFFF : Word).toNat < 2 ^ fresh.params.pdcpSnBits ∧ fresh.pool.free = 0 :: [1, 2, 3] ∧
    (engine { poolCapacity := 0 } regs).pool.free = [] := by decide

/-- An index above the pool, a free slot, and a slot in use. -/
theorem witness_PoolReleaseHalves : sent.params.poolCapacity ≤ (4 : Word).toNat ∧
    tableGet sent.pool.slots 2 = none ∧ (1 : Word).toNat < sent.params.poolCapacity ∧
    tableGet sent.pool.slots (1 : Word).toNat = some ⟨0, 1, false, false⟩ := by decide

theorem witness_PoolIsAcked :
    (0 : Word).toNat < 2 ^ sent.params.pdcpSnBits ∧
    (sent.pool.slots.filter fun e => e.2.pdcpSn = 0) = [(0, ⟨0, 0, false, false⟩)] ∧
    ((run (.poolRelRlc 0) sent).pool.slots.filter fun e => e.2.pdcpSn = 0) =
      [(0, ⟨0, 0, true, false⟩)] ∧
    (sent.pool.slots.filter fun e => e.2.pdcpSn = 9) = [] := by decide

/-- An empty SDU, one too long, a full queue, and a queue with room. -/
theorem witness_WriteSduQueues : Accepting queued ∧ (9 : Word).toNat < 2 ^ queued.params.pdcpSnBits ∧
    { small with maxSduBytes := 1 }.maxSduBytes < ([1, 2] : List Byte).length ∧
    ([1] : List Byte) ≠ [] ∧ ([1] : List Byte).length ≤ queued.params.maxSduBytes ∧
    queued.tx.sduQ.length = ({ regs with txQueueLength := 2 } : CfgRegs).txQueueLength.toNat ∧
    queued.tx.sduQ.length ≠ queued.cfg.txQueueLength.toNat := by decide

/-- A queued SDU, a partly sent head, an SDU that was sent, and none. -/
theorem witness_DiscardSduRemoves :
    let half := run (.readPdu 4) queued
    Accepting queued ∧ (1 : Word).toNat < 2 ^ queued.params.pdcpSnBits ∧
    queued.tx.sduQ = [⟨0, [0x10, 0x11, 0x12]⟩] ++ ⟨1, [0x20, 0x21]⟩ :: [] ∧
    (∀ x ∈ [(⟨0, [0x10, 0x11, 0x12]⟩ : SduEntry)], x.pdcpSn ≠ 1) ∧
    Accepting half ∧ half.tx.sduQ = [] ++ ⟨0, [0x10, 0x11, 0x12]⟩ :: [⟨1, [0x20, 0x21]⟩] ∧
    0 < half.tx.headOff ∧
    Accepting sent ∧ (∀ x ∈ sent.tx.sduQ, x.pdcpSn ≠ 0) ∧ (∃ e ∈ sent.pool.slots, e.2.pdcpSn = 0) ∧
    (∀ x ∈ fresh.tx.sduQ, x.pdcpSn ≠ 0) ∧ (∀ e ∈ fresh.pool.slots, e.2.pdcpSn ≠ 0) := by decide

theorem witness_ReadPduStatusBranch :
    Accepting due ∧ (2 : Word).toNat ≤ due.params.maxPduBytes ∧ StatusDue due ∧
    due.params.dualSeq = false ∧ due.cfg.tStatusProhibit = 0 ∧
    ({ regs with tStatusProhibit := 20 } : CfgRegs).tStatusProhibit ≠ 0 ∧ (1 : Word).toNat < 2 ∧
    exec (.readPdu 1) { due with rx := { due.rx with doStatus := false }, out := [] } =
      .next (run (.readPdu 1) { due with rx := { due.rx with doStatus := false } }) :=
  ⟨by decide, by decide, by decide, rfl, rfl, by decide, by decide, rfl⟩

/-- The edge of the first trigger: a count equal to `CFG.poll_pdu` asks for no poll, one more does. -/
theorem witness_PollRule :
    let u : State := { queued with cfg := { regs with pollPdu := 2 }
                                   tx := { queued.tx with pduWithoutPoll := 2 } }
    pollRequired u = false ∧ pollRequired { u with tx := { u.tx with pduWithoutPoll := 3 } } = true := by
  decide

/-- A grant of 3 bytes, which ends inside the first SDU, and one of 100, which empties the queue. -/
theorem witness_NewDataPdu :
    (100 : Word).toNat ≤ queued.params.maxPduBytes ∧ 3 ≤ (100 : Word).toNat ∧
    0 < (run (.readPdu 3) queued).tx.headOff ∧ sent.tx.headOff = 0 ∧
    Accepting queued ∧ (3 : Word).toNat ≤ queued.params.maxPduBytes ∧ 3 ≤ (3 : Word).toNat ∧
    ¬ StatusDue queued ∧ queued.tx.retxQ = [] ∧ modBase queued.tx.vtA queued.tx.vtS < 512 ∧
    SduQueueSound queued ∧ queued.tx.sduQ ≠ [] ∧ queued.pool.free ≠ [] ∧ PoolSound queued := by decide

theorem witness_NothingToSend :
    Accepting fresh ∧ (2 : Word).toNat ≤ fresh.params.maxPduBytes ∧ ¬ StatusDue fresh ∧
    fresh.tx.retxQ = [] ∧ modBase fresh.tx.vtA fresh.tx.vtS < 512 ∧ fresh.tx.sduQ = [] ∧
    queued.tx.sduQ ≠ [] ∧ (2 : Word).toNat < 3 ∧ 3 ≤ (3 : Word).toNat ∧
    Accepting parent ∧ ¬ StatusDue parent ∧ parent.tx.retxQ = ⟨9, false, 0, 21⟩ :: [] ∧
    tableGet parent.tx.window (9 : Sn).toNat = some parentEntry ∧ 0 < 21 ∧
    21 ≤ parentEntry.buf.length ∧ (5 : Word).toNat < 2 + 0 + (1 + 1) + 21 ∧ (4 : Word).toNat < 5 ∧ 5 ≤ (5 : Word).toNat := by decide

theorem witness_NothingToSend_exhausted :
    let s := { queued with pool := Pool.cleared { poolCapacity := 0 } }
    Accepting s ∧ (3 : Word).toNat ≤ s.params.maxPduBytes ∧ ¬ StatusDue s ∧ s.tx.retxQ = [] ∧
    modBase s.tx.vtA s.tx.vtS < 512 ∧ s.tx.sduQ ≠ [] ∧ s.pool.free = [] := by decide

theorem witness_WholeRetransmission :
    Accepting parent ∧ (25 : Word).toNat ≤ parent.params.maxPduBytes ∧ ¬ StatusDue parent ∧
    parent.tx.retxQ = [] ++ ⟨9, false, 0, 21⟩ :: [] ∧
    tableGet parent.tx.window (9 : Sn).toNat = some parentEntry ∧
    2 + (if parentEntry.hdr.rf then 2 else 0) +
      (parentEntry.hdr.li.length + (parentEntry.hdr.li.length + 1) / 2) + parentEntry.buf.length
      ≤ (25 : Word).toNat ∧
    ({ parent with tx := { parent.tx with retxQ := [⟨3, false, 0, 1⟩, ⟨9, false, 0, 21⟩] } } :
      State).tx.retxQ = [⟨3, false, 0, 1⟩] ++ ⟨9, false, 0, 21⟩ :: [] ∧
    validAt parent.tx.window 3 = false := by decide

/-- R213 with a grant of 12: the segment ends at 8; with a grant of 4 no segment fits. -/
theorem witness_SegmentRetransmission :
    let r : RetxEntry := ⟨9, false, 0, 21⟩
    let t := parentEntry
    let bounds := (List.range t.hdr.li.length).map fun j => (t.hdr.li.take (j + 1)).sum
    let inner (e : Nat) := bounds.filter fun x => decide (r.soStart < x ∧ x < e)
    let fits (n : Word) (e : Nat) : Prop :=
      4 + ((inner e).length + ((inner e).length + 1) / 2) + (e - r.soStart) ≤ n.toNat ∧
        (inner e).length ≤ parent.params.nLiMax
    Accepting parent ∧ ¬ StatusDue parent ∧ parent.tx.retxQ = [] ++ r :: [] ∧
    tableGet parent.tx.window r.sn.toNat = some t ∧ r.soEnd ≤ t.buf.length ∧
    (12 : Word).toNat ≤ parent.params.maxPduBytes ∧
    (12 : Word).toNat < 2 + (if t.hdr.rf then 2 else 0) +
      (t.hdr.li.length + (t.hdr.li.length + 1) / 2) + t.buf.length ∧
    r.soStart < 8 ∧ 8 ≤ r.soEnd ∧ fits 12 8 ∧ (∀ e', 8 < e' → e' ≤ r.soEnd → ¬ fits 12 e') ∧
    (∀ e, r.soStart < e → e ≤ r.soEnd → ¬ fits 4 e) := by
  refine ⟨by decide, by decide, by decide, by decide, by decide, by decide, by decide, by decide,
    by decide, by decide, fun e h1 h2 => ?_, fun e h1 h2 => ?_⟩
  · change e ≤ 21 at h2
    interval_cases e <;> decide
  · change 0 < e at h1
    change e ≤ 21 at h2
    interval_cases e <;> decide

theorem witness_OldestScheduled :
    Accepting fullWindow ∧ (10 : Word).toNat ≤ fullWindow.params.maxPduBytes ∧
    ¬ StatusDue fullWindow ∧ fullWindow.tx.retxQ = [] ∧
    512 ≤ modBase fullWindow.tx.vtA fullWindow.tx.vtS ∧
    (tableGet fullWindow.tx.window fullWindow.tx.vtA.toNat).isSome = true ∧
    Accepting floorMissing ∧ floorMissing.tx.vtA ≠ floorMissing.tx.vtS ∧
    tableGet floorMissing.tx.window floorMissing.tx.vtA.toNat = none ∧ ¬ StatusDue floorMissing ∧
    512 ≤ modBase floorMissing.tx.vtA floorMissing.tx.vtS ∧
    floorMissing.tx.pollRetxRunning = true := by decide

theorem witness_GrantNeverExceeded : exec (.readPdu 12) parent = .next (run (.readPdu 12) parent) :=
  rfl

theorem witness_TransmitterExpiries :
    Accepting fresh ∧ fresh.tx.pollRetxRunning = false ∧ fresh.tx.statusProhibitRunning = false ∧
    Accepting sentTwo ∧ sentTwo.tx.pollRetxRunning = true ∧ sentTwo.tx.retxQ = [] ∧
    sentTwo.tx.sduQ = [] ∧ sentTwo.tx.vtA ≠ sentTwo.tx.vtS ∧
    (tableGet sentTwo.tx.window sentTwo.tx.vtA.toNat).isSome = true ∧
    ({ sentTwo with tx := { sentTwo.tx with statusProhibitRunning := true } } :
      State).tx.statusProhibitRunning = true ∧
    512 ≤ modBase fullWindow.tx.vtA fullWindow.tx.vtS := by decide

/-- No STATUS due, and one due with one sequencer. -/
theorem witness_BufferStateSum : Accepting nacked ∧ ¬ StatusDue nacked ∧ Accepting due ∧
    StatusDue due ∧ due.params.dualSeq = false := by decide

/-- A malformed STATUS, an acknowledgement one above the window, no bytes, a STATUS for WRITE_PDU, a
header with no payload, SN 512 and a duplicate. -/
theorem witness_DroppedPdus : Accepting sentTwo ∧ decodeStatus [0x00, 0x16] = none ∧
    decodeStatus [0x00, 0x0C] = some ⟨3, []⟩ ∧
    modBase sentTwo.tx.vtA sentTwo.tx.vtS < modBase sentTwo.tx.vtA 3 ∧
    (0x00 : Byte).getLsbD 7 = false ∧ (0x80 : Byte).getLsbD 7 = true ∧
    decodeDataHeader gap.params [0x80, 0x00] = none ∧ Accepting gap ∧
    decodeDataHeader gap.params [0x82, 0x00, 0xAA] =
      some (⟨true, false, false, false, false, 512, false, 0, []⟩, 2) ∧
    512 ≤ modBase gap.rx.vrR 512 ∧ modBase gap.rx.vrR 2 < 512 ∧ validAt gap.rx.window 2 = true := by
  decide

/-- The acknowledgement at the end of its range, and a NACK inside it. -/
theorem witness_StatusWalk : Accepting sentTwo ∧ TxSound sentTwo ∧
    ([0x00, 0x0A, 0x00, 0x00] : List Byte).length ≤ sentTwo.params.maxPduBytes ∧
    decodeStatus [0x00, 0x0A, 0x00, 0x00] = some ⟨2, [⟨0, false, 0, 0⟩]⟩ ∧
    modBase sentTwo.tx.vtA 2 ≤ modBase sentTwo.tx.vtA sentTwo.tx.vtS := by decide

/-- SN 0 and SN 1 NACKed, SN 0 for two byte ranges: the first clause. -/
theorem witness_NackQueuesRetransmission_general :
    Accepting sentTwo ∧ RecordsInUse sentTwo ∧
    decodeStatus (bytesOfBits (statusBits
        ⟨2, [⟨0, true, 0, 0⟩, ⟨0, true, 0, 0x7FFF⟩, ⟨1, false, 0, 0⟩]⟩)) =
      some ⟨2, [⟨0, true, 0, 0⟩, ⟨0, true, 0, 0x7FFF⟩, ⟨1, false, 0, 0⟩]⟩ ∧
    modBase sentTwo.tx.vtA 2 ≤ modBase sentTwo.tx.vtA sentTwo.tx.vtS := by decide

theorem witness_NackQueuesRetransmission : Accepting sentTwo ∧
    decodeStatus [0x00, 0x06, 0x00, 0x00] = some ⟨sentTwo.tx.vtA + 1, [⟨0, false, 0, 0⟩]⟩ ∧
    (0 : Sn) = sentTwo.tx.vtA ∧ sentTwo.tx.vtA ≠ sentTwo.tx.vtS ∧
    (∃ t ∈ tableGet sentTwo.tx.window sentTwo.tx.vtA.toNat,
      ∀ id ∈ t.segs, (tableGet sentTwo.pool.slots id).isSome = true) ∧
    (∀ r ∈ sentTwo.tx.retxQ, r.sn ≠ sentTwo.tx.vtA) ∧
    sentTwo.tx.retxQ.length < sentTwo.params.retxQCapacity ∧ sentTwo.tx.pollSn ≠ sentTwo.tx.vtA := by
  decide

/-- Both PDUs acknowledged, and one SDU in two PDUs of which only the first is. -/
theorem witness_AckedSduReported_general :
    let s := run (.readPdu 3) (run (.readPdu 3) (run (.writeSdu 0 [0x10, 0x11]) fresh))
    Accepting sentTwo ∧ PoolSound sentTwo ∧ RecordsInUse sentTwo ∧
    decodeStatus [0x00, 0x08] = some ⟨2, []⟩ ∧
    modBase sentTwo.tx.vtA 2 ≤ modBase sentTwo.tx.vtA sentTwo.tx.vtS ∧
    Accepting s ∧ PoolSound s ∧ RecordsInUse s ∧ decodeStatus [0x00, 0x04] = some ⟨1, []⟩ ∧
    modBase s.tx.vtA 1 ≤ modBase s.tx.vtA s.tx.vtS ∧
    (s.pool.slots.filter fun e => e.2.pdcpSn = 0).length = 2 := by decide

theorem witness_AckedSduReported :
    let s := { sentTwo with tx := { sentTwo.tx with pollRetxRunning := false } }
    Accepting s ∧ decodeStatus [0x00, 0x04] = some ⟨s.tx.vtA + 1, []⟩ ∧ s.tx.vtA ≠ s.tx.vtS ∧
    (∃ t ∈ tableGet s.tx.window s.tx.vtA.toNat, t.segs = [0]) ∧
    validAt s.tx.window (s.tx.vtA + 1) = true ∧ PoolSound s ∧
    tableGet s.pool.slots 0 = some ⟨0, 0, false, false⟩ ∧
    (∀ e ∈ s.pool.slots, e.2.pdcpSn = 0 → e.1 = 0) ∧ s.tx.sduQ = [] ∧ s.tx.headOff = 0 ∧
    s.tx.pollRetxRunning = false := by decide

theorem witness_DeliveryReportedOnce : PoolSound sentTwo ∧
    exec (.handleControlPdu [0x00, 0x08]) { sentTwo with out := [] } =
      .next (run (.handleControlPdu [0x00, 0x08]) sentTwo) :=
  ⟨by decide, rfl⟩

/-- SN 1 below a gap, and the last SN inside the window. -/
theorem witness_CompletePduStored : Accepting gap ∧ RxSound gap ∧
    decodeDataHeader gap.params [0x80, 0x01, 0xBB] =
      some (⟨true, false, false, false, false, 1, false, 0, []⟩, 2) ∧
    modBase gap.rx.vrR 1 < 512 ∧ validAt gap.rx.window 1 = false ∧
    decodeDataHeader gap.params [0x81, 0xFF, 0xAA] =
      some (⟨true, false, false, false, false, 511, false, 0, []⟩, 2) ∧
    modBase gap.rx.vrR 511 < 512 ∧ validAt gap.rx.window 511 = false := by decide

/-- A complete PDU that fills a gap, and a segment that is accepted. -/
theorem witness_ReorderingTimerRule : Accepting gap ∧ RxSound gap ∧
    decodeDataHeader gap.params [0x80, 0x00, 0xBB] =
      some (⟨true, false, false, false, false, 0, false, 0, []⟩, 2) ∧
    modBase gap.rx.vrR 0 < 512 ∧ validAt gap.rx.window 0 = false ∧
    exec (.writePdu [0x80, 0x00, 0xBB]) { gap with out := [] } =
      .next (run (.writePdu [0x80, 0x00, 0xBB]) gap) ∧
    Accepting fresh ∧ RxSound fresh ∧
    decodeDataHeader fresh.params [0xC0, 0x00, 0x00, 0x02, 0xCC, 0xDD] =
      some (⟨true, true, false, false, false, 0, false, 2, []⟩, 4) ∧
    exec (.writePdu [0xC0, 0x00, 0x00, 0x02, 0xCC, 0xDD]) fresh = .next partly ∧
    partly.out = [.event (.timerStart .reordering 35)] ++ [.response (responseOf .ok [] [])] :=
  ⟨by decide, by decide, by decide, by decide, by decide, rfl, by decide, by decide, by decide, rfl,
    by decide⟩

/-- SN 0 with SN 1 and SN 2 held: three PDUs are consumed at once; and an SDU longer than
`MAX_SDU_BYTES`, a continuation of nothing. -/
theorem witness_InOrderDelivery_general :
    let s := run (.writePdu [0x80, 0x01, 0xBB]) gap
    Accepting s ∧ RxSound s ∧
    decodeDataHeader s.params [0x80, 0x00, 0xAA] =
      some (⟨true, false, false, false, false, 0, false, 0, []⟩, 2) ∧
    modBase s.rx.vrR 0 < 512 ∧ validAt s.rx.window 0 = false ∧
    (run (.writePdu [0x80, 0x00, 0xAA]) s).rx.vrR = 3 ∧
    decodeDataHeader s.params [0x90, 0x00, 0xAA] =
      some (⟨true, false, false, true, false, 0, false, 0, []⟩, 2) ∧ s.rx.sduActive = false ∧
    { small with maxSduBytes := 1 }.maxSduBytes < ([0xAA, 0xBB] : List Byte).length := by decide

/-- A first fragment that continues an SDU, a whole one, and a last one that does not end. -/
theorem witness_InOrderDelivery :
    let s := run (.writePdu [0x88, 0x00, 0xAA]) fresh
    let h : Header := ⟨true, false, false, true, true, 1, false, 0, [1, 1]⟩
    Accepting s ∧ RxSound s ∧
    decodeDataHeader s.params [0x9C, 1, 0x80, 0x10, 1, 0xB0, 0xC0, 0xD0] = some (h, 5) ∧
    h.sn = s.rx.vrR ∧ validAt s.rx.window (s.rx.vrR + 1) = false ∧
    fragmentsOf h.li [0xB0, 0xC0, 0xD0] = [0xB0] :: [[0xC0], [0xD0]] ∧ s.rx.sduActive = true ∧
    (∀ x ∈ (s.rx.sdu ++ [0xB0]) :: [[0xC0], [0xD0]], x.length ≤ s.params.maxSduBytes) := by decide

/-- A new piece of SN 0, at its edges; one that is held already. -/
theorem witness_SegmentMerge :
    Accepting partly ∧ RxSound partly ∧
    decodeDataHeader partly.params [0xD8, 0, 0, 1, 0xB1, 0xC1, 0xD1, 0xE1] =
      some (⟨true, true, false, true, true, 0, false, 1, []⟩, 4) ∧
    modBase partly.rx.vrR 0 < 512 ∧ validAt partly.rx.window 0 = false ∧
    byteAt partly .rxSegment 0 1 = none ∧ byteAt partly .rxSegment 0 2 = some 0xCC ∧
    byteAt partly .rxSegment 0 3 = some 0xDD ∧
    ¬ (∃ e ∈ tableGet partly.rx.segments 0, e.tlKnown = true) := by decide

/-- One that contradicts a known end, and one that completes its PDU. -/
theorem witness_SegmentMerge_known :
    let known := run (.writePdu [0xD0, 0, 0x80, 4, 0xFF]) partly
    Accepting known ∧ RxSound known ∧
    (∃ e ∈ tableGet known.rx.segments 0, e.tlKnown = true ∧ e.tl < 6) ∧
    decodeDataHeader known.params [0xC8, 0, 0, 0, 0xAA, 0xBB] =
      some (⟨true, true, false, false, true, 0, false, 0, []⟩, 4) ∧
    byteAt known .rxSegment 0 0 = none ∧
    (run (.writePdu [0xC8, 0, 0, 0, 0xAA, 0xBB]) known).rx.vrR = 1 := by decide

theorem witness_SegmentsRebuildParent :
    let h : Header := ⟨true, false, false, false, true, 1, false, 0, [2]⟩
    let d : List Byte := [0xA0, 0xA1, 0xA2, 0xA3]
    Accepting fresh ∧ RxSound fresh ∧ headerEncodable fresh.params h = true ∧ h.li.sum < d.length ∧
    0 < 1 ∧ 1 < d.length ∧ d.length ≤ 32767 ∧ modBase fresh.rx.vrR h.sn < 512 ∧
    h.sn ≠ fresh.rx.vrR ∧ validAt fresh.rx.window h.sn = false ∧
    validAt fresh.rx.segments h.sn = false ∧
    (encodeDataHeader (segmentHeader h h.sn 4 0 1) ++ d.take 1).length ≤ fresh.params.maxPduBytes ∧
    (encodeDataHeader (segmentHeader h h.sn 4 1 4) ++ d.drop 1).length ≤ fresh.params.maxPduBytes := by
  decide

theorem witness_DuplicateIdempotent : Accepting fresh ∧ RxSound fresh ∧
    decodeDataHeader fresh.params [0x80, 0x02, 0xAA] =
      some (⟨true, false, false, false, false, 2, false, 0, []⟩, 2) ∧
    modBase fresh.rx.vrR 2 < 512 ∧ validAt fresh.rx.window 2 = false ∧
    exec (.writePdu [0x80, 0x02, 0xAA]) fresh = .next gap :=
  ⟨by decide, by decide, by decide, by decide, by decide, rfl⟩

theorem witness_ReorderingExpiry : Accepting gap ∧ gap.rx.reordRunning = true ∧ RxSound gap ∧
    Accepting fresh ∧ fresh.rx.reordRunning = false := by decide

theorem witness_StatusReport : Accepting gap ∧ RxSound gap ∧ (4 : Word).toNat ≤ gap.params.maxPduBytes := by decide

theorem witness_SduCrossesLink :
    let s := run (.writeSdu 0 [0x10, 0x11]) fresh
    Accepting s ∧ Accepting fresh ∧ RxSound fresh ∧ ¬ StatusDue s ∧ s.tx.retxQ = [] ∧
    modBase s.tx.vtA s.tx.vtS < 512 ∧ s.tx.sduQ = [⟨0, [0x10, 0x11]⟩] ∧ s.tx.headOff = 0 ∧
    s.pool.free ≠ [] ∧ 2 + 2 ≤ (4 : Word).toNat ∧ (4 : Word).toNat ≤ s.params.maxPduBytes ∧
    2 + 2 ≤ fresh.params.maxPduBytes ∧ 2 ≤ fresh.params.maxSduBytes ∧ fresh.rx.vrR = s.tx.vtS ∧
    validAt fresh.rx.window (fresh.rx.vrR + 1) = false := by decide

theorem witness_MemoryFrame :
    exec .getBufferState { queued with out := [] } = .next (run .getBufferState queued) ∧
    exec (.readPdu 4) { queued with out := [] } = .next (run (.readPdu 4) queued) ∧
    exec (.discardSdu 1) { queued with out := [] } = .next (run (.discardSdu 1) queued) ∧
    exec (.handleControlPdu [0x00, 0x08]) { sentTwo with out := [] } =
      .next (run (.handleControlPdu [0x00, 0x08]) sentTwo) ∧
    exec (.writePdu [0x80, 0x02, 0xAA]) fresh = .next gap ∧
    (∃ b0 ∈ ([0x80, 0x02, 0xAA] : List Byte).head?, b0.getLsbD 7 = true) :=
  ⟨rfl, rfl, rfl, rfl, rfl, by decide⟩

/-- The fatal failure from a state no run reaches, and an engine that is enabled by REESTABLISH. -/
theorem witness_WhoWritesWhat :
    exec (.readPdu 10) { floorMissing with out := [] } = .next (run (.readPdu 10) floorMissing) ∧
    floorMissing.failed = false ∧ (run (.readPdu 10) floorMissing).failed = true ∧
    exec .reestablish { fresh with enabled := false } =
      .next (run .reestablish { fresh with enabled := false }) :=
  ⟨rfl, rfl, rfl, rfl⟩

theorem witness_TxInvariant : let s := { sentTwo with port := [encode .texpPollRetx], out := [] }
    TxSound s ∧ TxSound nacked ∧
    step s = .next { run .texpPollRetx sentTwo with port := [] } :=
  ⟨by decide, by decide, rfl⟩

theorem witness_RxInvariant : let s := { gap with port := [encode .texpReordering], out := [] }
    RxSound s ∧ RxSound partly ∧
    step s = .next { run .texpReordering gap with port := [] } :=
  ⟨by decide, by decide, rfl⟩

theorem witness_ControlInvariants :
    PoolSound sent ∧ TimersAgree sent ∧ ConfigSound sent ∧ QueueBounded queued ∧
    Memory.wf sent = true ∧ TxSound sent ∧ RxSound sent :=
  ⟨by decide, by decide, by decide, by decide, by decide, by decide, by decide⟩

theorem witness_InvariantAtReset : small.valid = true ∧ ({} : Params).valid = true := by decide

/-- A clearing command half done, with either half still to clear: no timer runs, and the step ends it. -/
theorem witness_ControlInvariants_clearing :
    let s (h : Half) : State :=
      { engine { small with dualSeq := true } regs with clearing := some ⟨h, true⟩ }
    (s .tx).clearing ≠ none ∧ TimersAgree (s .tx) ∧ ConfigSound (s .tx) ∧ QueueBounded (s .tx) ∧
    PoolSound (s .tx) ∧ TimersAgree (s .rx) ∧ QueueBounded (s .rx) ∧
    step (s .tx) = .next (finishClearing ⟨.tx, true⟩ (s .tx)) :=
  ⟨by decide, by decide, by decide, by decide, by decide, by decide, by decide, rfl⟩

theorem witness_EveryStepCompletes : EngineSound sent ∧ EngineSound gap ∧
    EngineSound { engine { small with dualSeq := true } regs with clearing := some ⟨.tx, true⟩ } ∧
    sent.params.valid = true :=
  ⟨⟨by decide, by decide, by decide, by decide, by decide, by decide, by decide⟩,
   ⟨by decide, by decide, by decide, by decide, by decide, by decide, by decide⟩,
   ⟨by decide, by decide, by decide, by decide, by decide, by decide, by decide⟩, rfl⟩

theorem witness_FailureUnreachable :
    let s := { sentTwo with port := [encode (.readPdu 100)], out := [] }
    TxSound s ∧ s.failed = false ∧ step s = .next { run (.readPdu 100) sentTwo with port := [] } :=
  ⟨by decide, rfl, rfl⟩

end Sys2Proof.Tests
end

section
/-!
What a command can do, said once for all commands: `Effect` lists the outcomes of `exec` at the level of
the operations of the model, `exec_effect` says that there are no others, and `step_keeps` turns
"every outcome keeps P" into "every step keeps P".
-/
namespace Sys2Proof.Machine

/-! ### Small changes of the state -/

/-- `t` is `s` but for the two ports and the draw counter, which no invariant reads. -/
def Quiet (s t : State) : Prop :=
  ∃ port out draws, t = { s with port := port, out := out, draws := draws }

theorem Quiet.refl (s : State) : Quiet s s := ⟨s.port, s.out, s.draws, rfl⟩

theorem Quiet.trans {s t u : State} : Quiet s t → Quiet t u → Quiet s u := by
  rintro ⟨_, _, _, rfl⟩ ⟨port, out, draws, rfl⟩
  exact ⟨port, out, draws, rfl⟩

theorem quiet_respond (c : ResultCode) (rs : List Word) (b : List Byte) (s : State) :
    Quiet s (respond c rs b s) := ⟨_, _, _, rfl⟩

theorem quiet_emit (e : Event) (s : State) : Quiet s (emit e s) := ⟨_, _, _, rfl⟩

theorem quiet_wordOrFree (free : Nat → Word) (n : Nat) (s : State) :
    Quiet s (wordOrFree free n s).2 := by
  rcases wordOrFree_cases free n s with ⟨-, h⟩ | ⟨-, w, h⟩ <;> rw [h]
  · exact .refl s
  · exact ⟨_, _, _, rfl⟩

theorem quiet_drawRxBusy (s : State) : Quiet s (drawRxBusy s).2 := by
  unfold drawRxBusy
  split
  · exact ⟨_, _, _, rfl⟩
  · exact .refl s

theorem quiet_getBufferState (s : State) : Quiet s (getBufferState s) := by
  have term : Quiet s (statusTerm s).2 := by
    unfold statusTerm
    split
    · dsimp only
      split
      · exact ⟨_, _, _, rfl⟩
      · exact .refl s
    · exact .refl s
  exact (term.trans (quiet_wordOrFree _ _ _)).trans (quiet_respond ..)

/-- `PoolSound` of a pool by itself. -/
abbrev PoolOk (capacity : Nat) (pool : Pool) : Prop :=
  tableWf capacity pool.slots = true ∧ pool.free.Nodup ∧
  (∀ id ∈ pool.free, id < capacity ∧ tableGet pool.slots id = none) ∧
  pool.free.length + pool.slots.length = capacity

/-- Only the pool moves, and its invariant is kept. -/
def PoolMoved (s t : State) : Prop :=
  ∃ pool, (∀ n, PoolOk n s.pool → PoolOk n pool) ∧ Quiet { s with pool := pool } t

theorem Quiet.poolMoved {s t : State} (h : Quiet s t) : PoolMoved s t := ⟨s.pool, fun _ => id, h⟩

theorem PoolMoved.trans {s t u : State} : PoolMoved s t → PoolMoved t u → PoolMoved s u := by
  rintro ⟨p, hp, _, _, _, rfl⟩ ⟨q, hq, _, _, _, rfl⟩
  exact ⟨q, fun n h => hq n (hp n h), _, _, _, rfl⟩

/-! ### The pool keeps its invariant (R33, R160 to R162) -/

theorem tableGet_eq_none_of_forall {α : Type} {t : Table α} {i : Nat} (h : ∀ e ∈ t, i < e.1) :
    tableGet t i = none := by
  cases hg : tableGet t i with
  | none => rfl
  | some v => exact absurd (h _ (mem_of_tableGet hg)) (by simp)

/-- Writing an absent index adds an entry, writing a present one does not. -/
theorem tableSet_length {α : Type} {bound : Nat} {t : Table α} (hw : tableWf bound t = true)
    (i : Nat) (v : α) :
    (tableSet t i v).length = t.length + if (tableGet t i).isSome then 0 else 1 := by
  induction t with
  | nil => rfl
  | cons x t ih =>
    obtain ⟨k, w⟩ := x
    obtain ⟨-, hlt, ht⟩ := (tableWf_cons ..).mp hw
    rw [tableSet, tableGet_cons]
    split
    · next hik =>
      have : tableGet t i = none :=
        tableGet_eq_none_of_forall fun e he => lt_trans hik (hlt e he)
      simp [this, show k ≠ i by omega]
    · split
      · next h => simp [h]
      · next h => simp [ih ht, Ne.symm h]; omega

/-- Erasing a present index removes one entry. -/
theorem tableErase_length {α : Type} {bound : Nat} {t : Table α} (hw : tableWf bound t = true)
    {i : Nat} (h : (tableGet t i).isSome) : (tableErase t i).length + 1 = t.length := by
  induction t with
  | nil => simp at h
  | cons x t ih =>
    obtain ⟨k, w⟩ := x
    obtain ⟨-, hlt, ht⟩ := (tableWf_cons ..).mp hw
    by_cases hk : k = i
    · have keep : tableErase t i = t := List.filter_eq_self.mpr fun e he => by
        have := hlt e he
        exact decide_eq_true (by omega)
      have drop : tableErase ((k, w) :: t) i = tableErase t i :=
        List.filter_cons_of_neg (by simp [hk])
      rw [drop, keep, List.length_cons]
    · rw [tableGet_cons, if_neg hk] at h
      have keep : tableErase ((k, w) :: t) i = (k, w) :: tableErase t i :=
        List.filter_cons_of_pos (by simp [hk])
      rw [keep, List.length_cons, List.length_cons, ih ht h]

theorem poolOk_cleared (p : Params) : PoolOk p.poolCapacity (Pool.cleared p) := by
  have : (Pool.cleared p).slots = [] := rfl
  simp [PoolOk, Pool_cleared_free, this, tableWf, List.nodup_range]

theorem poolOk_allocate {n id : Nat} {sn : Sn} {q : Word} {pool pool' : Pool}
    (h : poolAllocate sn q pool = some (id, pool')) (hp : PoolOk n pool) : PoolOk n pool' := by
  obtain ⟨hw, hn, hf, hl⟩ := hp
  rcases poolAllocate_cases sn q pool with ⟨-, h'⟩ | ⟨id', rest, hfree, h'⟩
  · simp [h'] at h
  · rw [h', Option.some.injEq, Prod.mk.injEq] at h
    obtain ⟨rfl, rfl⟩ := h
    rw [hfree] at hn hf hl
    obtain ⟨hid, hn⟩ := List.nodup_cons.mp hn
    obtain ⟨hlt, habs⟩ := hf id' (by simp)
    refine ⟨tableWf_tableSet hw hlt _, hn, fun j hj => ?_, ?_⟩
    · have hne : j ≠ id' := fun e => hid (e ▸ hj)
      rw [tableGet_tableSet, if_neg hne]
      exact hf j (by simp [hj])
    · rw [tableSet_length hw, habs]
      simp at hl ⊢
      omega

theorem poolOk_poolStore {n id : Nat} {old slot : Slot} {pool : Pool}
    (hold : tableGet pool.slots id = some old) (hp : PoolOk n pool) :
    PoolOk n (poolStore id slot pool) := by
  obtain ⟨hw, hn, hf, hl⟩ := hp
  have hid : id ∉ pool.free := fun h => by simp [(hf id h).2] at hold
  have hlt := lt_of_tableGet hw hold
  refine ⟨poolStore_wf hw hlt, ?_⟩
  rcases poolStore_cases id slot pool with ⟨-, -, h⟩ | ⟨-, h⟩ <;> rw [h]
  · refine ⟨List.nodup_cons.mpr ⟨hid, hn⟩, fun j hj => ?_, ?_⟩
    · rcases List.mem_cons.mp hj with rfl | hj
      · exact ⟨hlt, by simp⟩
      · rw [tableGet_tableErase]
        exact ⟨(hf j hj).1, by simp [(hf j hj).2]⟩
    · have := tableErase_length hw (i := id) (by simp [hold])
      simp
      omega
  · refine ⟨hn, fun j hj => ?_, ?_⟩
    · have hne : j ≠ id := fun e => hid (e ▸ hj)
      rw [tableGet_tableSet, if_neg hne]
      exact hf j hj
    · rw [tableSet_length hw, hold]
      simpa using hl

theorem poolOk_releaseByRlc {n : Nat} {pool : Pool} (id : Nat) (hp : PoolOk n pool) :
    PoolOk n (releaseByRlc id pool) := by
  cases h : tableGet pool.slots id with
  | none => simpa [releaseByRlc, h] using hp
  | some slot => rw [releaseByRlc_of_some h]; exact poolOk_poolStore h hp

theorem poolOk_releaseByPdcp {n : Nat} {pool : Pool} (id : Nat) (hp : PoolOk n pool) :
    PoolOk n (releaseByPdcp id pool) := by
  cases h : tableGet pool.slots id with
  | none => simpa [releaseByPdcp, h] using hp
  | some slot => rw [releaseByPdcp_of_some h]; exact poolOk_poolStore h hp

/-! ### The outcomes of a command -/

/-- A Data PDU with header `h` and payload `d` was accepted and left the receiver `rx` (R220 to R223). -/
structure Stored (h : Header) (d : List Byte) (s : State) (rx : Rx) : Prop where
  payload : h.li.sum < d.length
  inside : modBase s.rx.vrR h.sn < 512
  fresh : validAt s.rx.window h.sn = false
  stored : rx = storeComplete h d s.rx ∨ mergeSegment h d s.rx = .ok rx

/-- What a completed command can have done, by its last operation of the model. -/
inductive Effect : Instr → State → State → Prop
  /-- refused, dropped, or a command that only answers -/
  | quiet {i : Instr} {s t : State} (h : Quiet s t) : Effect i s t
  /-- the pool diagnostics (R160 to R162) -/
  | pool {i : Instr} {s t : State} (h : PoolMoved s t) (hi : isObservation i = true) : Effect i s t
  /-- RESET (R250) -/
  | reset {s t : State} (h : execReset s = .next t) : Effect .reset s t
  /-- CONFIGURE of a stopped engine (R251) -/
  | configure {s t : State} {v0 v1 v2 v3 v4 v5 v6 : Word} (hs : s.enabled = false)
      (hv : v3 ≠ 0 ∧ v6 ≠ 0)
      (h : Quiet { s with cfg := ⟨v0, v1, v2, v3, v4, v5, v6⟩, cfgValid := true } t) :
      Effect (.configure v0 v1 v2 v3 v4 v5 v6) s t
  /-- REESTABLISH of a configured engine (R252) -/
  | reestablish {s : State} (h : s.cfgValid = true) : Effect .reestablish s (clearingCommand true s)
  /-- STOP (R253) -/
  | stop {s : State} : Effect .stop s (clearingCommand false s)
  | writeSdu {s : State} {q : Word} {b : List Byte} (hs : Accepting s) :
      Effect (.writeSdu q b) s (writeSdu q b s)
  | discardSdu {s : State} {q : Word} (hs : Accepting s) :
      Effect (.discardSdu q) s (discardSdu q s)
  | readPdu {s t : State} {n : Word} (hs : Accepting s) (h : readPdu n.toNat s = .ok t) :
      Effect (.readPdu n) s t
  /-- an accepted STATUS, by either command (R106, R188) -/
  | status {i : Instr} {s : State} {st : StatusPdu} {b : List Byte} (hs : Accepting s)
      (hi : i = .handleControlPdu b ∨ i = .writePdu b ∧ ∃ b0 ∈ b.head?, b0.getLsbD 7 = false)
      (h : ackInRange s st.ackSn = true) : Effect i s (processStatus st s)
  /-- an accepted Data PDU (R220) -/
  | data {s t : State} {h : Header} {d b : List Byte} {rx : Rx} (hs : Accepting s)
      (hb : ∃ b0 ∈ b.head?, b0.getLsbD 7 = true) (hst : Stored h d s rx)
      (ht : afterAccept h { s with rx := rx } = .ok t) : Effect (.writePdu b) s t
  | texpPollRetx {s : State} (hs : Accepting s) : Effect .texpPollRetx s (texpPollRetx s)
  | texpReordering {s t : State} (hs : Accepting s) (h : texpReordering s = .ok t) :
      Effect .texpReordering s t
  | texpStatusProhibit {s : State} (hs : Accepting s) :
      Effect .texpStatusProhibit s (texpStatusProhibit s)

/-- A command behind the legality gate has an outcome when its body has (R261 (1)). -/
theorem effect_of_requireLegal {i : Instr} {legal : Bool} {m : Nat} {body : State → Answer}
    {s t : State} (h : requireLegal legal m body s = .next t)
    (hbody : body s = .next t → Effect i s t) : Effect i s t := by
  rcases requireLegal_cases h with ⟨-, h⟩ | ⟨-, rfl⟩
  · exact hbody h
  · exact .quiet (quiet_respond ..)

/-- A command behind the data-path gate has an outcome when its body, accepted, has (R267). -/
theorem effect_of_dataPath {i : Instr} {m : Nat} {body : State → Answer} {s t : State}
    (h : dataPath m body s = .next t) (hbody : Accepting s → body s = .next t → Effect i s t) :
    Effect i s t := by
  rcases dataPath_cases h with ⟨-, rfl⟩ | ⟨-, -, rfl⟩ | ⟨hf, he, hc, h⟩
  · exact .quiet (quiet_respond ..)
  · exact .quiet (quiet_respond ..)
  · exact hbody ⟨hf, he, hc⟩ h

/-- A command that answers with a response alone. -/
theorem effect_of_respond {i : Instr} {c : ResultCode} {rs : List Word} {b : List Byte} {s t u : State}
    (hq : Quiet s u) (h : Host.Outcome.next (respond c rs b u) = (.next t : Answer)) :
    Effect i s t := by
  cases h
  exact .quiet (hq.trans (quiet_respond ..))

/-- What an accepting engine does with the bytes of a STATUS PDU (R188). -/
theorem handleControlPdu_cases (b : List Byte) (s : State) :
    Quiet s (handleControlPdu b s) ∨
    ∃ st, ackInRange s st.ackSn = true ∧ handleControlPdu b s = processStatus st s := by
  unfold handleControlPdu
  split
  · exact .inl (quiet_respond ..)
  · next st _ =>
    split
    · next h => exact .inr ⟨st, h, rfl⟩
    · exact .inl (quiet_respond ..)

/-- What the decoder of a Data-PDU header promises of the payload behind it (R104, R143). -/
theorem decodeDataHeader_payload {p : Params} {b : List Byte} {h : Header} {len : Nat}
    (hd : decodeDataHeader p b = some (h, len)) : h.li.sum < (b.drop len).length := by
  unfold decodeDataHeader at hd
  dsimp only at hd
  split at hd
  · cases hd
  split at hd
  · cases hd
  split at hd
  · cases hd
  split at hd
  · cases hd
  split at hd
  · cases hd
  split at hd
  · cases hd
  next hsum =>
  cases hd
  simpa only [List.length_drop, not_le] using hsum

/-- What an accepting engine does with a Data PDU (R220). -/
theorem receiveData_cases {h : Header} {d : List Byte} {s t : State}
    (ht : receiveData h d s = .ok t) (hd : h.li.sum < d.length) :
    Quiet s t ∨ ∃ rx, Stored h d s rx ∧ afterAccept h { s with rx := rx } = .ok t := by
  unfold receiveData at ht
  split at ht
  · cases ht; exact .inl (quiet_respond ..)
  next hin =>
  have hin : modBase s.rx.vrR h.sn < 512 :=
    of_decide_eq_true (by simpa using hin : insideRxWindow s h.sn = true)
  split at ht
  · cases ht; exact .inl (quiet_respond ..)
  next hv =>
  have hv : validAt s.rx.window h.sn = false := by simpa using hv
  split at ht
  · split at ht
    · cases ht; exact .inl (quiet_respond ..)
    · next rx hm => exact .inr ⟨rx, ⟨hd, hin, hv, .inr hm⟩, ht⟩
  · exact .inr ⟨_, ⟨hd, hin, hv, .inl rfl⟩, ht⟩

/-- WRITE_PDU on an accepting engine (R106, R220). -/
theorem writePdu_effect {b : List Byte} {s t : State} (hs : Accepting s)
    (h : writePdu b s = .ok t) : Effect (.writePdu b) s t := by
  cases b with
  | nil => cases h; exact .quiet (quiet_respond ..)
  | cons b0 b =>
    unfold writePdu at h
    dsimp only at h
    split at h
    · next hb =>
      split at h
      · cases h; exact .quiet (quiet_respond ..)
      · next hdr len hd =>
        rcases receiveData_cases h (decodeDataHeader_payload hd) with hq | ⟨rx, hst, ht⟩
        · exact .quiet hq
        · exact .data hs ⟨b0, rfl, hb⟩ hst ht
    · next hb =>
      cases h
      rcases handleControlPdu_cases (b0 :: b) s with hq | ⟨st, hack, ht⟩
      · exact .quiet hq
      · rw [ht]
        exact .status hs (.inr ⟨rfl, b0, rfl, by simpa using hb⟩) hack

/-- Every completed command has one of the listed outcomes. -/
theorem exec_effect {i : Instr} {s t : State} (h : exec i s = .next t) : Effect i s t := by
  cases i with
  | reset => exact .reset h
  | configure v0 v1 v2 v3 v4 v5 v6 =>
    rw [exec, execConfigure] at h
    split at h
    · exact effect_of_respond (.refl s) h
    · next he =>
      split at h
      · exact effect_of_respond (.refl s) h
      · next hv => 
        cases h
        exact .configure (by simpa using he) (not_or.mp hv) (quiet_respond ..)
  | reestablish =>
    rw [exec, execReestablish] at h
    split at h
    · next hc => cases h; exact .reestablish hc
    · exact effect_of_respond (.refl s) h
  | stop => cases h; exact .stop
  | getMetrics => exact effect_of_respond (.refl s) h
  | readVar var =>
    rw [exec, execReadVar] at h
    split at h <;> exact effect_of_respond (.refl s) h
  | writeSdu q b =>
    refine effect_of_requireLegal h fun h => effect_of_dataPath h fun hs h => ?_
    cases h; exact .writeSdu hs
  | discardSdu q =>
    refine effect_of_requireLegal h fun h => effect_of_dataPath h fun hs h => ?_
    cases h; exact .discardSdu hs
  | readPdu n =>
    exact effect_of_requireLegal h fun h => effect_of_dataPath h fun hs h =>
      .readPdu hs (answerOf_next h)
  | writePdu b =>
    exact effect_of_requireLegal h fun h => effect_of_dataPath h fun hs h =>
      writePdu_effect hs (answerOf_next h)
  | getBufferState =>
    rw [exec, execGetBufferState] at h
    refine effect_of_dataPath h fun _ h => ?_
    cases h; exact .quiet (quiet_getBufferState s)
  | handleControlPdu b =>
    refine effect_of_requireLegal h fun h => effect_of_dataPath h fun hs h => ?_
    cases h
    rcases handleControlPdu_cases b s with hq | ⟨st, hack, ht⟩
    · exact .quiet hq
    · rw [ht]; exact .status hs (.inl rfl) hack
  | getStatusPdu n =>
    exact effect_of_requireLegal h fun h => effect_of_dataPath h fun _ h =>
      effect_of_respond (.refl s) h
  | texpPollRetx =>
    rw [exec, execTexpPollRetx] at h
    refine effect_of_dataPath h fun hs h => ?_
    cases h; exact .texpPollRetx hs
  | texpReordering =>
    rw [exec, execTexpReordering] at h
    exact effect_of_dataPath h fun hs h => .texpReordering hs (answerOf_next h)
  | texpStatusProhibit =>
    rw [exec, execTexpStatusProhibit] at h
    refine effect_of_dataPath h fun hs h => ?_
    cases h; exact .texpStatusProhibit hs
  | txModBase sn =>
    rw [exec, execTxModBase] at h
    exact effect_of_requireLegal h (effect_of_respond (.refl s))
  | rxModBase sn =>
    rw [exec, execRxModBase] at h
    exact effect_of_requireLegal h (effect_of_respond (.refl s))
  | encDataHdr hw li =>
    rw [exec, execEncDataHdr] at h
    exact effect_of_requireLegal h (effect_of_respond (quiet_wordOrFree _ _ s))
  | decDataHdr b =>
    rw [exec, execDecDataHdr] at h
    refine effect_of_requireLegal h fun h => ?_
    split at h <;> exact effect_of_respond (.refl s) h
  | encStatus n ack nacks =>
    rw [exec, execEncStatus] at h
    exact effect_of_requireLegal h (effect_of_respond (.refl s))
  | decStatus b =>
    rw [exec, execDecStatus] at h
    refine effect_of_requireLegal h fun h => ?_
    split at h <;> exact effect_of_respond (.refl s) h
  | poolAlloc sn q =>
    rw [exec, execPoolAlloc] at h
    refine effect_of_requireLegal h fun h => ?_
    split at h
    · exact effect_of_respond (.refl s) h
    · next id pool hp =>
      cases h
      exact .pool ⟨pool, fun _ => poolOk_allocate hp, quiet_respond ..⟩ rfl
  | poolRelRlc id =>
    rw [exec, execPoolRelRlc] at h
    refine effect_of_requireLegal h fun h => ?_
    cases h
    exact .pool ⟨_, fun _ => poolOk_releaseByRlc _, quiet_respond ..⟩ rfl
  | poolRelPdcp id =>
    rw [exec, execPoolRelPdcp] at h
    refine effect_of_requireLegal h fun h => ?_
    cases h
    exact .pool ⟨_, fun _ => poolOk_releaseByPdcp _, quiet_respond ..⟩ rfl
  | poolIsAcked q =>
    rw [exec, execPoolIsAcked] at h
    exact effect_of_requireLegal h (effect_of_respond (.refl s))

/-! ### Steps -/

/-- A property that does not read the ports, and that every outcome of a command and the second half of
a clearing command keep, is kept by every step. -/
theorem step_keeps {P : State → Prop} (quiet : ∀ {s t}, Quiet s t → P s → P t)
    (finish : ∀ {s c}, s.clearing = some c → P s → P (finishClearing c s))
    (effect : ∀ {i s t}, s.clearing = none → Effect i s t → P s → P t)
    {s t : State} (hs : P s) (hstep : step s = .next t) : P t := by
  rcases step_cases s with ⟨-, h⟩ | ⟨-, c, hc, h⟩ | ⟨-, -, -, h⟩ |
    ⟨-, hc, d, rest, -, ⟨e, -, h⟩ | ⟨i, -, h⟩⟩ <;> rw [h] at hstep
  · cases hstep
  · cases hstep; exact finish hc hs
  · cases hstep; exact hs
  · cases hstep
    exact quiet (s := s) ⟨rest, _, _, rfl⟩ hs
  · exact effect (s := { s with port := rest }) hc (exec_effect hstep)
      (quiet (s := s) ⟨rest, _, _, rfl⟩ hs)

theorem decode_of_decodeTableWord {nbits w : Nat} {i : Instr} (h : decodeTableWord nbits w = some i) :
    decode (tableDescriptor nbits w) = .ok i := by
  unfold decodeTableWord at h
  cases hd : decode (tableDescriptor nbits w) with
  | error e => simp [hd] at h
  | ok j => simpa [hd] using h

/-- A step on a port whose head decodes runs that command (R36, R80, R90). -/
theorem step_of_decode {s : State} {d : Descriptor} {rest : List Descriptor} {i : Instr}
    (hv : s.params.valid = true) (hc : s.clearing = none) (hp : s.port = d :: rest)
    (hd : decode d = .ok i) : step s = exec i { s with port := rest } := by
  simp [step, hv, hc, takeCommand, hp, hd]

end Sys2Proof.Machine

open Sys2Proof.Machine in
/-- Settles O5, by cases on what the step finds. -/
theorem stepRunsDecoded : Obligations.StepRunsDecoded := by
  intro s hv
  refine ⟨fun hc => ⟨fun d rest i hp hd => step_of_decode hv hc hp hd, fun hp => ?_⟩,
    fun c hc => ?_, fun nbits w i h => ?_⟩
  · simp [step, hv, hc, takeCommand, hp]
  · simp [step, hv, hc]
  · exact step_of_decode hv rfl rfl (decode_of_decodeTableWord h)
end

section
/-!
The transmitter invariant (R23, R26, R45, R46): what the walk of a STATUS PDU, READ_PDU and the
poll-retransmit expiry can do to the transmitter, and that each of them keeps `TxSound`.
-/
namespace Sys2Proof.Machine

/-! ### The invariant without the window floor -/

/-- `TxSound` but for the clause on the window floor, which does not hold in the middle of the walk of
a STATUS PDU: `fix_floor` comes at its end (R188, R190). -/
structure TxOpen (s : State) : Prop where
  bound : TxWindowBound s
  table : tableWf 1024 s.tx.window = true
  entries : ∀ e ∈ s.tx.window, TxEntryOk s e.1 e.2
  queue : SduQueueSound s
  retx : ∀ r ∈ s.tx.retxQ, RetxEntryOk s r

/-- The window floor is there unless nothing is unacknowledged (R46). -/
abbrev FloorPresent (s : State) : Prop :=
  s.tx.vtA ≠ s.tx.vtS → validAt s.tx.window s.tx.vtA = true

theorem txSound_iff (s : State) : TxSound s ↔ TxOpen s ∧ FloorPresent s := by
  constructor
  · rintro ⟨hb, ⟨hw, he, hf⟩, hq, hr⟩
    exact ⟨⟨hb, hw, he, hq, hr⟩, hf⟩
  · rintro ⟨⟨hb, hw, he, hq, hr⟩, hf⟩
    exact ⟨hb, ⟨hw, he, hf⟩, hq, hr⟩

theorem Quiet.txSound {s t : State} (h : Quiet s t) (hs : TxSound s) : TxSound t := by
  obtain ⟨_, _, _, rfl⟩ := h
  exact hs

theorem PoolMoved.txSound {s t : State} (h : PoolMoved s t) (hs : TxSound s) : TxSound t := by
  obtain ⟨_, -, hq⟩ := h
  exact hq.txSound hs

/-- An entry listed at an index is found at the SN of that index. -/
theorem tableGet_sn_of_mem {α : Type} {t : Table α} (hw : tableWf 1024 t = true) {e : Nat × α}
    (he : e ∈ t) : tableGet t (BitVec.ofNat 10 e.1).toNat = some e.2 := by
  have hg := tableGet_of_mem hw (i := e.1) (v := e.2) he
  rwa [BitVec.toNat_ofNat, Nat.mod_eq_of_lt (lt_of_tableGet hw hg)]

theorem modBase_succ_base (b : Sn) : modBase b (b + 1) = 1 := by
  rw [modBase_succ (by simp), modBase_self]

/-- Moving the base up by one brings every other SN one step nearer. -/
theorem modBase_succ_left {b x : Sn} (h : x ≠ b) : modBase (b + 1) x + 1 = modBase b x := by
  have hpos : modBase b x ≠ 0 := fun e => h (modBase_eq_zero.mp e)
  rw [modBase_shift (b := b) (by rw [modBase_succ_base]; omega), modBase_succ_base]
  omega

/-! ### The walk of a STATUS PDU (R188 to R192) -/

/-- What a part of the walk can do: besides the pool it writes the floor, the window and the
retransmission queue, and it keeps the transmitter invariant but for the floor. -/
structure StatusMoved (s t : State) : Prop where
  frame : ∃ vtA window retxQ,
    PoolMoved { s with tx := { s.tx with vtA := vtA, window := window, retxQ := retxQ } } t
  sound : TxOpen s → TxOpen t

theorem PoolMoved.statusMoved {s t : State} (h : PoolMoved s t) : StatusMoved s t := by
  refine ⟨⟨_, _, _, h⟩, fun ⟨hb, hw, he, hq, hr⟩ => ?_⟩
  obtain ⟨_, -, _, _, _, rfl⟩ := h
  exact ⟨hb, hw, he, hq, hr⟩

theorem StatusMoved.trans {s t u : State} (h1 : StatusMoved s t) (h2 : StatusMoved t u) :
    StatusMoved s u := by
  refine ⟨?_, h2.sound ∘ h1.sound⟩
  obtain ⟨_, _, _, p, hp, _, _, _, rfl⟩ := h1.frame
  obtain ⟨a, w, r, q, hq, hu⟩ := h2.frame
  exact ⟨a, w, r, q, fun n h => hq n (hp n h), Quiet.trans ⟨_, _, _, rfl⟩ hu⟩

theorem StatusMoved.vtS {s t : State} (h : StatusMoved s t) : t.tx.vtS = s.tx.vtS := by
  obtain ⟨_, _, _, _, -, _, _, _, rfl⟩ := h.frame
  rfl

theorem quiet_slotPdcpSn (id : Nat) (s : State) : Quiet s (slotPdcpSn id s).2 := by
  unfold slotPdcpSn
  split
  · exact .refl s
  · exact ⟨_, _, _, rfl⟩

theorem releaseSegs_poolMoved (ids : List Nat) (touched : List Word) (s : State) :
    PoolMoved s (releaseSegs ids touched s).2 := by
  induction ids generalizing touched s with
  | nil => exact (Quiet.refl s).poolMoved
  | cons id ids ih =>
    refine ((quiet_slotPdcpSn id s).poolMoved.trans ?_).trans (ih ..)
    exact ⟨_, fun _ => poolOk_releaseByRlc _, .refl _⟩

theorem quiet_pdcpSnsOf (ids : List Nat) (acc : List Word) (s : State) :
    Quiet s (pdcpSnsOf ids acc s).2 := by
  induction ids generalizing acc s with
  | nil => exact .refl s
  | cons id ids ih => exact (quiet_slotPdcpSn id s).trans (ih ..)

theorem poolOk_releaseRecords {n : Nat} (ids : List Nat) {pool : Pool} (h : PoolOk n pool) :
    PoolOk n (releaseRecords ids pool) := by
  induction ids generalizing pool with
  | nil => exact h
  | cons id ids ih => exact ih (poolOk_releaseByPdcp id h)

theorem poolOk_notifyLoop {n : Nat} (tx : Tx) (touched : List Word) {pool : Pool} (h : PoolOk n pool) :
    PoolOk n (notifyLoop tx touched pool).2 := by
  induction touched generalizing pool with
  | nil => exact h
  | cons q qs ih =>
    unfold notifyLoop
    split
    · exact ih (poolOk_releaseRecords _ h)
    · exact ih h

theorem notify_poolMoved (touched : List Word) (s : State) : PoolMoved s (notify touched s) := by
  refine ⟨_, fun _ => poolOk_notifyLoop s.tx touched, ?_⟩
  unfold notify
  dsimp only
  split
  · exact .refl _
  · exact quiet_emit ..

/-- An acknowledged PDU leaves the window with its retransmission entries (R190). -/
theorem TxOpen.erase {s : State} (h : TxOpen s) (sn : Sn) :
    TxOpen { s with tx := { s.tx with
      window := tableErase s.tx.window sn.toNat
      retxQ := s.tx.retxQ.filter fun e => decide (e.sn ≠ sn) } } where
  bound := h.bound
  table := tableWf_tableErase h.table _
  entries e he := h.entries e (List.mem_of_mem_filter he)
  queue := h.queue
  retx r hr := by
    simp only [List.mem_filter, decide_eq_true_eq] at hr
    obtain ⟨t, ht, hrange⟩ := h.retx r hr.1
    refine ⟨t, ?_, hrange⟩
    have hne : r.sn.toNat ≠ sn.toNat := fun e => hr.2 (BitVec.eq_of_toNat_eq e)
    simpa [tableGet_tableErase, hne] using ht

/-- The floor moves past an SN that is not in the window (R190). -/
theorem TxOpen.raiseFloor {s : State} (h : TxOpen s) (habs : validAt s.tx.window s.tx.vtA = false)
    (hne : s.tx.vtA ≠ s.tx.vtS) : TxOpen { s with tx := { s.tx with vtA := s.tx.vtA + 1 } } := by
  have hS := modBase_succ_left hne.symm
  refine ⟨?_, h.table, fun e he => ?_, h.queue, h.retx⟩
  · have := h.bound
    dsimp only [TxWindowBound] at this ⊢
    omega
  · obtain ⟨h1, h2, h3, h4, h5, h6, h7, h8, h9, h10, h11, hlt⟩ := h.entries e he
    have hx : BitVec.ofNat 10 e.1 ≠ s.tx.vtA := fun hx => by
      have hg := tableGet_sn_of_mem h.table he
      rw [hx] at hg
      simp [validAt, hg] at habs
    have := modBase_succ_left hx
    exact ⟨h1, h2, h3, h4, h5, h6, h7, h8, h9, h10, h11, by dsimp only; omega⟩

/-- What a NACK element asks for is a range of the PDU (R191). -/
theorem nackToEntry_range (e : Nack) (sn : Sn) {len : Nat} (hlen : 1 ≤ len) :
    let r := nackToEntry e sn len
    r.sn = sn ∧ r.soStart < r.soEnd ∧ r.soEnd ≤ len ∧
      (r.isSegment = false → r.soStart = 0 ∧ r.soEnd = len) := by
  have whole : (0 : Nat) < len ∧ len ≤ len := ⟨hlen, le_rfl⟩
  unfold nackToEntry
  dsimp only
  split
  · simpa using whole
  · generalize (if e.soEnd = 0x7FFF then len else e.soEnd + 1) = stop
    split
    · simpa using whole
    · next hin =>
      simp only [not_or, not_le, not_lt] at hin
      split
      · simpa using whole
      · exact ⟨rfl, hin.2.2, hin.2.1, fun h => by simp at h⟩

theorem mem_queueNacks {capacity : Nat} {sn : Sn} {len : Nat} {nacks : List Nack}
    {q : List RetxEntry} {r : RetxEntry} (h : r ∈ queueNacks capacity sn len nacks q) :
    r ∈ q ∨ ∃ e, r = nackToEntry e sn len := by
  induction nacks generalizing q with
  | nil => exact .inl h
  | cons e es ih =>
    rcases ih h with h | h
    · split at h
      · rcases List.mem_append.mp h with h | h
        · exact .inl h
        · exact .inr ⟨e, by simpa using h⟩
      · exact .inl h
    · exact .inr h

/-- The entries a NACK asks for are queued, and the PDU's counter is raised (R191). -/
theorem TxOpen.nack {s : State} (h : TxOpen s) {sn : Sn} {t : TxEntry}
    (ht : tableGet s.tx.window sn.toNat = some t) (capacity : Nat) (nacks : List Nack) (count : Word) :
    TxOpen { s with tx := { s.tx with
      retxQ := queueNacks capacity sn t.buf.length nacks s.tx.retxQ
      window := tableSet s.tx.window sn.toNat { t with retxCount := count } } } := by
  have hok := h.entries _ (mem_of_tableGet ht)
  refine ⟨h.bound, tableWf_set_sn h.table _ _, fun e he => ?_, h.queue, fun r hr => ?_⟩
  · rcases mem_tableSet he with rfl | he
    · exact hok
    · exact h.entries e he
  · rcases mem_queueNacks hr with hr | ⟨e, rfl⟩
    · obtain ⟨t', ht', hrange⟩ := h.retx r hr
      by_cases hsn : r.sn = sn
      · have : t' = t := by rw [hsn] at ht'; exact Option.some.inj (ht'.symm.trans ht)
        subst this
        exact ⟨{ t' with retxCount := count }, by simp [hsn], hrange⟩
      · have hne : r.sn.toNat ≠ sn.toNat := fun e => hsn (BitVec.eq_of_toNat_eq e)
        exact ⟨t', by simpa [tableGet_tableSet, hne] using ht', hrange⟩
    · obtain ⟨hsn, hrange⟩ := nackToEntry_range e sn hok.1
      exact ⟨{ t with retxCount := count }, by simp [hsn], hrange⟩

theorem ackSnStep_moved {sn : Sn} {s : State} (touched : List Word) (hsn : sn ≠ s.tx.vtS) :
    StatusMoved s (ackSnStep sn touched s).2 := by
  have freed : ∀ u : State, StatusMoved s u → validAt u.tx.window sn = false →
      StatusMoved s (if sn = u.tx.vtA then { u with tx := { u.tx with vtA := sn + 1 } } else u) := by
    intro u hu habs
    split
    · next hfloor =>
      subst hfloor
      refine hu.trans ⟨⟨_, _, _, (Quiet.refl _).poolMoved⟩, fun h => ?_⟩
      exact h.raiseFloor habs (hu.vtS ▸ hsn)
    · exact hu
  unfold ackSnStep
  cases ht : tableGet s.tx.window sn.toNat with
  | none => exact freed s (Quiet.refl s).poolMoved.statusMoved (by simp [validAt, ht])
  | some t =>
    refine freed _ ((releaseSegs_poolMoved t.segs touched s).statusMoved.trans
      ⟨⟨_, _, _, (Quiet.refl _).poolMoved⟩, fun h => h.erase sn⟩) (by simp [validAt])

theorem nackSnStep_moved {sn : Sn} {t : TxEntry} {s : State} (nacks : List Nack) (before : List Sn)
    (ht : tableGet s.tx.window sn.toNat = some t) :
    StatusMoved s (nackSnStep sn t nacks before s) := by
  unfold nackSnStep
  split
  · exact (Quiet.refl s).poolMoved.statusMoved
  · have queued : StatusMoved s { s with tx := { s.tx with
        retxQ := queueNacks s.params.retxQCapacity sn t.buf.length nacks s.tx.retxQ
        window := tableSet s.tx.window sn.toNat { t with retxCount := t.retxCount + 1 } } } :=
      ⟨⟨_, _, _, (Quiet.refl _).poolMoved⟩, fun h => h.nack ht ..⟩
    dsimp only
    split
    · exact queued.trans ((quiet_pdcpSnsOf ..).trans (quiet_emit ..)).poolMoved.statusMoved
    · exact queued

/-- The walk over `n` SNs below `VT_S` (R189). -/
theorem walk_moved (nacks : List Nack) (before : List Sn) {n : Nat} {sn : Sn} (touched : List Word)
    {s : State} (h : ∀ k, k < n → sn + BitVec.ofNat 10 k ≠ s.tx.vtS) :
    StatusMoved s (walk nacks before n sn touched s).2 := by
  induction n generalizing sn touched s with
  | zero => exact (Quiet.refl s).poolMoved.statusMoved
  | succ n ih =>
    have hsn : sn ≠ s.tx.vtS := by simpa using h 0 (by omega)
    have first : StatusMoved s (walkStep nacks before sn touched s).2 := by
      unfold walkStep
      dsimp only
      split
      · next t ht =>
        split
        · exact ackSnStep_moved touched hsn
        · exact nackSnStep_moved _ before ht
      · exact ackSnStep_moved touched hsn
    refine first.trans (ih _ fun k hk => ?_)
    rw [first.vtS, sn_add_succ]
    exact h (k + 1) (by omega)

/-- `fix_floor` keeps the invariant, floor apart (R190). -/
theorem floorFrom_open (n : Nat) {s : State} (h : TxOpen s) :
    TxOpen { s with tx := { s.tx with
      vtA := floorFrom s.tx.window s.tx.vtS n s.tx.vtA } } := by
  induction n generalizing s with
  | zero => exact h
  | succ n ih =>
    unfold floorFrom
    split
    · next hc => exact ih (h.raiseFloor (by simpa using hc.2) hc.1)
    · exact h

/-- The floor that `fix_floor` finds is in the window, or nothing is unacknowledged (R190). -/
theorem floorFrom_present (w : Table TxEntry) (stop : Sn) {n : Nat} {a : Sn} (h : modBase a stop ≤ n)
    (hne : floorFrom w stop n a ≠ stop) : validAt w (floorFrom w stop n a) = true := by
  induction n generalizing a with
  | zero => exact absurd (modBase_eq_zero.mp (Nat.le_zero.mp h)).symm hne
  | succ n ih =>
    unfold floorFrom at hne ⊢
    split at hne
    · next hc =>
      rw [if_pos hc]
      refine ih ?_ hne
      have := modBase_succ_left (Ne.symm hc.1)
      omega
    · next hc =>
      rw [if_neg hc]
      by_contra hv
      exact hc ⟨hne, by simpa using hv⟩

theorem fixFloor_moved (s : State) : StatusMoved s (fixFloor s) :=
  ⟨⟨_, _, _, (Quiet.refl _).poolMoved⟩, floorFrom_open _⟩

theorem fixFloor_present (s : State) : FloorPresent (fixFloor s) :=
  floorFrom_present _ _ le_rfl

/-- What an accepted STATUS can do: the poll-retransmit timer is stopped or not, and the walk, which
ends with the floor in place. -/
theorem processStatus_cases {st : StatusPdu} {s : State} (h : ackInRange s st.ackSn = true) :
    ∃ u, (u = s ∨ u = stopTimer .pollRetx s) ∧ StatusMoved u (processStatus st s) ∧
      FloorPresent (processStatus st s) := by
  have stopped : ∀ n, stopPollIfCovered n s = s ∨ stopPollIfCovered n s = stopTimer .pollRetx s := by
    intro n
    unfold stopPollIfCovered
    split <;> simp
  refine ⟨_, stopped (txModBase s st.ackSn), ?_⟩
  have frame : ∀ n, (stopPollIfCovered n s).tx.vtA = s.tx.vtA ∧
      (stopPollIfCovered n s).tx.vtS = s.tx.vtS := by
    intro n
    rcases stopped n with h | h <;> rw [h] <;> exact ⟨rfl, rfl⟩
  unfold processStatus
  dsimp only
  generalize hn : txModBase s st.ackSn = n
  obtain ⟨hA, hS⟩ := frame n
  generalize hu : stopPollIfCovered n s = u at hA hS
  have below : ∀ k, k < n → u.tx.vtA + BitVec.ofNat 10 k ≠ u.tx.vtS := fun k hk e => by
    have hle : n ≤ modBase s.tx.vtA s.tx.vtS := hn ▸ of_decide_eq_true h
    have := modBase_lt s.tx.vtA s.tx.vtS
    have := modBase_add s.tx.vtA (k := k) (by omega)
    rw [← hA, e, hS, hA] at this
    omega
  have walked := walk_moved st.nacks (u.tx.retxQ.map (·.sn)) [] below
  generalize walk st.nacks (u.tx.retxQ.map (·.sn)) n u.tx.vtA [] u = r at walked
  have told : PoolMoved (fixFloor r.2) (respond .ok [] [] (notify r.1 (fixFloor r.2))) :=
    (notify_poolMoved ..).trans (quiet_respond ..).poolMoved
  refine ⟨(walked.trans (fixFloor_moved r.2)).trans told.statusMoved, ?_⟩
  have present := fixFloor_present r.2
  generalize fixFloor r.2 = v at told present
  obtain ⟨_, -, _, _, _, e⟩ := told
  rw [e]
  exact present

theorem txSound_processStatus {st : StatusPdu} {s : State} (h : ackInRange s st.ackSn = true)
    (hs : TxSound s) : TxSound (processStatus st s) := by
  obtain ⟨u, hu, moved, floor⟩ := processStatus_cases h
  refine (txSound_iff _).mpr ⟨moved.sound ?_, floor⟩
  obtain ⟨⟨hb, hw, he, hq, hr⟩, -⟩ := (txSound_iff s).mp hs
  rcases hu with rfl | rfl
  · exact ⟨hb, hw, he, hq, hr⟩
  · exact ⟨hb, hw, he, hq, hr⟩

end Sys2Proof.Machine
end

section
/-!
The transmitter's own commands: what the packing loop, READ_PDU, the poll-retransmit expiry and the
two SDU commands can do, and the transmitter invariant over every step (O55).
-/
namespace Sys2Proof.Machine

/-! ### The packing loop (R180) -/

/-- `SduQueueSound` of a queue and a head offset by themselves (R26). -/
abbrev QueueOk (limit : Nat) (q : List SduEntry) (off : Nat) : Prop :=
  (∀ e ∈ q, 1 ≤ e.bytes.length ∧ e.bytes.length ≤ limit) ∧ (q = [] → off = 0) ∧
  (∀ e ∈ q.head?, off < e.bytes.length)

theorem queueOk_tail {limit off : Nat} {e : SduEntry} {q : List SduEntry}
    (h : QueueOk limit (e :: q) off) : QueueOk limit q 0 :=
  ⟨fun x hx => h.1 x (List.mem_cons_of_mem _ hx), fun _ => rfl,
    fun x hx => (h.1 x (List.mem_cons_of_mem _ (List.mem_of_mem_head? hx))).1⟩

/-- The packing after `bytes` of the head SDU were put into the record `id`. -/
def Packing.put (st : Packing) (queue : List SduEntry) (id : Nat) (pool : Pool) (bytes : List Byte) :
    Packing :=
  { st with
    queue := queue
    payload := st.payload ++ bytes
    lens := st.lens ++ [bytes.length]
    segs := st.segs ++ [id]
    pool := pool }

/-- One round of the packing loop: it stops and packs nothing more, or it packs a fragment, which ends
its SDU and the loop goes on, or does not and the loop ends. -/
theorem packLoop_cons {p : Params} {sn : Sn} {n : Nat} {head : SduEntry} {rest : List SduEntry}
    {st st' : Packing} (h : packLoop p sn n (head :: rest) st = .ok st') :
    (∃ exhausted, st' = { st with queue := head :: rest, exhausted := exhausted }) ∨
    ∃ id pool bytes, st.segs.length ≤ p.nLiMax ∧ st.lens.getLastD 0 ≤ 2047 ∧
      poolAllocate sn head.pdcpSn st.pool = some (id, pool) ∧
      (st.headOff < head.bytes.length → 1 ≤ bytes.length) ∧
      (packLoop p sn n rest
          { st.put (head :: rest) id pool bytes with headOff := 0, fiE := false } = .ok st' ∨
        st.headOff + bytes.length < head.bytes.length ∧
          st' = { st.put (head :: rest) id pool bytes with
            headOff := st.headOff + bytes.length, fiE := true }) := by
  unfold packLoop at h
  dsimp only at h
  split at h
  · cases h; exact .inl ⟨_, rfl⟩
  next hcap =>
  split at h
  · cases h; exact .inl ⟨_, rfl⟩
  next hlast =>
  split at h
  · cases h; exact .inl ⟨_, rfl⟩
  next hroom =>
  split at h
  · cases h; exact .inl ⟨_, rfl⟩
  next id pool halloc =>
  split at h
  · cases h
  next bytes hread =>
  obtain ⟨hin, -, hlen⟩ := memRead_ok hread
  rw [← hlen] at h hin
  rw [memWrite_length] at h
  refine .inr ⟨id, pool, bytes, by omega, by omega, halloc, by omega, ?_⟩
  split at h
  · exact .inl h
  · cases h
    exact .inr ⟨by omega, rfl⟩

/-- What the packing loop keeps, `q` being the queue still to be packed. -/
structure PackOk (p : Params) (q : List SduEntry) (st : Packing) : Prop where
  total : st.lens.sum = st.payload.length
  pos : ∀ l ∈ st.lens, 1 ≤ l
  short : ∀ l ∈ st.lens.dropLast, l ≤ 2047
  count : st.segs.length = st.lens.length
  room : st.segs.length ≤ p.nLiMax + 1
  queue : QueueOk p.maxSduBytes q st.headOff

theorem le_of_dropLast_getLastD {l : List Nat} {bound x : Nat} (hd : ∀ y ∈ l.dropLast, y ≤ bound)
    (hl : l.getLastD 0 ≤ bound) (hx : x ∈ l) : x ≤ bound := by
  induction l using List.reverseRecOn with
  | nil => simp at hx
  | append_singleton l y =>
    rcases List.mem_append.mp hx with hx | hx
    · exact hd x (by simpa using hx)
    · simp at hx hl; omega

/-- A packed fragment keeps what the loop keeps. -/
theorem PackOk.put {p : Params} {q q' : List SduEntry} {st : Packing} (h : PackOk p q st)
    (hcap : st.segs.length ≤ p.nLiMax) (hlast : st.lens.getLastD 0 ≤ 2047) {bytes : List Byte}
    (hpos : 1 ≤ bytes.length) (queue : List SduEntry) (id : Nat) (pool : Pool) {off : Nat} {fiE : Bool}
    (hq : QueueOk p.maxSduBytes q' off) :
    PackOk p q' { st.put queue id pool bytes with headOff := off, fiE := fiE } where
  total := by simp [Packing.put, h.total]
  pos l hl := by
    rcases List.mem_append.mp hl with hl | hl
    · exact h.pos l hl
    · simp at hl; omega
  short l hl := by
    have hl : l ∈ (st.lens ++ [bytes.length]).dropLast := hl
    rw [List.dropLast_concat] at hl
    exact le_of_dropLast_getLastD h.short hlast hl
  count := by simp [Packing.put, h.count]
  room := by simpa [Packing.put] using hcap
  queue := hq

theorem packLoop_ok {p : Params} {sn : Sn} {n : Nat} {q : List SduEntry} {st st' : Packing}
    (h : packLoop p sn n q st = .ok st') (hs : PackOk p q st) : PackOk p st'.queue st' := by
  induction q generalizing st with
  | nil => cases h; exact ⟨hs.total, hs.pos, hs.short, hs.count, hs.room, hs.queue⟩
  | cons head rest ih =>
    rcases packLoop_cons h with ⟨_, rfl⟩ | ⟨id, pool, bytes, hcap, hlast, -, hpos, h⟩
    · exact ⟨hs.total, hs.pos, hs.short, hs.count, hs.room, hs.queue⟩
    · have hpos := hpos (hs.queue.2.2 head rfl)
      rcases h with h | ⟨hlt, rfl⟩
      · exact ih h (hs.put hcap hlast hpos _ _ _ (queueOk_tail hs.queue))
      · refine hs.put hcap hlast hpos _ _ _ ⟨hs.queue.1, by simp [Packing.put], fun e he => ?_⟩
        cases he
        exact hlt

/-- What a packing that is not empty promises of the PDU built from it (R46, R180). -/
theorem PackOk.pdu {p : Params} {q : List SduEntry} {st : Packing} (h : PackOk p q st)
    (hsegs : st.segs ≠ []) :
    st.lens.dropLast.sum < st.payload.length ∧ (∀ l ∈ st.lens.dropLast, 1 ≤ l ∧ l ≤ 2047) ∧
      st.lens.dropLast.length ≤ p.nLiMax ∧ st.segs.length = st.lens.dropLast.length + 1 := by
  have hne : st.lens ≠ [] := fun e => hsegs (List.length_eq_zero_iff.mp (by simp [h.count, e]))
  have total : st.lens.dropLast.sum + st.lens.getLast hne = st.payload.length := by
    rw [← h.total]
    conv_rhs => rw [← List.dropLast_append_getLast hne]
    simp
  have last := h.pos _ (List.getLast_mem hne)
  have length : st.lens.dropLast.length + 1 = st.lens.length := by
    have := List.length_pos_iff.mpr hne
    simp
    omega
  have count := h.count
  have room := h.room
  exact ⟨by omega, fun l hl => ⟨h.pos l (List.mem_of_mem_dropLast hl), h.short l hl⟩, by omega, by omega⟩

/-- The loop takes records from the pool only as `allocate` does, and SDUs from the queue only. -/
theorem packLoop_frame {p : Params} {sn : Sn} {n : Nat} {q : List SduEntry} {st st' : Packing}
    (h : packLoop p sn n q st = .ok st') :
    (∀ m, PoolOk m st.pool → PoolOk m st'.pool) ∧ st'.queue.length ≤ q.length := by
  induction q generalizing st with
  | nil => cases h; exact ⟨fun _ => id, le_rfl⟩
  | cons head rest ih =>
    rcases packLoop_cons h with ⟨_, rfl⟩ | ⟨id, pool, bytes, -, -, halloc, -, h | ⟨-, rfl⟩⟩
    · exact ⟨fun _ => id, le_rfl⟩
    · obtain ⟨hpool, hlen⟩ := ih h
      exact ⟨fun m hm => hpool m (poolOk_allocate halloc hm), hlen.trans (Nat.le_succ _)⟩
    · exact ⟨fun m hm => poolOk_allocate halloc hm, le_rfl⟩

/-! ### READ_PDU (R173 to R184, R210) -/

/-- After `u` was accounted a Data PDU went out, or nothing did; a poll may have been applied. -/
def Transmitted (u t : State) : Prop := Quiet u t ∨ Quiet (applyPoll u) t

theorem transmitted_transmit (h : Header) (payload : List Byte) (u : State) :
    Transmitted u (transmit h payload u) := by
  rcases transmit_cases h payload u with ⟨-, e⟩ | ⟨-, e⟩ <;> rw [e]
  · exact .inr (quiet_respond ..)
  · exact .inl (quiet_respond ..)

theorem Transmitted.txSound {u t : State} (h : Transmitted u t) (hu : TxSound u) : TxSound t :=
  h.elim (fun h => h.txSound hu) (fun h => h.txSound hu)

/-- Every entry of `q` may stand in the retransmission queue of `s` (R23). -/
abbrev RetxSound (s : State) (q : List RetxEntry) : Prop := ∀ r ∈ q, RetxEntryOk s r

/-- `s` with another retransmission queue. -/
abbrev withRetxQ (s : State) (q : List RetxEntry) : State := { s with tx := { s.tx with retxQ := q } }

theorem txSound_withRetxQ {s : State} {q : List RetxEntry} (hs : TxSound s) (hq : RetxSound s q) :
    TxSound (withRetxQ s q) := ⟨hs.1, hs.2.1, hs.2.2.1, hq⟩

theorem scheduleOldest_retx {s u : State} (h : scheduleOldest s = some u) :
    ∃ q, u = withRetxQ s q ∧ (TxSound s → RetxSound s q) := by
  rcases scheduleOldest_cases s with ⟨-, e⟩ | ⟨-, -, e⟩ | ⟨-, -, e⟩ | ⟨-, -, t, ht, e⟩ <;>
    rw [e] at h <;> cases h
  · exact ⟨s.tx.retxQ, rfl, fun hs => hs.2.2.2⟩
  · exact ⟨s.tx.retxQ, rfl, fun hs => hs.2.2.2⟩
  · refine ⟨_, rfl, fun ⟨_, ⟨_, he, _⟩, _, hr⟩ r hr' => ?_⟩
    rcases List.mem_append.mp hr' with hr' | hr'
    · exact hr r hr'
    · obtain rfl : r = _ := by simpa using hr'
      exact ⟨t, ht, (he _ (mem_of_tableGet ht)).1, le_rfl, fun _ => ⟨rfl, rfl⟩⟩

theorem mem_of_mem_dropStale {w : Table TxEntry} {q : List RetxEntry} {r : RetxEntry}
    (h : r ∈ dropStale w q) : r ∈ q := by
  rcases dropStale_cases w q with ⟨e, -⟩ | ⟨stale, x, rest, rfl, e, -⟩ <;> rw [e] at h
  · cases h
  · exact List.mem_append_right _ h

/-- A retransmission sends the head of the queue, a part of it, or nothing (R178, R210, R211). -/
theorem buildRetx_retx {r : RetxEntry} {rest : List RetxEntry} {n : Nat} {s t : State}
    (hr : s.tx.retxQ = r :: rest) (h : buildRetx r rest n s = .ok t) :
    ∃ q, (RetxSound s s.tx.retxQ → RetxSound s q) ∧ Transmitted (withRetxQ s q) t := by
  have nothing : ∀ b, Transmitted (withRetxQ s s.tx.retxQ) (respondBytes b s) :=
    fun b => .inl (quiet_respond ..)
  unfold buildRetx at h
  split at h
  · cases h; exact ⟨_, id, nothing _⟩
  next e he =>
  split at h
  · cases h
    exact ⟨rest, fun hq x hx => hq x (hr ▸ List.mem_cons_of_mem _ hx), transmitted_transmit ..⟩
  unfold buildSegment at h
  split at h
  · cases h; exact ⟨_, id, nothing _⟩
  next stop hstop =>
  split at h
  · cases h
  next payload hread =>
  cases h
  refine ⟨requeueRemainder r stop rest, fun hq x hx => ?_, transmitted_transmit ..⟩
  rw [hr] at hq
  unfold requeueRemainder at hx
  split at hx
  · next hlt =>
    rcases List.mem_cons.mp hx with rfl | hx
    · obtain ⟨u, hu, -, hend, -⟩ := hq r (by simp)
      exact ⟨u, hu, hlt, hend, fun h => by simp at h⟩
    · exact hq x (List.mem_cons_of_mem _ hx)
  · exact hq x (List.mem_cons_of_mem _ hx)

/-- Packing for a grant of `n` bytes ends with `st` (R180). -/
abbrev Packs (n : Nat) (s : State) (st : Packing) : Prop :=
  packLoop s.params s.tx.vtS n s.tx.sduQ
    ⟨[], [], [], s.tx.sduQ, s.tx.headOff, s.pool, false, false⟩ = .ok st

/-- The state after the new Data PDU that `st` holds was accounted (R180). -/
abbrev accounted (st : Packing) (s : State) : State :=
  accountNew (newHeader s.tx.vtS (decide (0 < s.tx.headOff)) st) st (withRetxQ s [])

/-- What branches (b), (c) and (d) of READ_PDU can do: the fatal failure, a retransmission or nothing,
or a new Data PDU. -/
inductive DataSent (s : State) : State → Prop
  | failure : DataSent s (protocolFailure 1 s)
  | retx {q : List RetxEntry} {t : State} (hq : TxSound s → RetxSound s q)
      (ht : Transmitted (withRetxQ s q) t) : DataSent s t
  | new {n : Nat} {st : Packing} {t : State} (hfull : txWindowFull s = false)
      (hpack : Packs n s st) (hsegs : st.segs ≠ []) (ht : Transmitted (accounted st s) t) : DataSent s t

theorem sendData_dataSent {n : Nat} {s t : State} {q : List RetxEntry}
    (hq : TxSound s → RetxSound s q) (h : sendData n (withRetxQ s q) = .ok t) : DataSent s t := by
  have kept : TxSound s → RetxSound s (dropStale s.tx.window q) := fun hs r hr =>
    hq hs r (mem_of_mem_dropStale hr)
  unfold sendData at h
  dsimp only at h
  split at h
  · next r rest hr =>
    obtain ⟨q', hq', ht⟩ := buildRetx_retx hr h
    exact .retx (fun hs => hq' (kept hs)) ht
  · next hr =>
    have nothing : ∀ {u : State}, Quiet (withRetxQ s (dropStale s.tx.window q)) u → DataSent s u :=
      fun hu => .retx kept (.inl hu)
    unfold buildNew at h
    split at h
    · cases h; exact nothing (quiet_respond ..)
    next hc =>
    split at h
    · cases h
    next st hpack =>
    split at h
    · split at h <;> cases h <;> exact nothing (quiet_respond ..)
    next hsegs =>
    cases h
    have hfull : txWindowFull s = false := by
      simp only [Bool.or_eq_true, not_or, Bool.not_eq_true] at hc
      exact hc.1.1
    refine .new hfull hpack (by simpa using hsegs) ?_
    rw [hr]
    exact transmitted_transmit ..

theorem readData_dataSent {n : Nat} {s t : State} (h : readData n s = .ok t) : DataSent s t := by
  unfold readData at h
  split at h
  · split at h
    · cases h; exact .failure
    · next u hu =>
      obtain ⟨q, rfl, hq⟩ := scheduleOldest_retx hu
      exact sendData_dataSent hq h
  · exact sendData_dataSent (q := s.tx.retxQ) (fun hs => hs.2.2.2) h

/-- READ_PDU sends a STATUS PDU, or goes on to data (R173 to R175). -/
theorem readPdu_cases {n : Nat} {s t : State} (h : readPdu n s = .ok t) :
    ∃ u, Quiet s u ∧ (Quiet (statusSent u) t ∨ DataSent u t) := by
  unfold readPdu at h
  split at h
  · have hq := quiet_drawRxBusy s
    split at h
    · next u hu => exact ⟨u, by simpa [hu] using hq, .inr (readData_dataSent h)⟩
    · next u hu =>
      refine ⟨u, by simpa [hu] using hq, ?_⟩
      dsimp only at h
      split at h
      · exact .inr (readData_dataSent h)
      · cases h; exact .inl (quiet_respond ..)
  · exact ⟨s, .refl s, .inr (readData_dataSent h)⟩

/-- A new Data PDU keeps the transmitter invariant (R45, R46, R180). -/
theorem txSound_accounted {n : Nat} {st : Packing} {s : State} (hfull : txWindowFull s = false)
    (hpack : Packs n s st) (hsegs : st.segs ≠ []) (hs : TxSound s) : TxSound (accounted st s) := by
  obtain ⟨-, ⟨hw, he, hf⟩, hq, -⟩ := hs
  have hlt : modBase s.tx.vtA s.tx.vtS < 512 := by
    have := of_decide_eq_false hfull
    simpa [windowSize, txModBase] using this
  have hnext : modBase s.tx.vtA (s.tx.vtS + 1) = modBase s.tx.vtA s.tx.vtS + 1 :=
    modBase_succ (by omega)
  have packed := packLoop_ok hpack ⟨rfl, by simp, by simp, rfl, by simp, hq⟩
  obtain ⟨hsum, hlis, hcap, hrecords⟩ := packed.pdu hsegs
  refine ⟨?_, ⟨tableWf_set_sn hw _ _, fun e hmem => ?_, fun hne => ?_⟩, packed.queue,
    fun _ h => absurd h List.not_mem_nil⟩
  · change modBase s.tx.vtA (s.tx.vtS + 1) ≤ 512
    omega
  · rcases mem_tableSet hmem with rfl | hmem
    · have hsn : BitVec.ofNat 10 s.tx.vtS.toNat = s.tx.vtS := by simp
      refine ⟨Nat.one_le_of_lt hsum, hsn.symm, rfl, rfl, rfl, rfl, rfl, hsum, hlis, hcap, hrecords, ?_⟩
      change modBase s.tx.vtA (BitVec.ofNat 10 s.tx.vtS.toNat) < modBase s.tx.vtA (s.tx.vtS + 1)
      rw [hsn]
      omega
    · obtain ⟨h1, h2, h3, h4, h5, h6, h7, h8, h9, h10, h11, hin⟩ := he e hmem
      refine ⟨h1, h2, h3, h4, h5, h6, h7, h8, h9, h10, h11, ?_⟩
      change modBase s.tx.vtA _ < modBase s.tx.vtA (s.tx.vtS + 1)
      omega
  · change validAt (tableSet s.tx.window s.tx.vtS.toNat _) s.tx.vtA = true
    rw [validAt, tableGet_tableSet]
    split
    · rfl
    · next h => exact hf fun e => h (by rw [e])

theorem DataSent.txSound {s t : State} (h : DataSent s t) (hs : TxSound s) : TxSound t := by
  cases h with
  | failure => exact hs
  | retx hq ht => exact ht.txSound (txSound_withRetxQ hs (hq hs))
  | new hfull hpack hsegs ht => exact ht.txSound (txSound_accounted hfull hpack hsegs hs)

theorem txSound_statusSent {s : State} (hs : TxSound s) : TxSound (statusSent s) := by
  unfold statusSent
  dsimp only
  split <;> exact hs

theorem txSound_readPdu {n : Nat} {s t : State} (h : readPdu n s = .ok t) (hs : TxSound s) :
    TxSound t := by
  obtain ⟨u, hu, ht | ht⟩ := readPdu_cases h
  · exact ht.txSound (txSound_statusSent (hu.txSound hs))
  · exact ht.txSound (hu.txSound hs)

/-! ### Poll-retransmit expiry and the SDU commands -/

/-- The state after a poll-retransmit expiry was taken (R193). -/
abbrev pollExpired (s : State) : State :=
  { setTimer .pollRetx false s with
    tx := { (setTimer .pollRetx false s).tx with pollRetxExpired := true } }

/-- What a poll-retransmit expiry can do (R193, R271). -/
theorem texpPollRetx_cases (s : State) :
    Quiet s (texpPollRetx s) ∨ texpPollRetx s = protocolFailure 0 (pollExpired s) ∨
    ∃ q, (TxSound (pollExpired s) → RetxSound (pollExpired s) q) ∧
      Quiet (withRetxQ (pollExpired s) q) (texpPollRetx s) := by
  unfold texpPollRetx
  split
  · refine .inr ?_
    dsimp only [expireTimer_eq]
    split
    · split
      · exact .inl rfl
      · next u hu =>
        obtain ⟨q, rfl, hq⟩ := scheduleOldest_retx hu
        exact .inr ⟨q, hq, quiet_respond ..⟩
    · exact .inr ⟨s.tx.retxQ, fun hs => hs.2.2.2, quiet_respond ..⟩
  · exact .inl (quiet_respond ..)

theorem txSound_texpPollRetx {s : State} (hs : TxSound s) : TxSound (texpPollRetx s) := by
  have hx : TxSound (pollExpired s) := hs
  rcases texpPollRetx_cases s with h | h | ⟨q, hq, h⟩
  · exact h.txSound hs
  · rw [h]; exact hx
  · exact h.txSound (txSound_withRetxQ hx (hq hx))

/-- What WRITE_SDU can do (R170). -/
theorem writeSdu_cases (q : Word) (b : List Byte) (s : State) :
    Quiet s (writeSdu q b s) ∨
    1 ≤ b.length ∧ b.length ≤ s.params.maxSduBytes ∧ s.tx.sduQ.length ≠ s.cfg.txQueueLength.toNat ∧
      Quiet { s with tx := { s.tx with sduQ := s.tx.sduQ ++ [⟨q, b⟩] }
                     txSduCount := s.txSduCount + 1 } (writeSdu q b s) := by
  unfold writeSdu
  split
  · exact .inl (quiet_respond ..)
  · split
    · exact .inl (quiet_respond ..)
    · exact .inr ⟨by omega, by omega, by assumption, quiet_respond ..⟩

theorem txSound_writeSdu (q : Word) (b : List Byte) {s : State} (hs : TxSound s) :
    TxSound (writeSdu q b s) := by
  rcases writeSdu_cases q b s with h | ⟨hmin, hmax, -, h⟩
  · exact h.txSound hs
  · obtain ⟨hb, hw, ⟨hall, hempty, hhead⟩, hr⟩ := hs
    refine h.txSound ⟨hb, hw, ⟨fun e he => ?_, by simp, fun e he => ?_⟩, hr⟩
    · rcases List.mem_append.mp he with he | he
      · exact hall e he
      · obtain rfl : e = _ := by simpa using he
        exact ⟨hmin, hmax⟩
    · cases hq : s.tx.sduQ with
      | nil =>
        obtain rfl : _ = e := by simpa [hq] using he
        rw [hempty hq]; exact hmin
      | cons x xs => exact hhead e (by simpa [hq] using he)

/-- What DISCARD_SDU can do: an SDU that is not the partly sent head leaves the queue (R171). -/
theorem discardSdu_cases (q : Word) (s : State) :
    Quiet s (discardSdu q s) ∨
    ∃ i, (i = 0 → s.tx.headOff = 0) ∧
      Quiet { s with tx := { s.tx with sduQ := s.tx.sduQ.eraseIdx i } } (discardSdu q s) := by
  unfold discardSdu
  dsimp only
  split
  · next i hi =>
    split
    · exact .inl (quiet_respond ..)
    · next h =>
      refine .inr ⟨i, fun h0 => ?_, quiet_respond ..⟩
      simpa [h0] using h
  · split <;> exact .inl (quiet_respond ..)

theorem queueOk_eraseIdx {limit off : Nat} {q : List SduEntry} (h : QueueOk limit q off) {i : Nat}
    (hi : i = 0 → off = 0) : QueueOk limit (q.eraseIdx i) off := by
  cases q with
  | nil => exact h
  | cons e q =>
    cases i with
    | zero => rw [hi rfl]; exact queueOk_tail h
    | succ i =>
      exact ⟨fun x hx => h.1 x (List.mem_of_mem_eraseIdx hx), by simp, fun x hx => h.2.2 x hx⟩

theorem txSound_discardSdu (q : Word) {s : State} (hs : TxSound s) : TxSound (discardSdu q s) := by
  rcases discardSdu_cases q s with h | ⟨i, hi, h⟩
  · exact h.txSound hs
  · obtain ⟨hb, hw, hq, hr⟩ := hs
    exact h.txSound ⟨hb, hw, queueOk_eraseIdx hq hi, hr⟩

end Sys2Proof.Machine
end

section
/-!
The receiver invariant (R31, R32, R47, R228): what accepting a Data PDU and the reordering expiry can do
to the receiver, and that both keep `RxSound`.
-/
namespace Sys2Proof.Machine

/-! ### Stored segments (R31, R223) -/

/-- What R31 asks of one entry of `RX_SEGMENTS`. -/
abbrev SegEntryOk (e : SegEntry) : Prop :=
  RangesApart e.ranges ∧ e.bounds.Pairwise (· < ·) ∧
  (e.tlKnown = true → 1 ≤ e.tl ∧ ∀ r ∈ e.ranges, r.so + r.bytes.length ≤ e.tl) ∧
  (∀ r ∈ e.ranges, r.so = 0 → e.fiSKnown = true)

theorem segEntryOf_ok {s : State} (h : RxSegmentsSound s) (sn : Sn) :
    SegEntryOk (segEntryOf s.rx.segments sn) := by
  unfold segEntryOf
  cases he : tableGet s.rx.segments sn.toNat with
  | none => exact ⟨⟨by simp, by simp⟩, by simp, by simp, by simp⟩
  | some e => exact (h.2 _ (mem_of_tableGet he)).2

theorem foldl_insertBound_pairwise (xs : List Nat) {l : List Nat} (h : l.Pairwise (· < ·)) :
    (xs.foldl (fun acc x => insertBound x acc) l).Pairwise (· < ·) := by
  induction xs generalizing l with
  | nil => exact h
  | cons x xs ih => exact ih (insertBound_pairwise h)

/-- `entry` with the segment `h` of payload `d` merged in (R223). -/
abbrev merged (entry : SegEntry) (h : Header) (d : List Byte) : SegEntry :=
  mergedEntry entry h (newBytes entry.ranges h.so d) (h.so + d.length)

/-- The offsets that ranges cover, after a merge, were covered before or lie in the segment (R223). -/
theorem covered_merged {entry : SegEntry} {h : Header} {d : List Byte}
    (hr : RangesApart entry.ranges) {r : ByteRange} {off : Nat} (hmem : r ∈ (merged entry h d).ranges)
    (hoff : r.so ≤ off ∧ off < r.so + r.bytes.length) :
    (∃ x ∈ entry.ranges, x.so ≤ off ∧ off < x.so + x.bytes.length) ∨
      h.so ≤ off ∧ off < h.so + d.length := by
  have held : (rangeByte (merged entry h d).ranges off).isSome := by
    rw [rangeByte_isSome]
    exact List.any_eq_true.mpr ⟨r, hmem, by simpa using hoff⟩
  rw [(mergedEntry_ranges hr _).2] at held
  split at held
  · next hc =>
    rw [rangeByte_isSome] at hc
    obtain ⟨x, hx, hin⟩ := List.any_eq_true.mp hc
    exact .inl ⟨x, hx, by simpa using hin⟩
  · split at held
    · next hin => exact .inr hin
    · cases held

/-- A total length that is known after a merge is not 0 and bounds the segment and all that was held
before (R223). -/
theorem merged_tl {entry : SegEntry} {h : Header} {d : List Byte} (hok : SegEntryOk entry)
    (hd : 1 ≤ d.length) (hc : segmentConsistent entry h (h.so + d.length) = true)
    (hk : (merged entry h d).tlKnown = true) :
    1 ≤ (merged entry h d).tl ∧ h.so + d.length ≤ (merged entry h d).tl ∧
      ∀ x ∈ entry.ranges, x.so + x.bytes.length ≤ (merged entry h d).tl := by
  obtain ⟨-, -, htl, -⟩ := hok
  simp only [segmentConsistent, Bool.and_eq_true, Bool.not_eq_true', Bool.and_eq_false_iff,
    decide_eq_false_iff_not, not_lt, List.any_eq_false, decide_eq_true_eq] at hc
  obtain ⟨⟨hlong, -⟩, hlast⟩ := hc
  have known : entry.tlKnown = true ∨ h.lsf = true := by simpa [mergedEntry] using hk
  cases hl : h.lsf with
  | true =>
    simp only [mergedEntry, hl, if_true]
    exact ⟨by omega, le_rfl, fun x hx => (hlast.resolve_left (by simp [hl])) x hx⟩
  | false =>
    have hk : entry.tlKnown = true := known.resolve_right (by simp [hl])
    simp only [mergedEntry, hl, Bool.false_eq_true, if_false]
    exact ⟨(htl hk).1, hlong.resolve_left (by simp [hk]), (htl hk).2⟩

/-- A segment that agrees with what is known keeps the entry of its parent sound (R31, R223). -/
theorem merged_ok {entry : SegEntry} {h : Header} {d : List Byte} (hok : SegEntryOk entry)
    (hd : 1 ≤ d.length) (hc : segmentConsistent entry h (h.so + d.length) = true) :
    SegEntryOk (merged entry h d) := by
  have tl := merged_tl hok hd hc
  obtain ⟨hr, hb, -, hfi⟩ := hok
  have apart : RangesApart (merged entry h d).ranges := (mergedEntry_ranges hr _).1
  have length_pos : ∀ r ∈ (merged entry h d).ranges, 0 < r.bytes.length := fun r hmem =>
    List.length_pos_iff.mpr (apart.1 r hmem)
  refine ⟨apart, foldl_insertBound_pairwise _ hb, fun hk => ?_, fun r hmem hso => ?_⟩
  · obtain ⟨hpos, hseg, hold⟩ := tl hk
    refine ⟨hpos, fun r hmem => ?_⟩
    have := length_pos r hmem
    rcases covered_merged hr (off := r.so + r.bytes.length - 1) hmem (by omega) with
      ⟨x, hx, -, hlt⟩ | ⟨-, hlt⟩
    · have := hold x hx
      omega
    · omega
  · have := length_pos r hmem
    rcases covered_merged hr (off := 0) hmem (by omega) with ⟨x, hx, h0, -⟩ | ⟨h0, -⟩
    · simp [mergedEntry, hfi x hx (by omega)]
    · simp [mergedEntry, show h.so = 0 by omega]

/-- Differences of rising numbers below a bound sum up to less than the bound. -/
theorem sum_differencesFrom_lt {bound prev : Nat} {l : List Nat} (h : l.Pairwise (· < ·))
    (hp : prev < bound) (hl : ∀ x ∈ l, prev ≤ x ∧ x < bound) :
    prev + (differencesFrom prev l).sum < bound := by
  induction l generalizing prev with
  | nil => simpa [differencesFrom] using hp
  | cons x l ih =>
    obtain ⟨hx, hl'⟩ := List.pairwise_cons.mp h
    obtain ⟨h1, h2⟩ := hl x (by simp)
    have := ih hl' h2 fun y hy => ⟨le_of_lt (hx y hy), (hl y (List.mem_cons_of_mem _ hy)).2⟩
    simp only [differencesFrom, List.sum_cons]
    omega

/-- The length indicators of a rebuilt parent stay inside its payload (R223). -/
theorem rebuiltHeader_payload {entry : SegEntry} {bytes : List Byte} (hok : SegEntryOk entry) (sn : Sn)
    (h : completePayload entry = some bytes) : (rebuiltHeader entry sn).li.sum < bytes.length := by
  unfold completePayload at h
  split at h
  · split at h
    · next hc =>
      obtain ⟨hk, -, hlen⟩ := hc
      cases h
      have := sum_differencesFrom_lt (prev := 0) (bound := entry.tl)
        (hok.2.1.filter fun x => decide (0 < x ∧ x < entry.tl)) (hok.2.2.1 hk).1 fun x hx => by
          simp at hx; omega
      simp only [rebuiltHeader]
      omega
    · cases h
  · cases h

/-- What an accepted Data PDU leaves in the two tables of the receiver: entries that were there, and one
of its own SN (R222, R223). -/
theorem Stored.tables {h : Header} {d : List Byte} {s : State} {rx : Rx} (hst : Stored h d s rx)
    (hw : RxWindowSound s) (hg : RxSegmentsSound s) :
    ∃ window segments, rx = { s.rx with window := window, segments := segments } ∧
      tableWf 1024 window = true ∧ tableWf 1024 segments = true ∧
      (∀ e ∈ window, e ∈ s.rx.window ∨ e.1 = h.sn.toNat ∧ e.2.hdr.li.sum < e.2.buf.length) ∧
      (∀ e ∈ segments, e ∈ s.rx.segments ∨ e.1 = h.sn.toNat ∧ SegEntryOk e.2) := by
  have erased : ∀ e ∈ tableErase s.rx.segments h.sn.toNat, e ∈ s.rx.segments := fun e he =>
    List.mem_of_mem_filter he
  rcases hst.stored with rfl | hm
  · refine ⟨_, _, rfl, tableWf_set_sn hw.1 _ _, tableWf_tableErase hg.1 _, fun e he => ?_,
      fun e he => .inl (erased e he)⟩
    rcases mem_tableSet he with rfl | he
    · exact .inr ⟨rfl, hst.payload⟩
    · exact .inl he
  · obtain ⟨hw', hg'⟩ := mergeSegment_wf hm hw.1 hg.1
    unfold mergeSegment at hm
    dsimp only at hm
    split at hm
    · cases hm
    next hc =>
    split at hm
    · cases hm
    have sound := merged_ok (segEntryOf_ok hg h.sn)
      (by have := hst.payload; omega : 1 ≤ d.length) (by simpa using hc)
    split at hm <;> cases hm
    · next bytes hb =>
      refine ⟨_, _, rfl, hw', hg', fun e he => ?_, fun e he => .inl (erased e he)⟩
      rcases mem_tableSet he with rfl | he
      · exact .inr ⟨rfl, rebuiltHeader_payload sound _ hb⟩
      · exact .inl he
    · refine ⟨s.rx.window, _, rfl, hw', hg', fun e he => .inl he, fun e he => ?_⟩
      rcases mem_tableSet he with rfl | he
      · exact .inr ⟨rfl, sound⟩
      · exact .inl he

/-! ### The invariant in the middle of a command -/

/-- `RxSound` but for what REASSEMBLE and the update of the reordering timer set right: that `VR_R` is
missing, and the timer's snapshot (R220, R230). -/
structure RxOpen (s : State) : Prop where
  msLe : modBase s.rx.vrR s.rx.vrMs ≤ modBase s.rx.vrR s.rx.vrH
  hLe : modBase s.rx.vrR s.rx.vrH ≤ 512
  msMissing : validAt s.rx.window s.rx.vrMs = false
  window : RxWindowSound s
  segments : RxSegmentsSound s
  sdu : RxSduSound s

theorem rxSound_iff (s : State) :
    RxSound s ↔ RxOpen s ∧ validAt s.rx.window s.rx.vrR = false ∧ ReorderingSound s := by
  constructor
  · rintro ⟨⟨h1, h2, h3, h4⟩, hw, hg, ht, hu⟩
    exact ⟨⟨h1, h2, h4, hw, hg, hu⟩, h3, ht⟩
  · rintro ⟨⟨h1, h2, h4, hw, hg, hu⟩, h3, ht⟩
    exact ⟨⟨h1, h2, h3, h4⟩, hw, hg, ht, hu⟩

theorem Quiet.rxSound {s t : State} (h : Quiet s t) (hs : RxSound s) : RxSound t := by
  obtain ⟨_, _, _, rfl⟩ := h
  exact hs

/-- A scan for a missing SN that starts at or below `VR_H` ends at or below it, since no entry at or
above it is there (R225, R235, R47). -/
theorem scanMissing_le_vrH {s : State} (hw : RxWindowSound s) (hH : modBase s.rx.vrR s.rx.vrH ≤ 512)
    {x m : Sn} (hx : modBase s.rx.vrR x ≤ modBase s.rx.vrR s.rx.vrH)
    (h : scanMissing s.rx.window x = .ok m) :
    validAt s.rx.window m = false ∧ modBase s.rx.vrR x ≤ modBase s.rx.vrR m ∧
      modBase s.rx.vrR m ≤ modBase s.rx.vrR s.rx.vrH := by
  have hf : firstMissing s.rx.window 1024 x = some m := by
    unfold scanMissing at h
    split at h
    · next y hy => cases h; exact hy
    · cases h
  obtain ⟨k, -, rfl, hm, hall⟩ := firstMissing_some hf
  have dist : ∀ j, j ≤ 1023 - modBase s.rx.vrR x →
      modBase s.rx.vrR (x + BitVec.ofNat 10 j) = modBase s.rx.vrR x + j := fun j hj => by
    have := modBase_lt s.rx.vrR x
    conv_lhs => rw [eq_add_modBase s.rx.vrR x]
    rw [BitVec.add_assoc, ← BitVec.ofNat_add, modBase_add _ (by omega)]
  -- `VR_H` is not there, so the scan does not pass it
  have hk : k ≤ modBase s.rx.vrR s.rx.vrH - modBase s.rx.vrR x := by
    by_contra hlt
    have hv := hall _ (Nat.lt_of_not_le hlt)
    obtain ⟨e, he⟩ := Option.isSome_iff_exists.mp hv
    have hin := (hw.2 _ (mem_of_tableGet he)).1
    dsimp only [rxModBase] at hin
    rw [BitVec.ofNat_toNat, BitVec.setWidth_eq, dist _ (by omega)] at hin
    omega
  rw [dist k (by omega)]
  exact ⟨hm, by omega, by omega⟩

/-! ### Reassembly (R230, R231) -/

/-- Only the SDU in progress and the outputs move, and the SDU stays sound (R32). -/
def SduMoved (s t : State) : Prop :=
  ∃ sdu active out,
    t = { s with rx := { s.rx with sdu := sdu, sduActive := active }, out := out } ∧
    (RxSduSound s → RxSduSound t)

theorem SduMoved.refl (s : State) : SduMoved s s := ⟨_, _, _, rfl, id⟩

theorem SduMoved.trans {s t u : State} : SduMoved s t → SduMoved t u → SduMoved s u := by
  rintro ⟨_, _, _, rfl, h1⟩ ⟨_, _, _, rfl, h2⟩
  exact ⟨_, _, _, rfl, h2 ∘ h1⟩

theorem SduMoved.rxOpen {s t : State} (h : SduMoved s t) (hs : RxOpen s) : RxOpen t := by
  obtain ⟨_, _, _, rfl, hsdu⟩ := h
  exact ⟨hs.msLe, hs.hLe, hs.msMissing, hs.window, hs.segments, hsdu hs.sdu⟩

theorem takeFragment_moved (continues : Bool) (f : List Byte) (s : State) :
    SduMoved s (takeFragment continues f s) := by
  have dropped : SduMoved s { s with rx := { s.rx with sdu := [], sduActive := false } } :=
    ⟨_, _, _, rfl, fun _ => ⟨fun _ => rfl, Nat.zero_le _⟩⟩
  unfold takeFragment
  split
  · split
    · next ha =>
      split
      · exact dropped
      · next hlen =>
        exact ⟨_, _, _, rfl, fun _ => ⟨fun h => by simp [ha] at h, by simp; omega⟩⟩
    · exact .refl s
  · split
    · exact dropped
    · next hlen => exact ⟨_, _, _, rfl, fun _ => ⟨fun h => by simp at h, by simpa using hlen⟩⟩

theorem deliverIfEnded_moved (ends : Bool) (s : State) : SduMoved s (deliverIfEnded ends s) := by
  unfold deliverIfEnded
  split
  · exact ⟨_, _, _, rfl, fun _ => ⟨fun _ => rfl, Nat.zero_le _⟩⟩
  · exact .refl s

theorem consumeFrom_moved {entry : RxEntry} {li : List Nat} {off : Nat} {continues : Bool} {s t : State}
    (h : consumeFrom entry li off continues s = .ok t) : SduMoved s t := by
  induction li generalizing off continues s with
  | nil =>
    unfold consumeFrom at h
    split at h
    · cases h
    · cases h
      exact (takeFragment_moved ..).trans (deliverIfEnded_moved ..)
  | cons l li ih =>
    unfold consumeFrom at h
    split at h
    · cases h
    · exact ((takeFragment_moved ..).trans (deliverIfEnded_moved ..)).trans (ih h)

/-- Consuming the PDU at `VR_R` and moving on keeps the invariant that holds in between (R230). -/
theorem RxOpen.advance {s : State} (h : RxOpen s) (hv : validAt s.rx.window s.rx.vrR = true) :
    RxOpen (advanceVrR s) ∧
      modBase s.rx.vrR s.rx.vrMs = modBase (s.rx.vrR + 1) s.rx.vrMs + 1 := by
  have hms : s.rx.vrMs ≠ s.rx.vrR := fun e => by simp [e ▸ h.msMissing] at hv
  have dMs := modBase_succ_left hms
  have hle := h.msLe
  have hle' := h.hLe
  have hH : s.rx.vrH ≠ s.rx.vrR := fun e => by rw [e, modBase_self] at hle; omega
  have dH := modBase_succ_left hH
  -- every entry but the one at `VR_R` comes one step nearer
  have nearer : ∀ {α : Type} {t : Table α}, tableWf 1024 t = true →
      ∀ e ∈ tableErase t s.rx.vrR.toNat,
        modBase s.rx.vrR (BitVec.ofNat 10 e.1) < modBase s.rx.vrR s.rx.vrH →
        modBase (s.rx.vrR + 1) (BitVec.ofNat 10 e.1) < modBase (s.rx.vrR + 1) s.rx.vrH := by
    intro α t hw e he hlt
    have hne : BitVec.ofNat 10 e.1 ≠ s.rx.vrR := fun hx => by
      have := tableGet_sn_of_mem (tableWf_tableErase hw _) he
      simp [hx] at this
    have := modBase_succ_left hne
    omega
  refine ⟨⟨?_, ?_, ?_, ⟨tableWf_tableErase h.window.1 _, fun e he => ?_⟩,
    ⟨tableWf_tableErase h.segments.1 _, fun e he => ?_⟩, h.sdu⟩, dMs.symm⟩
  · change modBase (s.rx.vrR + 1) s.rx.vrMs ≤ modBase (s.rx.vrR + 1) s.rx.vrH
    omega
  · change modBase (s.rx.vrR + 1) s.rx.vrH ≤ 512
    omega
  · change validAt (tableErase s.rx.window s.rx.vrR.toNat) s.rx.vrMs = false
    have := h.msMissing
    rw [validAt, tableGet_tableErase]
    split
    · rfl
    · exact this
  · obtain ⟨hlt, hsum⟩ := h.window.2 e (List.mem_of_mem_filter he)
    exact ⟨nearer h.window.1 e he hlt, hsum⟩
  · obtain ⟨hlt, hok⟩ := h.segments.2 e (List.mem_of_mem_filter he)
    exact ⟨nearer h.segments.1 e he hlt, hok⟩

/-- What REASSEMBLE leaves alone. -/
def Reassembled (s t : State) : Prop :=
  ∃ vrR window segments sdu active out, t = { s with
    rx := { s.rx with
      vrR := vrR, window := window, segments := segments, sdu := sdu, sduActive := active }
    out := out }

theorem reassemble_reassembled {n : Nat} {s t : State} (h : reassemble n s = .ok t) :
    Reassembled s t := by
  induction n generalizing s with
  | zero => cases h; exact ⟨_, _, _, _, _, _, rfl⟩
  | succ n ih =>
    unfold reassemble at h
    split at h
    · cases h; exact ⟨_, _, _, _, _, _, rfl⟩
    · split at h
      · cases h
      · next u hu =>
        obtain ⟨_, _, _, rfl, -⟩ := consumeFrom_moved hu
        obtain ⟨_, _, _, _, _, _, rfl⟩ := ih h
        exact ⟨_, _, _, _, _, _, rfl⟩

/-- REASSEMBLE ends with `VR_R` missing and passes no SN from `VR_MS` on (R230, R245 (1)). -/
theorem reassemble_open {n : Nat} {s t : State} (h : reassemble n s = .ok t) (hs : RxOpen s)
    (hn : modBase s.rx.vrR s.rx.vrMs < n) :
    RxOpen t ∧ validAt t.rx.window t.rx.vrR = false ∧
      modBase s.rx.vrR t.rx.vrR ≤ modBase s.rx.vrR s.rx.vrMs := by
  induction n generalizing s with
  | zero => omega
  | succ n ih =>
    unfold reassemble at h
    split at h
    · next hg => cases h; exact ⟨hs, by simp [validAt, hg], by simp⟩
    next entry hg =>
    split at h
    · cases h
    next u hu =>
    have hopen := (consumeFrom_moved hu).rxOpen hs
    obtain ⟨_, _, _, rfl, -⟩ := consumeFrom_moved hu
    obtain ⟨hadv, hstep⟩ := hopen.advance (by simp [validAt, hg])
    dsimp only at hstep
    obtain ⟨ht, hmiss, hle⟩ := ih h hadv (by
      change modBase (s.rx.vrR + 1) s.rx.vrMs < n
      omega)
    refine ⟨ht, hmiss, ?_⟩
    change modBase (s.rx.vrR + 1) t.rx.vrR ≤ modBase (s.rx.vrR + 1) s.rx.vrMs at hle
    by_cases e : t.rx.vrR = s.rx.vrR
    · simp [e]
    · have := modBase_succ_left e
      omega

/-! ### Accepting a Data PDU (R220 to R228) -/

/-- Only the receiver, its timer and the outputs move, and the timer's two flags move together. -/
def RxMoved (s t : State) : Prop :=
  ∃ rx pending out,
    t = { s with rx := rx, timers := { s.timers with reordering := pending }, out := out } ∧
    (s.timers.reordering = s.rx.reordRunning → pending = rx.reordRunning)

theorem RxMoved.trans {s t u : State} : RxMoved s t → RxMoved t u → RxMoved s u := by
  rintro ⟨_, _, _, rfl, h1⟩ ⟨_, _, _, rfl, h2⟩
  exact ⟨_, _, _, rfl, h2 ∘ h1⟩

theorem Reassembled.rxMoved {s t : State} (h : Reassembled s t) : RxMoved s t := by
  obtain ⟨_, _, _, _, _, _, rfl⟩ := h
  exact ⟨_, _, _, rfl, id⟩

theorem updateVrH_rxMoved (sn : Sn) (s : State) : RxMoved s (updateVrH sn s) := by
  unfold updateVrH
  split <;> exact ⟨_, _, _, rfl, id⟩

theorem updateReorderingTimer_rxMoved (s : State) : RxMoved s (updateReorderingTimer s) := by
  have stopped : RxMoved s
      (if s.rx.reordRunning && reordMustStop s then stopTimer .reordering s else s) := by
    split
    · exact ⟨_, _, _, rfl, fun _ => rfl⟩
    · exact ⟨_, _, _, rfl, id⟩
  unfold updateReorderingTimer
  dsimp only
  generalize (if s.rx.reordRunning && reordMustStop s then stopTimer .reordering s else s) = u
    at stopped ⊢
  refine stopped.trans ?_
  split
  · exact ⟨_, _, _, rfl, fun _ => rfl⟩
  · exact ⟨_, _, _, rfl, id⟩

/-- The receiver with `VR_MS` moved to `m` and the poll of `h` handled (R225, R226). -/
abbrev acknowledged (h : Header) (m : Sn) (s : State) : State :=
  if h.p then handlePoll h.sn { s with rx := { s.rx with vrMs := m } }
  else { s with rx := { s.rx with vrMs := m } }

/-- The five steps after a Data PDU was stored, when none of them stops (R220). -/
theorem afterAccept_cases {h : Header} {s t : State} (ht : afterAccept h s = .ok t) :
    ∃ m u, scanMissing (updateVrH h.sn s).rx.window (updateVrH h.sn s).rx.vrMs = .ok m ∧
      reassemble 1024 (acknowledged h m (updateVrH h.sn s)) = .ok u ∧
      t = respond .ok [] [] (updateReorderingTimer u) := by
  unfold afterAccept updateVrMs at ht
  split at ht
  · cases ht
  next v hv =>
  split at hv
  · next m hm =>
    cases hv
    split at ht
    · cases ht
    · next u hu => cases ht; exact ⟨m, u, hm, hu, rfl⟩
  · cases hv

theorem acknowledged_rxMoved (h : Header) (m : Sn) (s : State) : RxMoved s (acknowledged h m s) := by
  unfold acknowledged
  split <;> exact ⟨_, _, _, rfl, id⟩

theorem respond_rxMoved (c : ResultCode) (rs : List Word) (b : List Byte) (s : State) :
    RxMoved s (respond c rs b s) := ⟨_, _, _, rfl, id⟩

theorem afterAccept_rxMoved {h : Header} {s t : State} (ht : afterAccept h s = .ok t) : RxMoved s t := by
  obtain ⟨m, u, -, hu, rfl⟩ := afterAccept_cases ht
  exact ((((updateVrH_rxMoved h.sn s).trans (acknowledged_rxMoved h m _)).trans
    (reassemble_reassembled hu).rxMoved).trans (updateReorderingTimer_rxMoved u)).trans
    (respond_rxMoved ..)

/-- `s` with other reception tables and another `VR_H`. -/
abbrev withTables (s : State) (window : Table RxEntry) (segments : Table SegEntry) (vrH : Sn) : State :=
  { s with rx := { s.rx with window := window, segments := segments, vrH := vrH } }

/-- The stored PDU and the raised `VR_H` keep the invariant, but that `VR_MS` may be there now. -/
theorem Stored.raised {h : Header} {d : List Byte} {s : State} {rx : Rx} (hst : Stored h d s rx)
    (hs : RxSound s) :
    ∃ window segments vrH, updateVrH h.sn { s with rx := rx } = withTables s window segments vrH ∧
      modBase s.rx.vrR s.rx.vrH ≤ modBase s.rx.vrR vrH ∧ modBase s.rx.vrR vrH ≤ 512 ∧
      RxWindowSound (withTables s window segments vrH) ∧
      RxSegmentsSound (withTables s window segments vrH) := by
  obtain ⟨⟨-, hH, -, -⟩, hw, hg, -, -⟩ := hs
  obtain ⟨window, segments, rfl, hww, hgw, hwe, hge⟩ := hst.tables hw hg
  have hin := hst.inside
  have hsucc := modBase_succ (b := s.rx.vrR) (x := h.sn) (by omega)
  have raised : ∀ vrH, modBase s.rx.vrR s.rx.vrH ≤ modBase s.rx.vrR vrH →
      modBase s.rx.vrR h.sn < modBase s.rx.vrR vrH →
      RxWindowSound (withTables s window segments vrH) ∧
      RxSegmentsSound (withTables s window segments vrH) := by
    intro vrH hle hlt
    have own : ∀ k, k = h.sn.toNat → modBase s.rx.vrR (BitVec.ofNat 10 k) < modBase s.rx.vrR vrH := by
      rintro _ rfl
      simpa using hlt
    refine ⟨⟨hww, fun e he => ?_⟩, ⟨hgw, fun e he => ?_⟩⟩
    · rcases hwe e he with he | ⟨hk, hsum⟩
      · exact (hw.2 e he).imp_left fun h => lt_of_lt_of_le h hle
      · exact ⟨own _ hk, hsum⟩
    · rcases hge e he with he | ⟨hk, hok⟩
      · exact (hg.2 e he).imp_left fun h => lt_of_lt_of_le h hle
      · exact ⟨own _ hk, hok⟩
  unfold updateVrH
  split
  · next hle =>
    change modBase s.rx.vrR s.rx.vrH ≤ modBase s.rx.vrR h.sn at hle
    exact ⟨window, segments, h.sn + 1, rfl, by omega, by omega, raised _ (by omega) (by omega)⟩
  · next hlt =>
    change ¬ modBase s.rx.vrR s.rx.vrH ≤ modBase s.rx.vrR h.sn at hlt
    exact ⟨window, segments, s.rx.vrH, rfl, le_rfl, hH, raised _ le_rfl (by omega)⟩

/-- An SN that the base has passed lies in the upper part of the ring. -/
theorem modBase_passed {b c x : Sn} (h : modBase b x < modBase b c) :
    modBase c x = 1024 + modBase b x - modBase b c := by
  have := b.isLt
  have := c.isLt
  have := x.isLt
  rw [modBase_eq b c, modBase_eq b x] at h
  rw [modBase_eq, modBase_eq, modBase_eq]
  omega

/-- A snapshot `x` between the base `r` and the highest SN `h` is still between them for a later base
`r'`, or lies more than a window ahead of it (R228). -/
theorem snapshot_ahead_or_passed {r r' x h : Sn} (hpos : 0 < modBase r x)
    (hx : modBase r x ≤ modBase r h) (hH : modBase r h ≤ 512) (hr : modBase r r' ≤ modBase r h) :
    modBase r' x ≤ modBase r' h ∨ 512 < modBase r' x := by
  rcases Nat.lt_or_ge (modBase r x) (modBase r r') with hlt | hge
  · rw [modBase_passed hlt]
    omega
  · rw [modBase_shift hge, modBase_shift hr]
    omega

/-- The update of the reordering timer restores the invariant, when the snapshot of a running timer is
at most `VR_H` or was passed by `VR_R` (R228). -/
theorem rxSound_updateReorderingTimer {s : State} (hs : RxOpen s)
    (hv : validAt s.rx.window s.rx.vrR = false)
    (hx : s.rx.reordRunning = true → modBase s.rx.vrR s.rx.vrX ≤ modBase s.rx.vrR s.rx.vrH ∨
      512 < modBase s.rx.vrR s.rx.vrX) : RxSound (updateReorderingTimer s) := by
  obtain ⟨h1, h2, h3, h4, h5, h6⟩ := hs
  have stopped : RxSound
      (if s.rx.reordRunning && reordMustStop s then stopTimer .reordering s else s) := by
    rw [rxSound_iff]
    split
    · exact ⟨⟨h1, h2, h3, h4, h5, h6⟩, hv, fun h => by cases h⟩
    · next hc =>
      refine ⟨⟨h1, h2, h3, h4, h5, h6⟩, hv, fun hr => ?_⟩
      rw [hr, Bool.true_and, reordMustStop_iff, not_or, not_and, not_not] at hc
      obtain ⟨hne, hout⟩ := hc
      have hpos : modBase s.rx.vrR s.rx.vrX ≠ 0 := fun e => hne (modBase_eq_zero.mp e)
      refine ⟨Nat.pos_of_ne_zero hpos, (hx hr).resolve_right fun hlt => ?_⟩
      rw [hout (le_of_lt hlt), modBase_vrMr] at hlt
      omega
  unfold updateReorderingTimer
  dsimp only
  generalize (if s.rx.reordRunning && reordMustStop s then stopTimer .reordering s else s) = u
    at stopped ⊢
  split
  · next hc =>
    obtain ⟨hopen, hmiss, -⟩ := (rxSound_iff u).mp stopped
    obtain ⟨h1, h2, h3, h4, h5, h6⟩ := hopen
    simp only [Bool.and_eq_true, decide_eq_true_eq] at hc
    exact (rxSound_iff _).mpr ⟨⟨h1, h2, h3, h4, h5, h6⟩, hmiss, fun _ => ⟨hc.2, le_rfl⟩⟩
  · exact stopped

/-- What moving `VR_MS` and handling a poll leave alone. -/
theorem acknowledged_rx (h : Header) (m : Sn) (s : State) :
    (acknowledged h m s).rx.vrR = s.rx.vrR ∧ (acknowledged h m s).rx.vrX = s.rx.vrX ∧
    (acknowledged h m s).rx.vrH = s.rx.vrH ∧ (acknowledged h m s).rx.vrMs = m ∧
    (acknowledged h m s).rx.reordRunning = s.rx.reordRunning := by
  unfold acknowledged
  split <;> exact ⟨rfl, rfl, rfl, rfl, rfl⟩

/-- An accepted Data PDU keeps the receiver invariant (R47, R220 to R231). -/
theorem rxSound_afterAccept {h : Header} {d : List Byte} {s t : State} {rx : Rx}
    (hst : Stored h d s rx) (hs : RxSound s) (ht : afterAccept h { s with rx := rx } = .ok t) :
    RxSound t := by
  obtain ⟨m, u, hm, hu, rfl⟩ := afterAccept_cases ht
  obtain ⟨window, segments, vrH, e, hge, hH, hw, hg⟩ := hst.raised hs
  rw [e] at hm hu
  obtain ⟨⟨hms, -, -, -⟩, -, -, hreord, hsdu⟩ := hs
  obtain ⟨hmiss, -, hmH⟩ := scanMissing_le_vrH hw hH (le_trans hms hge) hm
  have acked : RxOpen (acknowledged h m (withTables s window segments vrH)) := by
    unfold acknowledged
    split <;> exact ⟨hmH, hH, hmiss, hw, hg, hsdu⟩
  obtain ⟨eR, eX, eH, eMs, eRun⟩ := acknowledged_rx h m (withTables s window segments vrH)
  generalize acknowledged h m (withTables s window segments vrH) = v at hu acked eR eX eH eMs eRun
  dsimp only at eR eX eH eRun hmH
  obtain ⟨opened, missing, passed⟩ := reassemble_open hu acked (modBase_lt ..)
  refine (quiet_respond ..).rxSound (rxSound_updateReorderingTimer opened missing fun running => ?_)
  obtain ⟨vrR, _, _, _, _, _, rfl⟩ := reassemble_reassembled hu
  obtain ⟨hpos, hle⟩ := hreord (eRun ▸ running)
  dsimp only at passed ⊢
  rw [eR, eMs] at passed
  rw [eX, eH]
  exact snapshot_ahead_or_passed hpos (le_trans hle hge) hH (le_trans passed hmH)

/-! ### The reordering expiry (R235) -/

/-- The state of which the reordering expiry was taken and the lost PDUs counted (R235). -/
abbrev reorderingExpired (s : State) (count : Word) : State :=
  { setTimer .reordering false s with lostPduCount := count }

/-- What a reordering expiry can do: nothing when it is stale, else it counts what is lost and moves
`VR_MS` to the first missing SN from the greater of `VR_X` and `VR_MS` on (R235, R271). -/
theorem texpReordering_cases {s t : State} (h : texpReordering s = .ok t) :
    Quiet s t ∨ s.rx.reordRunning = true ∧ ∃ count m,
      scanMissing s.rx.window (if rxAhead s s.rx.vrX s.rx.vrMs then s.rx.vrX else s.rx.vrMs) = .ok m ∧
      t = respond .ok [] [] (afterExpiry m (reorderingExpired s count)) := by
  unfold texpReordering at h
  split at h
  · next hr =>
    refine .inr ⟨hr, ?_⟩
    dsimp only [expireTimer_eq] at h
    split at h
    · cases h
    · next m hm => cases h; exact ⟨_, m, hm, rfl⟩
  · cases h; exact .inl (quiet_respond ..)

theorem afterExpiry_rxMoved (m : Sn) (s : State) : RxMoved s (afterExpiry m s) := by
  unfold afterExpiry
  dsimp only
  split
  · exact ⟨_, _, _, rfl, fun _ => rfl⟩
  · exact ⟨_, _, _, rfl, id⟩

theorem texpReordering_rxMoved {s t : State} (h : texpReordering s = .ok t) :
    Quiet s t ∨ ∃ count, RxMoved { s with lostPduCount := count } t := by
  rcases texpReordering_cases h with h | ⟨-, count, m, -, rfl⟩
  · exact .inl h
  · have expired : RxMoved { s with lostPduCount := count } (reorderingExpired s count) :=
      ⟨_, _, _, rfl, fun _ => rfl⟩
    exact .inr ⟨count, (expired.trans (afterExpiry_rxMoved m _)).trans (respond_rxMoved ..)⟩

theorem rxSound_texpReordering {s t : State} (h : texpReordering s = .ok t) (hs : RxSound s) :
    RxSound t := by
  rcases texpReordering_cases h with h | ⟨hr, count, m, hm, rfl⟩
  · exact h.rxSound hs
  refine (quiet_respond ..).rxSound ?_
  obtain ⟨⟨hms, hH, hmissR, -⟩, hw, hg, hreord, hsdu⟩ := hs
  have start : modBase s.rx.vrR (if rxAhead s s.rx.vrX s.rx.vrMs then s.rx.vrX else s.rx.vrMs) ≤
      modBase s.rx.vrR s.rx.vrH := by
    split
    · exact (hreord hr).2
    · exact hms
  obtain ⟨hmiss, -, hle⟩ := scanMissing_le_vrH hw hH start hm
  rw [rxSound_iff]
  unfold afterExpiry
  dsimp only
  split
  · next ha =>
    refine ⟨⟨hle, hH, hmiss, hw, hg, hsdu⟩, hmissR, fun _ => ⟨?_, le_rfl⟩⟩
    exact lt_of_le_of_lt (Nat.zero_le _) (of_decide_eq_true ha)
  · exact ⟨⟨hle, hH, hmiss, hw, hg, hsdu⟩, hmissR, fun h => by cases h⟩

end Sys2Proof.Machine
end

section
/-!
The two halves over every step: what clearing keeps, which commands move which half of the engine, and
from these the transmitter invariant (O55) and the receiver invariant (O56).
-/
namespace Sys2Proof.Machine

/-! ### Clearing (R250, R252, R253) -/

/-- `t` has the parameters, the transmitter, the pool and the receiver of `s`; flags and ports are free. -/
def SameHalves (s t : State) : Prop :=
  t = { t with params := s.params, tx := s.tx, pool := s.pool, rx := s.rx }

/-- A property of the two halves and the pool that stopping the timers and clearing a half keep. -/
structure KeptByClearing (P : State → Prop) : Prop where
  halves : ∀ {s t}, SameHalves s t → P s → P t
  stop : ∀ {s}, P s → P (stopTimers s)
  half : ∀ h s, P s → P (clearHalf h s)

/-- What RESET leaves in the halves is the whole clearing (R250). -/
theorem KeptByClearing.reset {P : State → Prop} (h : KeptByClearing P) {s t : State}
    (ht : execReset s = .next t) (hs : P s) : P t := by
  cases ht
  exact h.halves (s := clearAll s) rfl (h.half .rx _ (h.half .tx _ (h.stop hs)))

theorem KeptByClearing.clearingCommand {P : State → Prop} (h : KeptByClearing P) (enable : Bool)
    {s : State} (hs : P s) : P (clearingCommand enable s) := by
  unfold Machine.clearingCommand
  split
  · exact h.halves rfl (h.half _ _ (h.stop hs))
  · exact h.halves (s := clearAll s) rfl (h.half .rx _ (h.half .tx _ (h.stop hs)))

theorem KeptByClearing.finishClearing {P : State → Prop} (h : KeptByClearing P) (c : Clearing)
    {s : State} (hs : P s) : P (finishClearing c s) :=
  h.halves (s := clearHalf c.half { s with clearing := none }) rfl (h.half _ _ (h.halves (s := s) rfl hs))

theorem txSound_clearTx (s : State) : TxSound (clearTx s) := by
  have bound : modBase s.params.snInit s.params.snInit ≤ 512 := by simp
  exact ⟨bound, ⟨rfl, fun _ h => absurd h List.not_mem_nil, fun h => absurd rfl h⟩,
    ⟨fun _ h => absurd h List.not_mem_nil, fun _ => rfl, fun _ h => by cases h⟩,
    fun _ h => absurd h List.not_mem_nil⟩

theorem rxSound_clearRx (s : State) : RxSound (clearRx s) := by
  have bound : modBase s.params.snInit s.params.snInit ≤ 512 := by simp
  exact ⟨⟨le_rfl, bound, rfl, rfl⟩, ⟨rfl, fun _ h => absurd h List.not_mem_nil⟩,
    ⟨rfl, fun _ h => absurd h List.not_mem_nil⟩, (fun h => by cases h), fun _ => rfl, Nat.zero_le _⟩

theorem keptByClearing_txSound : KeptByClearing TxSound where
  halves h hs := by rw [h]; exact hs
  stop hs := by rw [stopTimers_eq]; exact hs
  half
    | .tx, s, _ => txSound_clearTx s
    | .rx, _, hs => hs

theorem keptByClearing_rxSound : KeptByClearing RxSound where
  halves h hs := by rw [h]; exact hs
  stop hs := by
    rw [stopTimers_eq]
    obtain ⟨hc, hw, hg, -, hu⟩ := hs
    exact ⟨hc, hw, hg, (fun h => by cases h), hu⟩
  half
    | .tx, _, hs => hs
    | .rx, s, _ => rxSound_clearRx s

theorem keptByClearing_poolSound : KeptByClearing PoolSound where
  halves h hs := by rw [h]; exact hs
  stop hs := by rw [stopTimers_eq]; exact hs
  half
    | .tx, s, _ => poolOk_cleared s.params
    | .rx, _, hs => hs

/-! ### Which half a command moves -/

/-- Only the transmitter moves, with the pool and its two timers: the pool keeps its invariant, the SDU
queue does not grow, and each timer's two flags move together. -/
def TxMoved (s t : State) : Prop :=
  ∃ tx pool pollRetx statusProhibit,
    Quiet { s with tx := tx, pool := pool
                   timers := ⟨pollRetx, s.timers.reordering, statusProhibit⟩ } t ∧
    (∀ n, PoolOk n s.pool → PoolOk n pool) ∧ tx.sduQ.length ≤ s.tx.sduQ.length ∧
    (s.timers.pollRetx = s.tx.pollRetxRunning → pollRetx = tx.pollRetxRunning) ∧
    (s.timers.statusProhibit = s.tx.statusProhibitRunning → statusProhibit = tx.statusProhibitRunning)

theorem TxMoved.trans {s t u : State} : TxMoved s t → TxMoved t u → TxMoved s u := by
  rintro ⟨_, _, _, _, ⟨_, _, _, rfl⟩, hp, hq, ha, hb⟩ ⟨_, _, _, _, ⟨_, _, _, rfl⟩, hp', hq', ha', hb'⟩
  exact ⟨_, _, _, _, ⟨_, _, _, rfl⟩, fun n h => hp' n (hp n h), hq'.trans hq, ha' ∘ ha, hb' ∘ hb⟩

theorem Quiet.txMoved {s t : State} (h : Quiet s t) : TxMoved s t :=
  ⟨s.tx, s.pool, _, _, h, fun _ => id, le_rfl, id, id⟩

theorem StatusMoved.txMoved {s t : State} (h : StatusMoved s t) : TxMoved s t := by
  obtain ⟨_, _, _, pool, hp, hq⟩ := h.frame
  exact ⟨_, pool, _, _, hq, hp, le_rfl, id, id⟩

theorem txMoved_stopPoll (s : State) : TxMoved s (stopTimer .pollRetx s) :=
  ⟨_, _, _, _, ⟨_, _, _, rfl⟩, fun _ => id, le_rfl, fun _ => rfl, id⟩

theorem txMoved_withRetxQ (s : State) (q : List RetxEntry) : TxMoved s (withRetxQ s q) :=
  ⟨(withRetxQ s q).tx, _, _, _, ⟨_, _, _, rfl⟩, fun _ => id, le_rfl, id, id⟩

theorem txMoved_applyPoll (s : State) : TxMoved s (applyPoll s) :=
  ⟨_, _, _, _, ⟨_, _, _, rfl⟩, fun _ => id, le_rfl, fun _ => rfl, id⟩

theorem Transmitted.txMoved {s t : State} (h : Transmitted s t) : TxMoved s t :=
  h.elim (fun h => h.txMoved) fun h => (txMoved_applyPoll s).trans h.txMoved

theorem txMoved_accounted {n : Nat} {st : Packing} {s : State}
    (hpack : Packs n s st) :
    TxMoved s (accounted st s) := by
  obtain ⟨hpool, hlen⟩ := packLoop_frame hpack
  exact ⟨(accounted st s).tx, st.pool, _, _, ⟨_, _, _, rfl⟩, hpool, hlen, id, id⟩

theorem txMoved_processStatus {st : StatusPdu} {s : State} (h : ackInRange s st.ackSn = true) :
    TxMoved s (processStatus st s) := by
  obtain ⟨u, rfl | rfl, moved, -⟩ := processStatus_cases h
  · exact moved.txMoved
  · exact (txMoved_stopPoll s).trans moved.txMoved

theorem txMoved_discardSdu (q : Word) (s : State) : TxMoved s (discardSdu q s) := by
  rcases discardSdu_cases q s with h | ⟨i, -, h⟩
  · exact h.txMoved
  · exact ⟨_, _, _, _, h, fun _ => id, List.length_eraseIdx_le _ _, id, id⟩

theorem txMoved_texpStatusProhibit (s : State) : TxMoved s (texpStatusProhibit s) := by
  unfold texpStatusProhibit
  split
  · exact ⟨_, _, _, _, ⟨_, _, _, rfl⟩, fun _ => id, le_rfl, id, fun _ => rfl⟩
  · exact (quiet_respond ..).txMoved

/-- Only the branches that retransmit, send new data or fail can set `FAILED` (R266). -/
theorem DataSent.txMoved {s t : State} (h : DataSent s t) :
    ∃ failed, TxMoved { s with failed := failed } t := by
  cases h with
  | failure => exact ⟨true, Quiet.txMoved ⟨_, _, _, rfl⟩⟩
  | retx _ ht => exact ⟨s.failed, (txMoved_withRetxQ s _).trans ht.txMoved⟩
  | new _ hpack _ ht => exact ⟨s.failed, (txMoved_accounted hpack).trans ht.txMoved⟩

theorem txMoved_texpPollRetx (s : State) :
    ∃ failed, TxMoved { s with failed := failed } (texpPollRetx s) := by
  have expired : ∀ failed, TxMoved { s with failed := failed } { pollExpired s with failed := failed } :=
    fun _ => ⟨_, _, _, _, ⟨_, _, _, rfl⟩, fun _ => id, le_rfl, fun _ => rfl, id⟩
  rcases texpPollRetx_cases s with h | h | ⟨q, -, h⟩
  · exact ⟨s.failed, h.txMoved⟩
  · rw [h]
    exact ⟨true, (expired true).trans (Quiet.txMoved ⟨_, _, _, rfl⟩)⟩
  · exact ⟨s.failed, ((expired s.failed).trans (txMoved_withRetxQ _ q)).trans h.txMoved⟩

/-- READ_PDU moves the transmitter alone, but that a STATUS clears two flags of the receiver (R174). -/
theorem readPdu_txMoved {n : Nat} {s t : State} (h : readPdu n s = .ok t) :
    ∃ failed doStatus pollReceived, TxMoved
      { s with failed := failed
               rx := { s.rx with doStatus := doStatus, pollReceived := pollReceived } } t := by
  obtain ⟨u, hu, ht | ht⟩ := readPdu_cases h
  · obtain ⟨_, _, _, rfl⟩ := hu
    refine ⟨s.failed, false, false, TxMoved.trans ?_ ht.txMoved⟩
    unfold statusSent
    dsimp only
    split
    · exact ⟨_, _, _, _, ⟨_, _, _, rfl⟩, fun _ => id, le_rfl, id, fun _ => rfl⟩
    · exact Quiet.txMoved ⟨_, _, _, rfl⟩
  · obtain ⟨_, _, _, rfl⟩ := hu
    obtain ⟨failed, moved⟩ := ht.txMoved
    exact ⟨failed, s.rx.doStatus, s.rx.pollReceived, TxMoved.trans (Quiet.txMoved ⟨_, _, _, rfl⟩) moved⟩

theorem RxMoved.txSound {s t : State} (h : RxMoved s t) (hs : TxSound s) : TxSound t := by
  obtain ⟨_, _, _, rfl, -⟩ := h
  exact hs

theorem TxMoved.rxSound {s t : State} (h : TxMoved s t) (hs : RxSound s) : RxSound t := by
  obtain ⟨_, _, _, _, hq, -⟩ := h
  exact hq.rxSound hs

/-! ### The transmitter and the receiver invariant -/

theorem txSound_texpReordering {s t : State} (h : texpReordering s = .ok t) (hs : TxSound s) :
    TxSound t := by
  rcases texpReordering_rxMoved h with h | ⟨count, h⟩
  · exact h.txSound hs
  · exact h.txSound (s := { s with lostPduCount := count }) hs

theorem Effect.txSound {i : Instr} {s t : State} (h : Effect i s t) (hs : TxSound s) : TxSound t := by
  cases h with
  | quiet h => exact h.txSound hs
  | pool h _ => exact h.txSound hs
  | reset h => exact keptByClearing_txSound.reset h hs
  | configure _ _ h => exact h.txSound (s := { s with cfg := _, cfgValid := true }) hs
  | reestablish _ => exact keptByClearing_txSound.clearingCommand _ hs
  | stop => exact keptByClearing_txSound.clearingCommand _ hs
  | writeSdu _ => exact txSound_writeSdu _ _ hs
  | discardSdu _ => exact txSound_discardSdu _ hs
  | readPdu _ h => exact txSound_readPdu h hs
  | status _ _ h => exact txSound_processStatus h hs
  | data _ _ _ ht => exact (afterAccept_rxMoved ht).txSound (s := { s with rx := _ }) hs
  | texpPollRetx _ => exact txSound_texpPollRetx hs
  | texpReordering _ h => exact txSound_texpReordering h hs
  | texpStatusProhibit _ =>
    unfold Machine.texpStatusProhibit
    split <;> exact hs

theorem Effect.rxSound {i : Instr} {s t : State} (h : Effect i s t) (hs : RxSound s) : RxSound t := by
  cases h with
  | quiet h => exact h.rxSound hs
  | pool h _ => obtain ⟨_, -, hq⟩ := h; exact hq.rxSound hs
  | reset h => exact keptByClearing_rxSound.reset h hs
  | configure _ _ h => exact h.rxSound (s := { s with cfg := _, cfgValid := true }) hs
  | reestablish _ => exact keptByClearing_rxSound.clearingCommand _ hs
  | stop => exact keptByClearing_rxSound.clearingCommand _ hs
  | writeSdu _ =>
    rcases writeSdu_cases _ _ s with h | ⟨-, -, -, h⟩ <;> exact h.rxSound hs
  | discardSdu _ => exact (txMoved_discardSdu _ s).rxSound hs
  | readPdu _ h =>
    obtain ⟨_, _, _, moved⟩ := readPdu_txMoved h
    exact moved.rxSound hs
  | status _ _ h => exact (txMoved_processStatus h).rxSound hs
  | data _ _ hst ht => exact rxSound_afterAccept hst hs ht
  | texpPollRetx _ =>
    obtain ⟨_, moved⟩ := txMoved_texpPollRetx s
    exact moved.rxSound hs
  | texpReordering _ h => exact rxSound_texpReordering h hs
  | texpStatusProhibit _ => exact (txMoved_texpStatusProhibit s).rxSound hs

end Sys2Proof.Machine

open Sys2Proof.Machine in
/-- Settles O55: every outcome of a command, and the second half of a clearing command, keep it. -/
theorem txInvariant : Obligations.TxInvariant := fun _ _ hs hstep =>
  step_keeps (P := TxSound) Quiet.txSound
    (fun _ hs => keptByClearing_txSound.finishClearing _ hs) (fun _ h => h.txSound) hs hstep

open Sys2Proof.Machine in
/-- Settles O56: every outcome of a command, and the second half of a clearing command, keep it. -/
theorem rxInvariant : Obligations.RxInvariant := fun _ _ hs hstep =>
  step_keeps (P := RxSound) Quiet.rxSound
    (fun _ hs => keptByClearing_rxSound.finishClearing _ hs) (fun _ h => h.rxSound) hs hstep
end

section
/-!
The pool, timer, configuration and queue invariants over every step (O57), and who may write what (O54).
-/
namespace Sys2Proof.Machine

/-! ### The control invariants (R26, R33, R34, R40, R50) -/

/-- From `s` to `t` each of the four control invariants is kept. -/
structure ControlKept (s t : State) : Prop where
  pool : PoolSound s → PoolSound t
  timers : TimersAgree s → TimersAgree t
  config : ConfigSound s → ConfigSound t
  queue : QueueBounded s → QueueBounded t

theorem ControlKept.trans {s t u : State} (h1 : ControlKept s t) (h2 : ControlKept t u) :
    ControlKept s u :=
  ⟨h2.pool ∘ h1.pool, h2.timers ∘ h1.timers, h2.config ∘ h1.config, h2.queue ∘ h1.queue⟩

theorem Quiet.controlKept {s t : State} (h : Quiet s t) : ControlKept s t := by
  obtain ⟨_, _, _, rfl⟩ := h
  exact ⟨id, id, id, id⟩

/-- What every command but the four management commands and WRITE_SDU does to the control state. -/
structure ControlFrame (s t : State) : Prop where
  params : t.params = s.params
  cfg : t.cfg = s.cfg
  cfgValid : t.cfgValid = s.cfgValid
  enabled : t.enabled = s.enabled
  clearing : t.clearing = s.clearing
  pool : ∀ n, PoolOk n s.pool → PoolOk n t.pool
  queue : t.tx.sduQ.length ≤ s.tx.sduQ.length
  pollRetx : s.timers.pollRetx = s.tx.pollRetxRunning → t.timers.pollRetx = t.tx.pollRetxRunning
  reordering : s.timers.reordering = s.rx.reordRunning → t.timers.reordering = t.rx.reordRunning
  statusProhibit : s.timers.statusProhibit = s.tx.statusProhibitRunning →
    t.timers.statusProhibit = t.tx.statusProhibitRunning

/-- Such a command keeps the control invariants when no clearing command is half done. -/
theorem ControlFrame.controlKept {s t : State} (h : ControlFrame s t) (hc : s.clearing = none) :
    ControlKept s t where
  pool hs := by
    have := h.pool _ hs
    rwa [← h.params] at this
  timers := by
    rintro ⟨h1, h2, h3, -⟩
    exact ⟨h.pollRetx h1, h.reordering h2, h.statusProhibit h3,
      fun hne => absurd (h.clearing.trans hc) hne⟩
  config hs := by
    rw [ConfigSound, h.cfg, h.cfgValid, h.enabled, h.clearing]
    exact hs
  queue := by
    rintro ⟨hle, hstopped, -⟩
    refine ⟨h.queue.trans (h.cfg ▸ hle), fun he => ?_, fun c hc' => ?_⟩
    · have := h.queue
      rw [hstopped (h.enabled ▸ he)] at this
      exact List.length_eq_zero_iff.mp (Nat.le_zero.mp this)
    · rw [h.clearing, hc] at hc'
      cases hc'

theorem TxMoved.controlFrame {s t : State} (h : TxMoved s t) : ControlFrame s t := by
  obtain ⟨_, _, _, _, ⟨_, _, _, rfl⟩, hp, hq, ha, hb⟩ := h
  exact ⟨rfl, rfl, rfl, rfl, rfl, hp, hq, ha, id, hb⟩

theorem RxMoved.controlFrame {s t : State} (h : RxMoved s t) : ControlFrame s t := by
  obtain ⟨_, _, _, rfl, ha⟩ := h
  exact ⟨rfl, rfl, rfl, rfl, rfl, fun _ => id, le_rfl, id, ha, id⟩

theorem PoolMoved.controlFrame {s t : State} (h : PoolMoved s t) : ControlFrame s t := by
  obtain ⟨_, hp, _, _, _, rfl⟩ := h
  exact ⟨rfl, rfl, rfl, rfl, rfl, hp, le_rfl, id, id, id⟩

/-- Storing a Data PDU leaves the reordering timer alone. -/
theorem Stored.rxMoved {h : Header} {d : List Byte} {s : State} {rx : Rx} (hst : Stored h d s rx) :
    RxMoved s { s with rx := rx } := by
  rcases hst.stored with rfl | hm
  · exact ⟨_, _, _, rfl, id⟩
  · rcases mergeSegment_cases h d s.rx with e | e | ⟨_, e⟩ | ⟨_, e⟩ <;> rw [e] at hm <;> cases hm
    · exact ⟨_, _, _, rfl, id⟩
    · exact ⟨_, _, _, rfl, id⟩

/-! ### Clearing -/

/-- No timer runs and none has an expiry pending. -/
abbrev TimersStopped (s : State) : Prop :=
  s.tx.pollRetxRunning = false ∧ s.tx.statusProhibitRunning = false ∧ s.rx.reordRunning = false ∧
    s.timers.pollRetx = false ∧ s.timers.statusProhibit = false ∧ s.timers.reordering = false

theorem TimersStopped.agree {s : State} (h : TimersStopped s) : TimersAgree s := by
  obtain ⟨r1, r2, r3, t1, t2, t3⟩ := h
  exact ⟨t1.trans r1.symm, t3.trans r3.symm, t2.trans r2.symm, fun _ => ⟨r1, r2, r3⟩⟩

theorem timersStopped_stopTimers {s : State} (h : TimersAgree s) : TimersStopped (stopTimers s) := by
  obtain ⟨h1, h2, h3, -⟩ := h
  rw [stopTimers_eq, h1, h2, h3]
  exact ⟨rfl, rfl, rfl, by simp, by simp, by simp⟩

theorem timersStopped_clearHalf (h : Half) {s : State} (hs : TimersStopped s) :
    TimersStopped (clearHalf h s) := by
  obtain ⟨r1, r2, r3, hs⟩ := hs
  cases h
  · exact ⟨rfl, rfl, r3, hs⟩
  · exact ⟨r1, r2, rfl, hs⟩

theorem timersStopped_clearAll {s : State} (h : TimersAgree s) : TimersStopped (clearAll s) :=
  timersStopped_clearHalf .rx (timersStopped_clearHalf .tx (timersStopped_stopTimers h))

/-- `t` has the flags, the registers and the counters of `s`; the halves and the timers are free. -/
def SameFlags (s t : State) : Prop :=
  t = { s with tx := t.tx, pool := t.pool, rx := t.rx, timers := t.timers, out := t.out }

theorem sameFlags_clearHalf (h : Half) (s : State) : SameFlags s (clearHalf h (stopTimers s)) := by
  rw [SameFlags, stopTimers_eq]
  cases h <;> rfl

theorem sameFlags_clearAll (s : State) : SameFlags s (clearAll s) := by
  rw [SameFlags, clearAll_eq, stopTimers_eq]

/-- What a clearing command leaves: all clear, or one half and the other still to do (R85). -/
theorem clearingCommand_cases (enable : Bool) (s : State) :
    Quiet (leaveFailure enable (clearAll s)) (clearingCommand enable s) ∨
    ∃ first second, first ≠ second ∧
      Quiet { clearHalf first (stopTimers s) with clearing := some ⟨second, enable⟩ }
        (clearingCommand enable s) := by
  unfold clearingCommand
  split
  · refine .inr ⟨_, _, ?_, ⟨_, _, _, rfl⟩⟩
    split <;> simp
  · exact .inl (quiet_respond ..)

theorem controlKept_execReset {s t : State} (h : execReset s = .next t) : ControlKept s t where
  pool := keptByClearing_poolSound.reset h
  timers hs := by
    cases h
    exact TimersStopped.agree (timersStopped_clearAll hs)
  config _ := by
    cases h
    exact ⟨nofun, nofun, nofun⟩
  queue _ := by
    cases h
    exact ⟨Nat.zero_le _, fun _ => rfl, nofun⟩

theorem controlKept_clearingCommand {enable : Bool} {s : State} (hc : s.clearing = none)
    (hv : enable = true → s.cfgValid = true) : ControlKept s (clearingCommand enable s) where
  pool := keptByClearing_poolSound.clearingCommand enable
  timers hs := by
    rcases clearingCommand_cases enable s with h | ⟨first, second, -, h⟩ <;>
      refine h.controlKept.timers ?_
    · exact TimersStopped.agree (timersStopped_clearAll hs)
    · exact TimersStopped.agree (timersStopped_clearHalf first (timersStopped_stopTimers hs))
  config := by
    rintro ⟨hen, hregs, -⟩
    rcases clearingCommand_cases enable s with h | ⟨first, second, -, h⟩ <;>
      refine h.controlKept.config ?_
    · rw [sameFlags_clearAll s]
      exact ⟨hv, hregs, fun _ h => by simp [leaveFailure, hc] at h⟩
    · rw [sameFlags_clearHalf first s]
      exact ⟨hen, hregs, fun c h => by cases h; exact hv⟩
  queue := by
    rintro ⟨hle, hstopped, -⟩
    rcases clearingCommand_cases enable s with h | ⟨first, second, hne, h⟩ <;>
      refine h.controlKept.queue ?_
    · exact ⟨Nat.zero_le _, fun _ => rfl, fun _ _ _ => rfl⟩
    · rw [stopTimers_eq]
      cases first with
      | tx => exact ⟨Nat.zero_le _, fun _ => rfl, fun _ _ _ => rfl⟩
      | rx => exact ⟨hle, hstopped, fun c h hx => by cases h; exact absurd hx.symm hne⟩

theorem controlKept_finishClearing {s : State} {c : Clearing} (hc : s.clearing = some c) :
    ControlKept s (finishClearing c s) where
  pool := keptByClearing_poolSound.finishClearing c
  timers := by
    rintro ⟨h1, h2, h3, h4⟩
    obtain ⟨r1, r2, r3⟩ := h4 (by simp [hc])
    have stopped : TimersStopped s := ⟨r1, r2, r3, h1.trans r1, h3.trans r2, h2.trans r3⟩
    exact TimersStopped.agree (timersStopped_clearHalf c.half (s := { s with clearing := none }) stopped)
  config := by
    rintro ⟨-, hregs, hcl⟩
    have enabled := hcl c hc
    unfold finishClearing
    cases c.half <;> exact ⟨enabled, hregs, nofun⟩
  queue := by
    rintro ⟨hle, -, hrx⟩
    unfold finishClearing
    cases hh : c.half with
    | tx => exact ⟨Nat.zero_le _, fun _ => rfl, nofun⟩
    | rx => exact ⟨hle, fun _ => hrx c hc hh, nofun⟩

theorem controlKept_configure {s t : State} {v0 v1 v2 v3 v4 v5 v6 : Word} (hs : s.enabled = false)
    (hv : v3 ≠ 0 ∧ v6 ≠ 0)
    (h : Quiet { s with cfg := ⟨v0, v1, v2, v3, v4, v5, v6⟩, cfgValid := true } t) :
    ControlKept s t := by
  refine ControlKept.trans ?_ h.controlKept
  refine ⟨id, id, ?_, ?_⟩
  · exact fun _ => ⟨fun _ => rfl, fun _ => hv, fun _ _ _ => rfl⟩
  · rintro ⟨-, hstopped, hcl⟩
    exact ⟨by simp [hstopped hs], hstopped, hcl⟩

theorem controlKept_writeSdu (q : Word) (b : List Byte) {s : State} (hs : Accepting s)
    (hc : s.clearing = none) : ControlKept s (writeSdu q b s) := by
  obtain ⟨-, hen, -⟩ := hs
  rcases writeSdu_cases q b s with h | ⟨-, -, hroom, h⟩
  · exact h.controlKept
  · refine ControlKept.trans ?_ h.controlKept
    refine ⟨id, id, id, ?_⟩
    rintro ⟨hle, -, -⟩
    refine ⟨?_, fun he => ?_, fun c h => ?_⟩
    · simp only [List.length_append, List.length_singleton]
      omega
    · rw [hen] at he; cases he
    · rw [hc] at h; cases h

theorem Effect.controlKept {i : Instr} {s t : State} (h : Effect i s t) (hc : s.clearing = none) :
    ControlKept s t := by
  cases h with
  | quiet h => exact h.controlKept
  | pool h _ => exact h.controlFrame.controlKept hc
  | reset h => exact controlKept_execReset h
  | configure hs hv h => exact controlKept_configure hs hv h
  | reestablish hv => exact controlKept_clearingCommand hc fun _ => hv
  | stop => exact controlKept_clearingCommand hc nofun
  | writeSdu hs => exact controlKept_writeSdu _ _ hs hc
  | discardSdu _ => exact (txMoved_discardSdu _ s).controlFrame.controlKept hc
  | readPdu _ h =>
    obtain ⟨_, _, _, moved⟩ := readPdu_txMoved h
    have := moved.controlFrame.controlKept hc
    exact ⟨this.pool, this.timers, this.config, this.queue⟩
  | status _ _ h => exact (txMoved_processStatus h).controlFrame.controlKept hc
  | data _ _ hst ht =>
    exact (hst.rxMoved.trans (afterAccept_rxMoved ht)).controlFrame.controlKept hc
  | texpPollRetx _ =>
    obtain ⟨_, moved⟩ := txMoved_texpPollRetx s
    have := moved.controlFrame.controlKept hc
    exact ⟨this.pool, this.timers, this.config, this.queue⟩
  | texpReordering _ h =>
    rcases texpReordering_rxMoved h with h | ⟨count, moved⟩
    · exact h.controlKept
    · have := moved.controlFrame.controlKept hc
      exact ⟨this.pool, this.timers, this.config, this.queue⟩
  | texpStatusProhibit _ => exact (txMoved_texpStatusProhibit s).controlFrame.controlKept hc

/-! ### Who writes what (R34, R35, R40, R81, R266) -/

/-- `b` is the payload of a command that hands a STATUS PDU to the transmitter (R106). -/
abbrev ReceivesStatus (i : Instr) (b : List Byte) : Prop :=
  i = .handleControlPdu b ∨ i = .writePdu b ∧ ∃ b0 ∈ b.head?, b0.getLsbD 7 = false

/-- `b` is the payload of a command that hands a Data PDU to the receiver (R106). -/
abbrev ReceivesData (i : Instr) (b : List Byte) : Prop :=
  i = .writePdu b ∧ ∃ b0 ∈ b.head?, b0.getLsbD 7 = true

/-- The statement of O54 for one command. -/
def WritesOnly (i : Instr) (s t : State) : Prop :=
  t.params = s.params ∧
  (i ≠ .reset → (¬ ∃ v0 v1 v2 v3 v4 v5 v6, i = .configure v0 v1 v2 v3 v4 v5 v6) →
    t.cfg = s.cfg ∧ t.cfgValid = s.cfgValid) ∧
  (s.enabled = false → t.enabled = true → i = .reestablish) ∧
  (s.failed = true → t.failed = false → i = .reset ∨ i = .reestablish ∨ i = .stop) ∧
  (s.failed = false → t.failed = true → i = .texpPollRetx ∨ ∃ n, i = .readPdu n) ∧
  (t.txSduCount ≠ s.txSduCount → i = .reset ∨ ∃ q d, i = .writeSdu q d) ∧
  (t.lostPduCount ≠ s.lostPduCount → i = .reset ∨ i = .texpReordering) ∧
  (∀ b, ReceivesStatus i b → t.rx = s.rx) ∧
  (∀ b, i = .writePdu b → (∃ b0 ∈ b.head?, b0.getLsbD 7 = true) → t.tx = s.tx ∧ t.pool = s.pool)

/-- A PDU is a STATUS PDU or a Data PDU, not both. -/
theorem not_receivesData_of_receivesStatus {i : Instr} {b b' : List Byte} (h : ReceivesStatus i b) :
    ¬ ReceivesData i b' := by
  rintro ⟨rfl, b0, hb, h1⟩
  rcases h with h | ⟨h, b1, hb', h0⟩
  · cases h
  · cases h
    rw [Option.mem_def] at hb hb'
    obtain rfl : b0 = b1 := Option.some.inj (hb.symm.trans hb')
    rw [h0] at h1
    cases h1

/-- A command that leaves `ENABLED` alone, and moves of the rest only what it may. -/
theorem writesOnly_of {i : Instr} {s t : State} (params : t.params = s.params)
    (cfg : t.cfg = s.cfg ∧ t.cfgValid = s.cfgValid ∨
      ∃ v0 v1 v2 v3 v4 v5 v6, i = .configure v0 v1 v2 v3 v4 v5 v6)
    (enabled : t.enabled = s.enabled)
    (failed : t.failed = s.failed ∨ s.failed = false ∧ (i = .texpPollRetx ∨ ∃ n, i = .readPdu n))
    (sent : t.txSduCount = s.txSduCount ∨ ∃ q d, i = .writeSdu q d)
    (lost : t.lostPduCount = s.lostPduCount ∨ i = .texpReordering)
    (status : ∀ b, ReceivesStatus i b → t.rx = s.rx)
    (data : ∀ b, ReceivesData i b → t.tx = s.tx ∧ t.pool = s.pool) : WritesOnly i s t := by
  refine ⟨params, fun _ => cfg.resolve_right, fun h0 h1 => ?_, fun h1 h0 => ?_, fun h0 h1 => ?_,
    fun hne => .inr (sent.resolve_left hne), fun hne => .inr (lost.resolve_left hne), status,
    fun b hi hb => data b ⟨hi, hb⟩⟩
  · rw [enabled, h0] at h1; cases h1
  · rcases failed with e | ⟨e, -⟩
    · rw [e, h1] at h0; cases h0
    · rw [e] at h1; cases h1
  · rcases failed with e | ⟨-, hi⟩
    · rw [e, h0] at h1; cases h1
    · exact hi

/-- A command that moves only the transmitter, and is no Data PDU. -/
theorem TxMoved.writesOnly {i : Instr} {s t : State} (h : TxMoved s t)
    (hi : ∀ b, ¬ ReceivesData i b) : WritesOnly i s t := by
  obtain ⟨_, _, _, _, ⟨_, _, _, rfl⟩, -⟩ := h
  exact writesOnly_of rfl (.inl ⟨rfl, rfl⟩) rfl (.inl rfl) (.inl rfl) (.inl rfl) (fun _ _ => rfl)
    fun b hb => absurd hb (hi b)

/-- A command that moves only the transmitter and may fail, and receives no PDU. -/
theorem writesOnly_of_mayFail {i : Instr} {s t : State} {failed : Bool} {rx : Rx}
    (hs : s.failed = false) (hi : i = .texpPollRetx ∨ ∃ n, i = .readPdu n)
    (h : TxMoved { s with failed := failed, rx := rx } t) : WritesOnly i s t := by
  obtain ⟨_, _, _, _, ⟨_, _, _, rfl⟩, -⟩ := h
  have noPdu : ∀ b, ¬ ReceivesStatus i b ∧ ¬ ReceivesData i b := by
    rcases hi with rfl | ⟨_, rfl⟩ <;> simp [ReceivesStatus, ReceivesData]
  exact writesOnly_of rfl (.inl ⟨rfl, rfl⟩) rfl (.inr ⟨hs, hi⟩) (.inl rfl) (.inl rfl)
    (fun b hb => absurd hb (noPdu b).1) fun b hb => absurd hb (noPdu b).2

theorem Quiet.writesOnly {i : Instr} {s t : State} (h : Quiet s t) : WritesOnly i s t := by
  obtain ⟨_, _, _, rfl⟩ := h
  exact writesOnly_of rfl (.inl ⟨rfl, rfl⟩) rfl (.inl rfl) (.inl rfl) (.inl rfl) (fun _ _ => rfl)
    fun _ _ => ⟨rfl, rfl⟩

theorem writesOnly_clearingCommand {i : Instr} {enable : Bool} {s : State}
    (hi : i = .reestablish ∨ i = .stop) (hen : enable = true → i = .reestablish) :
    WritesOnly i s (clearingCommand enable s) := by
  have noPdu : ∀ b, ¬ ReceivesStatus i b ∧ i ≠ .writePdu b := by
    rcases hi with rfl | rfl <;> simp [ReceivesStatus]
  have writes : ∀ t, t.params = s.params → t.cfg = s.cfg → t.cfgValid = s.cfgValid →
      (t.enabled = s.enabled ∨ t.enabled = enable) → t.txSduCount = s.txSduCount →
      t.lostPduCount = s.lostPduCount → (t.failed = s.failed ∨ t.failed = false) →
      WritesOnly i s t := by
    intro t hp hc hv he hsent hlost hf
    refine ⟨hp, fun _ _ => ⟨hc, hv⟩, fun h0 h1 => ?_, fun _ _ => .inr hi, fun h0 h1 => ?_,
      fun hne => absurd hsent hne, fun hne => absurd hlost hne, fun b hb => absurd hb (noPdu b).1,
      fun b hb => absurd hb (noPdu b).2⟩
    · rcases he with e | e <;> rw [e] at h1
      · rw [h0] at h1; cases h1
      · exact hen h1
    · rcases hf with e | e <;> rw [e] at h1
      · rw [h0] at h1; cases h1
      · cases h1
  rcases clearingCommand_cases enable s with ⟨_, _, _, e⟩ | ⟨first, second, -, _, _, _, e⟩ <;> rw [e]
  · rw [sameFlags_clearAll s]
    exact writes _ rfl rfl rfl (.inr rfl) rfl rfl (.inr rfl)
  · rw [sameFlags_clearHalf first s]
    exact writes _ rfl rfl rfl (.inl rfl) rfl rfl (.inl rfl)

theorem writesOnly_execReset {s t : State} (h : execReset s = .next t) : WritesOnly .reset s t := by
  cases h
  rw [sameFlags_clearAll s]
  exact ⟨rfl, fun h => absurd rfl h, nofun, fun _ _ => .inl rfl, nofun, fun _ => .inl rfl,
    fun _ => .inl rfl, by simp [ReceivesStatus], nofun⟩

theorem Effect.writesOnly {i : Instr} {s t : State} (h : Effect i s t) : WritesOnly i s t := by
  cases h with
  | quiet h => exact h.writesOnly
  | pool h hi =>
    obtain ⟨_, -, _, _, _, rfl⟩ := h
    refine writesOnly_of rfl (.inl ⟨rfl, rfl⟩) rfl (.inl rfl) (.inl rfl) (.inl rfl) (fun _ _ => rfl) ?_
    rintro b ⟨rfl, -⟩
    cases hi
  | reset h => exact writesOnly_execReset h
  | configure _ _ h =>
    obtain ⟨_, _, _, rfl⟩ := h
    exact writesOnly_of rfl (.inr ⟨_, _, _, _, _, _, _, rfl⟩) rfl (.inl rfl) (.inl rfl) (.inl rfl)
      (fun _ _ => rfl) (by simp [ReceivesData])
  | reestablish _ => exact writesOnly_clearingCommand (.inl rfl) fun _ => rfl
  | stop => exact writesOnly_clearingCommand (.inr rfl) nofun
  | writeSdu _ =>
    rcases writeSdu_cases _ _ s with h | ⟨-, -, -, _, _, _, e⟩
    · exact h.writesOnly
    · rw [e]
      exact writesOnly_of rfl (.inl ⟨rfl, rfl⟩) rfl (.inl rfl) (.inr ⟨_, _, rfl⟩) (.inl rfl)
        (fun _ _ => rfl) (by simp [ReceivesData])
  | discardSdu _ => exact (txMoved_discardSdu _ s).writesOnly (by simp [ReceivesData])
  | readPdu hs h =>
    obtain ⟨_, _, _, moved⟩ := readPdu_txMoved h
    exact writesOnly_of_mayFail hs.1 (.inr ⟨_, rfl⟩) moved
  | status _ hi h =>
    exact (txMoved_processStatus h).writesOnly fun _ => not_receivesData_of_receivesStatus hi
  | data _ hb hst ht =>
    obtain ⟨_, _, _, rfl, -⟩ := hst.rxMoved.trans (afterAccept_rxMoved ht)
    exact writesOnly_of rfl (.inl ⟨rfl, rfl⟩) rfl (.inl rfl) (.inl rfl) (.inl rfl)
      (fun b hi => absurd ⟨rfl, hb⟩ (not_receivesData_of_receivesStatus hi)) fun _ _ => ⟨rfl, rfl⟩
  | texpPollRetx hs =>
    obtain ⟨_, moved⟩ := txMoved_texpPollRetx s
    exact writesOnly_of_mayFail (rx := s.rx) hs.1 (.inl rfl) moved
  | texpReordering _ h =>
    rcases texpReordering_rxMoved h with h | ⟨_, _, _, _, rfl, -⟩
    · exact h.writesOnly
    · exact writesOnly_of rfl (.inl ⟨rfl, rfl⟩) rfl (.inl rfl) (.inl rfl) (.inr rfl)
        (by simp [ReceivesStatus]) (by simp [ReceivesData])
  | texpStatusProhibit _ => exact (txMoved_texpStatusProhibit s).writesOnly (by simp [ReceivesData])

end Sys2Proof.Machine

open Sys2Proof.Machine in
/-- Settles O57: every outcome of a command, and the second half of a clearing command, keep the four
invariants; memory is canonical because the transmitter, the receiver and the pool are sound. -/
theorem controlInvariants : Obligations.ControlInvariants := by
  intro s t hstep
  have kept : ControlKept s t := step_keeps (P := ControlKept s) (fun hq h => h.trans hq.controlKept)
    (fun hc h => h.trans (controlKept_finishClearing hc)) (fun hc he h => h.trans (he.controlKept hc))
    ⟨id, id, id, id⟩ hstep
  refine ⟨kept.pool, kept.timers, kept.config, kept.queue, fun _ htx hrx hpool => ?_⟩
  obtain ⟨-, ⟨htable, -⟩, -⟩ := txInvariant s t htx hstep
  obtain ⟨-, ⟨hwindow, -⟩, ⟨hsegments, -⟩, -⟩ := rxInvariant s t hrx hstep
  exact (Memory_wf_iff t).mpr ⟨htable, hwindow, hsegments, (kept.pool hpool).1⟩

open Sys2Proof.Machine in
/-- Settles O54, by the outcomes of a command. -/
theorem whoWritesWhat : Obligations.WhoWritesWhat := fun _ _ _ h => (exec_effect h).writesOnly
end

section
/-!
No step from a sound state stops (O59): the reads of the packing loop, of a retransmission and of the
reassembly stay inside their buffers (R72), and every scan of the reception window finds a missing SN
(R225, R235).
-/
namespace Sys2Proof.Machine

/-! ### READ_PDU (R178, R180, R210) -/

/-- The packing loop reads inside its SDUs when the head offset lies in the head SDU (R26). -/
theorem packLoop_completes (p : Params) (sn : Sn) (n : Nat) {q : List SduEntry} {st : Packing}
    (h : ∀ e ∈ q.head?, st.headOff ≤ e.bytes.length) : ∃ st', packLoop p sn n q st = .ok st' := by
  induction q generalizing st with
  | nil => exact ⟨_, rfl⟩
  | cons head rest ih =>
    have hoff : st.headOff ≤ head.bytes.length := h head rfl
    unfold packLoop
    dsimp only
    split
    · exact ⟨_, rfl⟩
    split
    · exact ⟨_, rfl⟩
    split
    · exact ⟨_, rfl⟩
    split
    · exact ⟨_, rfl⟩
    rw [memRead_of_le _ (by omega)]
    dsimp only
    split
    · exact ih fun _ _ => Nat.zero_le _
    · exact ⟨_, rfl⟩

theorem buildNew_completes (n : Nat) {s : State} (hq : SduQueueSound s) :
    ∃ t, buildNew n s = .ok t := by
  obtain ⟨st, hst⟩ := packLoop_completes s.params s.tx.vtS n (q := s.tx.sduQ)
    (st := ⟨[], [], [], s.tx.sduQ, s.tx.headOff, s.pool, false, false⟩)
    fun e he => le_of_lt (hq.2.2 e he)
  unfold buildNew
  rw [hst]
  dsimp only
  split
  · exact ⟨_, rfl⟩
  · split <;> exact ⟨_, rfl⟩

/-- A retransmission reads inside the stored PDU when its entry names a range of it (R23). -/
theorem buildRetx_completes {r : RetxEntry} (rest : List RetxEntry) (n : Nat) {s : State}
    (hr : RetxEntryOk s r) : ∃ t, buildRetx r rest n s = .ok t := by
  obtain ⟨e, he, -, hend, -⟩ := hr
  rw [Option.mem_def] at he
  unfold buildRetx
  rw [he]
  dsimp only
  split
  · exact ⟨_, rfl⟩
  unfold buildSegment
  split
  · exact ⟨_, rfl⟩
  next stop hstop =>
  obtain ⟨hlt, hle, -⟩ := greatestEnd_some hstop
  rw [memRead_of_le _ (by omega)]
  exact ⟨_, rfl⟩

theorem sendData_completes (n : Nat) {s : State} (hq : SduQueueSound s)
    (hr : RetxSound s s.tx.retxQ) : ∃ t, sendData n s = .ok t := by
  unfold sendData
  dsimp only
  split
  · next r rest hd =>
    exact buildRetx_completes rest n (hr r (mem_of_mem_dropStale (hd ▸ List.mem_cons_self)))
  · exact buildNew_completes n hq

theorem readData_completes (n : Nat) {s : State} (hs : TxSound s) : ∃ t, readData n s = .ok t := by
  unfold readData
  split
  · split
    · exact ⟨_, rfl⟩
    · next u hu =>
      obtain ⟨q, rfl, hq⟩ := scheduleOldest_retx hu
      exact sendData_completes n hs.2.2.1 (hq hs)
  · exact sendData_completes n hs.2.2.1 hs.2.2.2

theorem readPdu_completes (n : Nat) {s : State} (hs : TxSound s) : ∃ t, readPdu n s = .ok t := by
  have drawn : TxSound (drawRxBusy s).2 := (quiet_drawRxBusy s).txSound hs
  unfold readPdu
  split
  · generalize drawRxBusy s = d at drawn
    obtain ⟨busy, u⟩ := d
    cases busy
    · dsimp only
      split
      · exact readData_completes n drawn
      · exact ⟨_, rfl⟩
    · exact readData_completes n drawn
  · exact readData_completes n hs

/-! ### Reassembly (R230, R231) -/

/-- The length indicators of every stored PDU stay inside its payload (R104, R223). -/
abbrev PayloadsSound (w : Table RxEntry) : Prop := ∀ e ∈ w, e.2.hdr.li.sum < e.2.buf.length

theorem consumeFrom_completes {entry : RxEntry} {li : List Nat} {off : Nat} (continues : Bool)
    (s : State) (h : off + li.sum ≤ entry.buf.length) :
    ∃ t, consumeFrom entry li off continues s = .ok t := by
  induction li generalizing off continues s with
  | nil =>
    rw [List.sum_nil] at h
    unfold consumeFrom
    rw [memRead_of_le _ (by omega)]
    exact ⟨_, rfl⟩
  | cons l li ih =>
    rw [List.sum_cons] at h
    unfold consumeFrom
    rw [memRead_of_le _ (by omega)]
    exact ih false _ (by omega)

theorem reassemble_completes (n : Nat) {s : State} (h : PayloadsSound s.rx.window) :
    ∃ t, reassemble n s = .ok t := by
  induction n generalizing s with
  | zero => exact ⟨s, rfl⟩
  | succ n ih =>
    unfold reassemble
    split
    · exact ⟨s, rfl⟩
    next entry he =>
    obtain ⟨u, hu⟩ := consumeFrom_completes entry.hdr.fiS s (off := 0) (entry := entry)
      (li := entry.hdr.li) (by have := h _ (mem_of_tableGet he); dsimp only at this; omega)
    unfold consume
    rw [hu]
    obtain ⟨_, _, _, rfl, -⟩ := consumeFrom_moved hu
    exact ih fun e he => h e (List.mem_of_mem_filter he)

/-! ### WRITE_PDU and the reordering expiry (R220, R225, R235) -/

/-- `VR_H` itself is never received, so a scan has an end (R47, R225). -/
theorem vrH_missing {s : State} (hw : RxWindowSound s) : validAt s.rx.window s.rx.vrH = false := by
  cases hg : tableGet s.rx.window s.rx.vrH.toNat with
  | none => simp [validAt, hg]
  | some e =>
    have := (hw.2 _ (mem_of_tableGet hg)).1
    simp at this

theorem acknowledged_window (h : Header) (m : Sn) (s : State) :
    (acknowledged h m s).rx.window = s.rx.window := by
  unfold acknowledged
  split <;> rfl

/-- With a missing SN to end the scan and length indicators inside their payloads, the five steps after
a Data PDU was stored complete (R220). -/
theorem afterAccept_completes {h : Header} {s : State} {x : Sn}
    (hx : validAt (updateVrH h.sn s).rx.window x = false)
    (hw : PayloadsSound (updateVrH h.sn s).rx.window) : ∃ t, afterAccept h s = .ok t := by
  obtain ⟨m, hm, -⟩ := scanMissing_ok (x := (updateVrH h.sn s).rx.vrMs) hx
  obtain ⟨u, hu⟩ := reassemble_completes 1024 (s := acknowledged h m (updateVrH h.sn s))
    (by rw [acknowledged_window]; exact hw)
  refine ⟨respond .ok [] [] (updateReorderingTimer u), ?_⟩
  unfold afterAccept updateVrMs
  rw [hm]
  dsimp only
  unfold acknowledged at hu
  rw [hu]

theorem Stored.completes {h : Header} {d : List Byte} {s : State} {rx : Rx} (hst : Stored h d s rx)
    (hs : RxSound s) : ∃ t, afterAccept h { s with rx := rx } = .ok t := by
  obtain ⟨window, segments, vrH, e, -, -, hw, -⟩ := hst.raised hs
  refine afterAccept_completes (x := vrH) ?_ ?_ <;> rw [e]
  · exact vrH_missing hw
  · exact fun x hx => (hw.2 x hx).2

theorem receiveData_completes {h : Header} {d : List Byte} {s : State} (hs : RxSound s)
    (hd : h.li.sum < d.length) : ∃ t, receiveData h d s = .ok t := by
  unfold receiveData
  split
  · exact ⟨_, rfl⟩
  next hin =>
  have hin : modBase s.rx.vrR h.sn < 512 :=
    of_decide_eq_true (by simpa using hin : insideRxWindow s h.sn = true)
  split
  · exact ⟨_, rfl⟩
  next hv =>
  have hv : validAt s.rx.window h.sn = false := by simpa using hv
  split
  · split
    · exact ⟨_, rfl⟩
    · next rx hm => exact Stored.completes ⟨hd, hin, hv, .inr hm⟩ hs
  · exact Stored.completes ⟨hd, hin, hv, .inl rfl⟩ hs

theorem writePdu_completes (b : List Byte) {s : State} (hs : RxSound s) :
    ∃ t, writePdu b s = .ok t := by
  cases b with
  | nil => exact ⟨_, rfl⟩
  | cons b0 b =>
    unfold writePdu
    dsimp only
    split
    · split
      · exact ⟨_, rfl⟩
      · next hd => exact receiveData_completes hs (decodeDataHeader_payload hd)
    · exact ⟨_, rfl⟩

theorem texpReordering_completes {s : State} (hs : RxSound s) : ∃ t, texpReordering s = .ok t := by
  obtain ⟨⟨-, -, hmiss, -⟩, -⟩ := hs
  unfold texpReordering
  split
  · dsimp only
    split
    · next f hf =>
      obtain ⟨m, hm, -⟩ := scanMissing_ok hmiss
      cases hm.symm.trans hf
    · exact ⟨_, rfl⟩
  · exact ⟨_, rfl⟩

/-! ### Every command and every step -/

theorem requireLegal_completes {legal : Bool} {m : Nat} {body : State → Answer} {s : State}
    (h : Completes (body s)) : Completes (requireLegal legal m body s) := by
  cases legal
  · exact ⟨_, rfl⟩
  · exact h

/-- A command whose body always completes completes behind both gates (R261, R267). -/
theorem gated_completes {legal : Bool} {m n : Nat} {body : State → Answer} {s : State}
    (h : Completes (body s)) : Completes (requireLegal legal m (dataPath n body) s) :=
  requireLegal_completes (dataPath_completes fun _ _ _ => h)

theorem answerOf_completes {x : Except Fault State} (h : ∃ t, x = .ok t) : Completes (answerOf x) := by
  obtain ⟨t, rfl⟩ := h
  exact ⟨t, rfl⟩

/-- No command stops a sound engine: three of them read buffers or scan, the others only answer. -/
theorem exec_completes (i : Instr) {s : State} (htx : TxSound s) (hrx : RxSound s) :
    Completes (exec i s) := by
  cases i with
  | readPdu n => exact gated_completes (answerOf_completes (readPdu_completes n.toNat htx))
  | writePdu b => exact gated_completes (answerOf_completes (writePdu_completes b hrx))
  | texpReordering =>
    apply dataPath_completes
    exact fun _ _ _ => answerOf_completes (texpReordering_completes hrx)
  | reset | stop | getMetrics => exact ⟨_, rfl⟩
  | configure v0 v1 v2 v3 v4 v5 v6 =>
    rw [exec, execConfigure]
    split
    · exact ⟨_, rfl⟩
    · split <;> exact ⟨_, rfl⟩
  | reestablish => rw [exec, execReestablish]; split <;> exact ⟨_, rfl⟩
  | readVar var => rw [exec, execReadVar]; split <;> exact ⟨_, rfl⟩
  | writeSdu _ _ | discardSdu _ | handleControlPdu _ | getStatusPdu _ =>
    exact gated_completes ⟨_, rfl⟩
  | getBufferState | texpPollRetx | texpStatusProhibit =>
    apply dataPath_completes
    exact fun _ _ _ => ⟨_, rfl⟩
  | decDataHdr _ | decStatus _ | poolAlloc _ _ =>
    apply requireLegal_completes
    split <;> exact ⟨_, rfl⟩
  | txModBase _ | rxModBase _ | encDataHdr _ _ | encStatus _ _ _ | poolRelRlc _ | poolRelPdcp _
  | poolIsAcked _ =>
    apply requireLegal_completes
    exact ⟨_, rfl⟩

theorem step_completes {s : State} (hv : s.params.valid = true) (htx : TxSound s) (hrx : RxSound s) :
    Completes (step s) := by
  rcases step_cases s with ⟨hinv, -⟩ | ⟨-, c, -, h⟩ | ⟨-, -, -, h⟩ |
    ⟨-, -, d, rest, -, ⟨e, -, h⟩ | ⟨i, -, h⟩⟩
  · rw [hv] at hinv; cases hinv
  · exact ⟨_, h⟩
  · exact ⟨_, h⟩
  · exact ⟨_, h⟩
  · rw [h]
    exact exec_completes i (s := { s with port := rest }) htx hrx

end Sys2Proof.Machine

open Sys2Proof.Machine in
/-- Settles O59: a step from a sound state completes, and the three invariance theorems (O55, O56, O57)
give the invariant of the state it leads to. -/
theorem everyStepCompletes : Obligations.EveryStepCompletes := by
  intro s hs hv
  obtain ⟨t, ht⟩ := step_completes hv hs.tx hs.rx
  obtain ⟨hpool, htimers, hconfig, hqueue, hmemory⟩ := controlInvariants s t ht
  exact ⟨t, ht, {
    memory := hmemory hs.memory hs.tx hs.rx hs.pool
    tx := txInvariant s t hs.tx ht
    rx := rxInvariant s t hs.rx ht
    pool := hpool hs.pool
    timers := htimers hs.timers
    config := hconfig hs.config
    queue := hqueue hs.queue }⟩
end

section
/-!
One SDU over the link (O52): the PDU that READ_PDU makes of a queue that holds one SDU, what the decoder
reads of its two header bytes, and what WRITE_PDU delivers of a PDU that holds one whole SDU.
-/
namespace Sys2Proof.Machine

/-! ### The header of a PDU with one whole SDU (R100, R180) -/

/-- A Data PDU that holds exactly one whole SDU: no segment, no length indicator, both ends aligned. -/
def wholeSduHeader (sn : Sn) (poll : Bool) : Header where
  dc := true
  rf := false
  p := poll
  fiS := false
  fiE := false
  sn := sn
  lsf := false
  so := 0
  li := []

theorem encode_wholeSduHeader_length (sn : Sn) (poll : Bool) :
    (encodeDataHeader (wholeSduHeader sn poll)).length = 2 := by
  rw [encodeDataHeader, bytesOfBits_length, headerBits_length]
  simp [wholeSduHeader]

/-- The sixteen bits of the header, before those of the payload (R100). -/
theorem bits_wholeSduPdu (sn : Sn) (poll : Bool) (sdu : List Byte) :
    bitsOfBytes (encodeDataHeader (wholeSduHeader sn poll) ++ sdu) =
      [true, false, poll, false, false, false] ++ (bitsOf 10 sn.toNat ++ bitsOfBytes sdu) := by
  obtain ⟨pad, hbits, -⟩ := bitsOfBytes_bytesOfBits (headerBits (wholeSduHeader sn poll))
  have nopad : pad = [] := by
    have := congrArg List.length hbits
    rw [bitsOfBytes_length, ← encodeDataHeader, encode_wholeSduHeader_length, List.length_append,
      headerBits_length] at this
    exact List.length_eq_zero_iff.mp (by simpa [wholeSduHeader] using this)
  rw [bitsOfBytes_append, encodeDataHeader, hbits, nopad]
  simp [headerBits, wholeSduHeader, liBits]

theorem decodeFixed_wholeSdu (sn : Sn) (poll : Bool) (rest : List Bool) :
    decodeFixed ([true, false, poll, false, false, false] ++ (bitsOf 10 sn.toNat ++ rest)) =
      wholeSduHeader sn poll := by
  have hsn : BitVec.ofNat 10 (sn.toNat % 1024) = sn := by
    rw [Nat.mod_eq_of_lt sn.isLt, BitVec.ofNat_toNat, BitVec.setWidth_eq]
  simp [decodeFixed, wholeSduHeader, hsn]

/-- The decoder reads the header back, and that the payload starts behind its two bytes (R143). -/
theorem decode_wholeSduPdu (p : Params) (sn : Sn) (poll : Bool) {sdu : List Byte} (hne : sdu ≠ []) :
    decodeDataHeader p (encodeDataHeader (wholeSduHeader sn poll) ++ sdu) =
      some (wholeSduHeader sn poll, 2) := by
  have hpos := List.length_pos_iff.mpr hne
  have hlen := encode_wholeSduHeader_length sn poll
  unfold decodeDataHeader
  rw [List.length_append, hlen, if_neg (by omega), bits_wholeSduPdu]
  dsimp only
  rw [decodeFixed_wholeSdu]
  simp [wholeSduHeader, hdrLen, ceilOneAndHalf]
  omega

/-- The first byte of such a PDU says that it is a Data PDU (R100, R106). -/
theorem encode_wholeSduHeader_cons (sn : Sn) (poll : Bool) :
    ∃ b rest, encodeDataHeader (wholeSduHeader sn poll) = b :: rest ∧ b.getLsbD 7 = true := by
  have hbits := bits_wholeSduPdu sn poll []
  have hlen := encode_wholeSduHeader_length sn poll
  generalize encodeDataHeader (wholeSduHeader sn poll) = header at hbits hlen
  cases header with
  | nil => cases hlen
  | cons b rest =>
    refine ⟨b, rest, rfl, ?_⟩
    rw [List.append_nil, bitsOfBytes_cons] at hbits
    rw [← BitVec.testBit_toNat]
    simpa [bitsOf] using congrArg List.head? hbits

/-! ### The transmitter (R173, R180) -/

/-- What the packing loop carries when it has put one whole SDU into the record `id`. -/
abbrev packedWhole (sdu : List Byte) (id : Nat) (pool : Pool) : Packing :=
  ⟨sdu, [sdu.length], [id], [], 0, pool, false, false⟩

/-- A queue of one SDU that fits the grant is packed whole, as one fragment (R180). -/
theorem packLoop_wholeSdu (p : Params) {sn : Sn} {n : Nat} {q : Word} {sdu : List Byte}
    {pool pool' : Pool} {id : Nat} (hne : sdu ≠ []) (hfit : sdu.length + 2 ≤ n)
    (halloc : poolAllocate sn q pool = some (id, pool')) :
    packLoop p sn n [⟨q, sdu⟩] ⟨[], [], [], [⟨q, sdu⟩], 0, pool, false, false⟩ =
      .ok (packedWhole sdu id pool') := by
  have hpos := List.length_pos_iff.mpr hne
  have used : 2 + ceilOneAndHalf 0 + 0 = 2 := rfl
  have grant : ¬ n < 2 + ceilOneAndHalf 0 + 0 + 1 := by omega
  have whole : min (sdu.length - 0) (n - (2 + ceilOneAndHalf 0 + 0)) = sdu.length := by omega
  unfold packLoop
  dsimp only [List.length_nil]
  rw [if_neg (by omega), if_neg (by simp), if_neg grant, halloc]
  dsimp only
  simp only [whole]
  rw [memRead_of_le _ (by omega)]
  simp [packLoop, memWrite]

/-- What a transmission answers: the header with some poll bit, and the payload (R178, R180). -/
theorem transmit_answer (h : Header) (payload : List Byte) (s : State) :
    ∃ poll u, transmit h payload s =
      respondBytes (encodeDataHeader { h with p := poll } ++ payload) u := by
  rcases transmit_cases h payload s with ⟨-, e⟩ | ⟨-, e⟩ <;> exact ⟨_, _, e⟩

/-- A grant that holds the one SDU of the queue is answered with the PDU that holds it whole. -/
theorem readPdu_wholeSdu {n : Nat} {q : Word} {sdu : List Byte} {s : State} (hstatus : ¬ StatusDue s)
    (hretx : s.tx.retxQ = []) (hroom : modBase s.tx.vtA s.tx.vtS < 512)
    (hq : s.tx.sduQ = [⟨q, sdu⟩]) (hoff : s.tx.headOff = 0) (hne : sdu ≠ [])
    (hfree : s.pool.free ≠ []) (hfit : sdu.length + 2 ≤ n) :
    ∃ poll u, readPdu n s =
      .ok (respondBytes (encodeDataHeader (wholeSduHeader s.tx.vtS poll) ++ sdu) u) := by
  have hpos := List.length_pos_iff.mpr hne
  have hfull : txWindowFull s = false := decide_eq_false (Nat.not_le.mpr hroom)
  have hstatus : (s.rx.doStatus && !s.tx.statusProhibitRunning) = false := by
    simpa [StatusDue] using hstatus
  have data : readPdu n s = buildNew n s := by
    rw [readPdu, if_neg (by simp [hstatus]), readData, if_neg (by simp [hfull]), sendData]
    simp only [hretx, dropStale]
    rw [← hretx]
  obtain ⟨h, -⟩ | ⟨id, rest, -, halloc⟩ := poolAllocate_cases s.tx.vtS q s.pool
  · exact absurd h hfree
  obtain ⟨poll, u, hsent⟩ := transmit_answer
    (newHeader s.tx.vtS false (packedWhole sdu id _)) sdu
    (accountNew (newHeader s.tx.vtS false (packedWhole sdu id _)) (packedWhole sdu id _) s)
  refine ⟨poll, u, ?_⟩
  rw [data, buildNew, if_neg (by simp [hfull, hq]; omega), hq, hoff,
    packLoop_wholeSdu s.params hne hfit halloc]
  exact congrArg Except.ok hsent

/-! ### The receiver (R220 to R231) -/

/-- Before reassembly, four variables of the receiver move (R224 to R226). -/
theorem acknowledged_updateVrH (h : Header) (m sn : Sn) (s : State) :
    ∃ vrH pollReceived doStatus, acknowledged h m (updateVrH sn s) = { s with rx := { s.rx with
      vrH := vrH, vrMs := m, pollReceived := pollReceived, doStatus := doStatus } } := by
  unfold acknowledged updateVrH
  split <;> split <;> exact ⟨_, _, _, rfl⟩

/-- The timer's update may emit the timer's events, and delivers nothing (R228). -/
theorem updateReorderingTimer_out (s : State) : ∃ mid : List Output,
    (updateReorderingTimer s).out = s.out ++ mid ∧ ∀ x, .event (.deliverSdu x) ∉ mid := by
  have stopped : ∃ mid : List Output,
      (if s.rx.reordRunning && reordMustStop s then stopTimer .reordering s else s).out =
        s.out ++ mid ∧ ∀ x, .event (.deliverSdu x) ∉ mid := by
    split
    · exact ⟨_, rfl, by simp⟩
    · exact ⟨[], by simp, by simp⟩
  unfold updateReorderingTimer
  dsimp only
  generalize (if s.rx.reordRunning && reordMustStop s then stopTimer .reordering s else s) = u
    at stopped
  obtain ⟨mid, hout, hmid⟩ := stopped
  split
  · exact ⟨mid ++ [.event (.timerStart .reordering u.cfg.tReordering)],
      by simp [armReordering, hout], by simpa using hmid⟩
  · exact ⟨mid, hout, hmid⟩

/-- A whole SDU is delivered as it is, whatever SDU was in progress (R231). -/
theorem consume_wholeSdu {sn : Sn} {poll : Bool} {sdu : List Byte} {s u : State}
    (h : consume ⟨wholeSduHeader sn poll, sdu⟩ s = .ok u) (hmax : sdu.length ≤ s.params.maxSduBytes) :
    u.out = s.out ++ [.event (.deliverSdu sdu)] := by
  have fragment : takeFragment false sdu s =
      { s with rx := { s.rx with sdu := sdu, sduActive := true } } := by
    rw [takeFragment, if_neg (by simp), if_neg (by omega)]
  unfold consume wholeSduHeader consumeFrom at h
  rw [memRead_of_le _ (by simp)] at h
  simp [fragment, deliverIfEnded] at h
  rw [← h]

/-- REASSEMBLE consumes one PDU when the next SN is missing (R230). -/
theorem reassemble_one {n : Nat} {entry : RxEntry} {s t : State} (h : reassemble (n + 2) s = .ok t)
    (hfirst : tableGet s.rx.window s.rx.vrR.toNat = some entry)
    (hnext : validAt s.rx.window (s.rx.vrR + 1) = false) :
    ∃ u, consume entry s = .ok u ∧ t = advanceVrR u := by
  rw [reassemble, hfirst] at h
  dsimp only at h
  split at h
  · cases h
  next u hu =>
  refine ⟨u, hu, ?_⟩
  obtain ⟨_, _, _, rfl, -⟩ := consumeFrom_moved hu
  have absent : tableGet (tableErase s.rx.window s.rx.vrR.toNat) (s.rx.vrR + 1).toNat = none := by
    rw [tableGet_tableErase]
    split
    · rfl
    · simpa [validAt] using hnext
  rw [reassemble] at h
  dsimp only [advanceVrR] at h
  rw [absent] at h
  cases h
  rfl

/-- WRITE_PDU hands a Data PDU to the receiver (R106, R220). -/
theorem writePdu_of_data {b : Byte} {rest : List Byte} {h : Header} {len : Nat} {s : State}
    (hb : b.getLsbD 7 = true) (hd : decodeDataHeader s.params (b :: rest) = some (h, len)) :
    writePdu (b :: rest) s = receiveData h ((b :: rest).drop len) s := by
  rw [writePdu, if_pos hb, hd]

/-- WRITE_PDU of a PDU that holds one whole SDU is the reception of that SDU. -/
theorem writePdu_wholeSdu (sn : Sn) (poll : Bool) {sdu : List Byte} (hne : sdu ≠ []) (s : State) :
    writePdu (encodeDataHeader (wholeSduHeader sn poll) ++ sdu) s =
      receiveData (wholeSduHeader sn poll) sdu s := by
  have hd := decode_wholeSduPdu s.params sn poll hne
  have hdrop : (encodeDataHeader (wholeSduHeader sn poll) ++ sdu).drop 2 = sdu :=
    List.drop_left' (encode_wholeSduHeader_length sn poll)
  obtain ⟨b, rest, e, hb⟩ := encode_wholeSduHeader_cons sn poll
  rw [e, List.cons_append] at hd hdrop ⊢
  rw [writePdu_of_data hb hd, hdrop]

/-- With a whole SDU stored at `VR_R` and the next SN missing, the five steps after a Data PDU was stored
deliver that SDU and no other (R220, R230). -/
theorem afterAccept_wholeSdu {poll : Bool} {sdu : List Byte} {h : Header} {s t : State}
    (ht : afterAccept h s = .ok t) (hmax : sdu.length ≤ s.params.maxSduBytes)
    (hentry : tableGet s.rx.window s.rx.vrR.toNat = some ⟨wholeSduHeader s.rx.vrR poll, sdu⟩)
    (hnext : validAt s.rx.window (s.rx.vrR + 1) = false) :
    ∃ mid : List Output,
      t.out = s.out ++ [.event (.deliverSdu sdu)] ++ mid ++ [.response (responseOf .ok [] [])] ∧
      ∀ x, .event (.deliverSdu x) ∉ mid := by
  obtain ⟨m, v, -, hv, rfl⟩ := afterAccept_cases ht
  obtain ⟨_, _, _, e⟩ := acknowledged_updateVrH h m h.sn s
  rw [e] at hv
  obtain ⟨u, hu, rfl⟩ := reassemble_one hv hentry hnext
  have delivered := consume_wholeSdu hu hmax
  obtain ⟨mid, hout, hmid⟩ := updateReorderingTimer_out (advanceVrR u)
  refine ⟨mid, ?_, hmid⟩
  rw [respond_out, hout]
  exact congrArg (· ++ mid ++ [Output.response (responseOf .ok [] [])]) delivered

/-- The expected SN with a whole SDU, and the next SN missing: the SDU is delivered, once (R245 (3)). -/
theorem receiveData_wholeSdu (poll : Bool) {sdu : List Byte} {r : State} (hr : RxSound r)
    (hne : sdu ≠ []) (hmax : sdu.length ≤ r.params.maxSduBytes)
    (hnext : validAt r.rx.window (r.rx.vrR + 1) = false) :
    ∃ (u : State) (mid : List Output), receiveData (wholeSduHeader r.rx.vrR poll) sdu r = .ok u ∧
      u.out = r.out ++ [.event (.deliverSdu sdu)] ++ mid ++ [.response (responseOf .ok [] [])] ∧
      ∀ x, .event (.deliverSdu x) ∉ mid := by
  have ⟨⟨_, _, hfirst, _⟩, _⟩ := hr
  have hin : insideRxWindow r r.rx.vrR = true := by simp [insideRxWindow, rxModBase, windowSize]
  generalize hh : wholeSduHeader r.rx.vrR poll = h
  have hsn : h.sn = r.rx.vrR := by rw [← hh]; rfl
  have stored : Stored h sdu r (storeComplete h sdu r.rx) := by
    refine ⟨?_, ?_, hsn ▸ hfirst, .inl rfl⟩
    · rw [← hh]; exact List.length_pos_iff.mpr hne
    · simp [hsn]
  obtain ⟨u, hu⟩ := stored.completes hr
  have accepted : receiveData h sdu r = .ok u := by
    rw [receiveData, hsn, hin, hfirst, ← hu, ← hh]
    rfl
  have hentry : tableGet (storeComplete h sdu r.rx).window r.rx.vrR.toNat = some ⟨h, sdu⟩ := by
    rw [← hsn]
    exact tableGet_tableSet_self ..
  have absent : validAt (storeComplete h sdu r.rx).window (r.rx.vrR + 1) = false := by
    have hne : (r.rx.vrR + 1).toNat ≠ h.sn.toNat := fun e => by
      have := modBase_succ_base r.rx.vrR
      rw [BitVec.eq_of_toNat_eq e, hsn, modBase_self] at this
      cases this
    rwa [validAt, storeComplete, tableGet_tableSet, if_neg hne]
  obtain ⟨mid, hout, hmid⟩ := afterAccept_wholeSdu (poll := poll) hu hmax (hh ▸ hentry) absent
  exact ⟨u, mid, accepted, hout, hmid⟩

end Sys2Proof.Machine

open Sys2Proof.Machine in
/-- Settles O52: the grant is answered with the PDU that holds the SDU whole, and a receiver that expects
its SN delivers it. -/
theorem sduCrossesLink : Obligations.SduCrossesLink := by
  intro n q sdu s r hs hr hrx hstatus hretx hroom hq hoff hne hfree hfit hn hpdu hsdu hsn hnext
  obtain ⟨sf, se, sc⟩ := hs
  obtain ⟨rf, re, rc⟩ := hr
  obtain ⟨poll, v, hread⟩ := readPdu_wholeSdu hstatus hretx hroom hq hoff hne hfree hfit
  rw [← hsn] at hread
  obtain ⟨u, mid, hwrite, hout, hmid⟩ := receiveData_wholeSdu poll hrx hne hsdu hnext
  rw [← writePdu_wholeSdu _ _ hne] at hwrite
  generalize hp : encodeDataHeader (wholeSduHeader r.rx.vrR poll) ++ sdu = pdu at hread hwrite
  have hlen : pdu.length = 2 + sdu.length := by
    rw [← hp, List.length_append, encode_wholeSduHeader_length]
  have sent : legalLength s.params n.toNat = true := decide_eq_true hn
  have received : legalLength r.params pdu.length = true := decide_eq_true (by omega)
  refine ⟨respondBytes pdu v, u, v.out, mid, pdu, ?_, rfl, ?_, hout, hmid⟩
  · rw [exec, execReadPdu, sent, requireLegal_true, dataPath_accepting sf se sc, hread]
    rfl
  · rw [exec, execWritePdu, received, requireLegal_true, dataPath_accepting rf re rc, hwrite]
    rfl
end

section
/-!
A clearing command under `DUAL_SEQ` (O13): its two steps, in either order of the halves (R85, R252,
R253).
-/
namespace Sys2Proof.Machine

/-- Stopping the timers in one form, with the events of R252 by their name. -/
theorem stopTimers_stopEvents (s : State) :
    stopTimers s = { s with
      tx := { s.tx with pollRetxRunning := false, statusProhibitRunning := false }
      rx := { s.rx with reordRunning := false }
      timers := {
        pollRetx := s.timers.pollRetx && !s.tx.pollRetxRunning
        reordering := s.timers.reordering && !s.rx.reordRunning
        statusProhibit := s.timers.statusProhibit && !s.tx.statusProhibitRunning }
      out := s.out ++ stopEvents s } := by
  rw [stopTimers_eq]
  simp only [stopEvents, List.append_assoc]

/-- The state after the first step of a clearing command that leaves the half `second` to do (R85). -/
def halfCleared (first second : Half) (enable : Bool) (s : State) : State :=
  { clearHalf first (stopTimers s) with
    clearing := some ⟨second, enable⟩, draws := s.draws + 1 }

/-- Under `DUAL_SEQ` a clearing command leaves one half to do, whichever it is (R85). -/
theorem clearingCommand_dualSeq (enable : Bool) {s : State} (h : s.params.dualSeq = true) :
    clearingCommand enable s = halfCleared .tx .rx enable s ∨
      clearingCommand enable s = halfCleared .rx .tx enable s := by
  rw [clearingCommand, if_pos h]
  cases Config.receiverFirst s.draws
  · exact .inl rfl
  · exact .inr rfl

/-- Both clearing commands of a configured engine are `clearingCommand` (R252, R253). -/
theorem exec_clearing {enable : Bool} {s : State} (h : enable = true → s.cfgValid = true) :
    exec (if enable then .reestablish else .stop) s = .next (clearingCommand enable s) := by
  cases enable with
  | true => exact if_pos (h rfl)
  | false => rfl

/-- A step ends a clearing command that is half done (R85). -/
theorem step_of_clearing {s : State} {c : Clearing} (hv : s.params.valid = true)
    (hc : s.clearing = some c) : step s = .next (finishClearing c s) := by
  simp [step, hv, hc]

theorem step_halfCleared (first second : Half) (enable : Bool) {s : State}
    (hv : s.params.valid = true) : step (halfCleared first second enable s) =
      .next (finishClearing ⟨second, enable⟩ (halfCleared first second enable s)) := by
  refine step_of_clearing ?_ rfl
  rw [halfCleared, stopTimers_stopEvents]
  cases first <;> exact hv

/-- After both halves, in either order, the engine is as one sequencer leaves it (R85, R252). -/
theorem finishClearing_halfCleared {first second : Half} (hne : first ≠ second) (enable : Bool)
    (s : State) : finishClearing ⟨second, enable⟩ (halfCleared first second enable s) = { s with
      tx := Tx.cleared s.params
      pool := Pool.cleared s.params
      rx := Rx.cleared s.params
      timers := { pollRetx := s.timers.pollRetx && !s.tx.pollRetxRunning
                  reordering := s.timers.reordering && !s.rx.reordRunning
                  statusProhibit := s.timers.statusProhibit && !s.tx.statusProhibitRunning }
      clearing := none
      enabled := enable
      failed := false
      draws := s.draws + 1
      out := s.out ++ stopEvents s ++ [.response ⟨[0], []⟩] } := by
  rw [halfCleared, stopTimers_stopEvents]
  cases first <;> cases second
  · exact absurd rfl hne
  · rfl
  · rfl
  · exact absurd rfl hne

end Sys2Proof.Machine

open Sys2Proof.Machine in
/-- Settles O13, for either order of the halves. -/
theorem dualClearing : Obligations.DualClearing := by
  intro s enable hdual hvalid hconfigured
  rw [exec_clearing hconfigured]
  rcases clearingCommand_dualSeq enable hdual with h | h <;> rw [h]
  · refine ⟨_, _, rfl, step_halfCleared .tx .rx enable hvalid, ?_⟩
    rw [finishClearing_halfCleared (by decide), halfCleared, stopTimers_stopEvents]
    exact ⟨rfl, rfl, rfl, .inl ⟨rfl, rfl, rfl⟩, rfl⟩
  · refine ⟨_, _, rfl, step_halfCleared .rx .tx enable hvalid, ?_⟩
    rw [finishClearing_halfCleared (by decide), halfCleared, stopTimers_stopEvents]
    exact ⟨rfl, rfl, rfl, .inr ⟨rfl, rfl, rfl⟩, rfl⟩
end

section
/-!
Which commands leave which bytes of the five stores alone (O53, R70).
-/
namespace Sys2Proof.Machine

/-! ### Commands that store nothing -/

/-- The five stores of R70 hold in `t` what they hold in `s`. -/
structure SameStores (s t : State) : Prop where
  sdu : t.tx.sduQ = s.tx.sduQ
  txPdu : t.tx.window = s.tx.window
  rxPdu : t.rx.window = s.rx.window
  rxSegment : t.rx.segments = s.rx.segments
  rxSdu : t.rx.sdu = s.rx.sdu

theorem SameStores.refl (s : State) : SameStores s s := ⟨rfl, rfl, rfl, rfl, rfl⟩

theorem SameStores.trans {s t u : State} (h1 : SameStores s t) (h2 : SameStores t u) :
    SameStores s u :=
  ⟨h2.sdu.trans h1.sdu, h2.txPdu.trans h1.txPdu, h2.rxPdu.trans h1.rxPdu,
    h2.rxSegment.trans h1.rxSegment, h2.rxSdu.trans h1.rxSdu⟩

/-- `SameStores.trans` with the later part first: it tells Lean the state in between. -/
theorem SameStores.after {s t u : State} (h2 : SameStores t u) (h1 : SameStores s t) :
    SameStores s u := h1.trans h2

theorem SameStores.byteAt_eq {s t : State} (h : SameStores s t) (space : Space) (owner off : Nat) :
    byteAt t space owner off = byteAt s space owner off := by
  cases space <;> simp only [byteAt, h.sdu, h.txPdu, h.rxPdu, h.rxSegment, h.rxSdu]

theorem Quiet.sameStores {s t : State} (h : Quiet s t) : SameStores s t := by
  obtain ⟨_, _, _, rfl⟩ := h
  exact ⟨rfl, rfl, rfl, rfl, rfl⟩

theorem PoolMoved.sameStores {s t : State} (h : PoolMoved s t) : SameStores s t := by
  obtain ⟨_, -, _, _, _, rfl⟩ := h
  exact ⟨rfl, rfl, rfl, rfl, rfl⟩

theorem sameStores_setTimer (t : TimerId) (b : Bool) (s : State) : SameStores s (setTimer t b s) := by
  cases t <;> exact ⟨rfl, rfl, rfl, rfl, rfl⟩

theorem sameStores_texpPollRetx (s : State) : SameStores s (texpPollRetx s) := by
  rcases texpPollRetx_cases s with h | h | ⟨q, -, h⟩
  · exact h.sameStores
  · rw [h]
    exact ⟨rfl, rfl, rfl, rfl, rfl⟩
  · exact h.sameStores.after ⟨rfl, rfl, rfl, rfl, rfl⟩

theorem sameStores_texpReordering {s t : State} (h : texpReordering s = .ok t) : SameStores s t := by
  rcases texpReordering_cases h with h | ⟨-, count, m, -, rfl⟩
  · exact h.sameStores
  · unfold afterExpiry
    dsimp only
    split <;> exact ⟨rfl, rfl, rfl, rfl, rfl⟩

theorem sameStores_texpStatusProhibit (s : State) : SameStores s (texpStatusProhibit s) := by
  unfold texpStatusProhibit
  split
  · exact (sameStores_setTimer .statusProhibit false s).trans (quiet_respond ..).sameStores
  · exact (quiet_respond ..).sameStores

/-- The commands that store nothing: those that observe, CONFIGURE, the two reports and the three
expiries. -/
abbrev StoresNothing (i : Instr) : Prop :=
  isObservation i = true ∨ (∃ v0 v1 v2 v3 v4 v5 v6, i = .configure v0 v1 v2 v3 v4 v5 v6) ∨
    i = .getBufferState ∨ (∃ n, i = .getStatusPdu n) ∨ i = .texpPollRetx ∨ i = .texpReordering ∨
    i = .texpStatusProhibit

theorem Effect.sameStores {i : Instr} {s t : State} (h : Effect i s t) (hi : StoresNothing i) :
    SameStores s t := by
  cases h with
  | quiet h => exact h.sameStores
  | pool h _ => exact h.sameStores
  | configure _ _ h => exact h.sameStores.after ⟨rfl, rfl, rfl, rfl, rfl⟩
  | texpPollRetx _ => exact sameStores_texpPollRetx s
  | texpReordering _ h => exact sameStores_texpReordering h
  | texpStatusProhibit _ => exact sameStores_texpStatusProhibit s
  | status _ hi' _ => rcases hi' with rfl | ⟨rfl, -⟩ <;> simp [StoresNothing, isObservation] at hi
  | reset | reestablish | stop | writeSdu | discardSdu | readPdu | data =>
    simp [StoresNothing, isObservation] at hi

/-! ### READ_PDU (R173 to R184) -/

/-- From `s` to `t` the receiver's stores stay, and of the transmit window all but the entry at `k`. -/
structure OnlyTxPdu (k : Nat) (s t : State) : Prop where
  txPdu : ∀ j, j ≠ k → tableGet t.tx.window j = tableGet s.tx.window j
  rxPdu : t.rx.window = s.rx.window
  rxSegment : t.rx.segments = s.rx.segments
  rxSdu : t.rx.sdu = s.rx.sdu

theorem SameStores.onlyTxPdu {s t : State} (h : SameStores s t) (k : Nat) : OnlyTxPdu k s t :=
  ⟨fun j _ => by rw [h.txPdu], h.rxPdu, h.rxSegment, h.rxSdu⟩

theorem OnlyTxPdu.trans {k : Nat} {s t u : State} (h1 : OnlyTxPdu k s t) (h2 : OnlyTxPdu k t u) :
    OnlyTxPdu k s u :=
  ⟨fun j hj => (h2.txPdu j hj).trans (h1.txPdu j hj), h2.rxPdu.trans h1.rxPdu,
    h2.rxSegment.trans h1.rxSegment, h2.rxSdu.trans h1.rxSdu⟩

theorem OnlyTxPdu.byteAt_eq {k : Nat} {s t : State} (h : OnlyTxPdu k s t) {space : Space}
    {owner : Nat} (off : Nat) (hsdu : space ≠ .sdu) (hown : ¬ (space = .txPdu ∧ owner = k)) :
    byteAt t space owner off = byteAt s space owner off := by
  cases space with
  | sdu => exact absurd rfl hsdu
  | txPdu => rw [byteAt, byteAt, h.txPdu owner fun e => hown ⟨rfl, e⟩]
  | rxPdu => rw [byteAt, byteAt, h.rxPdu]
  | rxSegment => rw [byteAt, byteAt, h.rxSegment]
  | rxSdu => rw [byteAt, byteAt, h.rxSdu]

theorem Transmitted.sameStores {s t : State} (h : Transmitted s t) : SameStores s t := by
  rcases h with h | h
  · exact h.sameStores
  · exact h.sameStores.after ⟨rfl, rfl, rfl, rfl, rfl⟩

theorem sameStores_statusSent (s : State) : SameStores s (statusSent s) := by
  unfold statusSent
  dsimp only
  split <;> exact ⟨rfl, rfl, rfl, rfl, rfl⟩

/-- A new Data PDU is stored at `VT_S` (R180). -/
theorem onlyTxPdu_accounted (st : Packing) (s : State) :
    OnlyTxPdu s.tx.vtS.toNat s (accounted st s) where
  txPdu j hj := by
    change tableGet (tableSet s.tx.window s.tx.vtS.toNat _) j = _
    rw [tableGet_tableSet, if_neg hj]
  rxPdu := rfl
  rxSegment := rfl
  rxSdu := rfl

theorem DataSent.onlyTxPdu {s t : State} (h : DataSent s t) : OnlyTxPdu s.tx.vtS.toNat s t := by
  cases h with
  | failure => exact ⟨fun _ _ => rfl, rfl, rfl, rfl⟩
  | retx _ ht =>
    have same : SameStores s t := ht.sameStores.after ⟨rfl, rfl, rfl, rfl, rfl⟩
    exact same.onlyTxPdu _
  | new _ _ _ ht => exact (onlyTxPdu_accounted _ s).trans (ht.sameStores.onlyTxPdu _)

theorem readPdu_onlyTxPdu {n : Nat} {s t : State} (h : readPdu n s = .ok t) :
    OnlyTxPdu s.tx.vtS.toNat s t := by
  obtain ⟨u, hu, ht | ht⟩ := readPdu_cases h
  · exact ((hu.sameStores.trans (sameStores_statusSent u)).trans ht.sameStores).onlyTxPdu _
  · have sent := ht.onlyTxPdu
    obtain ⟨_, _, _, rfl⟩ := hu
    exact ⟨sent.txPdu, sent.rxPdu, sent.rxSegment, sent.rxSdu⟩

/-! ### HANDLE_CONTROL_PDU (R188 to R192) -/

/-- From `s` to `t` entries of the transmit window are freed, and the others keep their buffers. -/
def FreesOnly (s t : State) : Prop :=
  ∀ k, tableGet t.tx.window k = none ∨
    (tableGet t.tx.window k).map (·.buf) = (tableGet s.tx.window k).map (·.buf)

theorem freesOnly_of_window {s t : State} (h : t.tx.window = s.tx.window) : FreesOnly s t :=
  fun _ => .inr (by rw [h])

theorem FreesOnly.trans {s t u : State} (h1 : FreesOnly s t) (h2 : FreesOnly t u) :
    FreesOnly s u := by
  intro k
  rcases h2 k with h | h
  · exact .inl h
  · rcases h1 k with h' | h'
    · rw [h'] at h
      exact .inl (Option.map_eq_none_iff.mp h)
    · exact .inr (h.trans h')

theorem PoolMoved.freesOnly {s t : State} (h : PoolMoved s t) : FreesOnly s t :=
  freesOnly_of_window h.sameStores.txPdu

theorem ackSnStep_freesOnly (sn : Sn) (touched : List Word) (s : State) :
    FreesOnly s (ackSnStep sn touched s).2 := by
  have floor : ∀ u : State, FreesOnly s u →
      FreesOnly s (if sn = u.tx.vtA then { u with tx := { u.tx with vtA := sn + 1 } } else u) := by
    intro u hu
    split <;> exact hu
  unfold ackSnStep
  cases tableGet s.tx.window sn.toNat with
  | none => exact floor s (freesOnly_of_window rfl)
  | some t =>
    refine floor _ ((releaseSegs_poolMoved t.segs touched s).freesOnly.trans fun k => ?_)
    dsimp only
    rw [tableGet_tableErase]
    split
    · exact .inl rfl
    · exact .inr rfl

theorem nackSnStep_freesOnly {sn : Sn} {t : TxEntry} {s : State} (nacks : List Nack)
    (before : List Sn) (ht : tableGet s.tx.window sn.toNat = some t) :
    FreesOnly s (nackSnStep sn t nacks before s) := by
  have counted : ∀ q, FreesOnly s { s with tx := { s.tx with
      retxQ := q
      window := tableSet s.tx.window sn.toNat { t with retxCount := t.retxCount + 1 } } } := by
    refine fun _ k => .inr ?_
    dsimp only
    rw [tableGet_tableSet]
    split
    · next h => rw [h, ht]; rfl
    · rfl
  unfold nackSnStep
  split
  · exact freesOnly_of_window rfl
  · dsimp only
    split
    · exact (counted _).trans ((quiet_pdcpSnsOf ..).trans (quiet_emit ..)).poolMoved.freesOnly
    · exact counted _

theorem walk_freesOnly (nacks : List Nack) (before : List Sn) (n : Nat) (sn : Sn)
    (touched : List Word) (s : State) : FreesOnly s (walk nacks before n sn touched s).2 := by
  induction n generalizing sn touched s with
  | zero => exact freesOnly_of_window rfl
  | succ n ih =>
    have first : FreesOnly s (walkStep nacks before sn touched s).2 := by
      unfold walkStep
      dsimp only
      split
      · next t ht =>
        split
        · exact ackSnStep_freesOnly sn touched s
        · exact nackSnStep_freesOnly _ before ht
      · exact ackSnStep_freesOnly sn touched s
    exact first.trans (ih _ _ _)

theorem processStatus_freesOnly (st : StatusPdu) (s : State) : FreesOnly s (processStatus st s) := by
  have stopped : ∀ n, FreesOnly s (stopPollIfCovered n s) := by
    intro n
    unfold stopPollIfCovered
    split <;> exact freesOnly_of_window rfl
  have told : ∀ (touched : List Word) (u : State),
      FreesOnly u (respond .ok [] [] (notify touched (fixFloor u))) := fun touched u =>
    (freesOnly_of_window rfl : FreesOnly u (fixFloor u)).trans
      ((notify_poolMoved ..).trans (quiet_respond ..).poolMoved).freesOnly
  exact ((stopped _).trans (walk_freesOnly _ _ _ _ _ _)).trans (told _ _)

theorem StatusMoved.sduQ_rx {s t : State} (h : StatusMoved s t) :
    t.tx.sduQ = s.tx.sduQ ∧ t.rx = s.rx := by
  obtain ⟨_, _, _, _, -, _, _, _, rfl⟩ := h.frame
  exact ⟨rfl, rfl⟩

theorem processStatus_sduQ_rx {st : StatusPdu} {s : State} (h : ackInRange s st.ackSn = true) :
    (processStatus st s).tx.sduQ = s.tx.sduQ ∧ (processStatus st s).rx = s.rx := by
  obtain ⟨u, rfl | rfl, moved, -⟩ := processStatus_cases h <;> exact moved.sduQ_rx

/-- An accepted STATUS leaves every byte alone but those of the PDUs it frees (R190). -/
theorem processStatus_byteAt {st : StatusPdu} {s : State} (h : ackInRange s st.ackSn = true)
    (space : Space) (owner off : Nat) :
    byteAt (processStatus st s) space owner off = byteAt s space owner off ∨
      space = .txPdu ∧ tableGet (processStatus st s).tx.window owner = none := by
  obtain ⟨hq, hrx⟩ := processStatus_sduQ_rx h
  cases space with
  | txPdu =>
    refine (processStatus_freesOnly st s owner).symm.imp (fun hbuf => ?_) fun hnone => ⟨rfl, hnone⟩
    have byte : ∀ u : State, byteAt u .txPdu owner off =
        ((tableGet u.tx.window owner).map (·.buf)).bind (·[off]?) := fun u => by
      rw [byteAt, Option.bind_map]
      rfl
    rw [byte, byte, hbuf]
  | sdu => exact .inl (by rw [byteAt, byteAt, hq])
  | rxPdu => exact .inl (by rw [byteAt, byteAt, hrx])
  | rxSegment => exact .inl (by rw [byteAt, byteAt, hrx])
  | rxSdu => exact .inl (by rw [byteAt, byteAt, hrx])

/-! ### DISCARD_SDU (R171) -/

/-- Only positions of the SDU queue move. -/
theorem discardSdu_byteAt (q : Word) (s : State) {space : Space} (owner off : Nat)
    (hsdu : space ≠ .sdu) :
    byteAt (discardSdu q s) space owner off = byteAt s space owner off := by
  rcases discardSdu_cases q s with h | ⟨i, -, _, _, _, h⟩
  · exact h.sameStores.byteAt_eq ..
  · rw [h]
    cases space with
    | sdu => exact absurd rfl hsdu
    | txPdu | rxPdu | rxSegment | rxSdu => rfl

end Sys2Proof.Machine

open Sys2Proof.Machine in
/-- Settles O53, by the outcomes of the command. -/
theorem memoryFrame : Obligations.MemoryFrame := by
  refine ⟨fun i s t h hi => ((exec_effect h).sameStores hi).byteAt_eq, fun n s t h => ?_,
    fun q s t h => ?_, fun b s t h space owner off => ?_, fun b s t h hb space owner off hspace => ?_⟩
  · intro space owner off hsdu hown
    cases exec_effect h with
    | quiet h => exact h.sameStores.byteAt_eq ..
    | pool _ hi => cases hi
    | readPdu _ h => exact (readPdu_onlyTxPdu h).byteAt_eq off hsdu hown
    | status _ hi _ => rcases hi with hi | ⟨hi, -⟩ <;> cases hi
  · intro space owner off hsdu
    cases exec_effect h with
    | quiet h => exact h.sameStores.byteAt_eq ..
    | pool _ hi => cases hi
    | discardSdu _ => exact discardSdu_byteAt q s owner off hsdu
    | status _ hi _ => rcases hi with hi | ⟨hi, -⟩ <;> cases hi
  · cases exec_effect h with
    | quiet h => exact .inl (h.sameStores.byteAt_eq ..)
    | pool _ hi => cases hi
    | status _ _ hack => exact processStatus_byteAt hack space owner off
  · obtain ⟨-, -, -, -, -, -, -, -, hdata⟩ := whoWritesWhat _ _ _ h
    obtain ⟨htx, -⟩ := hdata b rfl hb
    rcases hspace with rfl | rfl <;> rw [byteAt, byteAt, htx]
end

section
/-!
The command encoding (R91, R93, R95): what the decoder answers to any descriptor, said once in
`decode_cons_of_unknown`, `decode_cons_of_known` and `decodeArgs_outcome`, and the round trips and refusals
that follow.
-/
namespace Sys2Proof

/-! ### Word 0 (R91, R93) -/

/-- The decoder knows the bytes of the opcode map and no others (R93). -/
theorem opcodeOf_eq_some_iff (n : Nat) (op : Opcode) : opcodeOf n = some op ↔ op.code = n := by
  constructor
  · intro h
    unfold opcodeOf at h
    split at h <;> cases h <;> rfl
  · rintro rfl
    cases op <;> rfl

/-- Every opcode of R93, in the order of the map. -/
def allOpcodes : List Opcode :=
  [.reset, .configure, .reestablish, .stop, .getMetrics, .readVar, .writeSdu, .discardSdu,
    .readPdu, .writePdu, .getBufferState, .handleControlPdu, .getStatusPdu, .texpPollRetx,
    .texpReordering, .texpStatusProhibit, .txModBase, .rxModBase, .encDataHdr, .decDataHdr,
    .encStatus, .decStatus, .poolAlloc, .poolRelRlc, .poolRelPdcp, .poolIsAcked]

theorem mem_allOpcodes (op : Opcode) : op ∈ allOpcodes := by
  cases op <;> decide

/-- A byte is known when it is the code of an opcode of the map. -/
theorem opcodeOf_known_iff (n : Nat) :
    (∃ op, opcodeOf n = some op) ↔ n ∈ allOpcodes.map Opcode.code := by
  simp only [opcodeOf_eq_some_iff, List.mem_map, mem_allOpcodes, true_and]

theorem opcodeByte_toNat (w : Word) : (w.extractLsb' 24 8).toNat = w.toNat / 2 ^ 24 := by
  rw [BitVec.extractLsb'_toNat, Nat.shiftRight_eq_div_pow]
  omega

theorem reservedBits_toNat (w : Word) : (w.extractLsb' 0 24).toNat = w.toNat % 2 ^ 24 := by
  rw [BitVec.extractLsb'_toNat, Nat.shiftRight_zero]

/-- The opcode's byte with zero bits below it is the one word 0 of that opcode (R91). -/
theorem eq_opcode_word {w : Word} {op : Opcode} (hop : opcodeOf (w.toNat / 2 ^ 24) = some op)
    (hzero : w.toNat % 2 ^ 24 = 0) : w = op.word := by
  have hcode := (opcodeOf_eq_some_iff _ _).mp hop
  apply BitVec.eq_of_toNat_eq
  rw [Opcode.word_toNat]
  omega

/-! ### The decoder, by word 0 -/

theorem decode_cons_of_unknown {w : Word} (args : List Word) (bytes : List Byte)
    (h : opcodeOf (w.toNat / 2 ^ 24) = none) :
    decode ⟨w :: args, bytes⟩ = .error (.unknownOpcode (w.toNat / 2 ^ 24)) := by
  simp only [decode, opcodeByte_toNat, h]

theorem decode_cons_of_known {w : Word} {op : Opcode} (args : List Word) (bytes : List Byte)
    (h : opcodeOf (w.toNat / 2 ^ 24) = some op) :
    decode ⟨w :: args, bytes⟩ =
      if w.toNat % 2 ^ 24 = 0 then decodeArgs op args bytes else .error (.reservedBits op) := by
  simp only [decode, opcodeByte_toNat, h, reservedBits_toNat]

/-- A descriptor that starts with the word of an opcode is decoded by its arguments and payload. -/
theorem decode_opcode_word (op : Opcode) (args : List Word) (bytes : List Byte) :
    decode ⟨op.word :: args, bytes⟩ = decodeArgs op args bytes := by
  have hcode : op.word.toNat / 2 ^ 24 = op.code := by rw [Opcode.word_toNat]; omega
  have hzero : op.word.toNat % 2 ^ 24 = 0 := by rw [Opcode.word_toNat]; omega
  rw [decode_cons_of_known args bytes ((opcodeOf_eq_some_iff _ _).mpr hcode.symm), if_pos hzero]

/-! ### Arguments and payload -/

theorem ofNat_toNat_of_lt {n : Nat} (h : n < 2 ^ 32) : (BitVec.ofNat 32 n : Word).toNat = n := by
  rw [BitVec.toNat_ofNat, Nat.mod_eq_of_lt h]

theorem ofNat_eq_of_toNat {n : Nat} {w : Word} (h : n = w.toNat) : BitVec.ofNat 32 n = w := by
  rw [h, BitVec.ofNat_toNat, BitVec.setWidth_eq]

theorem lt_of_eq_toNat {n : Nat} {w : Word} (h : n = w.toNat) : n < 2 ^ 32 := h ▸ w.isLt

theorem pairsOfWords_wordsOfPairs (l : List (Word × Word)) :
    pairsOfWords (wordsOfPairs l) = some l := by
  induction l with
  | nil => rfl
  | cons nw l ih =>
    change (pairsOfWords (wordsOfPairs l)).map ((nw.1, nw.2) :: ·) = _
    rw [ih]
    rfl

theorem wordsOfPairs_of_pairsOfWords {ws : List Word} {l : List (Word × Word)}
    (h : pairsOfWords ws = some l) : wordsOfPairs l = ws := by
  induction ws using pairsOfWords.induct generalizing l with
  | case1 => cases h; rfl
  | case2 w => cases h
  | case3 a b rest ih =>
    obtain ⟨l', hl', rfl⟩ := Option.map_eq_some_iff.mp h
    exact congrArg (a :: b :: ·) (ih hl')

theorem wordsOfPairs_length (l : List (Word × Word)) : (wordsOfPairs l).length = 2 * l.length := by
  simp [wordsOfPairs, List.length_flatMap, Nat.mul_comm]

/-- The descriptor of `i` has this opcode, these argument words and this payload, and `i` can be
encoded. -/
structure Spells (op : Opcode) (args : List Word) (bytes : List Byte) (i : Instr) : Prop where
  opcode : i.opcode = op
  args : i.args = args
  payload : i.payload = bytes
  encodable : i.encodable = true

/-- What the arguments of an opcode can be decoded to: a command they spell, or an error that is
answered with the result words of the opcode (R92, R95). -/
inductive ArgsOutcome (op : Opcode) (args : List Word) (bytes : List Byte) :
    Except DecodeError Instr → Prop
  | ok {i : Instr} (h : Spells op args bytes i) : ArgsOutcome op args bytes (.ok i)
  | error {e : DecodeError} (h : e.resultWords = op.fixedResults) :
      ArgsOutcome op args bytes (.error e)

/-- A payload command is decoded when its length word announces the payload, and rejected otherwise (R91). -/
theorem withPayload_outcome {op : Opcode} {args : List Word} {len : Word} {bytes : List Byte}
    {i : Instr} (h : lengthWord bytes = len → bytes.length < 2 ^ 32 → Spells op args bytes i) :
    ArgsOutcome op args bytes (withPayload op len bytes i) := by
  unfold withPayload
  split
  · next hlen => exact .ok (h (ofNat_eq_of_toNat hlen) (lt_of_eq_toNat hlen))
  · exact .error rfl

/-- What the repeated group of ENC_STATUS is decoded to (R93). -/
theorem decodeArgs_encStatus (maxLen ackSn nNack : Word) (rest : List Word) :
    decodeArgs .encStatus (maxLen :: ackSn :: nNack :: rest) [] =
      match pairsOfWords rest with
      | some nacks =>
        if nacks.length = nNack.toNat then .ok (.encStatus maxLen ackSn nacks)
        else .error (.wordCount .encStatus)
      | none => .error (.wordCount .encStatus) := rfl

/-- Everything the arguments and payload of an opcode can be decoded to. -/
theorem decodeArgs_outcome (op : Opcode) (args : List Word) (bytes : List Byte) :
    ArgsOutcome op args bytes (decodeArgs op args bytes) := by
  by_cases hpay : (!op.hasPayload && !bytes.isEmpty) = true
  · have refused : decodeArgs op args bytes = .error (.payloadLength op) := if_pos hpay
    rw [refused]
    exact .error rfl
  have empty : op.hasPayload = false → bytes = [] := fun h => by simpa [h] using hpay
  cases op with
  | writeSdu =>
    match args with
    | [q, len] => exact withPayload_outcome fun h hlt => ⟨rfl, h ▸ rfl, rfl, decide_eq_true hlt⟩
    | [] | [_] | _ :: _ :: _ :: _ => exact .error rfl
  | writePdu | handleControlPdu | decDataHdr | decStatus =>
    match args with
    | [len] => exact withPayload_outcome fun h hlt => ⟨rfl, h ▸ rfl, rfl, decide_eq_true hlt⟩
    | [] | _ :: _ :: _ => exact .error rfl
  | reset | reestablish | stop | getMetrics | getBufferState | texpPollRetx | texpReordering
  | texpStatusProhibit =>
    obtain rfl := empty rfl
    match args with
    | [] => exact .ok ⟨rfl, rfl, rfl, rfl⟩
    | _ :: _ => exact .error rfl
  | readVar | discardSdu | readPdu | getStatusPdu | txModBase | rxModBase | poolRelRlc
  | poolRelPdcp | poolIsAcked =>
    obtain rfl := empty rfl
    match args with
    | [_] => exact .ok ⟨rfl, rfl, rfl, rfl⟩
    | [] | _ :: _ :: _ => exact .error rfl
  | poolAlloc =>
    obtain rfl := empty rfl
    match args with
    | [_, _] => exact .ok ⟨rfl, rfl, rfl, rfl⟩
    | [] | [_] | _ :: _ :: _ :: _ => exact .error rfl
  | configure =>
    obtain rfl := empty rfl
    match args with
    | [_, _, _, _, _, _, _] => exact .ok ⟨rfl, rfl, rfl, rfl⟩
    | [] | [_] | [_, _] | [_, _, _] | [_, _, _, _] | [_, _, _, _, _] | [_, _, _, _, _, _]
    | _ :: _ :: _ :: _ :: _ :: _ :: _ :: _ :: _ => exact .error rfl
  | encDataHdr =>
    obtain rfl := empty rfl
    match args with
    | hw :: nLi :: li =>
      change ArgsOutcome _ _ _ (if li.length = nLi.toNat then _ else _)
      split
      · next hn =>
        exact .ok ⟨rfl, congrArg (hw :: · :: li) (ofNat_eq_of_toNat hn), rfl,
          decide_eq_true (lt_of_eq_toNat hn)⟩
      · exact .error rfl
    | [] | [_] => exact .error rfl
  | encStatus =>
    obtain rfl := empty rfl
    match args with
    | maxLen :: ackSn :: nNack :: rest =>
      rw [decodeArgs_encStatus]
      split
      · next nacks hpairs =>
        split
        · next hn =>
          have hargs : Instr.args (.encStatus maxLen ackSn nacks) =
              maxLen :: ackSn :: nNack :: rest := by
            rw [Instr.args, ofNat_eq_of_toNat hn, wordsOfPairs_of_pairsOfWords hpairs]
          exact .ok ⟨rfl, hargs, rfl, decide_eq_true (lt_of_eq_toNat hn)⟩
        · exact .error rfl
      · exact .error rfl
    | [] | [_] | [_, _] => exact .error rfl

theorem decodeArgs_of_withPayload {op : Opcode} {bytes : List Byte} {i : Instr}
    (h : bytes.length < 2 ^ 32) : withPayload op (lengthWord bytes) bytes i = .ok i :=
  if_pos (ofNat_toNat_of_lt h).symm

/-- The arguments and the payload of a command are decoded to it (R93). -/
theorem decodeArgs_args {i : Instr} (h : i.encodable = true) :
    decodeArgs i.opcode i.args i.payload = .ok i := by
  cases i with
  | writeSdu q bytes => exact decodeArgs_of_withPayload (of_decide_eq_true h)
  | writePdu bytes | handleControlPdu bytes | decDataHdr bytes | decStatus bytes =>
    exact decodeArgs_of_withPayload (of_decide_eq_true h)
  | encDataHdr hw li => exact if_pos (ofNat_toNat_of_lt (of_decide_eq_true h)).symm
  | encStatus maxLen ackSn nacks =>
    change decodeArgs .encStatus (maxLen :: ackSn :: _ :: wordsOfPairs nacks) [] = _
    rw [decodeArgs_encStatus, pairsOfWords_wordsOfPairs]
    exact if_pos (ofNat_toNat_of_lt (of_decide_eq_true h)).symm
  | _ => rfl

/-- Whatever decodes is spelled by its opcode, its arguments and its payload (R91, R93). -/
theorem spells_of_decode {d : Descriptor} {i : Instr} (h : decode d = .ok i) :
    ∃ op args, d.words = op.word :: args ∧ Spells op args d.bytes i := by
  obtain ⟨words, bytes⟩ := d
  cases words with
  | nil => cases h
  | cons w args =>
    cases hop : opcodeOf (w.toNat / 2 ^ 24) with
    | none => rw [decode_cons_of_unknown args bytes hop] at h; cases h
    | some op =>
      rw [decode_cons_of_known args bytes hop] at h
      split at h
      · next hzero =>
        have outcome := decodeArgs_outcome op args bytes
        rw [h] at outcome
        cases outcome with
        | ok spells => exact ⟨op, args, congrArg (· :: args) (eq_opcode_word hop hzero), spells⟩
      · cases h

/-! ### Malformed descriptors (R95, U9) -/

theorem args_length {i : Instr} (h1 : i.opcode ≠ .encDataHdr) (h2 : i.opcode ≠ .encStatus) :
    i.args.length = i.opcode.fixedArgs := by
  cases i with
  | encDataHdr => exact absurd rfl h1
  | encStatus => exact absurd rfl h2
  | _ => rfl

theorem encDataHdr_args_length {i : Instr} (hop : i.opcode = .encDataHdr)
    (h : i.encodable = true) : ∃ n ∈ i.args[1]?, i.args.length = 2 + n.toNat := by
  cases i with
  | encDataHdr hw li =>
    refine ⟨_, rfl, ?_⟩
    rw [ofNat_toNat_of_lt (of_decide_eq_true h)]
    simp only [Instr.args, List.length_cons]
    omega
  | _ => cases hop

theorem encStatus_args_length {i : Instr} (hop : i.opcode = .encStatus)
    (h : i.encodable = true) : ∃ n ∈ i.args[2]?, i.args.length = 3 + 2 * n.toNat := by
  cases i with
  | encStatus maxLen ackSn nacks =>
    refine ⟨_, rfl, ?_⟩
    rw [ofNat_toNat_of_lt (of_decide_eq_true h)]
    simp only [Instr.args, List.length_cons, wordsOfPairs_length]
    omega
  | _ => cases hop

theorem payload_length {i : Instr} (hop : i.opcode.hasPayload = true) (h : i.encodable = true) :
    ∀ n ∈ i.args.getLast?, i.payload.length = n.toNat := by
  intro n hn
  cases i with
  | writeSdu | writePdu | handleControlPdu | decDataHdr | decStatus =>
    cases hn
    exact (ofNat_toNat_of_lt (of_decide_eq_true h)).symm
  | _ => cases hop

theorem payload_eq_nil {i : Instr} (hop : i.opcode.hasPayload = false) : i.payload = [] := by
  cases i with
  | writeSdu | writePdu | handleControlPdu | decDataHdr | decStatus => cases hop
  | _ => rfl

/-- What makes the arguments and the payload of an opcode no command: the number of argument words, the
length of the payload, or a payload where none belongs (R95, U9, log entry 11). -/
abbrev ArgsMalformed (op : Opcode) (args : List Word) (bytes : List Byte) : Prop :=
  (op ≠ .encDataHdr ∧ op ≠ .encStatus ∧ args.length ≠ op.fixedArgs) ∨
  (op = .encDataHdr ∧ ∀ n ∈ args[1]?, args.length ≠ 2 + n.toNat) ∨
  (op = .encStatus ∧ ∀ n ∈ args[2]?, args.length ≠ 3 + 2 * n.toNat) ∨
  (op.hasPayload = true ∧ ∃ n ∈ args.getLast?, bytes.length ≠ n.toNat) ∨
  (op.hasPayload = false ∧ bytes ≠ [])

theorem Spells.not_malformed {op : Opcode} {args : List Word} {bytes : List Byte} {i : Instr}
    (h : Spells op args bytes i) : ¬ ArgsMalformed op args bytes := by
  obtain ⟨rfl, rfl, rfl, henc⟩ := h
  rintro (⟨h1, h2, hlen⟩ | ⟨hop, hlen⟩ | ⟨hop, hlen⟩ | ⟨hop, n, hn, hlen⟩ | ⟨hop, hbytes⟩)
  · exact hlen (args_length h1 h2)
  · obtain ⟨n, hn, heq⟩ := encDataHdr_args_length hop henc
    exact hlen n hn heq
  · obtain ⟨n, hn, heq⟩ := encStatus_args_length hop henc
    exact hlen n hn heq
  · exact hlen (payload_length hop henc n hn)
  · exact hbytes (payload_eq_nil hop)

/-- A malformed descriptor of a known opcode is rejected, to be answered with the result words of the
opcode (R92, R95). -/
theorem decode_malformed {w : Word} {op : Opcode} {args : List Word} {bytes : List Byte}
    (hop : opcodeOf (w.toNat / 2 ^ 24) = some op)
    (h : w.toNat % 2 ^ 24 ≠ 0 ∨ ArgsMalformed op args bytes) :
    ∃ e, decode ⟨w :: args, bytes⟩ = .error e ∧ e.resultWords = op.fixedResults := by
  rw [decode_cons_of_known args bytes hop]
  split
  · next hzero =>
    have outcome := decodeArgs_outcome op args bytes
    generalize decodeArgs op args bytes = answer at outcome
    cases outcome with
    | ok spells => exact (h.elim (· hzero) spells.not_malformed).elim
    | error he => exact ⟨_, rfl, he⟩
  · exact ⟨_, rfl, rfl⟩

namespace Machine

/-- A step on a port whose head is no command answers it (R92, R95). -/
theorem step_of_decode_error {s : State} {d : Descriptor} {rest : List Descriptor} {e : DecodeError}
    (hv : s.params.valid = true) (hc : s.clearing = none) (hp : s.port = d :: rest)
    (hd : decode d = .error e) :
    step s = .next (respond .errIllegalCommand (List.replicate e.resultWords 0) []
      { s with port := rest }) := by
  simp [step, hv, hc, takeCommand, hp, hd, answerMalformed]

/-! ### Illegal arguments (R95, R261 (1)) -/

theorem requireLegal_of_illegal {legal : Bool} (h : legal = false) (m : Nat) (body : State → Answer)
    (s : State) : requireLegal legal m body s =
      .next (respond .errIllegalCommand (List.replicate m 0) [] s) := by
  rw [h]
  rfl

/-- The legality check comes before every other one, and its refusal changes nothing (R95, R261 (1)). -/
theorem exec_of_illegal {i : Instr} {s : State} (h : i.legal s.params = false) :
    exec i s =
      .next (respond .errIllegalCommand (List.replicate i.opcode.fixedResults 0) [] s) := by
  cases i with
  | readVar var =>
    have hvar : varOfNat var.toNat = none := by simpa [Instr.legal] using h
    rw [exec, execReadVar, hvar]
    rfl
  | encDataHdr hw li =>
    have hcount : legalLiCount s.params li.length = false := h
    rw [exec, execEncDataHdr, hcount, Bool.false_and]
    rfl
  | writeSdu | discardSdu | readPdu | writePdu | handleControlPdu | getStatusPdu =>
    exact requireLegal_of_illegal h ..
  | txModBase | rxModBase | decDataHdr | encStatus | decStatus | poolAlloc | poolIsAcked =>
    simp only [exec, execTxModBase, execRxModBase, execDecDataHdr, execEncStatus, execDecStatus,
      execPoolAlloc, execPoolIsAcked]
    exact requireLegal_of_illegal h ..
  | reset | configure | reestablish | stop | getMetrics | getBufferState | texpPollRetx
  | texpReordering | texpStatusProhibit | poolRelRlc | poolRelPdcp => cases h

end Machine
end Sys2Proof

open Sys2Proof in
/-- Settles O1: word 0 leads to the arguments, and the arguments of a command spell it. -/
theorem decodeEncodeRoundTrip : Obligations.DecodeEncodeRoundTrip := fun i h =>
  (decode_opcode_word i.opcode i.args i.payload).trans (decodeArgs_args h)

open Sys2Proof in
/-- Settles O2: what decodes is spelled by its opcode, its arguments and its payload. -/
theorem encodeDecodeRoundTrip : Obligations.EncodeDecodeRoundTrip := by
  intro d i h
  obtain ⟨op, args, hwords, hop, hargs, hpayload, henc⟩ := spells_of_decode h
  refine ⟨?_, henc⟩
  rw [encode, hop, hargs, hpayload, ← hwords]

open Sys2Proof in
/-- Settles O3, by running the decoder on each descriptor. -/
theorem sampleWordsDecode : Obligations.SampleWordsDecode :=
  ⟨rfl, rfl, rfl, rfl, rfl, rfl, rfl⟩

open Sys2Proof Sys2Proof.Machine in
/-- Settles O4: a malformed descriptor is rejected with its opcode's result words, and the legality check
of a command comes first. -/
theorem illegalCommandRefused : Obligations.IllegalCommandRefused := by
  refine ⟨fun bytes s rest hv hc hp => step_of_decode_error hv hc hp rfl,
    fun w args bytes s rest hv hc hp => ⟨fun hop => ?_, fun op hop hbad => ?_⟩,
    fun i s h => exec_of_illegal h⟩
  · exact step_of_decode_error hv hc hp (decode_cons_of_unknown args bytes hop)
  · obtain ⟨e, hd, he⟩ := decode_malformed hop hbad
    rw [step_of_decode_error hv hc hp hd, he]

open Sys2Proof Sys2Proof.Machine in
/-- Settles O6: the tables by evaluation, the decoder's bytes by `opcodeOf_eq_some_iff`. -/
theorem portNumbers : Obligations.PortNumbers :=
  ⟨rfl, opcodeOf_eq_some_iff, opcodeOf_known_iff, rfl, rfl, fun _ _ _ _ => rfl,
    fun _ _ _ _ => rfl⟩
end

section
/-!
Every command that completes answers once, after its events (O7; R90, R92, R260, R268): what the parts of
a command place on the ports (`EmitsOnly`), and what a whole command does (`Answers`).
-/
namespace Sys2Proof.Machine

/-! ### Events only -/

/-- From `s` to `t` the engine takes no command and places nothing but events on its ports. -/
def EmitsOnly (s t : State) : Prop :=
  t.port = s.port ∧ ∃ events : List Event, t.out = s.out ++ events.map .event

theorem emitsOnly_of_same {s t : State} (hport : t.port = s.port) (hout : t.out = s.out) :
    EmitsOnly s t := ⟨hport, [], by rw [hout, List.map_nil, List.append_nil]⟩

theorem EmitsOnly.refl (s : State) : EmitsOnly s s := emitsOnly_of_same rfl rfl

theorem EmitsOnly.trans {s t u : State} : EmitsOnly s t → EmitsOnly t u → EmitsOnly s u := by
  rintro ⟨hp1, e1, h1⟩ ⟨hp2, e2, h2⟩
  exact ⟨hp2.trans hp1, e1 ++ e2, by rw [h2, h1, List.map_append, List.append_assoc]⟩

/-- `EmitsOnly.trans` with the later part first: it tells Lean the state in between. -/
theorem EmitsOnly.after {s t u : State} (h2 : EmitsOnly t u) (h1 : EmitsOnly s t) : EmitsOnly s u :=
  h1.trans h2

theorem emitsOnly_emit (e : Event) (s : State) : EmitsOnly s (emit e s) := ⟨rfl, [e], rfl⟩

theorem emitsOnly_setTimer (t : TimerId) (b : Bool) (s : State) : EmitsOnly s (setTimer t b s) :=
  emitsOnly_of_same (setTimer_port ..) (setTimer_out ..)

theorem emitsOnly_startTimer (t : TimerId) (d : Word) (s : State) : EmitsOnly s (startTimer t d s) :=
  (emitsOnly_setTimer t true s).trans (emitsOnly_emit ..)

theorem emitsOnly_stopTimer (t : TimerId) (s : State) : EmitsOnly s (stopTimer t s) :=
  (emitsOnly_setTimer t false s).trans (emitsOnly_emit ..)

theorem emitsOnly_stopIfRunning (t : TimerId) (s : State) : EmitsOnly s (stopIfRunning t s) := by
  unfold stopIfRunning
  split
  · exact emitsOnly_stopTimer t s
  · exact .refl s

theorem emitsOnly_clearAll (s : State) : EmitsOnly s (clearAll s) :=
  ((emitsOnly_stopIfRunning .pollRetx s).trans (emitsOnly_stopIfRunning .reordering _)).trans
    (emitsOnly_stopIfRunning .statusProhibit _)

theorem emitsOnly_wordOrFree (free : Nat → Word) (n : Nat) (s : State) :
    EmitsOnly s (wordOrFree free n s).2 := by
  rcases wordOrFree_cases free n s with ⟨-, h⟩ | ⟨-, w, h⟩ <;> rw [h]
  · exact .refl s
  · exact emitsOnly_of_same rfl rfl

/-! ### One answer -/

/-- From `s` to `t` the engine places events and then one response with at least `m` result words on its
ports; a refusal has `m` zero words and no bytes (R90, R92). -/
def Answers (m : Nat) (s t : State) : Prop :=
  ∃ (u : State) (c : ResultCode) (results : List Word) (bytes : List Byte),
    EmitsOnly s u ∧ t = respond c results bytes u ∧ m ≤ results.length ∧
    (c ≠ .ok → results = List.replicate m 0 ∧ bytes = [])

theorem answers_ok {m : Nat} {s u : State} {results : List Word} {bytes : List Byte}
    (h : EmitsOnly s u) (hm : m ≤ results.length) : Answers m s (respond .ok results bytes u) :=
  ⟨u, .ok, results, bytes, h, rfl, hm, fun hne => absurd rfl hne⟩

theorem answers_error {s u : State} {c : ResultCode} {m : Nat} (h : EmitsOnly s u) :
    Answers m s (respondError c m u) :=
  ⟨u, c, _, [], h, rfl, by rw [List.length_replicate], fun _ => ⟨rfl, rfl⟩⟩

theorem answers_bytes {s u : State} {bytes : List Byte} (h : EmitsOnly s u) :
    Answers 1 s (respondBytes bytes u) := answers_ok h le_rfl

theorem answers_protocolFailure {s u : State} {m : Nat} (h : EmitsOnly s u) :
    Answers m s (protocolFailure m u) :=
  answers_error (EmitsOnly.trans h (emitsOnly_emit _ { u with failed := true }))

/-- Events before an answer belong to it. -/
theorem Answers.after {m : Nat} {s u t : State} (h : Answers m u t) (hu : EmitsOnly s u) :
    Answers m s t := by
  obtain ⟨v, c, results, bytes, hv, answer⟩ := h
  exact ⟨v, c, results, bytes, hu.trans hv, answer⟩

/-- A command behind the legality gate answers when its body does (R261 (1)). -/
theorem answers_of_requireLegal {legal : Bool} {m : Nat} {body : State → Answer} {s t : State}
    (h : requireLegal legal m body s = .next t) (hbody : body s = .next t → Answers m s t) :
    Answers m s t := by
  rcases requireLegal_cases h with ⟨-, h⟩ | ⟨-, rfl⟩
  · exact hbody h
  · exact answers_error (.refl s)

/-- A command behind the data-path gate answers when its body does (R267). -/
theorem answers_of_dataPath {m : Nat} {body : State → Answer} {s t : State}
    (h : dataPath m body s = .next t) (hbody : body s = .next t → Answers m s t) :
    Answers m s t := by
  rcases dataPath_cases h with ⟨-, rfl⟩ | ⟨-, -, rfl⟩ | ⟨-, -, -, h⟩
  · exact answers_error (.refl s)
  · exact answers_error (.refl s)
  · exact hbody h

/-! ### Management (R250 to R253) -/

theorem execReset_answers {s t : State} (h : execReset s = .next t) : Answers 0 s t := by
  cases h
  exact answers_ok (emitsOnly_clearAll s) le_rfl

/-- With one sequencer a clearing command answers in its one step (R252, R253). -/
theorem clearingCommand_answers (enable : Bool) {s : State} (h : s.params.dualSeq = false) :
    Answers 0 s (clearingCommand enable s) := by
  rw [clearingCommand, if_neg (by rw [h]; decide)]
  exact answers_ok (emitsOnly_clearAll s) le_rfl

theorem execConfigure_answers {v0 v1 v2 v3 v4 v5 v6 : Word} {s t : State}
    (h : execConfigure v0 v1 v2 v3 v4 v5 v6 s = .next t) : Answers 0 s t := by
  unfold execConfigure at h
  split at h
  · cases h; exact answers_error (.refl s)
  · split at h
    · cases h; exact answers_error (.refl s)
    · cases h; exact answers_ok (emitsOnly_of_same rfl rfl) le_rfl

theorem execReadVar_answers {var : Word} {s t : State} (h : execReadVar var s = .next t) :
    Answers 1 s t := by
  unfold execReadVar at h
  split at h
  · cases h; exact answers_error (.refl s)
  · cases h; exact answers_ok (.refl s) le_rfl

/-! ### Transmission (R170 to R184, R193 to R195, R210) -/

theorem writeSdu_answers (q : Word) (b : List Byte) (s : State) : Answers 0 s (writeSdu q b s) := by
  unfold writeSdu
  split
  · exact answers_error (.refl s)
  · split
    · exact answers_error (.refl s)
    · exact answers_ok (emitsOnly_of_same rfl rfl) le_rfl

theorem discardSdu_answers (q : Word) (s : State) : Answers 0 s (discardSdu q s) := by
  unfold discardSdu
  dsimp only
  split
  · split
    · exact answers_error (.refl s)
    · exact answers_ok (emitsOnly_of_same rfl rfl) le_rfl
  · split <;> exact answers_error (.refl s)

theorem emitsOnly_applyPoll (s : State) : EmitsOnly s (applyPoll s) := emitsOnly_startTimer ..

theorem transmit_answers {s u : State} {h : Header} {payload : List Byte} (hu : EmitsOnly s u) :
    Answers 1 s (transmit h payload u) := by
  rcases transmit_cases h payload u with ⟨-, e⟩ | ⟨-, e⟩ <;> rw [e]
  · exact answers_bytes (hu.trans (emitsOnly_applyPoll u))
  · exact answers_bytes hu

theorem buildRetx_answers {r : RetxEntry} {rest : List RetxEntry} {n : Nat} {s t : State}
    (h : buildRetx r rest n s = .ok t) : Answers 1 s t := by
  unfold buildRetx at h
  split at h
  · cases h; exact answers_bytes (.refl s)
  split at h
  · cases h; exact transmit_answers (emitsOnly_of_same rfl rfl)
  unfold buildSegment at h
  split at h
  · cases h; exact answers_bytes (.refl s)
  split at h
  · cases h
  · cases h; exact transmit_answers (emitsOnly_of_same rfl rfl)

theorem buildNew_answers {n : Nat} {s t : State} (h : buildNew n s = .ok t) : Answers 1 s t := by
  unfold buildNew at h
  split at h
  · cases h; exact answers_bytes (.refl s)
  split at h
  · cases h
  split at h
  · cases h
    split
    · exact answers_error (.refl s)
    · exact answers_bytes (.refl s)
  · cases h; exact transmit_answers (emitsOnly_of_same rfl rfl)

theorem sendData_answers {n : Nat} {s t : State} (h : sendData n s = .ok t) : Answers 1 s t := by
  have dropped : EmitsOnly s (withRetxQ s (dropStale s.tx.window s.tx.retxQ)) :=
    emitsOnly_of_same rfl rfl
  unfold sendData at h
  dsimp only at h
  split at h
  · exact (buildRetx_answers h).after dropped
  · exact (buildNew_answers h).after dropped

theorem emitsOnly_scheduleOldest {s u : State} (h : scheduleOldest s = some u) : EmitsOnly s u := by
  obtain ⟨q, rfl, -⟩ := scheduleOldest_retx h
  exact emitsOnly_of_same rfl rfl

theorem readData_answers {n : Nat} {s t : State} (h : readData n s = .ok t) : Answers 1 s t := by
  unfold readData at h
  split at h
  · split at h
    · cases h; exact answers_protocolFailure (.refl s)
    · next u hu => exact (sendData_answers h).after (emitsOnly_scheduleOldest hu)
  · exact sendData_answers h

theorem emitsOnly_drawRxBusy (s : State) : EmitsOnly s (drawRxBusy s).2 := by
  unfold drawRxBusy
  split
  · exact emitsOnly_of_same rfl rfl
  · exact .refl s

theorem emitsOnly_statusSent (s : State) : EmitsOnly s (statusSent s) := by
  unfold statusSent
  dsimp only
  split
  · exact emitsOnly_startTimer ..
  · exact emitsOnly_of_same rfl rfl

theorem readPdu_answers {n : Nat} {s t : State} (h : readPdu n s = .ok t) : Answers 1 s t := by
  unfold readPdu at h
  split at h
  · have drawn := emitsOnly_drawRxBusy s
    split at h
    · next u hu => exact (readData_answers h).after (by rwa [hu] at drawn)
    · next u hu =>
      rw [hu] at drawn
      dsimp only at h
      split at h
      · exact (readData_answers h).after drawn
      · cases h; exact answers_bytes (drawn.trans (emitsOnly_statusSent u))
  · exact readData_answers h

theorem texpPollRetx_answers (s : State) : Answers 0 s (texpPollRetx s) := by
  have expired : EmitsOnly s (pollExpired s) := emitsOnly_setTimer .pollRetx false s
  unfold texpPollRetx
  split
  · dsimp only [expireTimer_eq]
    split
    · split
      · exact answers_protocolFailure expired
      · next u hu =>
        exact answers_ok (expired.trans (emitsOnly_scheduleOldest hu)) le_rfl
    · exact answers_ok expired le_rfl
  · exact answers_ok (.refl s) le_rfl

theorem texpStatusProhibit_answers (s : State) : Answers 0 s (texpStatusProhibit s) := by
  unfold texpStatusProhibit
  split
  · exact answers_ok (emitsOnly_setTimer .statusProhibit false s) le_rfl
  · exact answers_ok (.refl s) le_rfl

theorem emitsOnly_statusTerm (s : State) : EmitsOnly s (statusTerm s).2 := by
  unfold statusTerm
  dsimp only
  split
  · split
    · exact emitsOnly_of_same rfl rfl
    · exact .refl s
  · exact .refl s

theorem getBufferState_answers (s : State) : Answers 1 s (getBufferState s) :=
  answers_ok ((emitsOnly_statusTerm s).trans (emitsOnly_wordOrFree ..)) le_rfl

/-! ### STATUS reception (R188 to R192) -/

theorem emitsOnly_slotPdcpSn (id : Nat) (s : State) : EmitsOnly s (slotPdcpSn id s).2 := by
  unfold slotPdcpSn
  split
  · exact .refl s
  · exact emitsOnly_of_same rfl rfl

theorem emitsOnly_releaseSegs (ids : List Nat) (touched : List Word) (s : State) :
    EmitsOnly s (releaseSegs ids touched s).2 := by
  induction ids generalizing touched s with
  | nil => exact .refl s
  | cons id ids ih => exact (emitsOnly_slotPdcpSn id s).trans (ih ..)

theorem emitsOnly_pdcpSnsOf (ids : List Nat) (acc : List Word) (s : State) :
    EmitsOnly s (pdcpSnsOf ids acc s).2 := by
  induction ids generalizing acc s with
  | nil => exact .refl s
  | cons id ids ih => exact (emitsOnly_slotPdcpSn id s).trans (ih ..)

theorem emitsOnly_ackSnStep (sn : Sn) (touched : List Word) (s : State) :
    EmitsOnly s (ackSnStep sn touched s).2 := by
  have floor : ∀ u : State, EmitsOnly s u →
      EmitsOnly s (if sn = u.tx.vtA then { u with tx := { u.tx with vtA := sn + 1 } } else u) := by
    intro u hu
    split <;> exact hu
  unfold ackSnStep
  cases tableGet s.tx.window sn.toNat with
  | none => exact floor s (.refl s)
  | some t => exact floor _ (emitsOnly_releaseSegs t.segs touched s)

theorem emitsOnly_nackSnStep (sn : Sn) (t : TxEntry) (nacks : List Nack) (before : List Sn)
    (s : State) : EmitsOnly s (nackSnStep sn t nacks before s) := by
  unfold nackSnStep
  split
  · exact .refl s
  · dsimp only
    split
    · exact ((emitsOnly_pdcpSnsOf ..).trans (emitsOnly_emit ..)).after (emitsOnly_of_same rfl rfl)
    · exact emitsOnly_of_same rfl rfl

theorem emitsOnly_walk (nacks : List Nack) (before : List Sn) (n : Nat) (sn : Sn)
    (touched : List Word) (s : State) : EmitsOnly s (walk nacks before n sn touched s).2 := by
  induction n generalizing sn touched s with
  | zero => exact .refl s
  | succ n ih =>
    have first : EmitsOnly s (walkStep nacks before sn touched s).2 := by
      unfold walkStep
      dsimp only
      split
      · split
        · exact emitsOnly_ackSnStep ..
        · exact emitsOnly_nackSnStep ..
      · exact emitsOnly_ackSnStep ..
    exact first.trans (ih ..)

theorem emitsOnly_notify (touched : List Word) (s : State) : EmitsOnly s (notify touched s) := by
  unfold notify
  dsimp only
  split
  · exact emitsOnly_of_same rfl rfl
  · exact emitsOnly_emit ..

theorem emitsOnly_stopPollIfCovered (n : Nat) (s : State) : EmitsOnly s (stopPollIfCovered n s) := by
  unfold stopPollIfCovered
  split
  · exact emitsOnly_stopTimer ..
  · exact .refl s

theorem emitsOnly_fixFloor (s : State) : EmitsOnly s (fixFloor s) := emitsOnly_of_same rfl rfl

theorem processStatus_answers (st : StatusPdu) (s : State) : Answers 0 s (processStatus st s) :=
  answers_ok ((((emitsOnly_stopPollIfCovered _ s).trans (emitsOnly_walk ..)).trans
    (emitsOnly_fixFloor _)).trans (emitsOnly_notify ..)) le_rfl

theorem handleControlPdu_answers (b : List Byte) (s : State) : Answers 0 s (handleControlPdu b s) := by
  unfold handleControlPdu
  split
  · exact answers_error (.refl s)
  · split
    · exact processStatus_answers ..
    · exact answers_error (.refl s)

/-! ### Reception (R220 to R235) -/

theorem emitsOnly_takeFragment (continues : Bool) (f : List Byte) (s : State) :
    EmitsOnly s (takeFragment continues f s) := by
  unfold takeFragment
  split
  · split
    · split <;> exact emitsOnly_of_same rfl rfl
    · exact .refl s
  · split <;> exact emitsOnly_of_same rfl rfl

theorem emitsOnly_deliverIfEnded (ends : Bool) (s : State) :
    EmitsOnly s (deliverIfEnded ends s) := by
  unfold deliverIfEnded
  split
  · exact emitsOnly_emit (.deliverSdu s.rx.sdu) s
  · exact .refl s

/-- What one fragment of a PDU does (R231). -/
theorem emitsOnly_fragment (continues ends : Bool) (f : List Byte) (s : State) :
    EmitsOnly s (deliverIfEnded ends (takeFragment continues f s)) :=
  (emitsOnly_takeFragment ..).trans (emitsOnly_deliverIfEnded ..)

theorem emitsOnly_consumeFrom {entry : RxEntry} {li : List Nat} {off : Nat} {continues : Bool}
    {s t : State} (h : consumeFrom entry li off continues s = .ok t) : EmitsOnly s t := by
  induction li generalizing off continues s with
  | nil =>
    unfold consumeFrom at h
    split at h
    · cases h
    · cases h
      exact emitsOnly_fragment ..
  | cons l li ih =>
    unfold consumeFrom at h
    split at h
    · cases h
    · exact (emitsOnly_fragment ..).trans (ih h)

theorem emitsOnly_reassemble {n : Nat} {s t : State} (h : reassemble n s = .ok t) :
    EmitsOnly s t := by
  induction n generalizing s with
  | zero => cases h; exact .refl _
  | succ n ih =>
    unfold reassemble at h
    split at h
    · cases h; exact .refl _
    · split at h
      · cases h
      · next u hu =>
        have advanced : EmitsOnly u (advanceVrR u) := emitsOnly_of_same rfl rfl
        exact ((emitsOnly_consumeFrom hu).trans advanced).trans (ih h)

theorem emitsOnly_armReordering (s : State) : EmitsOnly s (armReordering s) :=
  emitsOnly_startTimer ..

theorem emitsOnly_updateReorderingTimer (s : State) : EmitsOnly s (updateReorderingTimer s) := by
  have stopped : EmitsOnly s
      (if s.rx.reordRunning && reordMustStop s then stopTimer .reordering s else s) := by
    split
    · exact emitsOnly_stopTimer ..
    · exact .refl s
  unfold updateReorderingTimer
  dsimp only
  generalize (if s.rx.reordRunning && reordMustStop s then stopTimer .reordering s else s) = u
    at stopped ⊢
  split
  · exact stopped.trans (emitsOnly_armReordering u)
  · exact stopped

theorem afterAccept_answers {h : Header} {s t : State} (ht : afterAccept h s = .ok t) :
    Answers 0 s t := by
  obtain ⟨m, u, -, hu, rfl⟩ := afterAccept_cases ht
  obtain ⟨_, _, _, e⟩ := acknowledged_updateVrH h m h.sn s
  rw [e] at hu
  have reassembled := emitsOnly_reassemble hu
  exact answers_ok (EmitsOnly.trans reassembled (emitsOnly_updateReorderingTimer u)) le_rfl

theorem receiveData_answers {h : Header} {d : List Byte} {s t : State}
    (ht : receiveData h d s = .ok t) : Answers 0 s t := by
  unfold receiveData at ht
  split at ht
  · cases ht; exact answers_error (.refl s)
  split at ht
  · cases ht; exact answers_error (.refl s)
  split at ht
  · split at ht
    · cases ht; exact answers_error (.refl s)
    · exact (afterAccept_answers ht).after (emitsOnly_of_same rfl rfl)
  · exact (afterAccept_answers ht).after (emitsOnly_of_same rfl rfl)

theorem writePdu_answers {b : List Byte} {s t : State} (h : writePdu b s = .ok t) :
    Answers 0 s t := by
  unfold writePdu at h
  split at h
  · cases h; exact answers_error (.refl s)
  split at h
  · split at h
    · cases h; exact answers_error (.refl s)
    · exact receiveData_answers h
  · cases h; exact handleControlPdu_answers ..

theorem emitsOnly_afterExpiry (m : Sn) (s : State) : EmitsOnly s (afterExpiry m s) := by
  unfold afterExpiry
  dsimp only
  split
  · exact emitsOnly_armReordering _
  · exact emitsOnly_of_same rfl rfl

theorem texpReordering_answers {s t : State} (h : texpReordering s = .ok t) : Answers 0 s t := by
  unfold texpReordering at h
  split at h
  · dsimp only at h
    split at h
    · cases h
    · cases h
      have expired := emitsOnly_setTimer .reordering false s
      exact answers_ok ((emitsOnly_afterExpiry ..).after expired) le_rfl
  · cases h; exact answers_ok (.refl s) le_rfl

/-! ### The diagnostic commands -/

theorem execDecDataHdr_answers {b : List Byte} {s t : State} (h : execDecDataHdr b s = .next t) :
    Answers 3 s t := by
  refine answers_of_requireLegal h fun h => ?_
  split at h
  · cases h; exact answers_error (.refl s)
  · cases h; exact answers_ok (.refl s) (by simp)

theorem execDecStatus_answers {b : List Byte} {s t : State} (h : execDecStatus b s = .next t) :
    Answers 2 s t := by
  refine answers_of_requireLegal h fun h => ?_
  split at h
  · cases h; exact answers_error (.refl s)
  · cases h; exact answers_ok (.refl s) (by simp)

theorem execPoolAlloc_answers {sn q : Word} {s t : State} (h : execPoolAlloc sn q s = .next t) :
    Answers 1 s t := by
  refine answers_of_requireLegal h fun h => ?_
  split at h
  · cases h; exact answers_error (.refl s)
  · cases h; exact answers_ok (emitsOnly_of_same rfl rfl) le_rfl

/-! ### Every command -/

/-- A clearing command under `DUAL_SEQ` answers in its second step (R85), every other command in its
one. -/
abbrev AnswersAtOnce (i : Instr) (s : State) : Prop :=
  s.params.dualSeq = false ∨ (i ≠ .reestablish ∧ i ≠ .stop)

/-- Every command that completes answers, with the result words of its opcode. -/
theorem exec_answers {i : Instr} {s t : State} (h : exec i s = .next t) (hi : AnswersAtOnce i s) :
    Answers i.opcode.fixedResults s t := by
  cases i with
  | reset => exact execReset_answers h
  | configure => exact execConfigure_answers h
  | reestablish =>
    rw [exec, execReestablish] at h
    split at h
    · cases h; exact clearingCommand_answers true (hi.resolve_right fun hne => hne.1 rfl)
    · cases h; exact answers_error (.refl s)
  | stop => cases h; exact clearingCommand_answers false (hi.resolve_right fun hne => hne.2 rfl)
  | getMetrics => cases h; exact answers_ok (.refl s) le_rfl
  | readVar => exact execReadVar_answers h
  | writeSdu =>
    refine answers_of_requireLegal h fun h => answers_of_dataPath h fun h => ?_
    cases h; exact writeSdu_answers ..
  | discardSdu =>
    refine answers_of_requireLegal h fun h => answers_of_dataPath h fun h => ?_
    cases h; exact discardSdu_answers ..
  | readPdu =>
    exact answers_of_requireLegal h fun h => answers_of_dataPath h fun h =>
      readPdu_answers (answerOf_next h)
  | writePdu =>
    exact answers_of_requireLegal h fun h => answers_of_dataPath h fun h =>
      writePdu_answers (answerOf_next h)
  | getBufferState =>
    rw [exec, execGetBufferState] at h
    refine answers_of_dataPath h fun h => ?_
    cases h; exact getBufferState_answers s
  | handleControlPdu =>
    refine answers_of_requireLegal h fun h => answers_of_dataPath h fun h => ?_
    cases h; exact handleControlPdu_answers ..
  | getStatusPdu =>
    refine answers_of_requireLegal h fun h => answers_of_dataPath h fun h => ?_
    cases h; exact answers_bytes (.refl s)
  | texpPollRetx =>
    rw [exec, execTexpPollRetx] at h
    refine answers_of_dataPath h fun h => ?_
    cases h; exact texpPollRetx_answers s
  | texpReordering =>
    rw [exec, execTexpReordering] at h
    exact answers_of_dataPath h fun h => texpReordering_answers (answerOf_next h)
  | texpStatusProhibit =>
    rw [exec, execTexpStatusProhibit] at h
    refine answers_of_dataPath h fun h => ?_
    cases h; exact texpStatusProhibit_answers s
  | encDataHdr =>
    rw [exec, execEncDataHdr] at h
    refine answers_of_requireLegal h fun h => ?_
    cases h; exact answers_ok (emitsOnly_wordOrFree ..) le_rfl
  | decDataHdr => exact execDecDataHdr_answers h
  | decStatus => exact execDecStatus_answers h
  | poolAlloc => exact execPoolAlloc_answers h
  | txModBase | rxModBase | encStatus | poolIsAcked =>
    simp only [exec, execTxModBase, execRxModBase, execEncStatus, execPoolIsAcked] at h
    refine answers_of_requireLegal h fun h => ?_
    cases h; exact answers_ok (.refl s) le_rfl
  | poolRelRlc | poolRelPdcp =>
    simp only [exec, execPoolRelRlc, execPoolRelPdcp] at h
    refine answers_of_requireLegal h fun h => ?_
    cases h; exact answers_ok (emitsOnly_of_same rfl rfl) le_rfl

end Sys2Proof.Machine

open Sys2Proof.Machine in
/-- Settles O7, from the events and the one answer of each command. -/
theorem oneResponsePerCommand : Obligations.OneResponsePerCommand := by
  intro i s t h hi
  obtain ⟨u, c, results, bytes, ⟨hport, events, hout⟩, rfl, hlen, hrefused⟩ := exec_answers h hi
  refine ⟨hport, events, c, results, bytes, ?_, hlen, hrefused⟩
  rw [respond_out, hout]
end

section
/-!
TX_MOD_BASE and RX_MOD_BASE (O15; R130, R131): what a legal argument word stands for, and what each command
answers to it.
-/
namespace Sys2Proof.Machine

/-- The SN of a legal argument word is the word's own number, so its distance is counted on that number
(R95, R130). -/
theorem modBase_snOfWord (b : Sn) {w : Word} (h : w.toNat ≤ 1023) :
    modBase b (snOfWord w) = (w.toNat + 1024 - b.toNat) % 1024 := by
  have hsn : (snOfWord w).toNat = w.toNat := by
    rw [snOfWord, BitVec.toNat_setWidth]
    omega
  rw [modBase_eq, hsn]

theorem legalSn_eq_true_iff {w : Word} : legalSn w = true ↔ w.toNat ≤ 1023 :=
  decide_eq_true_iff.trans Nat.lt_succ_iff

theorem legalSn_eq_false {w : Word} (h : 1023 < w.toNat) : legalSn w = false :=
  Bool.eq_false_iff.mpr fun hlegal => absurd (legalSn_eq_true_iff.mp hlegal) (Nat.not_le.mpr h)

/-- TX_MOD_BASE of a legal argument (R130). -/
theorem execTxModBase_of_legal {sn : Word} (h : sn.toNat ≤ 1023) (s : State) :
    execTxModBase sn s =
      .next (respond .ok [BitVec.ofNat 32 ((sn.toNat + 1024 - s.tx.vtA.toNat) % 1024)] [] s) := by
  rw [execTxModBase, legalSn_eq_true_iff.mpr h, requireLegal_true, txModBase, modBase_snOfWord _ h,
    wordOfNat]

/-- RX_MOD_BASE of a legal argument (R131). -/
theorem execRxModBase_of_legal {sn : Word} (h : sn.toNat ≤ 1023) (s : State) :
    execRxModBase sn s =
      .next (respond .ok [BitVec.ofNat 32 ((sn.toNat + 1024 - s.rx.vrR.toNat) % 1024)] [] s) := by
  rw [execRxModBase, legalSn_eq_true_iff.mpr h, requireLegal_true, rxModBase, modBase_snOfWord _ h,
    wordOfNat]

end Sys2Proof.Machine

open Sys2Proof.Machine in
/-- Settles O15: a legal argument passes the gate and its distance is answered, any other is refused by the
legality check that comes before every other one. -/
theorem modBaseValues : Obligations.ModBaseValues := by
  intro sn s
  constructor
  · intro hlegal
    exact ⟨execTxModBase_of_legal hlegal s, execRxModBase_of_legal hlegal s⟩
  · intro hbig
    have hillegal : legalSn sn = false := legalSn_eq_false hbig
    exact ⟨exec_of_illegal (i := .txModBase sn) hillegal, exec_of_illegal (i := .rxModBase sn) hillegal⟩
end

section
/-!
Bit strings and byte strings (R9, R73, R140): numbers determine bit strings of one length, what a byte string
reads at a bit offset (`bitsAt`), and that packing and unpacking are inverse.
-/
namespace Sys2Proof.Machine

/-! ### Bit strings as numbers -/

theorem natOfBits_cons (b : Bool) (l : List Bool) :
    natOfBits (b :: l) = b.toNat * 2 ^ l.length + natOfBits l := by
  simpa [natOfBits] using natOfBits_append [b] l

@[simp] theorem natOfBits_nil : natOfBits [] = 0 := rfl

@[simp] theorem natOfBits_replicate_false (n : Nat) : natOfBits (List.replicate n false) = 0 := by
  induction n with
  | zero => rfl
  | succ n ih => simp [List.replicate_succ, natOfBits_cons, ih]

/-- Bit strings of one length that spell one number are equal. -/
theorem eq_of_natOfBits_eq {l m : List Bool} (hlen : l.length = m.length)
    (h : natOfBits l = natOfBits m) : l = m := by
  rw [← bitsOf_natOfBits l, ← bitsOf_natOfBits m, hlen, h]

/-- A bit string starts with the `n` bits of the number that its first `n` bits spell. -/
theorem exists_bitsOf_append {n : Nat} {l : List Bool} (h : n ≤ l.length) :
    ∃ v t, v < 2 ^ n ∧ l = bitsOf n v ++ t := by
  have hlen : (l.take n).length = n := by simpa using h
  refine ⟨natOfBits (l.take n), l.drop n, ?_, ?_⟩
  · simpa only [hlen] using natOfBits_lt (l.take n)
  · have := bitsOf_natOfBits (l.take n)
    rw [hlen] at this
    rw [this, List.take_append_drop]

/-- The number a part of a bit string spells, by division of the whole one. -/
theorem natOfBits_part {l : List Bool} {off n : Nat} (h : off + n ≤ l.length) :
    natOfBits ((l.drop off).take n) = natOfBits l / 2 ^ (l.length - (off + n)) % 2 ^ n := by
  have hlen : ((l.drop off).take n).length = n := by simp; omega
  have hsplit : l = (l.take off ++ (l.drop off).take n) ++ l.drop (off + n) := by
    rw [List.append_assoc, ← List.drop_drop, List.take_append_drop, List.take_append_drop]
  have hrest := natOfBits_lt (l.drop (off + n))
  have hpart := natOfBits_lt ((l.drop off).take n)
  rw [hlen] at hpart
  rw [List.length_drop] at hrest
  conv_rhs => rw [hsplit, natOfBits_append, natOfBits_append, hlen]
  rw [← hsplit, List.length_drop, Nat.mul_comm, Nat.mul_add_div (Nat.two_pow_pos _),
    Nat.div_eq_of_lt hrest, Nat.add_zero, Nat.mul_comm, Nat.mul_add_mod, Nat.mod_eq_of_lt hpart]

/-! ### Byte strings -/

theorem bitsOf_eight (x : Byte) : natOfBits (bitsOf 8 x.toNat) = x.toNat := by
  rw [natOfBits_bitsOf, Nat.mod_eq_of_lt x.isLt]

/-- Unpacking, then packing. -/
theorem bytesOfBits_bitsOfBytes (b : List Byte) : bytesOfBits (bitsOfBytes b) = b := by
  have hn : (8 * b.length + 7) / 8 = b.length := by omega
  rw [bytesOfBits, bitsOfBytes_length, hn]
  induction b with
  | nil => rfl
  | cons x b ih =>
    have htake : (bitsOf 8 x.toNat ++ bitsOfBytes b ++ List.replicate 8 false).take 8 =
        bitsOf 8 x.toNat := by
      rw [List.append_assoc, List.take_left' (bitsOf_length ..)]
    rw [List.length_cons, takeBytes, bitsOfBytes_cons, htake, bitsOf_eight, BitVec.ofNat_toNat,
      BitVec.setWidth_eq, List.drop_left' (bitsOf_length ..), ih (by omega)]

/-- Byte strings with the same bits are equal. -/
theorem bitsOfBytes_injective : Function.Injective bitsOfBytes :=
  Function.LeftInverse.injective bytesOfBits_bitsOfBytes

theorem bitsOfBytes_drop (n : Nat) (b : List Byte) :
    bitsOfBytes (b.drop n) = (bitsOfBytes b).drop (8 * n) := by
  induction b generalizing n with
  | nil => simp
  | cons x b ih =>
    cases n with
    | zero => rfl
    | succ n =>
      rw [List.drop_succ_cons, ih, bitsOfBytes_cons, Nat.mul_succ, Nat.add_comm, ← List.drop_drop,
        List.drop_left' (bitsOf_length ..)]

theorem bitsOfBytes_take (n : Nat) (b : List Byte) :
    bitsOfBytes (b.take n) = (bitsOfBytes b).take (8 * n) := by
  induction b generalizing n with
  | nil => simp
  | cons x b ih =>
    cases n with
    | zero => rfl
    | succ n =>
      have hpast := List.take_length_add_append (l₁ := bitsOf 8 x.toNat) (l₂ := bitsOfBytes b) (8 * n)
      rw [bitsOf_length] at hpast
      rw [List.take_succ_cons, bitsOfBytes_cons, ih, bitsOfBytes_cons, Nat.mul_succ, Nat.add_comm, hpast]

/-- What the decoder's reader sees of packed bits: the bits, then as many zeros as the pad has. -/
theorem bitsOfBytes_bytesOfBits_eq (bits : List Bool) :
    bitsOfBytes (bytesOfBits bits) =
      bits ++ List.replicate (8 * ((bits.length + 7) / 8) - bits.length) false := by
  obtain ⟨pad, hbits, -, hzero⟩ := bitsOfBytes_bytesOfBits bits
  have hlen := congrArg List.length hbits
  rw [bitsOfBytes_length, bytesOfBits_length, List.length_append] at hlen
  rw [hbits, List.eq_replicate_of_mem hzero]
  congr 2
  omega

/-- A byte string is the base-256 digits of the number its bits spell. -/
theorem eq_digits_of_number (b : List Byte) : b = (List.range b.length).map fun j =>
    BitVec.ofNat 8 (natOfBits (bitsOfBytes b) / 2 ^ (8 * (b.length - 1 - j))) := by
  apply List.ext_getElem
  · simp
  intro j hj _
  have hpart := natOfBits_part (l := bitsOfBytes b) (off := 8 * j) (n := 8) (by simp; omega)
  rw [← bitsOfBytes_drop, List.drop_eq_getElem_cons hj, bitsOfBytes_cons,
    List.take_left' (bitsOf_length ..), bitsOf_eight, bitsOfBytes_length] at hpart
  apply BitVec.eq_of_toNat_eq
  rw [List.getElem_map, List.getElem_range, BitVec.toNat_ofNat, hpart]
  congr 3
  omega

/-! ### Reading at a bit offset -/

theorem foldl_bytes_eq (b : List Byte) :
    b.foldl (fun v x => v * 256 + x.toNat) 0 = natOfBits (bitsOfBytes b) := by
  induction b using List.reverseRecOn with
  | nil => rfl
  | append_singleton b x ih =>
    rw [List.foldl_append, ih, bitsOfBytes_append, natOfBits_append, bitsOfBytes_cons,
      bitsOfBytes_nil, List.append_nil, bitsOf_length, bitsOf_eight]
    rfl

/-- Inside the string, `bitsAt` spells the bits that stand there. -/
theorem bitsAt_eq {b : List Byte} {off n : Nat} (h : off + n ≤ 8 * b.length) :
    bitsAt b off n = natOfBits (((bitsOfBytes b).drop off).take n) := by
  rw [natOfBits_part (by simpa using h), bitsAt, foldl_bytes_eq, bitsOfBytes_length]

/-- Where the bits from `s` on are `u`, then `w`, `bitsAt` reads `w` behind `u`. -/
theorem bitsAt_of_drop {b : List Byte} {s off n : Nat} {u w t : List Bool}
    (h : (bitsOfBytes b).drop s = u ++ (w ++ t)) (hoff : off = s + u.length) (hn : w.length = n) :
    bitsAt b off n = natOfBits w := by
  have hlen := congrArg List.length h
  simp only [List.length_drop, bitsOfBytes_length, List.length_append] at hlen
  cases n with
  | zero => rw [List.length_eq_zero_iff.mp hn, bitsAt, pow_zero, Nat.mod_one, natOfBits_nil]
  | succ n =>
    rw [bitsAt_eq (by omega), hoff, ← List.drop_drop, h, List.drop_left, List.take_left' hn]

/-- The one bit behind `u`. -/
theorem bitsAt_bit_of_drop {b : List Byte} {s : Nat} {u t : List Bool} {x : Bool} (off : Nat)
    (h : (bitsOfBytes b).drop s = u ++ (x :: t)) (hoff : off = s + u.length) :
    bitsAt b off 1 = x.toNat := by
  rw [bitsAt_of_drop (n := 1) (w := [x]) h hoff rfl, natOfBits_cons, natOfBits_nil]
  exact Nat.mul_one _

/-- A single bit inside the string. -/
theorem bitsAt_single {b : List Byte} {off : Nat} (h : off < 8 * b.length) :
    bitsAt b off 1 = ((bitsOfBytes b).getD off false).toNat := by
  have hlen : off < (bitsOfBytes b).length := by rwa [bitsOfBytes_length]
  rw [bitsAt_bit_of_drop (u := []) off (List.drop_eq_getElem_cons hlen) rfl,
    List.getD_eq_getElem _ _ hlen]

end Sys2Proof.Machine
end

section
/-!
The Data-PDU header (R100 to R104, R141 to R144): what the decoder answers to the fixed fields and to one
12-bit pair, and from that the two directions of the round trip.
-/
namespace Sys2Proof.Machine

/-! ### Reading one field after another -/

/-- `put` after `get` for an SN. -/
theorem sn_of_bits (sn : Sn) : BitVec.ofNat 10 (natOfBits (bitsOf 10 sn.toNat)) = sn := by
  rw [natOfBits_bitsOf, Nat.mod_eq_of_lt sn.isLt, BitVec.ofNat_toNat, BitVec.setWidth_eq]

theorem natOfBits_bitsOf_of_lt {n v : Nat} (h : v < 2 ^ n) : natOfBits (bitsOf n v) = v := by
  rw [natOfBits_bitsOf, Nat.mod_eq_of_lt h]

/-- A bit string starts with an SN. -/
theorem exists_sn_append {l : List Bool} (h : 10 ≤ l.length) :
    ∃ (sn : Sn) (t : List Bool), l = bitsOf 10 sn.toNat ++ t := by
  obtain ⟨v, t, hv, rfl⟩ := exists_bitsOf_append h
  exact ⟨BitVec.ofNat 10 v, t, by rw [BitVec.toNat_ofNat, Nat.mod_eq_of_lt hv]⟩

theorem exists_cons_of_lt {l : List Bool} {n : Nat} (h : n + 1 ≤ l.length) :
    ∃ b t, l = b :: t ∧ n ≤ t.length := by
  obtain ⟨b, t, rfl⟩ := List.exists_cons_of_length_pos (l := l) (by omega)
  exact ⟨b, t, rfl, by simpa using h⟩

/-! ### The chain of length indicators (R102) -/

/-- A length indicator that the chain can hold (R141). -/
abbrev LiOk (l : Nat) : Prop := 1 ≤ l ∧ l ≤ 2047

/-- The 12 bits of one pair: whether another follows, and the length indicator. -/
def pairBits (more : Bool) (l : Nat) : List Bool := more :: bitsOf 11 l

theorem pairBits_length (more : Bool) (l : Nat) : (pairBits more l).length = 12 := by
  rw [pairBits, List.length_cons, bitsOf_length]

theorem liBits_cons (l : Nat) (li : List Nat) :
    liBits (l :: li) = pairBits (!li.isEmpty) l ++ liBits li := rfl

theorem exists_pairBits {bits : List Bool} (h : 12 ≤ bits.length) :
    ∃ more l t, l ≤ 2047 ∧ bits = pairBits more l ++ t := by
  obtain ⟨more, rest, rfl, hrest⟩ := exists_cons_of_lt h
  obtain ⟨l, t, hl, rfl⟩ := exists_bitsOf_append hrest
  exact ⟨more, l, t, Nat.le_of_lt_succ hl, rfl⟩

theorem decodeLis_of_short {bits : List Bool} (h : bits.length < 12) (cap : Nat) :
    decodeLis cap bits = none := by
  cases cap with
  | zero => rfl
  | succ cap => rw [decodeLis, if_pos h]

/-- What the decoder makes of one pair: its length indicator is refused when it is 0, and the chain goes on
when the pair says so (R143). -/
theorem decodeLis_pairBits (cap : Nat) (more : Bool) {l : Nat} (hl : l ≤ 2047) (t : List Bool) :
    decodeLis (cap + 1) (pairBits more l ++ t) =
      if l = 0 then none else if more = true then (decodeLis cap t).map (l :: ·) else some [l] := by
  have hlen : ¬ (pairBits more l ++ t).length < 12 := by
    rw [List.length_append, pairBits_length]; omega
  have hvalue : natOfBits (((pairBits more l ++ t).drop 1).take 11) = l := by
    rw [pairBits, List.cons_append, List.drop_succ_cons, List.drop_zero,
      List.take_left' (bitsOf_length ..), natOfBits_bitsOf_of_lt (Nat.lt_succ_of_le hl)]
  rw [decodeLis, if_neg hlen]
  dsimp only
  rw [hvalue, List.drop_left' (pairBits_length ..)]
  simp only [pairBits, List.cons_append, List.head?_cons, Option.some.injEq]

theorem decodeLis_liBits {li : List Nat} {cap : Nat} (hne : li ≠ []) (hcap : li.length ≤ cap)
    (hli : ∀ l ∈ li, LiOk l) (rest : List Bool) : decodeLis cap (liBits li ++ rest) = some li := by
  induction li generalizing cap with
  | nil => exact absurd rfl hne
  | cons l li ih =>
    obtain ⟨⟨hpos, hmax⟩, hrest⟩ := List.forall_mem_cons.mp hli
    obtain ⟨cap, rfl⟩ := Nat.exists_eq_succ_of_ne_zero (n := cap) (by rintro rfl; cases hcap)
    rw [liBits_cons, List.append_assoc, decodeLis_pairBits _ _ hmax, if_neg (by omega)]
    cases li with
    | nil => rfl
    | cons m li =>
      rw [ih (by simp) (Nat.le_of_succ_le_succ hcap) hrest]
      rfl

/-- The chains that decode are those the encoder writes. -/
theorem liBits_of_decodeLis {cap : Nat} {bits : List Bool} {li : List Nat}
    (h : decodeLis cap bits = some li) :
    li ≠ [] ∧ li.length ≤ cap ∧ (∀ l ∈ li, LiOk l) ∧ ∃ rest, bits = liBits li ++ rest := by
  induction cap generalizing bits li with
  | zero => cases h
  | succ cap ih =>
    rcases Nat.lt_or_ge bits.length 12 with hshort | hlong
    · rw [decodeLis_of_short hshort] at h
      cases h
    obtain ⟨more, l, t, hl, rfl⟩ := exists_pairBits hlong
    rw [decodeLis_pairBits _ _ hl] at h
    rcases Nat.eq_zero_or_pos l with rfl | hpos
    · cases h
    rw [if_neg (by omega)] at h
    cases more with
    | false =>
      cases h
      exact ⟨by simp, Nat.succ_le_succ (Nat.zero_le _), List.forall_mem_singleton.mpr ⟨hpos, hl⟩, t, rfl⟩
    | true =>
      obtain ⟨li, hli, rfl⟩ := Option.map_eq_some_iff.mp h
      obtain ⟨hne, hcap, hok, rest, rfl⟩ := ih hli
      refine ⟨by simp, Nat.succ_le_succ hcap,
        List.forall_mem_cons.mpr ⟨⟨hpos, hl⟩, hok⟩, rest, ?_⟩
      rw [liBits_cons, List.isEmpty_eq_false_iff.mpr hne, List.append_assoc]
      rfl

/-! ### The fixed fields (R100, R101) -/

/-- The fields before the length indicators are ones that the encoder accepts (R141). -/
abbrev FixedFieldsOk (h : Header) : Prop :=
  h.dc = true ∧ (h.rf = true ∨ (h.lsf = false ∧ h.so = 0)) ∧ h.so ≤ 32767

theorem headerEncodable_iff {p : Params} {h : Header} : headerEncodable p h = true ↔
    FixedFieldsOk h ∧ h.li.length ≤ p.nLiMax ∧ ∀ l ∈ h.li, LiOk l := by
  simp only [headerEncodable, FixedFieldsOk, Bool.and_eq_true, Bool.or_eq_true, decide_eq_true_eq,
    List.all_eq_true, Bool.not_eq_true']
  tauto

/-- The fixed and segment fields, the last bit of the first six saying whether a chain follows. -/
def fixedBits (h : Header) (more : Bool) : List Bool :=
  [true, h.rf, h.p, h.fiS, h.fiE, more] ++ bitsOf 10 h.sn.toNat ++
    (if h.rf then h.lsf :: bitsOf 15 h.so else [])

theorem headerBits_eq (h : Header) : headerBits h = fixedBits h (!h.li.isEmpty) ++ liBits h.li := rfl

theorem fixedBits_length (h : Header) (more : Bool) :
    (fixedBits h more).length = if h.rf = true then 32 else 16 := by
  cases hrf : h.rf <;> simp [fixedBits, hrf]

theorem decodeFixed_fixedBits {h : Header} (hok : FixedFieldsOk h) (more : Bool) (t : List Bool) :
    decodeFixed (fixedBits h more ++ t) = { h with li := [] } := by
  obtain ⟨hdc, hrf, hso⟩ := hok
  have hsn := sn_of_bits h.sn
  have hoffset : h.so % 32768 = h.so := Nat.mod_eq_of_lt (Nat.lt_succ_of_le hso)
  obtain ⟨dc, rf, p, fiS, fiE, sn, lsf, so, li⟩ := h
  dsimp only at hdc hrf hso hsn hoffset
  subst hdc
  cases rf with
  | false =>
    obtain ⟨rfl, rfl⟩ := hrf.resolve_left Bool.false_ne_true
    simpa [decodeFixed, fixedBits] using hsn
  | true =>
    have hpast : (bitsOf 10 sn.toNat).drop 11 = [] := List.drop_of_length_le (by simp)
    simpa [decodeFixed, fixedBits, List.drop_append, hpast, hoffset] using hsn

/-- Bits that hold the fixed fields of a Data PDU are the fields of some header. -/
theorem exists_fixedBits {bits : List Bool} (hlen : 16 ≤ bits.length)
    (hdc : bits.getD 0 false = true) (hseg : bits.getD 1 false = true → 32 ≤ bits.length) :
    ∃ h more t, FixedFieldsOk h ∧ h.li = [] ∧ bits = fixedBits h more ++ t := by
  obtain ⟨dc, bits, rfl, h15⟩ := exists_cons_of_lt hlen
  obtain ⟨rf, bits, rfl, h14⟩ := exists_cons_of_lt h15
  obtain ⟨p, bits, rfl, h13⟩ := exists_cons_of_lt h14
  obtain ⟨fiS, bits, rfl, h12⟩ := exists_cons_of_lt h13
  obtain ⟨fiE, bits, rfl, h11⟩ := exists_cons_of_lt h12
  obtain ⟨more, bits, rfl, h10⟩ := exists_cons_of_lt h11
  obtain ⟨sn, t, rfl⟩ := exists_sn_append h10
  obtain rfl : dc = true := hdc
  cases rf with
  | false => exact ⟨⟨true, false, p, fiS, fiE, sn, false, 0, []⟩, more, t,
      ⟨rfl, .inr ⟨rfl, rfl⟩, Nat.zero_le _⟩, rfl, rfl⟩
  | true =>
    have ht : 16 ≤ t.length := by
      have := hseg rfl
      simp only [List.length_cons, List.length_append, bitsOf_length] at this
      omega
    obtain ⟨lsf, rest, rfl, hrest⟩ := exists_cons_of_lt ht
    obtain ⟨so, t, hso, rfl⟩ := exists_bitsOf_append hrest
    refine ⟨⟨true, true, p, fiS, fiE, sn, lsf, so, []⟩, more, t,
      ⟨rfl, .inl rfl, Nat.le_of_lt_succ hso⟩, rfl, ?_⟩
    simp [fixedBits]

/-! ### The whole header (R143, R144) -/

theorem hdrLen_withLi (h : Header) (li : List Nat) :
    hdrLen { h with li := li } = (if h.rf = true then 4 else 2) + (li.length + (li.length + 1) / 2) := by
  cases hrf : h.rf <;> simp [hdrLen, ceilOneAndHalf]

/-- What the decoder answers to bytes that start with the fixed fields of `h`: the chain is read when there is
one, and the payload must be longer than the length indicators say (R143). -/
theorem decodeDataHeader_of_fixedBits (p : Params) {b : List Byte} {h : Header} {more : Bool}
    {t : List Bool} (hok : FixedFieldsOk h) (hbits : bitsOfBytes b = fixedBits h more ++ t) :
    decodeDataHeader p b = (if more = true then decodeLis p.nLiMax t else some []).bind fun li =>
      if b.length ≤ hdrLen { h with li := li } + li.sum then none
      else some ({ h with li := li }, hdrLen { h with li := li }) := by
  have hlen := congrArg List.length hbits
  rw [bitsOfBytes_length, List.length_append, fixedBits_length] at hlen
  have htwo : ¬ b.length < 2 := by split_ifs at hlen <;> omega
  have hseg : (h.rf && decide (b.length < 4)) = false := by
    cases hrf : h.rf with
    | false => rfl
    | true => rw [hrf, if_pos rfl] at hlen; simp; omega
  have hmore : (fixedBits h more ++ t).getD 5 false = more := rfl
  have hrest : (fixedBits h more ++ t).drop (if h.rf = true then 32 else 16) = t :=
    List.drop_left' (fixedBits_length ..)
  rw [decodeDataHeader, if_neg htwo, hbits]
  simp only [decodeFixed_fixedBits hok, hmore, hrest, hseg, hok.1, Bool.not_true, Bool.false_eq_true,
    if_false]
  cases (if more = true then decodeLis p.nLiMax t else some []) with
  | none => rfl
  | some li =>
    dsimp only [Option.bind_some]
    split_ifs with hheader hpayload hboth hboth
    · rfl
    · omega
    · rfl
    · omega
    · omega
    · rfl

/-- The bytes do not hold the fixed fields of a Data PDU: fewer than 2, a control PDU, or a segment of fewer
than 4 (R100, R101). -/
def FixedFieldsMissing (b : List Byte) : Prop :=
  b.length < 2 ∨ (bitsOfBytes b).getD 0 false = false ∨
    ((bitsOfBytes b).getD 1 false = true ∧ b.length < 4)

theorem decodeDataHeader_of_missing (p : Params) {b : List Byte} (h : FixedFieldsMissing b) :
    decodeDataHeader p b = none := by
  rw [decodeDataHeader]
  rcases h with hshort | hcontrol | ⟨hseg, hshort⟩
  · rw [if_pos hshort]
  · simp only [decodeFixed, hcontrol, Bool.not_false, if_true, ite_self]
  · simp only [decodeFixed, hseg, decide_eq_true hshort, Bool.and_self, if_true, ite_self]

/-- Bytes that do hold the fixed fields start with those of some header. -/
theorem exists_fixedBits_of_not_missing {b : List Byte} (h : ¬ FixedFieldsMissing b) :
    ∃ h more t, FixedFieldsOk h ∧ h.li = [] ∧ bitsOfBytes b = fixedBits h more ++ t := by
  simp only [FixedFieldsMissing, not_or, not_and, Nat.not_lt, Bool.not_eq_false] at h
  obtain ⟨hlen, hdc, hseg⟩ := h
  refine exists_fixedBits ?_ hdc fun hrf => ?_
  · rw [bitsOfBytes_length]; omega
  · have := hseg hrf
    rw [bitsOfBytes_length]
    omega

/-- The bits of a byte string that starts with the header of `h` (R143): the answer for any rest. -/
theorem decodeDataHeader_of_headerBits {p : Params} {b : List Byte} {h : Header} {rest : List Bool}
    (hok : headerEncodable p h = true) (hbits : bitsOfBytes b = headerBits h ++ rest) :
    decodeDataHeader p b =
      if b.length ≤ hdrLen h + h.li.sum then none else some (h, hdrLen h) := by
  obtain ⟨hfixed, hcap, hli⟩ := headerEncodable_iff.mp hok
  rw [headerBits_eq, List.append_assoc] at hbits
  rw [decodeDataHeader_of_fixedBits p hfixed hbits]
  have hchain : (if (!h.li.isEmpty) = true then decodeLis p.nLiMax (liBits h.li ++ rest) else some []) =
      some h.li := by
    cases hl : h.li with
    | nil => rfl
    | cons l li =>
      rw [hl] at hcap hli
      exact decodeLis_liBits (by simp) hcap hli rest
  rw [hchain, Option.bind_some]

/-- What decodes is the encoding of a header that the encoder accepts, and a payload longer than its length
indicators say (R143, R144). -/
theorem headerBits_of_decodeDataHeader {p : Params} {b : List Byte} {h : Header} {len : Nat}
    (hd : decodeDataHeader p b = some (h, len)) :
    headerEncodable p h = true ∧ len = hdrLen h ∧ hdrLen h + h.li.sum < b.length ∧
      ∃ rest, bitsOfBytes b = headerBits h ++ rest := by
  have hhold : ¬ FixedFieldsMissing b := fun hmissing => by
    rw [decodeDataHeader_of_missing p hmissing] at hd
    cases hd
  obtain ⟨g, more, t, hok, -, hbits⟩ := exists_fixedBits_of_not_missing hhold
  rw [decodeDataHeader_of_fixedBits p hok hbits] at hd
  obtain ⟨li, hchain, hd⟩ := Option.bind_eq_some_iff.mp hd
  split_ifs at hd with hpayload
  cases hd
  have hli : li.length ≤ p.nLiMax ∧ (∀ l ∈ li, LiOk l) ∧
      ∃ rest, bitsOfBytes b = fixedBits g (!li.isEmpty) ++ (liBits li ++ rest) := by
    cases more with
    | false =>
      cases hchain
      exact ⟨Nat.zero_le _, by simp, t, hbits⟩
    | true =>
      obtain ⟨hne, hcap, hval, rest, rfl⟩ := liBits_of_decodeLis hchain
      rw [List.isEmpty_eq_false_iff.mpr hne]
      exact ⟨hcap, hval, rest, hbits⟩
  obtain ⟨hcap, hval, rest, hrest⟩ := hli
  refine ⟨headerEncodable_iff.mpr ⟨hok, hcap, hval⟩, rfl, Nat.lt_of_not_le hpayload, rest, ?_⟩
  rw [hrest, headerBits_eq, List.append_assoc]
  rfl

end Sys2Proof.Machine
end

section
/-!
The length of a header (O16) and the round trip of Data-PDU headers (O17; R103, R142, R144).
-/
namespace Sys2Proof.Machine

theorem encodeDataHeader_length (h : Header) : (encodeDataHeader h).length = hdrLen h := by
  rw [encodeDataHeader, bytesOfBits_length, headerBits_length, hdrLen, ceilOneAndHalf]
  split_ifs <;> omega

/-- The header's bits fill its bytes, but for a nibble when the count of length indicators is odd (R102). -/
theorem headerBits_length_add_pad (h : Header) :
    (headerBits h).length + 4 * (h.li.length % 2) = 8 * hdrLen h := by
  rw [headerBits_length, hdrLen, ceilOneAndHalf]
  split_ifs <;> omega

theorem bitsOfBytes_encodeDataHeader (h : Header) : bitsOfBytes (encodeDataHeader h) =
    headerBits h ++ List.replicate (4 * (h.li.length % 2)) false := by
  have hpad := headerBits_length_add_pad h
  have hlen := encodeDataHeader_length h
  rw [encodeDataHeader, bytesOfBits_length] at hlen
  rw [encodeDataHeader, bitsOfBytes_bytesOfBits_eq, hlen]
  congr 2
  omega

theorem decodeDataHeader_encodeDataHeader {p : Params} {h : Header}
    (hok : headerEncodable p h = true) (d : List Byte) :
    decodeDataHeader p (encodeDataHeader h ++ d) =
      if d.length ≤ h.li.sum then none else some (h, hdrLen h) := by
  have hbits : bitsOfBytes (encodeDataHeader h ++ d) =
      headerBits h ++ (List.replicate (4 * (h.li.length % 2)) false ++ bitsOfBytes d) := by
    rw [bitsOfBytes_append, bitsOfBytes_encodeDataHeader, List.append_assoc]
  rw [decodeDataHeader_of_headerBits hok hbits, List.length_append, encodeDataHeader_length]
  simp only [Nat.add_le_add_iff_left]

/-- With an even count the header is the first bytes of what starts with its bits. -/
theorem encodeDataHeader_of_even {b : List Byte} {h : Header} {rest : List Bool}
    (hbits : bitsOfBytes b = headerBits h ++ rest) (heven : h.li.length % 2 = 0) :
    encodeDataHeader h = b.take (hdrLen h) := by
  have hpad := headerBits_length_add_pad h
  rw [heven, Nat.mul_zero, Nat.add_zero] at hpad
  apply bitsOfBytes_injective
  rw [bitsOfBytes_encodeDataHeader, heven, bitsOfBytes_take, hbits, List.take_left' hpad]
  exact List.append_nil _

/-- The upper nibble of a byte, with zeros below. -/
theorem bitsOf_upper_nibble (x : Byte) :
    bitsOf 8 (x &&& 0xF0).toNat = (bitsOf 8 x.toNat).take 4 ++ List.replicate 4 false := by
  have hmask : bitsOf 8 0xF0 = [true, true, true, true, false, false, false, false] := rfl
  simp only [bitsOf, List.cons.injEq] at hmask
  simp [bitsOf, Nat.testBit_and, hmask, List.replicate]

/-- With an odd count the lower nibble of the last byte is the pad, which the encoder writes as 0. -/
theorem encodeDataHeader_of_odd {b : List Byte} {h : Header} {rest : List Bool} {last : Byte}
    (hbits : bitsOfBytes b = headerBits h ++ rest) (hodd : h.li.length % 2 = 1)
    (hlast : b[hdrLen h - 1]? = some last) :
    encodeDataHeader h = b.take (hdrLen h - 1) ++ [last &&& 0xF0] := by
  have hpad := headerBits_length_add_pad h
  rw [hodd, Nat.mul_one] at hpad
  obtain ⟨hlt, hget⟩ := List.getElem?_eq_some_iff.mp hlast
  have hend : bitsOf 8 last.toNat ++ bitsOfBytes (b.drop (hdrLen h - 1 + 1)) =
      (bitsOfBytes b).drop (8 * (hdrLen h - 1)) := by
    rw [← bitsOfBytes_drop, List.drop_eq_getElem_cons hlt, hget, bitsOfBytes_cons]
  have hnibble : (bitsOf 8 last.toNat).take 4 =
      ((bitsOfBytes b).drop (8 * (hdrLen h - 1))).take 4 := by
    rw [← hend, List.take_append_of_le_length (by simp)]
  have hheader : (bitsOfBytes b).take (8 * (hdrLen h - 1)) ++ (bitsOf 8 last.toNat).take 4 =
      headerBits h := by
    rw [hnibble, ← List.take_add, hbits, List.take_left' (by omega)]
  apply bitsOfBytes_injective
  rw [bitsOfBytes_encodeDataHeader, hodd, bitsOfBytes_append, bitsOfBytes_take, bitsOfBytes_cons,
    bitsOf_upper_nibble, bitsOfBytes_nil, List.append_nil, ← List.append_assoc, hheader, Nat.mul_one]

end Sys2Proof.Machine

open Sys2Proof.Machine in
/-- Settles O16, from the number of bits of a header. -/
theorem headerLength : Obligations.HeaderLength := by
  refine ⟨encodeDataHeader_length, fun p b h len hd => ?_⟩
  obtain ⟨-, hlen, -⟩ := headerBits_of_decodeDataHeader hd
  exact hlen

open Sys2Proof.Machine in
/-- Settles O17: the decoder reads the bits the encoder packed, and packing those of a decoded header again
gives its bytes, up to the pad nibble. -/
theorem dataHeaderRoundTrip : Obligations.DataHeaderRoundTrip := by
  refine fun p => ⟨fun h d hok hpayload => ?_, fun b h len hd => ?_⟩
  · rw [decodeDataHeader_encodeDataHeader hok, if_neg (Nat.not_le.mpr hpayload)]
  · obtain ⟨hok, rfl, hlong, rest, hbits⟩ := headerBits_of_decodeDataHeader hd
    refine ⟨hok, by omega, encodeDataHeader_of_even hbits, fun hodd => ?_⟩
    have hin : hdrLen h - 1 < b.length := by omega
    exact ⟨b[hdrLen h - 1], List.getElem?_eq_getElem hin,
      encodeDataHeader_of_odd hbits hodd (List.getElem?_eq_getElem hin)⟩
end

section
/-!
STATUS truncation (O20; R145): what is kept, and to which SN `ack_sn` is lowered.
-/
namespace Sys2Proof.Machine

/-- The `status_len` of a STATUS PDU with these elements (R111). -/
def nacksLen (l : List Nack) : Nat := (15 + (l.map nackCost).sum + 7) / 8

/-- The element at `j`, if there is one, has an SN that an element before it has too. -/
def Repeated (l : List Nack) (j : Nat) : Prop :=
  ∀ n ∈ l[j]?, ∃ e ∈ l.take j, e.nackSn = n.nackSn

theorem repeated_of_length_le {l : List Nack} {j : Nat} (h : l.length ≤ j) : Repeated l j := by
  simp [Repeated, List.getElem?_eq_none h]

theorem repeated_append_of_lt {l : List Nack} (last : Nack) {j : Nat} (h : j < l.length) :
    Repeated (l ++ [last]) j ↔ Repeated l j := by
  rw [Repeated, Repeated, List.getElem?_append_left h, List.take_append_of_le_length h.le]

theorem repeated_append_last (l : List Nack) (last : Nack) :
    Repeated (l ++ [last]) l.length ↔ ∃ e ∈ l, e.nackSn = last.nackSn := by
  simp [Repeated]

/-- With distinct SNs no element is repeated. -/
theorem not_repeated_of_nodup {l : List Nack} {j : Nat} (hnodup : (l.map (·.nackSn)).Nodup)
    (hj : j < l.length) : ¬ Repeated l j := by
  intro h
  obtain ⟨e, he, hsn⟩ := h l[j] (List.getElem?_eq_getElem hj)
  obtain ⟨i, hi, rfl⟩ := List.mem_take_iff_getElem.mp he
  have hlt : i < l.length := by omega
  have hij : i = j := hnodup.getElem_inj_iff (hi := by simpa using hlt) (hj := by simpa using hj) |>.mp
    (by simpa using hsn)
  omega

/-- What truncation has done when it answers `ack` and the first `k` elements: they fit, no more would,
and `ack` is the SN of the first dropped element that is not repeated, or `ack0` when all are (R145). -/
structure Truncation (maxLen : Nat) (l : List Nack) (ack0 : Sn) (k : Nat) (ack : Sn) : Prop where
  count_le : k ≤ l.length
  fits : nacksLen (l.take k) ≤ maxLen
  longest : ∀ j, k < j → j ≤ l.length → maxLen < nacksLen (l.take j)
  same : (∀ j, k ≤ j → Repeated l j) → ack = ack0
  lowered : ∀ j, k ≤ j → (∀ i, k ≤ i → i < j → Repeated l i) → ¬ Repeated l j →
    ∀ n ∈ l[j]?, ack = n.nackSn

/-- Nothing is dropped from a status that fits. -/
theorem truncation_of_fits {maxLen : Nat} {l : List Nack} (h : nacksLen l ≤ maxLen) (ack : Sn) :
    Truncation maxLen l ack l.length ack where
  count_le := le_rfl
  fits := by rwa [List.take_length]
  longest := by omega
  same := fun _ => rfl
  lowered := fun _ hj _ hnot => absurd (repeated_of_length_le hj) hnot

/-- Dropping one more element first, as one pass of the loop does. -/
theorem Truncation.append {maxLen : Nat} {l : List Nack} {last : Nack} {ack0 ack : Sn} {k : Nat}
    (hlong : maxLen < nacksLen (l ++ [last]))
    (h : Truncation maxLen l
      (if l.any (fun n => decide (n.nackSn = last.nackSn)) then ack0 else last.nackSn) k ack) :
    Truncation maxLen (l ++ [last]) ack0 k ack := by
  have hany : l.any (fun n => decide (n.nackSn = last.nackSn)) = true ↔
      Repeated (l ++ [last]) l.length := by simp [repeated_append_last]
  have hshorter : ∀ {j}, j ≤ l.length → (l ++ [last]).take j = l.take j :=
    List.take_append_of_le_length
  have hk := h.count_le
  have hlength : (l ++ [last]).length = l.length + 1 := by simp
  /- Below `last` repetition is the same in both lists. -/
  have hbelow : ∀ {m}, m ≤ l.length → (∀ i, k ≤ i → i < m → Repeated (l ++ [last]) i) →
      ∀ i, k ≤ i → i < m → Repeated l i := fun hm hrep i hki him =>
    (repeated_append_of_lt last (by omega)).mp (hrep i hki him)
  have hall : (∀ i, k ≤ i → i < l.length → Repeated (l ++ [last]) i) →
      ∀ i, k ≤ i → Repeated l i := by
    intro hrep i hki
    rcases Nat.lt_or_ge i l.length with hi | hi
    · exact hbelow le_rfl hrep i hki hi
    · exact repeated_of_length_le hi
  refine ⟨by omega, ?_, ?_, ?_, ?_⟩
  · rw [hshorter hk]
    exact h.fits
  · intro j hkj hj
    rcases Nat.lt_or_ge l.length j with hend | hinside
    · rwa [List.take_of_length_le (by omega)]
    · rw [hshorter hinside]
      exact h.longest j hkj hinside
  · intro hrep
    have := h.same (hall fun i hki _ => hrep i hki)
    rwa [if_pos (hany.mpr (hrep _ hk))] at this
  · intro j hkj hrep hnot n hn
    rcases Nat.lt_trichotomy j l.length with hj | rfl | hj
    · rw [List.getElem?_append_left hj] at hn
      exact h.lowered j hkj (hbelow hj.le hrep)
        (fun h' => hnot ((repeated_append_of_lt last hj).mpr h')) n hn
    · have := h.same (hall hrep)
      rw [if_neg (fun h' => hnot (hany.mp h'))] at this
      obtain rfl : last = n := by simpa using hn
      exact this
    · exact absurd (repeated_of_length_le (by omega)) hnot

/-- One pass drops the last element, and lowers `ack_sn` to its SN unless another element has it (R145). -/
theorem dropLastNack_append (ack : Sn) (l : List Nack) (last : Nack) :
    dropLastNack ⟨ack, l ++ [last]⟩ =
      ⟨if l.any (fun n => decide (n.nackSn = last.nackSn)) then ack else last.nackSn, l⟩ := by
  simp [dropLastNack]

theorem truncateLoop_append (maxLen fuel : Nat) (ack : Sn) (l : List Nack) (last : Nack) :
    truncateLoop maxLen (fuel + 1) ⟨ack, l ++ [last]⟩ =
      if maxLen < nacksLen (l ++ [last]) then
        truncateLoop maxLen fuel
          ⟨if l.any (fun n => decide (n.nackSn = last.nackSn)) then ack else last.nackSn, l⟩
      else ⟨ack, l ++ [last]⟩ := by
  have hne : (l ++ [last]).isEmpty = false := by simp
  rw [truncateLoop, dropLastNack_append]
  simp only [hne, Bool.not_false, Bool.true_and, decide_eq_true_eq]
  rfl

/-- The loop of R145 truncates. -/
theorem truncateLoop_truncation {maxLen : Nat} (hmax : 2 ≤ maxLen) (l : List Nack) (ack0 : Sn) :
    ∃ k ack, truncateLoop maxLen l.length ⟨ack0, l⟩ = ⟨ack, l.take k⟩ ∧
      Truncation maxLen l ack0 k ack := by
  induction l using List.reverseRecOn generalizing ack0 with
  | nil => exact ⟨0, ack0, rfl, truncation_of_fits (by simpa [nacksLen] using hmax) ack0⟩
  | append_singleton l last ih =>
    rw [List.length_append, List.length_singleton, truncateLoop_append]
    rcases Nat.lt_or_ge maxLen (nacksLen (l ++ [last])) with hlong | hfits
    · rw [if_pos hlong]
      obtain ⟨k, ack, hloop, htrunc⟩ := ih _
      refine ⟨k, ack, ?_, htrunc.append hlong⟩
      rw [hloop, List.take_append_of_le_length htrunc.count_le]
    · rw [if_neg (Nat.not_lt.mpr hfits)]
      exact ⟨_, ack0, by rw [List.take_length], truncation_of_fits hfits ack0⟩

theorem truncateStatus_truncation {maxLen : Nat} (hmax : 2 ≤ maxLen) (st : StatusPdu) :
    ∃ k ack, truncateStatus st maxLen = some ⟨ack, st.nacks.take k⟩ ∧
      Truncation maxLen st.nacks st.ackSn k ack := by
  obtain ⟨k, ack, hloop, htrunc⟩ := truncateLoop_truncation hmax st.nacks st.ackSn
  exact ⟨k, ack, by rw [truncateStatus, if_neg (Nat.not_lt.mpr hmax), ← hloop], htrunc⟩

/-- Under 2 bytes not even the form without elements fits (R145, R146). -/
theorem encodeStatus_of_lt_two {maxLen : Nat} (h : maxLen < 2) (st : StatusPdu) :
    encodeStatus st maxLen = [] := by
  rw [encodeStatus, truncateStatus, if_pos h]

/-- A status that fits is not truncated. -/
theorem truncateStatus_of_fits {maxLen : Nat} {st : StatusPdu} (h : nacksLen st.nacks ≤ maxLen) :
    truncateStatus st maxLen = some st := by
  have hmax : 2 ≤ maxLen := by
    rw [nacksLen] at h
    omega
  obtain ⟨k, ack, htrunc, hres⟩ := truncateStatus_truncation hmax st
  have hk : st.nacks.length ≤ k := Nat.le_of_not_lt fun hlt => by
    have := hres.longest _ hlt le_rfl
    rw [List.take_length] at this
    omega
  rw [htrunc, List.take_of_length_le hk,
    hres.same fun j hj => repeated_of_length_le (hk.trans hj)]

end Sys2Proof.Machine

open Sys2Proof.Machine in
/-- Settles O20, from what the loop of R145 has done when it ends. -/
theorem truncationLaw : Obligations.TruncationLaw := by
  refine fun st maxLen => ⟨fun h => encodeStatus_of_lt_two h st, fun hmax => ?_⟩
  obtain ⟨k, ack, htrunc, hres⟩ := truncateStatus_truncation hmax st
  refine ⟨k, hres.count_le, hres.fits, hres.longest, ack, htrunc, fun hk => ?_, fun hnodup n hn => ?_,
    hres.same, hres.lowered⟩
  · exact hres.same fun j hj => repeated_of_length_le (hk ▸ hj)
  · obtain ⟨hlt, -⟩ := List.getElem?_eq_some_iff.mp hn
    exact hres.lowered k le_rfl (by omega) (not_repeated_of_nodup hnodup hlt) n hn
end

section
/-!
The STATUS PDU (O22; R110 to R112, R146 to R149): what the decoder answers to the first fields and to one NACK
element, and from that the two directions of the round trip.
-/
namespace Sys2Proof.Machine

/-! ### One NACK element (R110) -/

/-- An element that the wire can carry: 15-bit offsets, none without `e2` (R22, R146). -/
abbrev NackOk (n : Nack) : Prop :=
  n.soStart ≤ 32767 ∧ n.soEnd ≤ 32767 ∧ (n.hasSo = false → n.soStart = 0 ∧ n.soEnd = 0)

/-- The bits of one element: SN, whether another element follows, whether offsets follow, and these. -/
def elementBits (more : Bool) (n : Nack) : List Bool :=
  bitsOf 10 n.nackSn.toNat ++ [more, n.hasSo] ++
    (if n.hasSo then bitsOf 15 n.soStart ++ bitsOf 15 n.soEnd else [])

theorem elementBits_length (more : Bool) (n : Nack) : (elementBits more n).length = nackCost n := by
  cases hso : n.hasSo <;> simp [elementBits, nackCost, hso]

theorem nackBits_cons (n : Nack) (l : List Nack) :
    nackBits (n :: l) = elementBits (!l.isEmpty) n ++ nackBits l := rfl

/-- What is read around the two bits behind an SN. -/
theorem getD_behind_sn (sn : Sn) (more hasSo : Bool) (rest : List Bool) :
    (bitsOf 10 sn.toNat ++ more :: hasSo :: rest).getD 10 false = more ∧
    (bitsOf 10 sn.toNat ++ more :: hasSo :: rest).getD 11 false = hasSo ∧
    (bitsOf 10 sn.toNat ++ more :: hasSo :: rest).drop 12 = rest ∧
    ¬ (bitsOf 10 sn.toNat ++ more :: hasSo :: rest).length < 12 := by
  refine ⟨?_, ?_, ?_, ?_⟩
  · rw [List.getD_append_right _ _ _ _ (by simp), bitsOf_length]; rfl
  · rw [List.getD_append_right _ _ _ _ (by simp), bitsOf_length]; rfl
  · rw [List.drop_append, bitsOf_length, List.drop_of_length_le (by simp)]; rfl
  · simp only [List.length_append, bitsOf_length, List.length_cons]; omega

/-- Bits are too few for the element that they start with. -/
def ElementMissing (bits : List Bool) : Prop :=
  bits.length < 12 ∨ (bits.getD 11 false = true ∧ bits.length < 42)

theorem decodeNacks_of_missing {bits : List Bool} (h : ElementMissing bits) (cap : Nat) :
    decodeNacks cap bits = none := by
  cases cap with
  | zero => rfl
  | succ cap =>
    rw [decodeNacks]
    rcases h with hshort | ⟨hso, hshort⟩
    · rw [if_pos hshort]
    · have : (bits.drop 12).length < 30 := by rw [List.length_drop]; omega
      simp only [hso, this, if_true, ite_self]

/-- Bits that are enough start with those of an element. -/
theorem exists_elementBits {bits : List Bool} (h : ¬ ElementMissing bits) :
    ∃ more n t, NackOk n ∧ bits = elementBits more n ++ t := by
  simp only [ElementMissing, not_or, not_and, Nat.not_lt] at h
  obtain ⟨hlen, hoffsets⟩ := h
  obtain ⟨sn, t, rfl⟩ := exists_sn_append (l := bits) (by omega)
  have h2 : 2 ≤ t.length := by
    rw [List.length_append, bitsOf_length] at hlen
    omega
  obtain ⟨more, t, rfl, h1⟩ := exists_cons_of_lt h2
  obtain ⟨hasSo, t, rfl, -⟩ := exists_cons_of_lt h1
  cases hasSo with
  | false => exact ⟨more, ⟨sn, false, 0, 0⟩, t, by simp, by simp [elementBits]⟩
  | true =>
    have hlong := hoffsets (getD_behind_sn ..).2.1
    simp only [List.length_append, List.length_cons, bitsOf_length] at hlong
    obtain ⟨soStart, t, hstart, rfl⟩ := exists_bitsOf_append (n := 15) (l := t) (by omega)
    rw [List.length_append, bitsOf_length] at hlong
    obtain ⟨soEnd, t, hend, rfl⟩ := exists_bitsOf_append (n := 15) (l := t) (by omega)
    exact ⟨more, ⟨sn, true, soStart, soEnd⟩, t,
      ⟨Nat.le_of_lt_succ hstart, Nat.le_of_lt_succ hend, by simp⟩, by simp [elementBits]⟩

/-- What the decoder makes of one element: the chain goes on when the element says so (R148). -/
theorem decodeNacks_elementBits (cap : Nat) (more : Bool) {n : Nack} (hn : NackOk n) (t : List Bool) :
    decodeNacks (cap + 1) (elementBits more n ++ t) =
      if more = true then (decodeNacks cap t).map (n :: ·) else some [n] := by
  obtain ⟨hstart, hend, hzero⟩ := hn
  have hsn := sn_of_bits n.nackSn
  obtain ⟨sn, hasSo, soStart, soEnd⟩ := n
  dsimp only at hstart hend hzero hsn
  cases hasSo with
  | false =>
    obtain ⟨rfl, rfl⟩ := hzero rfl
    obtain ⟨hmore, hso, hrest, hlen⟩ := getD_behind_sn sn more false t
    have hbits : elementBits more ⟨sn, false, 0, 0⟩ ++ t = bitsOf 10 sn.toNat ++ more :: false :: t := by
      simp [elementBits]
    rw [hbits, decodeNacks, if_neg hlen, hmore, hso, hrest, List.take_left' (bitsOf_length ..), hsn]
    rfl
  | true =>
    generalize hoffsets : bitsOf 15 soStart ++ (bitsOf 15 soEnd ++ t) = offsets
    obtain ⟨hmore, hso, hrest, hlen⟩ := getD_behind_sn sn more true offsets
    have hbits : elementBits more ⟨sn, true, soStart, soEnd⟩ ++ t =
        bitsOf 10 sn.toNat ++ more :: true :: offsets := by
      simp [elementBits, ← hoffsets]
    have hlong : ¬ offsets.length < 30 := by simp [← hoffsets]; omega
    have hfirst : natOfBits (offsets.take 15) = soStart := by
      rw [← hoffsets, List.take_left' (bitsOf_length ..),
        natOfBits_bitsOf_of_lt (Nat.lt_succ_of_le hstart)]
    have hsecond : natOfBits ((offsets.drop 15).take 15) = soEnd := by
      rw [← hoffsets, List.drop_left' (bitsOf_length ..), List.take_left' (bitsOf_length ..),
        natOfBits_bitsOf_of_lt (Nat.lt_succ_of_le hend)]
    have hbehind : offsets.drop 30 = t := by
      rw [← hoffsets, ← List.append_assoc, List.drop_left' (by simp)]
    rw [hbits, decodeNacks, if_neg hlen, hmore, hso, hrest, List.take_left' (bitsOf_length ..), hsn]
    simp only [if_true, if_neg hlong, hfirst, hsecond, hbehind]

theorem decodeNacks_nackBits {l : List Nack} {cap : Nat} (hne : l ≠ []) (hcap : l.length ≤ cap)
    (hok : ∀ n ∈ l, NackOk n) (rest : List Bool) : decodeNacks cap (nackBits l ++ rest) = some l := by
  induction l generalizing cap with
  | nil => exact absurd rfl hne
  | cons n l ih =>
    obtain ⟨hn, hrest⟩ := List.forall_mem_cons.mp hok
    obtain ⟨cap, rfl⟩ := Nat.exists_eq_succ_of_ne_zero (n := cap) (by rintro rfl; cases hcap)
    rw [nackBits_cons, List.append_assoc, decodeNacks_elementBits _ _ hn]
    cases l with
    | nil => rfl
    | cons m l =>
      rw [ih (by simp) (Nat.le_of_succ_le_succ hcap) hrest]
      rfl

/-! ### The whole STATUS PDU (R110, R148, R149) -/

/-- The fields before the elements: the first nibble, `ack_sn`, and whether an element follows. -/
def ackBits (ack : Sn) (more : Bool) : List Bool :=
  [false, false, false, false] ++ bitsOf 10 ack.toNat ++ [more]

theorem statusBits_eq (st : StatusPdu) :
    statusBits st = ackBits st.ackSn (!st.nacks.isEmpty) ++ nackBits st.nacks := rfl

theorem ackBits_length (ack : Sn) (more : Bool) : (ackBits ack more).length = 15 := by simp [ackBits]

/-- The bytes do not hold the fields before the elements, or are no STATUS PDU (R110, R148). -/
def AckMissing (b : List Byte) : Prop :=
  b.length < 2 ∨ natOfBits ((bitsOfBytes b).take 4) ≠ 0

theorem decodeStatus_of_missing {b : List Byte} (h : AckMissing b) : decodeStatus b = none := by
  rw [decodeStatus]
  rcases h with hshort | hnibble
  · rw [if_pos hshort]
  · simp only [hnibble, ne_eq, not_false_eq_true, if_true, ite_self]

/-- Bytes that do hold those fields start with the fields of some STATUS PDU. -/
theorem exists_ackBits {b : List Byte} (h : ¬ AckMissing b) :
    ∃ ack more t, bitsOfBytes b = ackBits ack more ++ t := by
  simp only [AckMissing, not_or, Nat.not_lt, ne_eq, not_not] at h
  obtain ⟨hlen, hnibble⟩ := h
  have hbits := bitsOfBytes_length b
  generalize bitsOfBytes b = bits at hbits hnibble
  obtain ⟨v, rest, hv, rfl⟩ := exists_bitsOf_append (n := 4) (l := bits) (by omega)
  rw [List.take_left' (bitsOf_length ..), natOfBits_bitsOf_of_lt hv] at hnibble
  rw [List.length_append, bitsOf_length] at hbits
  obtain ⟨ack, rest, rfl⟩ := exists_sn_append (l := rest) (by omega)
  rw [List.length_append, bitsOf_length] at hbits
  obtain ⟨more, t, rfl, -⟩ := exists_cons_of_lt (l := rest) (n := 0) (by omega)
  exact ⟨ack, more, t, by rw [hnibble]; simp [ackBits, bitsOf]⟩

/-- What the decoder answers to bytes that start with the fields before the elements (R148). -/
theorem decodeStatus_of_ackBits {b : List Byte} {ack : Sn} {more : Bool} {t : List Bool}
    (hbits : bitsOfBytes b = ackBits ack more ++ t) :
    decodeStatus b = (if more = true then decodeNacks 1024 t else some []).map fun l => ⟨ack, l⟩ := by
  have hlen := congrArg List.length hbits
  rw [bitsOfBytes_length, List.length_append, ackBits_length] at hlen
  have hnibble : natOfBits ((ackBits ack more ++ t).take 4) = 0 := rfl
  have hack : ((ackBits ack more ++ t).drop 4).take 10 = bitsOf 10 ack.toNat := by
    simp [ackBits]
  have hmore : (ackBits ack more ++ t).getD 14 false = more := by
    have hfields : ackBits ack more ++ t =
        ([false, false, false, false] ++ bitsOf 10 ack.toNat) ++ more :: t := by simp [ackBits]
    rw [hfields, List.getD_append_right _ _ _ _ (by simp), List.length_append, bitsOf_length]
    rfl
  rw [decodeStatus, if_neg (by omega), hbits]
  simp only [hnibble, ne_eq, not_true_eq_false, if_false, hack, hmore, sn_of_bits,
    List.drop_left' (ackBits_length ack more)]

/-- The decoder reads back the bits of a STATUS PDU, whatever follows them (R112, R149). -/
theorem decodeStatus_of_statusBits {b : List Byte} {st : StatusPdu} {rest : List Bool}
    (hok : ∀ n ∈ st.nacks, NackOk n) (hcount : st.nacks.length ≤ 1024)
    (hbits : bitsOfBytes b = statusBits st ++ rest) : decodeStatus b = some st := by
  rw [statusBits_eq, List.append_assoc] at hbits
  rw [decodeStatus_of_ackBits hbits]
  obtain ⟨ack, l⟩ := st
  cases l with
  | nil => rfl
  | cons n l =>
    have hchain := decodeNacks_nackBits (by simp) hcount hok rest
    exact congrArg (Option.map fun l => StatusPdu.mk ack l) hchain

end Sys2Proof.Machine

open Sys2Proof.Machine in
/-- Settles O22: nothing is dropped from a status that fits, and the decoder reads its bits back. -/
theorem statusRoundTrip : Obligations.StatusRoundTrip := by
  intro st maxLen hoffsets hzero hcount hlen
  have hok : ∀ n ∈ st.nacks, NackOk n := fun n hn =>
    ⟨(hoffsets n hn).1, (hoffsets n hn).2, hzero n hn⟩
  rw [encodeStatus, truncateStatus_of_fits (st := st) hlen]
  exact decodeStatus_of_statusBits hok hcount (bitsOfBytes_bytesOfBits_eq _)
end

section
/-!
ENC_DATA_HDR and ENC_STATUS (O18, O21; R94, R100 to R102, R110, R111, R141, R146): the operand words, and the
layout of what they encode, byte by byte.
-/
namespace Sys2Proof.Machine

/-! ### ENC_DATA_HDR -/

theorem headerOfWords_eq (hw : Word) (li : List Word) : headerOfWords hw li =
    { dc := hw.getLsbD 0, rf := hw.getLsbD 1, p := hw.getLsbD 2, fiE := hw.getLsbD 3
      fiS := hw.getLsbD 4, lsf := hw.getLsbD 5
      sn := BitVec.ofNat 10 (hw.toNat / 2 ^ 6), so := hw.toNat / 2 ^ 16, li := li.map (·.toNat) } := by
  have hsn : hw.extractLsb' 6 10 = BitVec.ofNat 10 (hw.toNat / 2 ^ 6) := by
    rw [BitVec.extractLsb', Nat.shiftRight_eq_div_pow]
  have hso : (hw.extractLsb' 16 16).toNat = hw.toNat / 2 ^ 16 := by
    rw [BitVec.extractLsb'_toNat, Nat.shiftRight_eq_div_pow]
    omega
  rw [headerOfWords, hsn, hso]

/-- ENC_DATA_HDR of a header that the encoder accepts (R141; log entry 21). -/
theorem exec_encDataHdr_of_ok {hw : Word} {li : List Word} {s : State}
    (hok : headerEncodable s.params (headerOfWords hw li) = true) :
    exec (.encDataHdr hw li) s = .next
      (respond .ok [(wordOrFree Config.encodedHeaderLength (hdrLen (headerOfWords hw li)) s).1]
        (encodeDataHeader (headerOfWords hw li))
        (wordOrFree Config.encodedHeaderLength (hdrLen (headerOfWords hw li)) s).2) := by
  have hcount : legalLiCount s.params li.length = true := by
    obtain ⟨-, hcount, -⟩ := headerEncodable_iff.mp hok
    simpa [legalLiCount, headerOfWords] using hcount
  simp only [exec, execEncDataHdr, hcount, hok, Bool.and_self, requireLegal_true,
    encodeDataHeader_length]

theorem exec_encDataHdr_of_refused {hw : Word} {li : List Word} {s : State}
    (hok : ¬ headerEncodable s.params (headerOfWords hw li) = true) :
    exec (.encDataHdr hw li) s = .next (respond .errIllegalCommand [0] [] s) := by
  simp only [exec, execEncDataHdr, Bool.not_eq_true _ ▸ hok, Bool.and_false]
  exact requireLegal_of_illegal rfl ..

/-- Bytes 0 and 1 of a header (R100). -/
theorem bitsOfBytes_firstBytes (h : Header) (more : Bool) :
    bitsOfBytes [BitVec.ofNat 8 (128 + 64 * h.rf.toNat + 32 * h.p.toNat + 16 * h.fiS.toNat +
        8 * h.fiE.toNat + 4 * more.toNat + h.sn.toNat / 256), BitVec.ofNat 8 (h.sn.toNat % 256)] =
      [true, h.rf, h.p, h.fiS, h.fiE, more] ++ bitsOf 10 h.sn.toNat := by
  have hsn := h.sn.isLt
  have hrf := Bool.toNat_le h.rf
  have hp := Bool.toNat_le h.p
  have hs := Bool.toNat_le h.fiS
  have he := Bool.toNat_le h.fiE
  have hm := Bool.toNat_le more
  apply eq_of_natOfBits_eq
  · simp
  · simp only [bitsOfBytes_cons, bitsOfBytes_nil, natOfBits_append, natOfBits_cons, natOfBits_nil,
      natOfBits_bitsOf, bitsOf_length, BitVec.toNat_ofNat, List.length_cons, List.length_nil,
      List.append_nil, Bool.toNat_true]
    omega

/-- Bytes 2 and 3 of the header of a segment (R101). -/
theorem bitsOfBytes_segmentBytes (lsf : Bool) {so : Nat} (hso : so ≤ 32767) :
    bitsOfBytes [BitVec.ofNat 8 (128 * lsf.toNat + so / 256), BitVec.ofNat 8 (so % 256)] =
      lsf :: bitsOf 15 so := by
  have hl := Bool.toNat_le lsf
  apply eq_of_natOfBits_eq
  · simp
  · simp [natOfBits_append, natOfBits_cons]
    omega

/-- The layout of the fixed fields, byte by byte (R100, R101). -/
theorem bitsOfBytes_fixedHeaderBytes {h : Header} (hok : FixedFieldsOk h) :
    bitsOfBytes (fixedHeaderBytes h) = fixedBits h (!h.li.isEmpty) := by
  obtain ⟨-, -, hso⟩ := hok
  rw [fixedHeaderBytes, fixedBits, bitsOfBytes_append, bitsOfBytes_firstBytes]
  cases h.rf with
  | false => rfl
  | true => exact congrArg _ (bitsOfBytes_segmentBytes h.lsf hso)

/-- Two pairs take three bytes (R102). -/
theorem bitsOfBytes_twoPairs (more : Bool) {a b : Nat} (ha : a ≤ 2047) (hb : b ≤ 2047) :
    bitsOfBytes [BitVec.ofNat 8 (128 + a / 16), BitVec.ofNat 8 (a % 16 * 16 + 8 * more.toNat + b / 256),
      BitVec.ofNat 8 (b % 256)] = pairBits true a ++ pairBits more b := by
  have hm := Bool.toNat_le more
  apply eq_of_natOfBits_eq
  · simp [pairBits]
  · simp only [pairBits, bitsOfBytes_cons, bitsOfBytes_nil, natOfBits_append, natOfBits_cons,
      natOfBits_bitsOf, bitsOf_length, BitVec.toNat_ofNat, List.length_cons, List.append_nil,
      List.length_append, Bool.toNat_true]
    omega

/-- The layout of the length indicators, byte by byte: after an odd count a zero nibble (R102). -/
theorem bitsOfBytes_liBytes {li : List Nat} (hli : ∀ l ∈ li, LiOk l) : bitsOfBytes (liBytes li) =
    liBits li ++ List.replicate (4 * (li.length % 2)) false := by
  induction li using liBytes.induct with
  | case1 => rfl
  | case2 a =>
    have ha := hli a (by simp)
    apply eq_of_natOfBits_eq
    · simp [liBytes, liBits_length]
    · simp [liBytes, liBits, natOfBits_append, natOfBits_cons]
      omega
  | case3 a b rest ih =>
    have hodd : (a :: b :: rest).length % 2 = rest.length % 2 :=
      Nat.add_mod_right rest.length 2
    rw [liBytes, bitsOfBytes_append, ih fun l hl => hli l (by simp [hl]), hodd, ← List.append_assoc,
      bitsOfBytes_twoPairs _ (hli a (by simp)).2 (hli b (by simp)).2, liBits_cons, liBits_cons,
      List.append_assoc (pairBits true a)]
    rfl

theorem encodeDataHeader_eq_layout {p : Params} {h : Header} (hok : headerEncodable p h = true) :
    encodeDataHeader h = fixedHeaderBytes h ++ liBytes h.li := by
  obtain ⟨hfixed, -, hli⟩ := headerEncodable_iff.mp hok
  apply bitsOfBytes_injective
  rw [bitsOfBytes_encodeDataHeader, headerBits_eq, bitsOfBytes_append,
    bitsOfBytes_fixedHeaderBytes hfixed, bitsOfBytes_liBytes hli, List.append_assoc]

/-! ### ENC_STATUS -/

/-- The number of the elements behind the bits `pre` (R110). -/
theorem natOfBits_append_nackBits {l : List Nack} (hok : ∀ n ∈ l, NackOk n) (pre : List Bool) :
    natOfBits (pre ++ nackBits l) = nackNumber (natOfBits pre) l := by
  induction l generalizing pre with
  | nil => rw [nackBits, List.append_nil, nackNumber]
  | cons n l ih =>
    obtain ⟨⟨hstart, hend, -⟩, hrest⟩ := List.forall_mem_cons.mp hok
    have hsn := n.nackSn.isLt
    rw [nackBits_cons, ← List.append_assoc, ih hrest, nackNumber]
    congr 1
    cases hso : n.hasSo <;> simp [elementBits, hso, natOfBits_append, natOfBits_cons] <;> omega

theorem natOfBits_statusBits {st : StatusPdu} (hok : ∀ n ∈ st.nacks, NackOk n) :
    natOfBits (statusBits st) =
      nackNumber (st.ackSn.toNat * 2 + (!st.nacks.isEmpty).toNat) st.nacks := by
  have hack := st.ackSn.isLt
  rw [statusBits_eq, natOfBits_append_nackBits hok]
  congr 1
  simp [ackBits, natOfBits_append, natOfBits_cons]
  omega

theorem bytesOfBits_statusBits_length (st : StatusPdu) :
    (bytesOfBits (statusBits st)).length = nacksLen st.nacks := by
  rw [bytesOfBits_length, statusBits_length, nacksLen]

/-- The layout of a STATUS PDU, byte by byte (R110, R111). -/
theorem bytesOfBits_statusBits {st : StatusPdu} (hok : ∀ n ∈ st.nacks, NackOk n) :
    bytesOfBits (statusBits st) = statusBytes st := by
  have hnumber : natOfBits (bitsOfBytes (bytesOfBits (statusBits st))) =
      nackNumber (st.ackSn.toNat * 2 + (!st.nacks.isEmpty).toNat) st.nacks *
        2 ^ (8 * nacksLen st.nacks - (statusBits st).length) := by
    rw [bitsOfBytes_bytesOfBits_eq, natOfBits_append, natOfBits_statusBits hok, List.length_replicate,
      natOfBits_replicate_false, Nat.add_zero, ← bytesOfBits_length, bytesOfBits_statusBits_length]
  rw [eq_digits_of_number (bytesOfBits (statusBits st)), hnumber, bytesOfBits_statusBits_length,
    statusBits_length]
  rfl

theorem nackOfWords_eq (nw : Word × Word) : nackOfWords nw =
    { nackSn := BitVec.ofNat 10 nw.1.toNat, hasSo := nw.1.getLsbD 10
      soStart := if nw.1.getLsbD 10 then nw.2.toNat % 2 ^ 15 else 0
      soEnd := if nw.1.getLsbD 10 then nw.2.toNat / 2 ^ 16 % 2 ^ 15 else 0 } := by
  have hsn : nw.1.extractLsb' 0 10 = BitVec.ofNat 10 nw.1.toNat := by
    rw [BitVec.extractLsb', Nat.shiftRight_zero]
  rw [nackOfWords, hsn, BitVec.extractLsb'_toNat, BitVec.extractLsb'_toNat, Nat.shiftRight_zero,
    Nat.shiftRight_eq_div_pow]

/-- The fields of the operand words fit the wire (R94). -/
theorem nackOk_nackOfWords (nw : Word × Word) : NackOk (nackOfWords nw) := by
  rw [nackOfWords_eq]
  refine ⟨?_, ?_, fun hso => ?_⟩
  · dsimp only
    split_ifs <;> omega
  · dsimp only
    split_ifs <;> omega
  · dsimp only at hso ⊢
    rw [hso]
    exact ⟨rfl, rfl⟩

theorem exec_encStatus_of_legal {maxLen ackSn : Word} {nacks : List (Word × Word)} {s : State}
    (hmax : maxLen.toNat ≤ s.params.maxPduBytes) (hack : ackSn.toNat ≤ 1023)
    (hcount : nacks.length ≤ 1024)
    (hwords : ∀ nw ∈ nacks, nw.1.toNat < 2 ^ 11 ∧ nw.2.getLsbD 15 = false ∧ nw.2.getLsbD 31 = false) :
    exec (.encStatus maxLen ackSn nacks) s = .next (respondBytes
      (encodeStatus ⟨snOfWord ackSn, nacks.map nackOfWords⟩ maxLen.toNat) s) := by
  have hlegal : (legalLength s.params maxLen.toNat && legalSn ackSn && legalNackCount nacks.length &&
      nacks.all legalNackWords) = true := by
    have hpairs : nacks.all legalNackWords = true := List.all_eq_true.mpr fun nw hnw => by
      obtain ⟨hwidth, h15, h31⟩ := hwords nw hnw
      rw [legalNackWords, fitsWidth, decide_eq_true hwidth, h15, h31]
      rfl
    rw [legalLength, decide_eq_true hmax, legalSn_eq_true_iff.mpr hack, legalNackCount,
      decide_eq_true hcount, hpairs]
    rfl
  rw [exec, execEncStatus, hlegal, requireLegal_true]

end Sys2Proof.Machine

open Sys2Proof.Machine in
/-- Settles O18: the command encodes the header of its words when the encoder accepts it, and the layout
spells the same bits. -/
theorem encodeHeaderCommand : Obligations.EncodeHeaderCommand := by
  intro hw li s h good
  have hh : headerOfWords hw li = h := headerOfWords_eq hw li
  have hgood : good ↔ headerEncodable s.params h = true := by
    have hcount : h.li.length = li.length := List.length_map ..
    rw [headerEncodable_iff, hcount]
    exact ⟨fun ⟨hdc, hc, hli, hseg, hso⟩ => ⟨⟨hdc, hseg, hso⟩, hc, hli⟩,
      fun ⟨⟨hdc, hseg, hso⟩, hc, hli⟩ => ⟨hdc, hc, hli, hseg, hso⟩⟩
  rw [hgood]
  clear_value h
  subst hh
  refine ⟨fun hok hsmall => ?_, fun hok hlarge => ?_, encodeDataHeader_eq_layout,
    exec_encDataHdr_of_refused⟩
  · rw [exec_encDataHdr_of_ok hok, wordOrFree, if_pos hsmall]
  · rw [exec_encDataHdr_of_ok hok, wordOrFree, if_neg (Nat.not_lt.mpr hlarge)]
    exact ⟨_, rfl⟩

open Sys2Proof Sys2Proof.Machine in
/-- Settles O21: what is encoded are the first elements that the words spell, so their fields fit the
wire. -/
theorem encodeStatusCommand : Obligations.EncodeStatusCommand := by
  intro maxLen ackSn nacks s hmax hack hcount hwords st
  have hst : (⟨snOfWord ackSn, nacks.map nackOfWords⟩ : StatusPdu) = st :=
    congrArg (StatusPdu.mk (snOfWord ackSn))
      (List.map_congr_left fun nw _ => nackOfWords_eq nw)
  have hok : ∀ n ∈ st.nacks, NackOk n := by
    rw [← hst]
    intro n hn
    obtain ⟨nw, -, rfl⟩ := List.mem_map.mp hn
    exact nackOk_nackOfWords nw
  refine ⟨encodeStatus st maxLen.toNat, ?_, fun hsmall => encodeStatus_of_lt_two hsmall st,
    fun hlarge => ?_⟩
  · rw [exec_encStatus_of_legal hmax hack hcount hwords, hst, respondBytes_eq]
  · obtain ⟨k, ack, htrunc, hres⟩ := truncateStatus_truncation hlarge st
    have hprefix : ∀ n ∈ st.nacks.take k, NackOk n := fun n hn => hok n (List.mem_of_mem_take hn)
    have hlen := bytesOfBits_statusBits_length ⟨ack, st.nacks.take k⟩
    rw [encodeStatus, htrunc]
    exact ⟨_, rfl, rfl, bytesOfBits_statusBits hprefix, hlen, hlen.trans_le hres.fits⟩
end

section
/-!
What is corrupt (O19, O23; R143, R148): the decoders' refusals, field by field in terms of `bitsAt`, and
the result words of DEC_DATA_HDR and DEC_STATUS.
-/
namespace Sys2Proof.Machine

/-! ### Chains -/

/-- A reader that takes one link after another, from link `i` on with `cap` more allowed, fails when a link
that was announced is bad or is one too many. -/
theorem chain_fails_iff {fails : Nat → Nat → Prop} {bad more : Nat → Prop}
    (hfull : ∀ i, fails 0 i)
    (hlink : ∀ cap i, fails (cap + 1) i ↔ bad i ∨ (more (i + 1) ∧ fails cap (i + 1))) (cap i : Nat) :
    fails cap i ↔ ∃ k, i ≤ k ∧ (∀ j, i < j → j ≤ k → more j) ∧ (bad k ∨ i + cap ≤ k) := by
  induction cap generalizing i with
  | zero => exact ⟨fun _ => ⟨i, le_rfl, by omega, .inr le_rfl⟩, fun _ => hfull i⟩
  | succ cap ih =>
    rw [hlink, ih]
    constructor
    · rintro (hbad | ⟨hmore, k, hik, hchain, hend⟩)
      · exact ⟨i, le_rfl, by omega, .inl hbad⟩
      · refine ⟨k, by omega, fun j hij hjk => ?_, hend.imp_right (by omega)⟩
        rcases Nat.eq_or_lt_of_le hij with rfl | hlt
        · exact hmore
        · exact hchain j hlt hjk
    · rintro ⟨k, hik, hchain, hend⟩
      rcases Nat.eq_or_lt_of_le hik with rfl | hlt
      · exact .inl (hend.resolve_right (by omega))
      · exact .inr ⟨hchain _ (Nat.lt_succ_self i) hlt, k, hlt, fun j hij => hchain j (by omega),
          hend.imp_right (by omega)⟩

/-- The first link of a chain apart: it is announced before the chain starts. -/
theorem announced_from_zero_iff {more ending : Nat → Prop} :
    (∃ k, (∀ j, j ≤ k → more j) ∧ ending k) ↔
      more 0 ∧ ∃ k, 0 ≤ k ∧ (∀ j, 0 < j → j ≤ k → more j) ∧ ending k := by
  constructor
  · rintro ⟨k, hall, hend⟩
    exact ⟨hall 0 (Nat.zero_le k), k, Nat.zero_le k, fun j _ => hall j, hend⟩
  · rintro ⟨hfirst, k, -, hall, hend⟩
    refine ⟨k, fun j hj => ?_, hend⟩
    rcases Nat.eq_zero_or_pos j with rfl | hpos
    · exact hfirst
    · exact hall j hpos hj

/-! ### The corrupt headers (R143) -/

/-- Where the chain of pairs starts, as a bit offset. -/
def chainStart (b : List Byte) : Nat := if bitsAt b 1 1 = 1 then 32 else 16

/-- Pair `k` is announced: by the fixed fields, or by the pair before it. -/
def pairAnnounced (b : List Byte) (k : Nat) : Prop :=
  bitsAt b (if k = 0 then 5 else chainStart b + 12 * (k - 1)) 1 = 1

/-- The length indicator of pair `k`. -/
def liAt (b : List Byte) (k : Nat) : Nat := bitsAt b (chainStart b + 12 * k + 1) 11

/-- Pair `k` runs past the bytes or holds the length indicator 0. -/
def PairBad (b : List Byte) (k : Nat) : Prop :=
  8 * b.length < chainStart b + 12 * (k + 1) ∨ liAt b k = 0

/-- The bits from pair `k` on. -/
def pairsFrom (b : List Byte) (k : Nat) : List Bool := (bitsOfBytes b).drop (chainStart b + 12 * k)

theorem pairsFrom_length (b : List Byte) (k : Nat) :
    (pairsFrom b k).length = 8 * b.length - (chainStart b + 12 * k) := by
  rw [pairsFrom, List.length_drop, bitsOfBytes_length]

/-- A pair that does not run past the bytes, and what is read of it. -/
theorem exists_pair {b : List Byte} {k : Nat} (h : chainStart b + 12 * (k + 1) ≤ 8 * b.length) :
    ∃ more l, l ≤ 2047 ∧ pairsFrom b k = pairBits more l ++ pairsFrom b (k + 1) ∧ liAt b k = l ∧
      (pairAnnounced b (k + 1) ↔ more = true) := by
  obtain ⟨more, l, t, hl, hpair⟩ := exists_pairBits (bits := pairsFrom b k)
    (by rw [pairsFrom_length]; omega)
  have hnext : pairsFrom b (k + 1) = t := by
    have hdrop := congrArg (List.drop 12) hpair
    rwa [List.drop_left' (pairBits_length ..), pairsFrom, List.drop_drop] at hdrop
  have hli : liAt b k = l := by
    rw [liAt, bitsAt_of_drop (u := [more]) (w := bitsOf 11 l) hpair (by rfl) (bitsOf_length ..),
      natOfBits_bitsOf_of_lt (Nat.lt_succ_of_le hl)]
  have hmore : bitsAt b (chainStart b + 12 * k) 1 = more.toNat :=
    bitsAt_bit_of_drop (u := []) _ hpair rfl
  refine ⟨more, l, hl, by rw [hnext]; exact hpair, hli, ?_⟩
  rw [pairAnnounced, if_neg (Nat.succ_ne_zero k), Nat.add_sub_cancel, hmore]
  cases more <;> simp

/-- The decoder on pair `k`: a bad pair is refused, another one is read (R143). -/
theorem decodeLis_pairsFrom (b : List Byte) (cap k : Nat) :
    (PairBad b k ∧ decodeLis (cap + 1) (pairsFrom b k) = none) ∨
    (¬ PairBad b k ∧ pairAnnounced b (k + 1) ∧
      decodeLis (cap + 1) (pairsFrom b k) =
        (decodeLis cap (pairsFrom b (k + 1))).map (liAt b k :: ·)) ∨
    (¬ PairBad b k ∧ ¬ pairAnnounced b (k + 1) ∧
      decodeLis (cap + 1) (pairsFrom b k) = some [liAt b k]) := by
  rcases Nat.lt_or_ge (8 * b.length) (chainStart b + 12 * (k + 1)) with hshort | hlong
  · exact .inl ⟨.inl hshort, decodeLis_of_short (by rw [pairsFrom_length]; omega) _⟩
  obtain ⟨more, l, hl, hpair, hli, hmore⟩ := exists_pair hlong
  have hbad : PairBad b k ↔ l = 0 := by rw [PairBad, hli, or_iff_right (Nat.not_lt.mpr hlong)]
  rw [hpair, decodeLis_pairBits _ _ hl, hbad, hmore, hli]
  by_cases hzero : l = 0
  · exact .inl ⟨hzero, if_pos hzero⟩
  · rw [if_neg hzero]
    by_cases hm : more = true
    · exact .inr (.inl ⟨hzero, hm, if_pos hm⟩)
    · exact .inr (.inr ⟨hzero, hm, if_neg hm⟩)

/-- When the chain is refused: an announced pair is bad or exceeds the header capacity. -/
theorem decodeLis_eq_none_iff (b : List Byte) (cap i : Nat) : decodeLis cap (pairsFrom b i) = none ↔
    ∃ k, i ≤ k ∧ (∀ j, i < j → j ≤ k → pairAnnounced b j) ∧ (PairBad b k ∨ i + cap ≤ k) := by
  refine chain_fails_iff (fails := fun cap i => decodeLis cap (pairsFrom b i) = none)
    (fun _ => rfl) (fun cap i => ?_) cap i
  rcases decodeLis_pairsFrom b cap i with ⟨hbad, h⟩ | ⟨hbad, hmore, h⟩ | ⟨hbad, hmore, h⟩
  · exact iff_of_true h (.inl hbad)
  · rw [h, Option.map_eq_none_iff, or_iff_right hbad, and_iff_right hmore]
  · rw [h]
    simp [hbad, hmore]

/-- What a chain that is read holds: the length indicators of the announced pairs, the last of which
announces no other. -/
theorem eq_map_liAt_of_decodeLis {b : List Byte} {cap i : Nat} {li : List Nat}
    (h : decodeLis cap (pairsFrom b i) = some li) :
    li = (List.range' i li.length).map (liAt b) ∧
    (∀ j, i < j → j < i + li.length → pairAnnounced b j) ∧ ¬ pairAnnounced b (i + li.length) := by
  induction cap generalizing i li with
  | zero => cases h
  | succ cap ih =>
    rcases decodeLis_pairsFrom b cap i with ⟨-, hd⟩ | ⟨-, hmore, hd⟩ | ⟨-, hmore, hd⟩ <;> rw [hd] at h
    · cases h
    · obtain ⟨rest, hrest, rfl⟩ := Option.map_eq_some_iff.mp h
      obtain ⟨hvalues, hannounced, hlast⟩ := ih hrest
      rw [List.length_cons]
      refine ⟨?_, fun j hij hj => ?_, ?_⟩
      · rw [List.range'_succ, List.map_cons, ← hvalues]
      · rcases Nat.eq_or_lt_of_le (Nat.succ_le_of_lt hij) with rfl | hlt
        · exact hmore
        · exact hannounced j hlt (by omega)
      · rwa [show i + (rest.length + 1) = i + 1 + rest.length by omega]
    · cases h
      exact ⟨rfl, fun j hij hj => by simp at hj; omega, hmore⟩

theorem fixedFieldsMissing_iff (b : List Byte) : FixedFieldsMissing b ↔
    b.length < 2 ∨ bitsAt b 0 1 = 0 ∨ (bitsAt b 1 1 = 1 ∧ b.length < 4) := by
  rcases Nat.lt_or_ge b.length 2 with hshort | hlong
  · exact iff_of_true (.inl hshort) (.inl hshort)
  · rw [FixedFieldsMissing, bitsAt_single (by omega), bitsAt_single (by omega), Bool.toNat_eq_zero,
      Bool.toNat_eq_one]

/-- An announced pair is bad or exceeds the header capacity (R102, R143). -/
def ChainBroken (p : Params) (b : List Byte) : Prop :=
  ∃ k, (∀ j, j ≤ k → pairAnnounced b j) ∧
    (8 * b.length < chainStart b + 12 * (k + 1) ∨ p.nLiMax ≤ k ∨ liAt b k = 0)

/-- A chain of `n` pairs behind which no byte is left for the last fragment (R102, R104). -/
def PayloadMissing (b : List Byte) : Prop :=
  ∃ n, (∀ j, j < n → pairAnnounced b j) ∧ ¬ pairAnnounced b n ∧
    b.length ≤ chainStart b / 8 + (n + (n + 1) / 2) + ((List.range n).map (liAt b)).sum

theorem headerMalformed_iff (p : Params) (b : List Byte) : HeaderMalformed p b ↔
    FixedFieldsMissing b ∨ ChainBroken p b ∨ PayloadMissing b := by
  rw [fixedFieldsMissing_iff, or_assoc, or_assoc]
  rfl

/-- The chain of a header whose fixed fields are there is read unless it is broken, and then it holds what is
announced. -/
theorem chain_outcome (p : Params) {b : List Byte} {more : Bool} {t : List Bool}
    (hmore : pairAnnounced b 0 ↔ more = true) (ht : pairsFrom b 0 = t) :
    let chain := if more = true then decodeLis p.nLiMax t else some []
    (chain = none ↔ ChainBroken p b) ∧
    ∀ li, chain = some li → li = (List.range li.length).map (liAt b) ∧
      (∀ j, j < li.length → pairAnnounced b j) ∧ ¬ pairAnnounced b li.length := by
  intro chain
  have hbroken : ChainBroken p b ↔ pairAnnounced b 0 ∧ decodeLis p.nLiMax t = none := by
    have hend : ∀ k, (8 * b.length < chainStart b + 12 * (k + 1) ∨ p.nLiMax ≤ k ∨ liAt b k = 0) ↔
        (PairBad b k ∨ 0 + p.nLiMax ≤ k) := fun k => by
      rw [PairBad, Nat.zero_add, or_assoc]
      exact or_congr_right or_comm
    simp only [ChainBroken, hend, announced_from_zero_iff, ← ht, decodeLis_eq_none_iff]
  rw [hbroken, hmore]
  cases more with
  | false =>
    refine ⟨by simp [chain], fun li hli => ?_⟩
    obtain rfl : [] = li := Option.some.inj hli
    exact ⟨rfl, fun j hj => absurd hj (Nat.not_lt_zero j), fun h => by simpa using hmore.mp h⟩
  | true =>
    refine ⟨by simp [chain], fun li hli => ?_⟩
    subst ht
    obtain ⟨hvalues, hannounced, hlast⟩ := eq_map_liAt_of_decodeLis (i := 0) hli
    rw [Nat.zero_add] at hlast
    refine ⟨by rwa [List.range_eq_range'], fun j hj => ?_, hlast⟩
    rcases Nat.eq_zero_or_pos j with rfl | hpos
    · exact hmore.mpr rfl
    · exact hannounced j hpos (by omega)

/-- The count of announced pairs is the only one. -/
theorem payloadMissing_iff {b : List Byte} {n : Nat} (hannounced : ∀ j, j < n → pairAnnounced b j)
    (hlast : ¬ pairAnnounced b n) : PayloadMissing b ↔
      b.length ≤ chainStart b / 8 + (n + (n + 1) / 2) + ((List.range n).map (liAt b)).sum := by
  constructor
  · rintro ⟨m, hm, hmlast, hlen⟩
    have hle : m ≤ n := Nat.le_of_not_lt fun h => hlast (hm n h)
    have hge : n ≤ m := Nat.le_of_not_lt fun h => hmlast (hannounced m h)
    rwa [Nat.le_antisymm hle hge] at hlen
  · exact fun hlen => ⟨n, hannounced, hlast, hlen⟩

/-- The decoder refuses exactly the corrupt headers (R143). -/
theorem decodeDataHeader_eq_none_iff (p : Params) (b : List Byte) :
    decodeDataHeader p b = none ↔ HeaderMalformed p b := by
  rw [headerMalformed_iff]
  by_cases hmissing : FixedFieldsMissing b
  · exact iff_of_true (decodeDataHeader_of_missing p hmissing) (.inl hmissing)
  obtain ⟨h, more, t, hok, -, hbits⟩ := exists_fixedBits_of_not_missing hmissing
  have hseg : bitsAt b 1 1 = h.rf.toNat := bitsAt_bit_of_drop (s := 0) (u := [true]) 1 hbits rfl
  have hstart : chainStart b = if h.rf = true then 32 else 16 := by
    rw [chainStart, hseg]
    cases h.rf <;> rfl
  have hmore : pairAnnounced b 0 ↔ more = true := by
    have hbit := bitsAt_bit_of_drop (s := 0) (u := [true, h.rf, h.p, h.fiS, h.fiE]) 5 hbits rfl
    rw [pairAnnounced, if_pos rfl, hbit, Bool.toNat_eq_one]
  have hpairs : pairsFrom b 0 = t := by
    rw [pairsFrom, hbits, List.drop_left' (by rw [fixedBits_length, hstart, Nat.mul_zero, Nat.add_zero])]
  obtain ⟨hbroken, hread⟩ := chain_outcome p hmore hpairs
  rw [decodeDataHeader_of_fixedBits p hok hbits, or_iff_right hmissing, ← hbroken]
  generalize (if more = true then decodeLis p.nLiMax t else some []) = chain at hread
  cases chain with
  | none => simp
  | some li =>
    obtain ⟨hvalues, hannounced, hlast⟩ := hread li rfl
    have hlen : hdrLen { h with li := li } =
        chainStart b / 8 + (li.length + (li.length + 1) / 2) := by
      rw [hdrLen_withLi, hstart]
      split_ifs <;> rfl
    rw [payloadMissing_iff hannounced hlast, ← hvalues, ← hlen]
    simp

/-! ### DEC_DATA_HDR -/

theorem exec_decDataHdr_of_corrupt {b : List Byte} {s : State} (hb : b.length ≤ s.params.maxPduBytes)
    (h : decodeDataHeader s.params b = none) :
    exec (.decDataHdr b) s = .next (respond .errCorruptHeader [0, 0, 0] [] s) := by
  rw [exec, execDecDataHdr, legalLength, decide_eq_true hb, requireLegal_true, h]
  rfl

theorem exec_decDataHdr_of_decoded {b : List Byte} {s : State} {h : Header} {len : Nat}
    (hb : b.length ≤ s.params.maxPduBytes) (hd : decodeDataHeader s.params b = some (h, len)) :
    exec (.decDataHdr b) s = .next (respond .ok
      (wordOfHeader h :: wordOfNat h.li.length :: wordOfNat len :: h.li.map wordOfNat) [] s) := by
  rw [exec, execDecDataHdr, legalLength, decide_eq_true hb, requireLegal_true, hd]

/-- The number of two fields beside each other. -/
theorem toNat_append_eq_add {m n : Nat} (x : BitVec m) (y : BitVec n) :
    (x ++ y).toNat = x.toNat * 2 ^ n + y.toNat := by
  rw [BitVec.toNat_append, ← Nat.shiftLeft_add_eq_or_of_lt y.isLt, Nat.shiftLeft_eq]

/-- The header word, field by field (R94). -/
theorem wordOfHeader_eq (h : Header) : wordOfHeader h =
    BitVec.ofNat 32 (h.dc.toNat + 2 * h.rf.toNat + 4 * h.p.toNat + 8 * h.fiE.toNat +
      16 * h.fiS.toNat + 32 * h.lsf.toNat + 64 * h.sn.toNat + 65536 * h.so) := by
  have hsn := h.sn.isLt
  have hdc := Bool.toNat_le h.dc
  have hrf := Bool.toNat_le h.rf
  have hp := Bool.toNat_le h.p
  have he := Bool.toNat_le h.fiE
  have hs := Bool.toNat_le h.fiS
  have hl := Bool.toNat_le h.lsf
  apply BitVec.eq_of_toNat_eq
  simp only [wordOfHeader, toNat_append_eq_add, BitVec.toNat_ofNat, BitVec.toNat_ofBool]
  omega

end Sys2Proof.Machine

open Sys2Proof.Machine in
/-- Settles O19: the decoder reads back what the encoder packed, and refuses exactly the corrupt headers. -/
theorem decodeHeaderCommand : Obligations.DecodeHeaderCommand := by
  refine fun s => ⟨fun h d hok hpayload hb => ?_, fun h d hok hpayload hb => ?_, fun b hb hbad => ?_,
    fun b hb => ⟨fun hbad => ?_, fun hgood => ?_⟩⟩
  · have hd : decodeDataHeader s.params (encodeDataHeader h ++ d) = some (h, hdrLen h) := by
      rw [decodeDataHeader_encodeDataHeader hok, if_neg (Nat.not_le.mpr hpayload)]
    rw [exec_decDataHdr_of_decoded hb hd, wordOfHeader_eq]
    rfl
  · refine exec_decDataHdr_of_corrupt hb ?_
    rw [decodeDataHeader_encodeDataHeader hok, if_pos hpayload]
  · have hmissing : FixedFieldsMissing b := hbad.imp_right fun ⟨b0, hhead, hbit⟩ => .inl <| by
      obtain ⟨rest, rfl⟩ := List.head?_eq_some_iff.mp hhead
      exact (BitVec.testBit_toNat b0).trans hbit
    exact exec_decDataHdr_of_corrupt hb (decodeDataHeader_of_missing _ hmissing)
  · exact exec_decDataHdr_of_corrupt hb ((decodeDataHeader_eq_none_iff ..).mpr hbad)
  · obtain ⟨⟨h, len⟩, hd⟩ := Option.ne_none_iff_exists'.mp
      fun hnone => hgood ((decodeDataHeader_eq_none_iff ..).mp hnone)
    exact ⟨_, exec_decDataHdr_of_decoded hb hd⟩
end

section
/-!
DEC_STATUS (O23; R110, R112, R148): which STATUS PDUs are corrupt, in terms of `bitsAt`, and the result words.
-/
namespace Sys2Proof.Machine

/-- NACK element `k` is announced: by the fields before the elements, or by the element before it. -/
def nackAnnounced (b : List Byte) (k : Nat) : Prop :=
  bitsAt b (if k = 0 then 14 else nackStart b (k - 1) + 10) 1 = 1

/-- The bits from NACK element `k` on. -/
def nacksFrom (b : List Byte) (k : Nat) : List Bool := (bitsOfBytes b).drop (nackStart b k)

/-- NACK element `k` runs past the bytes, with its offsets or without. -/
def NackBad (b : List Byte) (k : Nat) : Prop :=
  8 * b.length < nackStart b k + 12 ∨
    (bitsAt b (nackStart b k + 11) 1 = 1 ∧ 8 * b.length < nackStart b k + 42)

theorem nackBad_iff (b : List Byte) (k : Nat) : NackBad b k ↔ ElementMissing (nacksFrom b k) := by
  have hlen : (nacksFrom b k).length = 8 * b.length - nackStart b k := by
    rw [nacksFrom, List.length_drop, bitsOfBytes_length]
  rcases Nat.lt_or_ge (8 * b.length) (nackStart b k + 12) with hshort | hlong
  · exact iff_of_true (.inl hshort) (.inl (by omega))
  · have hbit : bitsAt b (nackStart b k + 11) 1 = ((nacksFrom b k).getD 11 false).toNat := by
      rw [bitsAt_single (by omega), nacksFrom, List.getD_eq_getElem?_getD, List.getD_eq_getElem?_getD,
        List.getElem?_drop]
    rw [NackBad, ElementMissing, hbit, Bool.toNat_eq_one, or_iff_right (by omega),
      or_iff_right (by omega), hlen]
    exact and_congr_right fun _ => by omega

/-- What is read of an element that does not run past the bytes. -/
theorem exists_element {b : List Byte} {k : Nat} (h : ¬ NackBad b k) :
    ∃ more n, NackOk n ∧ nacksFrom b k = elementBits more n ++ nacksFrom b (k + 1) ∧
      (nackAnnounced b (k + 1) ↔ more = true) := by
  obtain ⟨more, n, t, hn, helement⟩ := exists_elementBits (mt (nackBad_iff b k).mpr h)
  have hfields : nacksFrom b k = bitsOf 10 n.nackSn.toNat ++ more :: n.hasSo ::
      ((if n.hasSo then bitsOf 15 n.soStart ++ bitsOf 15 n.soEnd else []) ++ t) := by
    rw [helement, elementBits]
    simp
  have hmore : bitsAt b (nackStart b k + 10) 1 = more.toNat :=
    bitsAt_bit_of_drop _ hfields (by rw [bitsOf_length])
  have hso : bitsAt b (nackStart b k + 11) 1 = n.hasSo.toNat :=
    bitsAt_bit_of_drop (u := bitsOf 10 n.nackSn.toNat ++ [more]) _
      (by rw [← nacksFrom, hfields, List.append_assoc]; rfl) (by simp)
  have hstart : nackStart b (k + 1) = nackStart b k + nackCost n := by
    rw [nackStart, hso, nackCost]
    cases n.hasSo <;> rfl
  have hnext : nacksFrom b (k + 1) = t := by
    rw [nacksFrom, hstart, ← List.drop_drop, ← nacksFrom, helement,
      List.drop_left' (elementBits_length ..)]
  refine ⟨more, n, hn, by rw [hnext]; exact helement, ?_⟩
  rw [nackAnnounced, if_neg (Nat.succ_ne_zero k), Nat.add_sub_cancel, hmore, Bool.toNat_eq_one]

/-- When the chain of elements is refused: an announced element is bad or one too many (R148). -/
theorem decodeNacks_eq_none_iff (b : List Byte) (cap i : Nat) : decodeNacks cap (nacksFrom b i) = none ↔
    ∃ k, i ≤ k ∧ (∀ j, i < j → j ≤ k → nackAnnounced b j) ∧ (NackBad b k ∨ i + cap ≤ k) := by
  refine chain_fails_iff (fails := fun cap i => decodeNacks cap (nacksFrom b i) = none)
    (fun _ => rfl) (fun cap i => ?_) cap i
  by_cases hbad : NackBad b i
  · exact iff_of_true (decodeNacks_of_missing ((nackBad_iff b i).mp hbad) _) (.inl hbad)
  · obtain ⟨more, n, hn, helement, hmore⟩ := exists_element hbad
    rw [helement, decodeNacks_elementBits _ _ hn, or_iff_right hbad, hmore]
    cases more <;> simp

theorem ackMissing_iff (b : List Byte) : AckMissing b ↔ b.length < 2 ∨ bitsAt b 0 4 ≠ 0 := by
  rcases Nat.lt_or_ge b.length 2 with hshort | hlong
  · exact iff_of_true (.inl hshort) (.inl hshort)
  · rw [AckMissing, bitsAt_eq (by omega), List.drop_zero]

/-- An announced element is bad or one too many (R22, R110, R148). -/
def NacksBroken (b : List Byte) : Prop :=
  ∃ k, (∀ j, j ≤ k → nackAnnounced b j) ∧
    (8 * b.length < nackStart b k + 12 ∨ 1024 ≤ k ∨
      (bitsAt b (nackStart b k + 11) 1 = 1 ∧ 8 * b.length < nackStart b k + 42))

theorem statusMalformed_iff (b : List Byte) : StatusMalformed b ↔ AckMissing b ∨ NacksBroken b := by
  rw [ackMissing_iff, or_assoc]
  rfl

theorem nacksBroken_iff (b : List Byte) : NacksBroken b ↔
    nackAnnounced b 0 ∧ decodeNacks 1024 (nacksFrom b 0) = none := by
  have hend : ∀ k, (8 * b.length < nackStart b k + 12 ∨ 1024 ≤ k ∨
      (bitsAt b (nackStart b k + 11) 1 = 1 ∧ 8 * b.length < nackStart b k + 42)) ↔
      (NackBad b k ∨ 0 + 1024 ≤ k) := fun k => by
    rw [NackBad, Nat.zero_add, or_assoc]
    exact or_congr_right or_comm
  simp only [NacksBroken, hend, announced_from_zero_iff, decodeNacks_eq_none_iff]

/-- The decoder refuses exactly the corrupt STATUS PDUs (R148). -/
theorem decodeStatus_eq_none_iff (b : List Byte) : decodeStatus b = none ↔ StatusMalformed b := by
  rw [statusMalformed_iff]
  by_cases hmissing : AckMissing b
  · exact iff_of_true (decodeStatus_of_missing hmissing) (.inl hmissing)
  obtain ⟨ack, more, t, hbits⟩ := exists_ackBits hmissing
  have hfirst : nackAnnounced b 0 ↔ more = true := by
    have hbit := bitsAt_bit_of_drop (s := 0)
      (u := [false, false, false, false] ++ bitsOf 10 ack.toNat) (x := more) (t := t) 14
      (by rw [List.drop_zero, hbits, ackBits, List.append_assoc]; rfl) (by simp)
    rw [nackAnnounced, if_pos rfl, hbit, Bool.toNat_eq_one]
  have hnacks : nacksFrom b 0 = t := by
    rw [nacksFrom, hbits, nackStart, List.drop_left' (ackBits_length ..)]
  rw [decodeStatus_of_ackBits hbits, or_iff_right hmissing, nacksBroken_iff, hfirst, hnacks]
  cases more <;> simp

/-! ### DEC_STATUS -/

theorem exec_decStatus_of_corrupt {b : List Byte} {s : State} (hb : b.length ≤ s.params.maxPduBytes)
    (h : decodeStatus b = none) :
    exec (.decStatus b) s = .next (respond .errCorruptHeader [0, 0] [] s) := by
  rw [exec, execDecStatus, legalLength, decide_eq_true hb, requireLegal_true, h]
  rfl

theorem exec_decStatus_of_decoded {b : List Byte} {s : State} {st : StatusPdu}
    (hb : b.length ≤ s.params.maxPduBytes) (hd : decodeStatus b = some st) :
    exec (.decStatus b) s = .next (respond .ok
      (wordOfSn st.ackSn :: wordOfNat st.nacks.length :: st.nacks.flatMap wordsOfNack) [] s) := by
  rw [exec, execDecStatus, legalLength, decide_eq_true hb, requireLegal_true, hd]

theorem wordOfSn_eq (sn : Sn) : wordOfSn sn = BitVec.ofNat 32 sn.toNat := by
  apply BitVec.eq_of_toNat_eq
  rw [wordOfSn, BitVec.toNat_setWidth, BitVec.toNat_ofNat]

/-- The pair `nw0`, `nw1` of an element, field by field (R94). -/
theorem wordsOfNack_eq {n : Nack} (hn : NackOk n) : wordsOfNack n =
    [BitVec.ofNat 32 (n.nackSn.toNat + 1024 * n.hasSo.toNat),
     BitVec.ofNat 32 (n.soStart + 65536 * n.soEnd)] := by
  obtain ⟨hstart, hend, -⟩ := hn
  have hsn := n.nackSn.isLt
  have hso := Bool.toNat_le n.hasSo
  have hfirst : (BitVec.ofBool n.hasSo ++ n.nackSn).setWidth 32 =
      BitVec.ofNat 32 (n.nackSn.toNat + 1024 * n.hasSo.toNat) := by
    apply BitVec.eq_of_toNat_eq
    rw [BitVec.toNat_setWidth, toNat_append_eq_add, BitVec.toNat_ofBool, BitVec.toNat_ofNat]
    omega
  have hsecond : (BitVec.ofNat 15 n.soEnd ++ (0#1) ++ BitVec.ofNat 15 n.soStart).setWidth 32 =
      BitVec.ofNat 32 (n.soStart + 65536 * n.soEnd) := by
    apply BitVec.eq_of_toNat_eq
    simp only [BitVec.toNat_setWidth, toNat_append_eq_add, BitVec.toNat_ofNat]
    omega
  rw [wordsOfNack, hfirst, hsecond]

theorem flatMap_wordsOfNack {l : List Nack} (hok : ∀ n ∈ l, NackOk n) : l.flatMap wordsOfNack =
    l.flatMap fun n => [BitVec.ofNat 32 (n.nackSn.toNat + 1024 * n.hasSo.toNat),
      BitVec.ofNat 32 (n.soStart + 65536 * n.soEnd)] :=
  List.flatMap_congr fun n hn => wordsOfNack_eq (hok n hn)

end Sys2Proof.Machine

open Sys2Proof.Machine in
/-- Settles O23: the decoder reads the packed bits back, whatever follows them, and refuses exactly the
corrupt STATUS PDUs. -/
theorem decodeStatusCommand : Obligations.DecodeStatusCommand := by
  refine fun s => ⟨fun st tail hoffsets hzero hcount hb => ?_, fun b hb hbad => ?_,
    fun b hb => ⟨fun hbad => ?_, fun hgood => ?_⟩⟩
  · have hok : ∀ n ∈ st.nacks, NackOk n := fun n hn =>
      ⟨(hoffsets n hn).1, (hoffsets n hn).2, hzero n hn⟩
    have hd : decodeStatus (bytesOfBits (statusBits st) ++ tail) = some st := by
      obtain ⟨pad, hpad, -⟩ := bitsOfBytes_bytesOfBits (statusBits st)
      refine decodeStatus_of_statusBits (rest := pad ++ bitsOfBytes tail) hok hcount ?_
      rw [bitsOfBytes_append, hpad, List.append_assoc]
    rw [exec_decStatus_of_decoded hb hd, flatMap_wordsOfNack hok, wordOfSn_eq]
    rfl
  · refine exec_decStatus_of_corrupt hb (decodeStatus_of_missing (hbad.imp_right fun hnibble => ?_))
    obtain ⟨b0, hhead, hupper⟩ := hnibble
    obtain ⟨rest, rfl⟩ := List.head?_eq_some_iff.mp hhead
    have hlt := b0.isLt
    have hfour := natOfBits_part (l := bitsOf 8 b0.toNat) (off := 0) (n := 4) (by simp)
    rw [List.drop_zero, bitsOf_eight, bitsOf_length] at hfour
    rw [bitsOfBytes_cons, List.take_append_of_le_length (by simp), hfour]
    omega
  · exact exec_decStatus_of_corrupt hb ((decodeStatus_eq_none_iff b).mpr hbad)
  · obtain ⟨st, hd⟩ := Option.ne_none_iff_exists'.mp
      fun hnone => hgood ((decodeStatus_eq_none_iff b).mp hnone)
    exact ⟨_, exec_decStatus_of_decoded hb hd⟩
end

section
/-!
The segment pool's commands (O24 to O26; R160 to R163): what each one answers to a legal argument, and what it
leaves in the pool.
-/
namespace Sys2Proof.Machine

theorem legalPdcpSn_eq_true_iff {p : Params} {q : Word} :
    legalPdcpSn p q = true ↔ q.toNat < 2 ^ p.pdcpSnBits :=
  decide_eq_true_iff

theorem snOfWord_eq_ofNat (w : Word) : snOfWord w = BitVec.ofNat 10 w.toNat :=
  (BitVec.ofNat_toNat 10 w).symm

/-! ### POOL_ALLOC (R160) -/

section
variable {rlcSn pdcpSn : Word} {s : State} (hsn : rlcSn.toNat ≤ 1023)
  (hq : pdcpSn.toNat < 2 ^ s.params.pdcpSnBits)
include hsn hq

theorem execPoolAlloc_of_none (h : poolAllocate (snOfWord rlcSn) pdcpSn s.pool = none) :
    execPoolAlloc rlcSn pdcpSn s = .next (respond .errPoolExhausted [0] [] s) := by
  rw [execPoolAlloc, legalSn_eq_true_iff.mpr hsn, legalPdcpSn_eq_true_iff.mpr hq, Bool.and_self,
    requireLegal_true, h]
  rfl

theorem execPoolAlloc_of_some {id : Nat} {pool : Pool}
    (h : poolAllocate (snOfWord rlcSn) pdcpSn s.pool = some (id, pool)) :
    execPoolAlloc rlcSn pdcpSn s =
      .next (respond .ok [BitVec.ofNat 32 id] [] { s with pool := pool }) := by
  rw [execPoolAlloc, legalSn_eq_true_iff.mpr hsn, legalPdcpSn_eq_true_iff.mpr hq, Bool.and_self,
    requireLegal_true, h]
  rfl

end

/-! ### POOL_REL_RLC and POOL_REL_PDCP (R161, R162) -/

theorem slotInUse_of_some {s : State} {id : Nat} {slot : Slot} (hid : id < s.params.poolCapacity)
    (hslot : tableGet s.pool.slots id = some slot) : slotInUse s id = true := by
  rw [slotInUse, decide_eq_true hid, hslot, Option.isSome_some, Bool.and_self]

theorem slotInUse_eq_false {s : State} {id : Nat}
    (h : s.params.poolCapacity ≤ id ∨ tableGet s.pool.slots id = none) : slotInUse s id = false := by
  rcases h with hbig | hnone
  · rw [slotInUse, decide_eq_false (Nat.not_lt.mpr hbig), Bool.false_and]
  · rw [slotInUse, hnone, Option.isSome_none, Bool.and_false]

theorem poolStore_free (id : Nat) (slot : Slot) (pool : Pool) :
    (poolStore id slot pool).free =
      if slot.rlcReleased && slot.pdcpReleased then id :: pool.free else pool.free := by
  rcases poolStore_cases id slot pool with ⟨hrlc, hpdcp, h⟩ | ⟨hrlc | hpdcp, h⟩
  · rw [h, hrlc, hpdcp, Bool.and_self, if_pos rfl]
  · rw [h, hrlc, Bool.false_and, if_neg Bool.false_ne_true]
  · rw [h, hpdcp, Bool.and_false, if_neg Bool.false_ne_true]

section
variable {id : Nat} {slot : Slot} {pool : Pool} (h : tableGet pool.slots id = some slot)
include h

theorem releaseByRlc_free :
    (releaseByRlc id pool).free = if slot.pdcpReleased then id :: pool.free else pool.free := by
  rw [releaseByRlc_of_some h, poolStore_free, Bool.true_and]

theorem releaseByPdcp_free :
    (releaseByPdcp id pool).free = if slot.rlcReleased then id :: pool.free else pool.free := by
  rw [releaseByPdcp_of_some h, poolStore_free, Bool.and_true]

theorem tableGet_releaseByRlc (k : Nat) :
    tableGet (releaseByRlc id pool).slots k =
      if k = id then (if slot.pdcpReleased then none else some { slot with rlcReleased := true })
      else tableGet pool.slots k := by
  rw [releaseByRlc_of_some h, tableGet_poolStore, Bool.true_and]

theorem tableGet_releaseByPdcp (k : Nat) :
    tableGet (releaseByPdcp id pool).slots k =
      if k = id then (if slot.rlcReleased then none else some { slot with pdcpReleased := true })
      else tableGet pool.slots k := by
  rw [releaseByPdcp_of_some h, tableGet_poolStore, Bool.and_true]

end

theorem execPoolRelRlc_of_inUse {s : State} {id : Word} (h : slotInUse s id.toNat = true) :
    execPoolRelRlc id s =
      .next (respond .ok [] [] { s with pool := releaseByRlc id.toNat s.pool }) := by
  rw [execPoolRelRlc, h, requireLegal_true]

theorem execPoolRelPdcp_of_inUse {s : State} {id : Word} (h : slotInUse s id.toNat = true) :
    execPoolRelPdcp id s =
      .next (respond .ok [] [] { s with pool := releaseByPdcp id.toNat s.pool }) := by
  rw [execPoolRelPdcp, h, requireLegal_true]

theorem execPoolRelRlc_of_notInUse {s : State} {id : Word} (h : slotInUse s id.toNat = false) :
    execPoolRelRlc id s = .next (respond .errIllegalCommand [] [] s) :=
  requireLegal_of_illegal h ..

theorem execPoolRelPdcp_of_notInUse {s : State} {id : Word} (h : slotInUse s id.toNat = false) :
    execPoolRelPdcp id s = .next (respond .errIllegalCommand [] [] s) :=
  requireLegal_of_illegal h ..

/-! ### POOL_IS_ACKED (R163) -/

theorem isSduFullyAcked_iff_recordsFor {pool : Pool} {q : Word} :
    isSduFullyAcked pool q = true ↔
      recordsFor pool q ≠ [] ∧ ∀ e ∈ recordsFor pool q, e.2.rlcReleased = true := by
  rw [isSduFullyAcked, Bool.and_eq_true, List.all_eq_true, Bool.not_eq_true', List.isEmpty_eq_false_iff]

theorem execPoolIsAcked_of_legal {q : Word} {s : State} (hq : q.toNat < 2 ^ s.params.pdcpSnBits) :
    execPoolIsAcked q s =
      .next (respond .ok [if isSduFullyAcked s.pool q then 1 else 0] [] s) := by
  rw [execPoolIsAcked, legalPdcpSn_eq_true_iff.mpr hq, requireLegal_true]

end Sys2Proof.Machine

open Sys2Proof.Machine in
/-- Settles O24: the allocation takes the top index exactly when `FREE` has one. -/
theorem poolAllocTakesTop : Obligations.PoolAllocTakesTop := by
  intro rlcSn pdcpSn s hsn hq
  rcases poolAllocate_cases (snOfWord rlcSn) pdcpSn s.pool with
    ⟨hempty, halloc⟩ | ⟨top, below, hfree, halloc⟩
  · refine ⟨fun _ => execPoolAlloc_of_none hsn hq halloc, fun id rest hcons => ?_⟩
    rw [hempty] at hcons
    cases hcons
  · refine ⟨fun hnil => ?_, fun id rest hcons => ?_⟩
    · rw [hfree] at hnil
      cases hnil
    · rw [hfree] at hcons
      cases hcons
      refine ⟨_, execPoolAlloc_of_some hsn hq halloc, fun k => ?_⟩
      rw [tableGet_tableSet, snOfWord_eq_ofNat]

open Sys2Proof.Machine in
/-- Settles O25: an index that names no slot in use is refused before anything else; on a slot in use the
half released now is set, so the other half decides whether the slot is freed. -/
theorem poolReleaseHalves : Obligations.PoolReleaseHalves := by
  refine fun id s => ⟨fun hunused => ?_, fun slot hid hslot => ?_⟩
  · have hnotInUse := slotInUse_eq_false hunused
    exact ⟨execPoolRelRlc_of_notInUse hnotInUse, execPoolRelPdcp_of_notInUse hnotInUse⟩
  · have hinUse := slotInUse_of_some hid hslot
    exact ⟨
      ⟨_, execPoolRelRlc_of_inUse hinUse, releaseByRlc_free hslot, tableGet_releaseByRlc hslot⟩,
      ⟨_, execPoolRelPdcp_of_inUse hinUse, releaseByPdcp_free hslot, tableGet_releaseByPdcp hslot⟩⟩

open Sys2Proof.Machine in
/-- Settles O26: the answer is the word of `isSduFullyAcked`, and `recs` are the records that it reads. -/
theorem poolIsAcked : Obligations.PoolIsAcked := by
  intro q s hq recs
  have hacked : isSduFullyAcked s.pool q = true ↔ recs ≠ [] ∧ ∀ e ∈ recs, e.2.rlcReleased = true :=
    isSduFullyAcked_iff_recordsFor
  refine ⟨fun hall => (execPoolIsAcked_of_legal hq).trans ?_,
    fun hsome => (execPoolIsAcked_of_legal hq).trans ?_⟩
  · rw [if_pos (hacked.mpr hall)]
  · have hnot : ¬ isSduFullyAcked s.pool q = true := fun htrue => by
      obtain ⟨hne, hreleased⟩ := hacked.mp htrue
      rcases hsome with hnil | ⟨e, he, hkept⟩
      · exact hne hnil
      · exact Bool.false_ne_true (hkept.symm.trans (hreleased e he))
    rw [if_neg hnot]
end

section
/-!
The commands of an engine that accepts them (R261, R267): past the two gates a data-path command is its
operation; then the two SDU commands (O27, O28; R170, R171).
-/
namespace Sys2Proof.Machine

/-! ### Past the gates (R261, R267) -/

/-- A data-path command that needs no legality check. -/
theorem dataPath_of_accepting {s : State} (hs : Accepting s) (m : Nat) (body : State → Answer) :
    dataPath m body s = body s :=
  dataPath_accepting hs.1 hs.2.1 hs.2.2 m body

theorem gates_of_accepting {s : State} {legal : Bool} (hs : Accepting s) (hlegal : legal = true)
    (m k : Nat) (body : State → Answer) : requireLegal legal m (dataPath k body) s = body s := by
  rw [hlegal, requireLegal_true, dataPath_of_accepting hs]

theorem exec_writeSdu {s : State} {q : Word} (hs : Accepting s) (hq : q.toNat < 2 ^ s.params.pdcpSnBits)
    (d : List Byte) : exec (.writeSdu q d) s = .next (writeSdu q d s) :=
  gates_of_accepting hs (legalPdcpSn_eq_true_iff.mpr hq) ..

theorem exec_discardSdu {s : State} {q : Word} (hs : Accepting s)
    (hq : q.toNat < 2 ^ s.params.pdcpSnBits) :
    exec (.discardSdu q) s = .next (discardSdu q s) :=
  gates_of_accepting hs (legalPdcpSn_eq_true_iff.mpr hq) ..

theorem exec_readPdu {s : State} {n : Word} (hs : Accepting s) (hn : n.toNat ≤ s.params.maxPduBytes) :
    exec (.readPdu n) s = answerOf (readPdu n.toNat s) :=
  gates_of_accepting hs (decide_eq_true hn) ..

theorem exec_writePdu {s : State} {b : List Byte} (hs : Accepting s)
    (hb : b.length ≤ s.params.maxPduBytes) : exec (.writePdu b) s = answerOf (writePdu b s) :=
  gates_of_accepting hs (decide_eq_true hb) ..

theorem exec_handleControlPdu {s : State} {b : List Byte} (hs : Accepting s)
    (hb : b.length ≤ s.params.maxPduBytes) :
    exec (.handleControlPdu b) s = .next (handleControlPdu b s) :=
  gates_of_accepting hs (decide_eq_true hb) ..

theorem exec_texpPollRetx {s : State} (hs : Accepting s) :
    exec .texpPollRetx s = .next (texpPollRetx s) := by
  rw [exec, execTexpPollRetx, dataPath_of_accepting hs]

theorem exec_texpStatusProhibit {s : State} (hs : Accepting s) :
    exec .texpStatusProhibit s = .next (texpStatusProhibit s) := by
  rw [exec, execTexpStatusProhibit, dataPath_of_accepting hs]

theorem exec_getBufferState {s : State} (hs : Accepting s) :
    exec .getBufferState s = .next (getBufferState s) := by
  rw [exec, execGetBufferState, dataPath_of_accepting hs]

/-! ### WRITE_SDU (R170) -/

section
variable {q : Word} {d : List Byte} {s : State}

theorem writeSdu_of_size (h : d = [] ∨ s.params.maxSduBytes < d.length) :
    writeSdu q d s = respond .errSduSize [] [] s := by
  rw [writeSdu, if_pos (h.imp_left fun hd => by rw [hd]; rfl)]
  rfl

/-- The size of an SDU that WRITE_SDU does not refuse for its size. -/
theorem sdu_size_ok (hne : d ≠ []) (hmax : d.length ≤ s.params.maxSduBytes) :
    ¬ (d.length = 0 ∨ s.params.maxSduBytes < d.length) := by
  have hpos := List.length_pos_iff.mpr hne
  omega

theorem writeSdu_of_full (hne : d ≠ []) (hmax : d.length ≤ s.params.maxSduBytes)
    (hfull : s.tx.sduQ.length = s.cfg.txQueueLength.toNat) :
    writeSdu q d s = respond .errQueueFull [] [] s := by
  rw [writeSdu, if_neg (sdu_size_ok hne hmax), if_pos hfull]
  rfl

theorem writeSdu_of_room (hne : d ≠ []) (hmax : d.length ≤ s.params.maxSduBytes)
    (hroom : s.tx.sduQ.length ≠ s.cfg.txQueueLength.toNat) :
    writeSdu q d s = respond .ok [] [] { s with
      tx := { s.tx with sduQ := s.tx.sduQ ++ [⟨q, d⟩] }, txSduCount := s.txSduCount + 1 } := by
  rw [writeSdu, if_neg (sdu_size_ok hne hmax), if_neg hroom]

end

/-- The SDU store after one SDU was put behind the others: its bytes at the new position, and elsewhere
what was there (R70, R170). -/
theorem getElem?_queue_append (l : List SduEntry) (e : SduEntry) (owner off : Nat) :
    ((l ++ [e])[owner]? >>= fun x => x.bytes[off]?) =
      if owner = l.length then e.bytes[off]? else l[owner]? >>= fun x => x.bytes[off]? := by
  by_cases howner : owner = l.length
  · rw [if_pos howner, howner, List.getElem?_concat_length]
    rfl
  · rw [if_neg howner]
    rcases Nat.lt_or_gt_of_ne howner with hlt | hgt
    · rw [List.getElem?_append_left hlt]
    · rw [List.getElem?_eq_none (by simp; omega), List.getElem?_eq_none (by omega)]

/-! ### DISCARD_SDU (R171) -/

theorem queuePosition_of_first {q : Word} {pre post : List SduEntry} {e : SduEntry}
    (he : e.pdcpSn = q) (hpre : ∀ x ∈ pre, x.pdcpSn ≠ q) :
    queuePosition (pre ++ e :: post) q = some pre.length := by
  rw [queuePosition, List.findIdx?_append,
    List.findIdx?_eq_none_iff.mpr fun x hx => decide_eq_false (hpre x hx),
    List.findIdx?_cons, if_pos (decide_eq_true he)]
  simp

theorem queuePosition_of_absent {q : Word} {l : List SduEntry} (h : ∀ x ∈ l, x.pdcpSn ≠ q) :
    queuePosition l q = none :=
  List.findIdx?_eq_none_iff.mpr fun x hx => decide_eq_false (h x hx)

theorem recordsOf_isEmpty_iff {pool : Pool} {q : Word} :
    (recordsOf pool q).isEmpty = true ↔ ∀ e ∈ pool.slots, e.2.pdcpSn ≠ q := by
  simp [recordsOf, recordsFor, List.filter_eq_nil_iff]

section
variable {q : Word} {s : State}

theorem discardSdu_of_unsent {pre post : List SduEntry} {e : SduEntry}
    (hq : s.tx.sduQ = pre ++ e :: post) (he : e.pdcpSn = q) (hpre : ∀ x ∈ pre, x.pdcpSn ≠ q)
    (hunsent : ¬ (pre = [] ∧ 0 < s.tx.headOff)) :
    discardSdu q s = respond .ok [] [] { s with tx := { s.tx with sduQ := pre ++ post } } := by
  have hnot : ¬ (decide (pre.length = 0) && decide (0 < s.tx.headOff)) = true := by
    simpa using hunsent
  have herase : (pre ++ e :: post).eraseIdx pre.length = pre ++ post := by
    rw [List.eraseIdx_append_of_length_le le_rfl, Nat.sub_self, List.eraseIdx_cons_zero]
  unfold discardSdu
  dsimp only
  rw [hq, queuePosition_of_first he hpre]
  dsimp only
  rw [if_neg hnot, herase]

theorem discardSdu_of_partlySent {post : List SduEntry} {e : SduEntry}
    (hq : s.tx.sduQ = e :: post) (he : e.pdcpSn = q) (hoff : 0 < s.tx.headOff) :
    discardSdu q s = respond .infoAlreadyInWindow [] [] s := by
  have hpos := queuePosition_of_first (pre := []) (post := post) he (by simp)
  unfold discardSdu
  dsimp only
  rw [hq, ← List.nil_append (e :: post), hpos]
  dsimp only
  rw [decide_eq_true hoff]
  rfl

theorem discardSdu_of_absent (h : ∀ x ∈ s.tx.sduQ, x.pdcpSn ≠ q) :
    discardSdu q s = if (recordsOf s.pool q).isEmpty then respond .infoNotFound [] [] s
      else respond .infoAlreadyInWindow [] [] s := by
  unfold discardSdu
  dsimp only
  rw [queuePosition_of_absent h]
  cases (recordsOf s.pool q).isEmpty <;> rfl

end

end Sys2Proof.Machine

open Sys2Proof.Machine in
/-- Settles O27: the size is checked before the room, and the new entry stands behind the others. -/
theorem writeSduQueues : Obligations.WriteSduQueues := by
  intro q d s hs hq
  rw [exec_writeSdu hs hq]
  refine ⟨fun hsize => congrArg _ (writeSdu_of_size hsize), fun hne hmax =>
    ⟨fun hfull => congrArg _ (writeSdu_of_full hne hmax hfull), fun hroom => ?_⟩⟩
  rw [writeSdu_of_room hne hmax hroom]
  refine ⟨rfl, fun t ht space owner off => ?_⟩
  cases ht
  cases space with
  | sdu => exact (getElem?_queue_append s.tx.sduQ ⟨q, d⟩ owner off).trans (by simp [byteAt])
  | txPdu | rxPdu | rxSegment | rxSdu => rfl

open Sys2Proof.Machine in
/-- Settles O28, by the position of the SDU in the queue, or the records of the pool when it has none. -/
theorem discardSduRemoves : Obligations.DiscardSduRemoves := by
  intro q s hs hq
  rw [exec_discardSdu hs hq]
  refine ⟨fun pre post e hsplit he hpre =>
    ⟨fun hunsent => congrArg _ (discardSdu_of_unsent hsplit he hpre hunsent), fun hnil hoff => ?_⟩,
    fun habsent => ?_⟩
  · subst hnil
    exact congrArg _ (discardSdu_of_partlySent hsplit he hoff)
  · rw [discardSdu_of_absent habsent]
    refine ⟨fun ⟨e, he, heq⟩ => ?_, fun hnone => ?_⟩
    · rw [if_neg fun hempty => recordsOf_isEmpty_iff.mp hempty e he heq]
    · rw [if_pos (recordsOf_isEmpty_iff.mpr hnone)]
end

section
/-!
The poll bit (O30; R183, R184), the two expiries of the transmitter (O37; R193, R194) and the buffer state
(O38; R195).
-/
namespace Sys2Proof.Machine

/-! ### The poll bit (R183, R184) -/

theorem txWindowFull_iff (s : State) :
    txWindowFull s = true ↔ 512 ≤ modBase s.tx.vtA s.tx.vtS := decide_eq_true_iff

theorem txWindowFull_of_room {s : State} (h : modBase s.tx.vtA s.tx.vtS < 512) :
    txWindowFull s = false := decide_eq_false (Nat.not_le.mpr h)

/-- `poll_required()` as a proposition on plain numbers (R183). -/
theorem pollRequired_iff (u : State) : pollRequired u = true ↔
    (u.cfg.pollPdu ≠ 0 ∧ u.cfg.pollPdu.toNat < u.tx.pduWithoutPoll.toNat) ∨
    (u.cfg.pollByte ≠ 0 ∧ u.cfg.pollByte.toNat < u.tx.byteWithoutPoll.toNat) ∨
    u.tx.pollRetxExpired = true ∨ 512 ≤ modBase u.tx.vtA u.tx.vtS ∨
    (u.tx.sduQ = [] ∧ u.tx.retxQ = []) ∨
    (u.cfg.pollPdu = 0 ∧ u.cfg.pollByte = 0 ∧ u.params.pollPeriod ≠ 0 ∧
      u.params.pollPeriod ≤ u.tx.pduWithoutPoll.toNat) := by
  simp only [pollRequired, Bool.or_eq_true, Bool.and_eq_true, decide_eq_true_eq, txWindowFull_iff,
    List.isEmpty_iff, BitVec.lt_def, or_assoc, and_assoc]

theorem transmit_of_poll {u : State} (hpoll : pollRequired u = true) (h : Header)
    (payload : List Byte) : transmit h payload u =
      respondBytes (encodeDataHeader { h with p := true } ++ payload) (applyPoll u) := by
  rw [transmit, if_pos hpoll]

theorem transmit_of_no_poll {u : State} (hpoll : ¬ pollRequired u = true) (h : Header)
    (payload : List Byte) : transmit h payload u =
      respondBytes (encodeDataHeader { h with p := false } ++ payload) u := by
  rw [transmit, if_neg hpoll]

/-! ### The expiries (R193, R194) -/

/-- The poll-retransmit expiry asks for the oldest PDU: both queues are empty or the window is full
(R193). -/
abbrev OldestWanted (s : State) : Prop :=
  (s.tx.retxQ = [] ∧ s.tx.sduQ = []) ∨ 512 ≤ modBase s.tx.vtA s.tx.vtS

theorem oldestWanted_iff (s : State) :
    ((s.tx.retxQ.isEmpty && s.tx.sduQ.isEmpty) || txWindowFull s) = true ↔ OldestWanted s := by
  simp only [OldestWanted, Bool.or_eq_true, Bool.and_eq_true, txWindowFull_iff, List.isEmpty_iff]

theorem texpPollRetx_of_stale {s : State} (h : s.tx.pollRetxRunning = false) :
    texpPollRetx s = respond .ok [] [] s := by
  rw [texpPollRetx, h]
  rfl

theorem texpPollRetx_of_unwanted {s : State} (hrun : s.tx.pollRetxRunning = true)
    (h : ¬ OldestWanted s) : texpPollRetx s = respond .ok [] [] (pollExpired s) := by
  have hnot : ¬ (((pollExpired s).tx.retxQ.isEmpty && (pollExpired s).tx.sduQ.isEmpty) ||
      txWindowFull (pollExpired s)) = true := fun hc => h ((oldestWanted_iff s).mp hc)
  rw [texpPollRetx, if_pos hrun]
  exact if_neg hnot

/-- A wanted expiry fails when the window floor is missing, else it answers once the floor is queued. -/
theorem texpPollRetx_of_wanted {s : State} (hrun : s.tx.pollRetxRunning = true)
    (h : OldestWanted s) : texpPollRetx s =
      (scheduleOldest (pollExpired s)).elim (protocolFailure 0 (pollExpired s))
        (respond .ok [] []) := by
  rw [texpPollRetx, if_pos hrun]
  refine (if_pos ((oldestWanted_iff s).mpr h)).trans ?_
  change (match scheduleOldest (pollExpired s) with | none => _ | some u => _) = _
  cases scheduleOldest (pollExpired s) <;> rfl

theorem texpStatusProhibit_of_running {s : State} (h : s.tx.statusProhibitRunning = true) :
    texpStatusProhibit s = respond .ok [] [] (setTimer .statusProhibit false s) := by
  rw [texpStatusProhibit, if_pos h]
  rfl

theorem texpStatusProhibit_of_stale {s : State} (h : s.tx.statusProhibitRunning = false) :
    texpStatusProhibit s = respond .ok [] [] s := by
  rw [texpStatusProhibit, h]
  rfl

/-! ### Scheduling the oldest PDU (R177) -/

theorem scheduleOldest_of_empty {s : State} (h : s.tx.vtA = s.tx.vtS) : scheduleOldest s = some s := by
  rw [scheduleOldest, if_pos h]

theorem scheduleOldest_of_missing {s : State} (hne : s.tx.vtA ≠ s.tx.vtS)
    (hmissing : tableGet s.tx.window s.tx.vtA.toNat = none) : scheduleOldest s = none := by
  rw [scheduleOldest, if_neg hne, hmissing]

section
variable {s : State} {t : TxEntry} (hne : s.tx.vtA ≠ s.tx.vtS)
  (ht : tableGet s.tx.window s.tx.vtA.toNat = some t)
include hne ht

theorem scheduleOldest_of_queued (hq : ∃ e ∈ s.tx.retxQ, e.sn = s.tx.vtA) :
    scheduleOldest s = some s := by
  rw [scheduleOldest, if_neg hne, ht]
  exact if_pos (by simpa using hq)

theorem scheduleOldest_of_unqueued (hq : ∀ e ∈ s.tx.retxQ, e.sn ≠ s.tx.vtA) :
    scheduleOldest s =
      some (withRetxQ s (s.tx.retxQ ++ [⟨s.tx.vtA, false, 0, t.buf.length⟩])) := by
  rw [scheduleOldest, if_neg hne, ht]
  exact if_neg (by simpa using hq)

end

/-! ### Buffer state (R195) -/

/-- A STATUS is due, as READ_PDU and GET_BUFFER_STATE test it (R173, R195). -/
theorem statusDue_iff (s : State) :
    (s.rx.doStatus && !s.tx.statusProhibitRunning) = true ↔ StatusDue s := by
  simp [StatusDue]

/-- The first term of the sum: 0 while no STATUS is due, else the size of the report, or with two
sequencers a free number up to it (R195, U12). -/
theorem statusTerm_cases (s : State) :
    (¬ StatusDue s ∧ statusTerm s = (0, s)) ∨
    (StatusDue s ∧ s.params.dualSeq = false ∧
      statusTerm s = ((statusPduBytes s.params.maxPduBytes s).length, s)) ∨
    (StatusDue s ∧ s.params.dualSeq = true ∧
      ∃ k ≤ (statusPduBytes s.params.maxPduBytes s).length,
        statusTerm s = (k, { s with draws := s.draws + 1 })) := by
  unfold statusTerm
  by_cases hdue : StatusDue s
  · rw [if_pos ((statusDue_iff s).mpr hdue)]
    cases hdual : s.params.dualSeq
    · exact .inr (.inl ⟨hdue, rfl, rfl⟩)
    · exact .inr (.inr ⟨hdue, rfl, _, min_le_right _ _, rfl⟩)
  · rw [if_neg fun h => hdue ((statusDue_iff s).mp h)]
    exact .inl ⟨hdue, rfl⟩

/-- The word of the sum: it spells the sum when that fits, and is drawn when it does not (R135). -/
theorem wordOrFree_eq (free : Nat → Word) (n : Nat) (s : State) :
    ∃ w : Word, wordOrFree free n s = (w, { s with
      draws := s.draws + if n < 2 ^ 32 then 0 else 1 }) ∧ (n < 2 ^ 32 → w.toNat = n) := by
  rcases wordOrFree_cases free n s with ⟨hlt, h⟩ | ⟨hge, w, h⟩
  · refine ⟨_, ?_, fun _ => ofNat_toNat_of_lt hlt⟩
    rw [h, if_pos hlt]
    rfl
  · refine ⟨w, ?_, fun hlt => absurd hlt (Nat.not_lt.mpr hge)⟩
    rw [h, if_neg (Nat.not_lt.mpr hge)]

/-- The answer of GET_BUFFER_STATE for a first term that draws `d` times (R195). -/
theorem getBufferState_of_term {s : State} {term d : Nat}
    (h : statusTerm s = (term, { s with draws := s.draws + d })) :
    ∃ word : Word, getBufferState s = respond .ok [word] [] { s with
        draws := s.draws + d +
          if term + (s.tx.retxQ.map (retxTerm s.tx.window)).sum + newDataTerm s.tx < 2 ^ 32
          then 0 else 1 } ∧
      (term + (s.tx.retxQ.map (retxTerm s.tx.window)).sum + newDataTerm s.tx < 2 ^ 32 →
        word.toNat = term + (s.tx.retxQ.map (retxTerm s.tx.window)).sum + newDataTerm s.tx) := by
  obtain ⟨word, hword, hval⟩ := wordOrFree_eq Config.bufferStateSum
    (term + (s.tx.retxQ.map (retxTerm s.tx.window)).sum + newDataTerm s.tx)
    { s with draws := s.draws + d }
  refine ⟨word, ?_, hval⟩
  unfold getBufferState
  dsimp only
  rw [h]
  dsimp only
  rw [hword]

/-- The new-data term by the queue: nothing, or all pending bytes in one PDU (R195). -/
theorem newDataTerm_eq (tx : Tx) : newDataTerm tx =
    match tx.sduQ with
    | [] => 0
    | q => (q.map (·.bytes.length)).sum - tx.headOff + 2 + (q.length - 1 + (q.length - 1 + 1) / 2) := by
  unfold newDataTerm
  cases tx.sduQ <;> rfl

end Sys2Proof.Machine

open Sys2Proof.Machine in
/-- Settles O30, by whether the state after accounting requires a poll. -/
theorem pollRule : Obligations.PollRule := by
  intro h payload u
  refine ⟨fun hpoll => ?_, fun hno => ?_⟩
  · exact transmit_of_poll ((pollRequired_iff u).mpr hpoll) h payload
  · exact transmit_of_no_poll (fun hpoll => hno ((pollRequired_iff u).mp hpoll)) h payload

open Sys2Proof.Machine in
/-- Settles O37, by whether the timer runs and, if it does, by what scheduling the oldest PDU finds. -/
theorem transmitterExpiries : Obligations.TransmitterExpiries := by
  intro s hs
  dsimp only
  rw [exec_texpPollRetx hs, exec_texpStatusProhibit hs]
  refine ⟨fun hstale => congrArg _ (texpPollRetx_of_stale hstale),
    fun hrun => ⟨fun hnot => congrArg _ ?_, fun t hwanted hne ht =>
      ⟨fun hqueued => congrArg _ ?_, fun hnew => congrArg _ ?_⟩⟩,
    fun hrun => congrArg _ (texpStatusProhibit_of_running hrun),
    fun hstale => congrArg _ (texpStatusProhibit_of_stale hstale)⟩
  · by_cases hwanted : OldestWanted s
    · have hempty : s.tx.vtA = s.tx.vtS := hnot.resolve_left fun h => h hwanted
      rw [texpPollRetx_of_wanted hrun hwanted, scheduleOldest_of_empty (s := pollExpired s) hempty]
      rfl
    · exact texpPollRetx_of_unwanted hrun hwanted
  · rw [texpPollRetx_of_wanted hrun hwanted,
      scheduleOldest_of_queued (s := pollExpired s) hne ht hqueued]
    rfl
  · rw [texpPollRetx_of_wanted hrun hwanted,
      scheduleOldest_of_unqueued (s := pollExpired s) hne ht hnew]
    rfl

open Sys2Proof.Machine in
/-- Settles O38, by what the first term of the sum is. -/
theorem bufferStateSum : Obligations.BufferStateSum := by
  intro s hs
  dsimp only
  rw [exec_getBufferState hs]
  have hfresh := newDataTerm_eq s.tx
  rcases statusTerm_cases s with ⟨hdue, h⟩ | ⟨hdue, hdual, h⟩ | ⟨hdue, hdual, k, hk, h⟩
  · obtain ⟨word, hget, hval⟩ := getBufferState_of_term (d := 0) h
    rw [hfresh] at hget hval
    refine ⟨0, word, ?_, hval, fun _ => rfl, Nat.zero_le _, fun hd => absurd hd hdue⟩
    rw [if_neg fun h => hdue h.2]
    exact congrArg _ hget
  · obtain ⟨word, hget, hval⟩ := getBufferState_of_term (d := 0) h
    rw [hfresh] at hget hval
    refine ⟨_, word, ?_, hval, fun hd => absurd hdue hd, le_rfl, fun _ _ => rfl⟩
    rw [if_neg fun h => by simp [hdual] at h]
    exact congrArg _ hget
  · obtain ⟨word, hget, hval⟩ := getBufferState_of_term (d := 1) h
    rw [hfresh] at hget hval
    refine ⟨k, word, ?_, hval, fun hd => absurd hdue hd, hk, fun _ hd => by simp [hdual] at hd⟩
    rw [if_pos ⟨hdual, hdue⟩]
    exact congrArg _ hget
end

section
/-!
The run of the packing loop (R180): `PackRun` lists its rounds, and each fact about what it packs is an
induction over them.
-/
namespace Sys2Proof.Machine

/-- The bytes that a PDU of the fragments packed so far takes with one more (R180). -/
abbrev Packing.used (st : Packing) : Nat := 2 + ceilOneAndHalf st.segs.length + st.payload.length

/-- The packing takes no further fragment, whatever the pool holds: the header is full, the last fragment
is too long for a length indicator, or no byte fits (R180). -/
def PackFull (p : Params) (n : Nat) (st : Packing) : Prop :=
  p.nLiMax < st.segs.length ∨ 2047 < st.lens.getLastD 0 ∨ n < st.used + 1

/-- The top record of the pool given to a fragment of the SDU `e` (R160, R180). -/
abbrev Pool.take (pool : Pool) (sn : Sn) (e : SduEntry) (id : Nat) (free : List Nat) : Pool :=
  ⟨tableSet pool.slots id ⟨sn, e.pdcpSn, false, false⟩, free⟩

/-- The packing with one more fragment: `bytes` of the SDU `e`, in the record `id` (R180). -/
abbrev Packing.add (st : Packing) (sn : Sn) (e : SduEntry) (rest : List SduEntry) (id : Nat)
    (free : List Nat) (bytes : List Byte) (off : Nat) (fiE : Bool) : Packing :=
  ⟨st.payload ++ bytes, st.lens ++ [bytes.length], st.segs ++ [id], e :: rest, off,
    st.pool.take sn e id free, fiE, st.exhausted⟩

theorem room_of_not_packFull {p : Params} {n : Nat} {st : Packing} (h : ¬ PackFull p n st) :
    st.used < n := by
  have : ¬ n < st.used + 1 := fun hroom => h (.inr (.inr hroom))
  omega

/-- The rounds of the packing loop over a queue, from a packing to the one it ends with (R180). -/
inductive PackRun (p : Params) (sn : Sn) (n : Nat) : List SduEntry → Packing → Packing → Prop
  /-- the queue is empty -/
  | empty {st : Packing} : PackRun p sn n [] st { st with queue := [] }
  /-- no further fragment fits -/
  | full {head : SduEntry} {rest : List SduEntry} {st : Packing} (h : PackFull p n st) :
      PackRun p sn n (head :: rest) st { st with queue := head :: rest }
  /-- the pool has no record left -/
  | exhausted {head : SduEntry} {rest : List SduEntry} {st : Packing} (h : st.pool.free = []) :
      PackRun p sn n (head :: rest) st { st with queue := head :: rest, exhausted := true }
  /-- the last fragment fills the grant and ends inside its SDU -/
  | part {head : SduEntry} {rest : List SduEntry} {st : Packing} {id : Nat} {free : List Nat}
      {bytes : List Byte} (hroom : ¬ PackFull p n st) (hfree : st.pool.free = id :: free)
      (hbytes : bytes = (head.bytes.drop st.headOff).take (n - st.used))
      (hin : st.headOff + (n - st.used) < head.bytes.length) :
      PackRun p sn n (head :: rest) st
        (st.add sn head rest id free bytes (st.headOff + bytes.length) true)
  /-- a fragment ends its SDU, and the loop goes on -/
  | whole {head : SduEntry} {rest : List SduEntry} {st st' : Packing} {id : Nat} {free : List Nat}
      {bytes : List Byte} (hroom : ¬ PackFull p n st) (hfree : st.pool.free = id :: free)
      (hoff : st.headOff ≤ head.bytes.length) (hbytes : bytes = head.bytes.drop st.headOff)
      (hfit : bytes.length ≤ n - st.used)
      (hrest : PackRun p sn n rest (st.add sn head rest id free bytes 0 false) st') :
      PackRun p sn n (head :: rest) st st'

theorem packLoop_run {p : Params} {sn : Sn} {n : Nat} {q : List SduEntry} {st st' : Packing}
    (h : packLoop p sn n q st = .ok st') : PackRun p sn n q st st' := by
  induction q generalizing st with
  | nil => cases h; exact .empty
  | cons head rest ih =>
    unfold packLoop at h
    dsimp only at h
    split at h
    · next hcap => cases h; exact .full (.inl hcap)
    next hcap =>
    split at h
    · next hlast => cases h; exact .full (.inr (.inl hlast))
    next hlast =>
    split at h
    · next hroom => cases h; exact .full (.inr (.inr hroom))
    next hroom =>
    have hroom : ¬ PackFull p n st := fun hfull => hfull.elim hcap fun h => h.elim hlast hroom
    rcases poolAllocate_cases sn head.pdcpSn st.pool with ⟨hfree, halloc⟩ | ⟨id, free, hfree, halloc⟩
    · rw [halloc] at h
      cases h
      exact .exhausted hfree
    rw [halloc] at h
    dsimp only at h
    split at h
    · cases h
    next bytes hread =>
    obtain ⟨hin, hbytes, hlen⟩ := memRead_ok hread
    rw [← hlen, memWrite_length] at h
    split at h
    · next hwhole =>
      have hdrop : bytes = head.bytes.drop st.headOff := by
        rw [hbytes, List.take_of_length_le (by rw [List.length_drop]; omega)]
      exact .whole hroom hfree (by omega) hdrop (by simp only [Packing.used]; omega) (ih h)
    · next hpart =>
      cases h
      have hmin : min (head.bytes.length - st.headOff) (n - st.used) = n - st.used := by
        simp only [Packing.used]; omega
      refine .part hroom hfree ?_ (by simp only [Packing.used]; omega)
      rw [← hmin]
      exact hbytes

/-! ### What is packed (R180, R196 (5)) -/

/-- The bytes of a queue that are still to be placed (R26). -/
def pendingFrom (q : List SduEntry) (off : Nat) : List Byte := (q.flatMap (·.bytes)).drop off

theorem pendingFrom_cons {e : SduEntry} {off : Nat} (h : off ≤ e.bytes.length)
    (q : List SduEntry) : pendingFrom (e :: q) off = e.bytes.drop off ++ pendingFrom q 0 := by
  rw [pendingFrom, pendingFrom, List.flatMap_cons, List.drop_append_of_le_length h, List.drop_zero]

/-- How many bytes of each SDU of a queue are still to be placed (R26). -/
def pendingLengthsFrom : List SduEntry → Nat → List Nat
  | [], _ => []
  | e :: q, off => (e.bytes.length - off) :: q.map (·.bytes.length)

theorem pendingLengths_eq (tx : Tx) : pendingLengths tx = pendingLengthsFrom tx.sduQ tx.headOff := by
  unfold pendingLengths
  cases tx.sduQ <;> rfl

theorem pendingLengthsFrom_zero (q : List SduEntry) :
    pendingLengthsFrom q 0 = q.map (·.bytes.length) := by
  cases q <;> rfl

section
variable {p : Params} {sn : Sn} {n : Nat} {q : List SduEntry} {st st' : Packing}

/-- No byte is lost, doubled or moved: what is packed and what is still pending stay the same string. -/
theorem PackRun.bytes (h : PackRun p sn n q st st') :
    st'.payload ++ pendingFrom st'.queue st'.headOff = st.payload ++ pendingFrom q st.headOff := by
  induction h with
  | empty | full | exhausted => rfl
  | @part head rest st id free bytes hroom hfree hbytes hin =>
    have hlen : bytes.length = n - st.used := by
      rw [hbytes, List.length_take, List.length_drop]; omega
    dsimp only
    rw [pendingFrom_cons (by omega), pendingFrom_cons (by omega), List.append_assoc,
      ← List.append_assoc bytes, ← List.drop_drop, hlen, hbytes, List.take_append_drop]
  | @whole head rest st st' id free bytes hroom hfree hoff hbytes hfit hrest ih =>
    rw [ih, pendingFrom_cons hoff, List.append_assoc, hbytes]

/-- The fragments but for the last are the lengths of the SDUs, in queue order. -/
theorem PackRun.lens_prefix (h : PackRun p sn n q st st') :
    st'.lens.dropLast <+: st.lens ++ pendingLengthsFrom q st.headOff := by
  have keep : ∀ {l m : List Nat}, l.dropLast <+: l ++ m := fun {l m} =>
    (List.dropLast_prefix l).trans (List.prefix_append l m)
  induction h with
  | empty | full | exhausted => exact keep
  | @part head rest st id free bytes hroom hfree hbytes hin =>
    rw [List.dropLast_concat]
    exact List.prefix_append ..
  | @whole head rest st st' id free bytes hroom hfree hoff hbytes hfit hrest ih =>
    have heq : (st.lens ++ [bytes.length]) ++ pendingLengthsFrom rest 0 =
        st.lens ++ pendingLengthsFrom (head :: rest) st.headOff := by
      rw [pendingLengthsFrom_zero, pendingLengthsFrom, List.append_assoc, hbytes, List.length_drop]
      rfl
    exact heq ▸ ih

/-- The SDUs that leave the queue are those whose last fragment is packed. -/
theorem PackRun.popped (h : PackRun p sn n q st st') (hst : st.fiE = false) :
    ∃ popped, q = popped ++ st'.queue ∧
      st'.lens.length = st.lens.length + popped.length + st'.fiE.toNat := by
  induction h with
  | empty | full | exhausted => exact ⟨[], rfl, by simp [hst]⟩
  | part => exact ⟨[], rfl, by simp⟩
  | @whole head rest st st' id free bytes hroom hfree hoff hbytes hfit hrest ih =>
    obtain ⟨popped, hq, hlen⟩ := ih rfl
    refine ⟨head :: popped, by rw [hq]; rfl, ?_⟩
    simp only [List.length_append, List.length_singleton] at hlen
    rw [List.length_cons]
    omega

/-! ### Where it ends -/

/-- Between two rounds the packing stands at the end of an SDU, unless nothing is packed yet. -/
structure PackClosed (st : Packing) : Prop where
  fiE : st.fiE = false
  headOff : st.segs ≠ [] → st.headOff = 0

/-- `fi.e` says whether the packing ended inside an SDU (R180). -/
theorem PackRun.fiE_eq (h : PackRun p sn n q st st') (hst : PackClosed st) (hsegs : st'.segs ≠ []) :
    st'.fiE = decide (0 < st'.headOff) := by
  induction h with
  | empty | full | exhausted => exact hst.fiE.trans (by simp [hst.headOff hsegs])
  | @part head rest st id free bytes hroom hfree hbytes hin =>
    have hpos := room_of_not_packFull hroom
    have hlen : bytes.length = n - st.used := by
      rw [hbytes, List.length_take, List.length_drop]; omega
    exact (decide_eq_true (by dsimp only; omega)).symm
  | whole _ _ _ _ _ _ ih => exact ih ⟨rfl, fun _ => rfl⟩ hsegs

/-- A packing that ends inside an SDU fills the grant, and one that does not cannot take another fragment
(R180). -/
theorem PackRun.ends (h : PackRun p sn n q st st') (hst : st.fiE = false)
    (hcount : st.segs.length = st.lens.length) :
    (st'.fiE = true → 2 + ceilOneAndHalf st'.lens.dropLast.length + st'.payload.length = n) ∧
    (st'.fiE = false → st'.queue = [] ∨ st'.pool.free = [] ∨ PackFull p n st') := by
  induction h with
  | empty => exact ⟨fun h => by simp [hst] at h, fun _ => .inl rfl⟩
  | full hfull => exact ⟨fun h => by simp [hst] at h, fun _ => .inr (.inr hfull)⟩
  | exhausted hfree => exact ⟨fun h => by simp [hst] at h, fun _ => .inr (.inl hfree)⟩
  | @part head rest st id free bytes hroom hfree hbytes hin =>
    have hpos := room_of_not_packFull hroom
    have hlen : bytes.length = n - st.used := by
      rw [hbytes, List.length_take, List.length_drop]; omega
    refine ⟨fun _ => ?_, fun h => by cases h⟩
    rw [List.dropLast_concat, ← hcount, List.length_append, ← Nat.add_assoc, hlen]
    exact Nat.add_sub_cancel' hpos.le
  | whole _ _ _ _ _ _ ih => exact ih rfl (by simp [hcount])

/-- The fragments packed so far fit the grant, and each has its record (R173, R180). -/
structure PackWithin (n : Nat) (st : Packing) : Prop where
  count : st.segs.length = st.lens.length
  fits : st.lens ≠ [] → 2 + ceilOneAndHalf st.lens.dropLast.length + st.payload.length ≤ n

theorem PackWithin.add (h : PackWithin n st) (hroom : ¬ PackFull p n st) {bytes : List Byte}
    (hfit : bytes.length ≤ n - st.used) (sn : Sn) (e : SduEntry) (rest : List SduEntry) (id : Nat)
    (free : List Nat) (off : Nat) (fiE : Bool) :
    PackWithin n (st.add sn e rest id free bytes off fiE) where
  count := by simp [h.count]
  fits _ := by
    have hpos := room_of_not_packFull hroom
    rw [List.dropLast_concat, ← h.count, List.length_append, ← Nat.add_assoc]
    exact Nat.add_le_of_le_sub' hpos.le hfit

theorem PackRun.within (h : PackRun p sn n q st st') (hst : PackWithin n st) : PackWithin n st' := by
  induction h with
  | empty | full | exhausted => exact ⟨hst.count, hst.fits⟩
  | @part head rest st id free bytes hroom hfree hbytes hin =>
    exact hst.add hroom (by rw [hbytes]; exact List.length_take_le ..) ..
  | whole hroom _ _ _ hfit _ ih => exact ih (hst.add hroom hfit ..)

/-! ### The records (R160, R180) -/

/-- Records are taken from `FREE` in its order, one per fragment. -/
theorem PackRun.records (h : PackRun p sn n q st st') :
    st'.segs ++ st'.pool.free = st.segs ++ st.pool.free := by
  induction h with
  | empty | full | exhausted => rfl
  | part _ hfree => simp [hfree]
  | whole _ hfree _ _ _ _ ih => rw [ih]; simp [hfree]

theorem PackRun.segs_prefix (h : PackRun p sn n q st st') : st.segs <+: st'.segs := by
  induction h with
  | empty | full | exhausted => exact List.prefix_rfl
  | part => exact List.prefix_append ..
  | whole _ _ _ _ _ _ ih => exact (List.prefix_append ..).trans ih

/-- With no index twice in `FREE`, the record of fragment `j` names the `j`-th SDU, and every other slot is
as it was. -/
theorem PackRun.slots (h : PackRun p sn n q st st') (hnodup : st.pool.free.Nodup) :
    ∃ ids, st'.segs = st.segs ++ ids ∧ ∀ k, tableGet st'.pool.slots k =
      match ids.findIdx? (· = k) with
      | some j => q[j]?.map fun e => ⟨sn, e.pdcpSn, false, false⟩
      | none => tableGet st.pool.slots k := by
  induction h with
  | empty | full | exhausted => exact ⟨[], by simp, fun _ => rfl⟩
  | @part head rest st id free bytes hroom hfree hbytes hin =>
    refine ⟨[id], rfl, fun k => ?_⟩
    rw [tableGet_tableSet, List.findIdx?_singleton]
    by_cases hk : k = id
    · simp [hk]
    · simp [hk, Ne.symm hk]
  | @whole head rest st st' id free bytes hroom hfree hoff hbytes hfit hrest ih =>
    rw [hfree] at hnodup
    obtain ⟨hnew, hnodup⟩ := List.nodup_cons.mp hnodup
    obtain ⟨ids, hsegs, hget⟩ := ih hnodup
    have hnew : id ∉ ids := fun hid => hnew <| by
      have hrec := hrest.records
      rw [hsegs, List.append_assoc] at hrec
      have hfree : ids ++ st'.pool.free = free := List.append_cancel_left hrec
      rw [← hfree]
      exact List.mem_append_left _ hid
    refine ⟨id :: ids, by rw [hsegs]; simp, fun k => ?_⟩
    rw [hget k, List.findIdx?_cons]
    by_cases hk : id = k
    · subst hk
      rw [List.findIdx?_eq_none_iff.mpr fun x hx => decide_eq_false fun h : x = id => hnew (h ▸ hx)]
      simp
    · cases hidx : ids.findIdx? (· = k) with
      | none => simp [hk, tableGet_tableSet, Ne.symm hk]
      | some j => simp [hk]

/-- A fragment is packed when the queue, the pool and the grant have one for it. -/
theorem PackRun.segs_ne_nil {head : SduEntry} {rest : List SduEntry}
    (h : PackRun p sn n (head :: rest) st st') (hroom : ¬ PackFull p n st)
    (hfree : st.pool.free ≠ []) : st'.segs ≠ [] := by
  cases h with
  | full hfull => exact absurd hfull hroom
  | exhausted hnone => exact absurd hnone hfree
  | part => simp
  | whole _ _ _ _ _ hrest => exact fun hnil => by simpa [hnil] using hrest.segs_prefix

end

end Sys2Proof.Machine
end

section
/-!
The branches of READ_PDU (R173): which one a state takes; the status branch (O29; R174), the oldest PDU (O35;
R177) and the whole retransmission (O33; R178).
-/
namespace Sys2Proof.Machine

/-! ### Which branch (R173) -/

theorem readPdu_of_not_due {s : State} (h : ¬ StatusDue s) (n : Nat) : readPdu n s = readData n s := by
  rw [readPdu, if_neg fun hdue => h ((statusDue_iff s).mp hdue)]

theorem exec_readPdu_of_not_due {s : State} {n : Word} (hs : Accepting s)
    (hn : n.toNat ≤ s.params.maxPduBytes) (hdue : ¬ StatusDue s) :
    exec (.readPdu n) s = answerOf (readData n.toNat s) := by
  rw [exec_readPdu hs hn, readPdu_of_not_due hdue]

theorem readData_of_queued {s : State} (h : s.tx.retxQ ≠ []) (n : Nat) :
    readData n s = sendData n s := by
  rw [readData, if_neg (by simp [h])]

theorem readData_of_room {s : State} (h : modBase s.tx.vtA s.tx.vtS < 512) (n : Nat) :
    readData n s = sendData n s := by
  rw [readData, if_neg (by simp [txWindowFull_of_room h])]

theorem readData_of_full {s : State} (hfull : 512 ≤ modBase s.tx.vtA s.tx.vtS)
    (hq : s.tx.retxQ = []) (n : Nat) :
    readData n s = (scheduleOldest s).elim (.ok (protocolFailure 1 s)) (sendData n) := by
  rw [readData, if_pos (by simp [(txWindowFull_iff s).mpr hfull, hq])]
  cases scheduleOldest s <;> rfl

/-- Stale entries leave the head of the queue (R178). -/
theorem dropStale_of_stale {w : Table TxEntry} {stale rest : List RetxEntry} {r : RetxEntry}
    (hstale : ∀ e ∈ stale, validAt w e.sn = false) (hr : validAt w r.sn = true) :
    dropStale w (stale ++ r :: rest) = r :: rest := by
  induction stale with
  | nil => rw [List.nil_append, dropStale, if_pos hr]
  | cons x stale ih =>
    rw [List.cons_append, dropStale, if_neg (by simp [hstale x])]
    exact ih fun e he => hstale e (List.mem_cons_of_mem _ he)

theorem sendData_of_head {s : State} {stale rest : List RetxEntry} {r : RetxEntry}
    (hq : s.tx.retxQ = stale ++ r :: rest) (hstale : ∀ e ∈ stale, validAt s.tx.window e.sn = false)
    (hr : validAt s.tx.window r.sn = true) (n : Nat) :
    sendData n s = buildRetx r rest n (withRetxQ s (r :: rest)) := by
  unfold sendData
  dsimp only
  rw [hq, dropStale_of_stale hstale hr]

theorem withRetxQ_self {s : State} {q : List RetxEntry} (h : s.tx.retxQ = q) : withRetxQ s q = s := by
  subst h
  rfl

theorem sendData_of_none {s : State} (hq : s.tx.retxQ = []) (n : Nat) : sendData n s = buildNew n s := by
  unfold sendData
  dsimp only
  rw [hq, dropStale]
  exact congrArg (buildNew n) (withRetxQ_self hq)

/-- The state in which a retransmission of the entry `r` is built (R173 (c), R178). -/
theorem exec_readPdu_of_head {s : State} {n : Word} {stale rest : List RetxEntry} {r : RetxEntry}
    (hs : Accepting s) (hn : n.toNat ≤ s.params.maxPduBytes) (hdue : ¬ StatusDue s)
    (hq : s.tx.retxQ = stale ++ r :: rest) (hstale : ∀ e ∈ stale, validAt s.tx.window e.sn = false)
    (hr : validAt s.tx.window r.sn = true) :
    exec (.readPdu n) s = answerOf (buildRetx r rest n.toNat (withRetxQ s (r :: rest))) := by
  rw [exec_readPdu_of_not_due hs hn hdue, readData_of_queued (by simp [hq]),
    sendData_of_head hq hstale hr]

/-- The state in which a new Data PDU is built (R173 (d), R180). -/
theorem exec_readPdu_of_new {s : State} {n : Word} (hs : Accepting s)
    (hn : n.toNat ≤ s.params.maxPduBytes) (hdue : ¬ StatusDue s) (hq : s.tx.retxQ = [])
    (hroom : modBase s.tx.vtA s.tx.vtS < 512) :
    exec (.readPdu n) s = answerOf (buildNew n.toNat s) := by
  rw [exec_readPdu_of_not_due hs hn hdue, readData_of_room hroom, sendData_of_none hq]

/-! ### Data does not depend on the receiver (R173, R174) -/

/-- `s` with another receiver. -/
abbrev withRx (rx : Rx) (s : State) : State := { s with rx := rx }

theorem txWindowFull_withRx (rx : Rx) (s : State) : txWindowFull (withRx rx s) = txWindowFull s := rfl

theorem transmit_withRx (h : Header) (payload : List Byte) (rx : Rx) (s : State) :
    transmit h payload (withRx rx s) = withRx rx (transmit h payload s) := by
  by_cases hpoll : pollRequired s = true
  · rw [transmit_of_poll hpoll, transmit_of_poll (u := withRx rx s) hpoll]
    rfl
  · rw [transmit_of_no_poll hpoll, transmit_of_no_poll (u := withRx rx s) hpoll]
    rfl

theorem buildRetx_withRx (r : RetxEntry) (rest : List RetxEntry) (n : Nat) (rx : Rx) (s : State) :
    buildRetx r rest n (withRx rx s) = (buildRetx r rest n s).map (withRx rx) := by
  unfold buildRetx
  cases tableGet s.tx.window r.sn.toNat with
  | none => rfl
  | some t =>
    dsimp only
    split
    · exact congrArg _ (transmit_withRx t.hdr t.buf rx (withRetxQ s rest))
    · unfold buildSegment
      dsimp only
      split
      · rfl
      · split
        · rfl
        · next e _ _ payload _ =>
          exact congrArg _ (transmit_withRx (segmentHeader t.hdr r.sn t.buf.length r.soStart e) payload
            rx (withRetxQ s (requeueRemainder r e rest)))

theorem buildNew_withRx (n : Nat) (rx : Rx) (s : State) :
    buildNew n (withRx rx s) = (buildNew n s).map (withRx rx) := by
  unfold buildNew
  dsimp only
  rw [txWindowFull_withRx]
  split
  · rfl
  · split
    · rfl
    · next st _ =>
      by_cases hsegs : st.segs.isEmpty = true
      · rw [if_pos hsegs, if_pos hsegs]
        cases st.exhausted <;> rfl
      · rw [if_neg hsegs, if_neg hsegs]
        exact congrArg _ (transmit_withRx (newHeader s.tx.vtS (decide (0 < s.tx.headOff)) st) st.payload
          rx (accountNew (newHeader s.tx.vtS (decide (0 < s.tx.headOff)) st) st s))

theorem sendData_withRx (n : Nat) (rx : Rx) (s : State) :
    sendData n (withRx rx s) = (sendData n s).map (withRx rx) := by
  unfold sendData
  dsimp only
  cases hq : dropStale s.tx.window s.tx.retxQ with
  | nil => exact buildNew_withRx n rx (withRetxQ s [])
  | cons r rest => exact buildRetx_withRx r rest n rx (withRetxQ s (r :: rest))

theorem scheduleOldest_withRx (rx : Rx) (s : State) :
    scheduleOldest (withRx rx s) = (scheduleOldest s).map (withRx rx) := by
  by_cases hne : s.tx.vtA = s.tx.vtS
  · rw [scheduleOldest_of_empty hne, scheduleOldest_of_empty (s := withRx rx s) hne]
    rfl
  cases ht : tableGet s.tx.window s.tx.vtA.toNat with
  | none =>
    rw [scheduleOldest_of_missing hne ht, scheduleOldest_of_missing (s := withRx rx s) hne ht]
    rfl
  | some t =>
    by_cases hq : ∃ e ∈ s.tx.retxQ, e.sn = s.tx.vtA
    · rw [scheduleOldest_of_queued hne ht hq, scheduleOldest_of_queued (s := withRx rx s) hne ht hq]
      rfl
    · have hq : ∀ e ∈ s.tx.retxQ, e.sn ≠ s.tx.vtA := by simpa using hq
      rw [scheduleOldest_of_unqueued hne ht hq, scheduleOldest_of_unqueued (s := withRx rx s) hne ht hq]
      rfl

theorem readData_withRx (n : Nat) (rx : Rx) (s : State) :
    readData n (withRx rx s) = (readData n s).map (withRx rx) := by
  unfold readData
  rw [txWindowFull_withRx]
  split
  · rw [scheduleOldest_withRx]
    cases scheduleOldest s with
    | none => rfl
    | some u => exact sendData_withRx n rx u
  · exact sendData_withRx n rx s

/-- The data branches leave the receiver alone. -/
theorem readData_rx {n : Nat} {s t : State} (h : readData n s = .ok t) : t = withRx s.rx t := by
  have hsame := readData_withRx n s.rx s
  change readData n s = (readData n s).map (withRx s.rx) at hsame
  rw [h] at hsame
  exact Except.ok.inj hsame

/-! ### The status branch (R174, R175) -/

/-- The state after the free bit of R175 was drawn, which one sequencer does not do. -/
abbrev busyDrawn (s : State) : State :=
  { s with draws := if s.params.dualSeq then s.draws + 1 else s.draws }

theorem drawRxBusy_eq (s : State) : ∃ busy : Bool, (s.params.dualSeq = false → busy = false) ∧
    drawRxBusy s = (busy, busyDrawn s) := by
  unfold drawRxBusy busyDrawn
  split
  · next hdual => exact ⟨_, fun h => absurd (h.symm.trans hdual) Bool.false_ne_true, rfl⟩
  · exact ⟨false, fun _ => rfl, rfl⟩

/-- What truncation leaves of a report fits the grant (R145). -/
theorem statusLen_of_truncate {st t : StatusPdu} {n : Nat} (h : truncateStatus st n = some t) :
    2 ≤ statusLen t ∧ statusLen t ≤ n := by
  refine ⟨by unfold statusLen; omega, ?_⟩
  rcases truncateStatus_cases st n with ⟨-, hnone⟩ | ⟨hn, u, hsome, k, -, hk, hlen⟩
  · rw [hnone] at h; cases h
  · rw [hsome] at h
    cases h
    rcases hlen with rfl | hlen
    · rw [List.take_zero] at hk
      simpa [statusLen, hk] using hn
    · exact hlen

/-- A STATUS PDU has as many bytes as its truncated report (R111, R146). -/
theorem encodeStatus_length_of_truncate {st t : StatusPdu} {n : Nat} (h : truncateStatus st n = some t) :
    (encodeStatus st n).length = statusLen t := by
  rw [encodeStatus, h, bytesOfBits_length, statusBits_length, statusLen]

theorem encodeStatus_length_le (st : StatusPdu) (n : Nat) : (encodeStatus st n).length ≤ n := by
  cases h : truncateStatus st n with
  | none =>
    rw [encodeStatus, h]
    exact Nat.zero_le n
  | some t =>
    rw [encodeStatus_length_of_truncate h]
    exact (statusLen_of_truncate h).2

theorem encodeStatus_ne_nil {n : Nat} (hn : 2 ≤ n) (st : StatusPdu) : encodeStatus st n ≠ [] := by
  rcases truncateStatus_cases st n with ⟨hlt, -⟩ | ⟨-, t, h, -⟩
  · omega
  · intro hnil
    have hlen := encodeStatus_length_of_truncate h
    have hpos := (statusLen_of_truncate h).1
    rw [hnil, List.length_nil] at hlen
    omega

/-- With a STATUS due, READ_PDU sends it, unless the receiver is busy or the grant too small: then it goes on
to data (R174). -/
theorem exec_readPdu_of_due {s : State} {n : Word} (hs : Accepting s)
    (hn : n.toNat ≤ s.params.maxPduBytes) (hdue : StatusDue s) :
    ∃ busy : Bool, (s.params.dualSeq = false → busy = false) ∧
      (busy = false → 2 ≤ n.toNat → exec (.readPdu n) s =
        .next (respondBytes (encodeStatus (statusReport s) n.toNat) (statusSent (busyDrawn s)))) ∧
      (busy = true ∨ n.toNat < 2 →
        exec (.readPdu n) s = answerOf (readData n.toNat (busyDrawn s))) := by
  obtain ⟨busy, hsingle, hdraw⟩ := drawRxBusy_eq s
  have hread : readPdu n.toNat s =
      if busy || (encodeStatus (statusReport s) n.toNat).isEmpty then readData n.toNat (busyDrawn s)
      else .ok (respondBytes (encodeStatus (statusReport s) n.toNat) (statusSent (busyDrawn s))) := by
    rw [readPdu, if_pos ((statusDue_iff s).mpr hdue), hdraw]
    cases busy <;> rfl
  refine ⟨busy, hsingle, fun hfree htwo => ?_, fun hdata => ?_⟩
  · have hne := encodeStatus_ne_nil htwo (statusReport s)
    rw [exec_readPdu hs hn, hread, if_neg (by simpa [hfree] using hne), answerOf_ok]
  · rw [exec_readPdu hs hn, hread, if_pos]
    rcases hdata with rfl | hshort
    · rfl
    · rw [encodeStatus_of_lt_two hshort, List.isEmpty_nil, Bool.or_true]

theorem statusSent_of_zero {s : State} (h : s.cfg.tStatusProhibit = 0) :
    statusSent s = { s with rx := { s.rx with doStatus := false, pollReceived := false } } := by
  unfold statusSent
  exact if_neg (not_not.mpr h)

theorem statusSent_of_ne_zero {s : State} (h : s.cfg.tStatusProhibit ≠ 0) :
    statusSent s = { s with
      rx := { s.rx with doStatus := false, pollReceived := false }
      tx := { s.tx with statusProhibitRunning := true }
      timers := { s.timers with statusProhibit := true }
      out := s.out ++ [.event (.timerStart .statusProhibit s.cfg.tStatusProhibit)] } := by
  unfold statusSent
  exact if_pos h

/-! ### Whole retransmission (R178) -/

theorem validAt_of_some {α : Type} {w : Table α} {sn : Sn} {t : α} (h : tableGet w sn.toNat = some t) :
    validAt w sn = true := by
  rw [validAt, h, Option.isSome_some]

theorem buildRetx_of_whole {r : RetxEntry} {rest : List RetxEntry} {n : Nat} {s : State} {t : TxEntry}
    (ht : tableGet s.tx.window r.sn.toNat = some t) (hseg : r.isSegment = false)
    (hfit : hdrLen t.hdr + t.buf.length ≤ n) :
    buildRetx r rest n s = .ok (transmit t.hdr t.buf (withRetxQ s rest)) := by
  unfold buildRetx
  rw [ht]
  exact if_pos (by simp [hseg, hfit])

/-- The bits of byte 0 of a header, with a given poll bit (R100). -/
def firstByteBits (h : Header) (p : Bool) : List Bool :=
  [true, h.rf, p, h.fiS, h.fiE, !h.li.isEmpty, h.sn.toNat.testBit 9, h.sn.toNat.testBit 8]

/-- The bits of a header behind byte 0, which the poll bit is not among (R100 to R102). -/
def laterBits (h : Header) : List Bool :=
  bitsOf 8 h.sn.toNat ++ (if h.rf then h.lsf :: bitsOf 15 h.so else []) ++ liBits h.li

theorem encodeDataHeader_withPoll (h : Header) (p : Bool) : encodeDataHeader { h with p := p } =
    BitVec.ofNat 8 (natOfBits (firstByteBits h p)) :: bytesOfBits (laterBits h) := by
  have hbits : headerBits { h with p := p } = firstByteBits h p ++ laterBits h := rfl
  have height : (firstByteBits h p).length = 8 := rfl
  have hcount : (8 + (laterBits h).length + 7) / 8 = ((laterBits h).length + 7) / 8 + 1 := by omega
  rw [encodeDataHeader, hbits, bytesOfBits, List.length_append, height, hcount, takeBytes,
    List.append_assoc, List.take_left' height, List.drop_left' height, bytesOfBits]

/-- The poll bit is bit 5 of byte 0 (R100). -/
theorem firstByte_poll : ∀ a b c d e f : Bool,
    (BitVec.ofNat 8 (natOfBits [true, a, false, b, c, d, e, f])).getLsbD 5 = false ∧
    BitVec.ofNat 8 (natOfBits [true, a, true, b, c, d, e, f]) =
      BitVec.ofNat 8 (natOfBits [true, a, false, b, c, d, e, f]) ||| 0x20 := by
  decide

end Sys2Proof.Machine

open Sys2Proof.Machine in
/-- Settles O29, by the free bit and by whether the grant has the two bytes of the shortest report. -/
theorem readPduStatusBranch : Obligations.ReadPduStatusBranch := by
  intro n s hs hn hdue
  obtain ⟨busy, hsingle, hsend, hskip⟩ := exec_readPdu_of_due hs hn hdue
  refine ⟨busy, hsingle, fun hfree htwo => ⟨encodeStatus_ne_nil htwo (statusReport s),
    fun hzero => (hsend hfree htwo).trans ?_, fun hzero => (hsend hfree htwo).trans ?_⟩,
    fun hdata t ht => ?_⟩
  · rw [statusSent_of_zero (s := busyDrawn s) hzero]; rfl
  · rw [statusSent_of_ne_zero (s := busyDrawn s) hzero]; rfl
  · have hnotDue : ¬ StatusDue (withRx { s.rx with doStatus := false } (busyDrawn s)) :=
      fun h => Bool.false_ne_true h.1
    have ht : exec (.readPdu n) (withRx { s.rx with doStatus := false } (busyDrawn s)) = .next t := ht
    rw [exec_readPdu_of_not_due (s := withRx _ (busyDrawn s)) hs hn hnotDue, readData_withRx] at ht
    rw [hskip hdata]
    cases hdone : readData n.toNat (busyDrawn s) with
    | error f => rw [hdone] at ht; cases ht
    | ok u =>
      rw [hdone] at ht
      cases ht
      have hrx : { s.rx with doStatus := true } = s.rx := by rw [← hdue.1]
      exact congrArg Host.Outcome.next ((readData_rx hdone).trans (congrArg (withRx · u) hrx.symm))

open Sys2Proof.Machine in
/-- Settles O33: the entry is the first that is not stale, and its PDU fits the grant whole. -/
theorem wholeRetransmission : Obligations.WholeRetransmission := by
  intro n s stale rest r t hs hn hdue hq hstale ht hseg hfit
  constructor
  · rw [exec_readPdu_of_head hs hn hdue hq hstale (validAt_of_some ht),
      buildRetx_of_whole (s := withRetxQ s (r :: rest)) ht hseg hfit]
    rfl
  · obtain ⟨hclear, hset⟩ := firstByte_poll t.hdr.rf t.hdr.fiS t.hdr.fiE (!t.hdr.li.isEmpty)
      (t.hdr.sn.toNat.testBit 9) (t.hdr.sn.toNat.testBit 8)
    refine ⟨_, _, hclear, encodeDataHeader_withPoll t.hdr false, ?_⟩
    exact (encodeDataHeader_withPoll t.hdr true).trans (congrArg (· :: _) hset)

open Sys2Proof.Machine in
/-- Settles O35, by what scheduling the oldest PDU finds. -/
theorem oldestScheduled : Obligations.OldestScheduled := by
  refine ⟨fun n s t hs hn hdue hq hfull ht => ?_, fun s hs hne hmissing =>
    ⟨fun n hn hdue hq hfull => ?_, fun hrun hwanted => ?_⟩⟩
  · have hne : s.tx.vtA ≠ s.tx.vtS := fun h => by
      rw [h, modBase_self] at hfull
      omega
    let q : List RetxEntry := [⟨s.tx.vtA, false, 0, t.buf.length⟩]
    have hscheduled : scheduleOldest s = some (withRetxQ s q) := by
      rw [scheduleOldest_of_unqueued hne ht (by simp [hq]), hq, List.nil_append]
    have hqueued : exec (.readPdu n) (withRetxQ s q) = answerOf (sendData n.toNat (withRetxQ s q)) := by
      rw [exec_readPdu_of_not_due (s := withRetxQ s q) hs hn hdue,
        readData_of_queued (s := withRetxQ s q) (List.cons_ne_nil _ _)]
    rw [exec_readPdu_of_not_due hs hn hdue, readData_of_full hfull hq, hscheduled]
    exact hqueued.symm
  · rw [exec_readPdu_of_not_due hs hn hdue, readData_of_full hfull hq,
      scheduleOldest_of_missing hne hmissing]
    rfl
  · rw [exec_texpPollRetx hs, texpPollRetx_of_wanted hrun hwanted,
      scheduleOldest_of_missing (s := pollExpired s) hne hmissing]
    rfl
end

section
/-!
How many bytes READ_PDU returns (O36; R173, R196 (4)) and when it returns none (O32; R180, R181, R211).
-/
namespace Sys2Proof.Machine

/-! ### Sizes (R103, R210) -/

/-- What a transmission puts out: perhaps a timer event, and a PDU of header and payload (R178, R184). -/
theorem transmit_out (h : Header) (payload : List Byte) (u : State) :
    ∃ (events : List Event) (pdu : List Byte), (transmit h payload u).out = u.out ++ events.map .event ++
        [.response (responseOf .ok [BitVec.ofNat 32 pdu.length] pdu)] ∧
      pdu.length = hdrLen h + payload.length := by
  have hlen : ∀ p, (encodeDataHeader { h with p := p } ++ payload).length =
      hdrLen h + payload.length := fun p => by
    rw [List.length_append, encodeDataHeader_length]
    rfl
  rcases transmit_cases h payload u with ⟨-, hsent⟩ | ⟨-, hsent⟩
  · exact ⟨[.timerStart .pollRetx u.cfg.tPollRetx], _, by rw [hsent]; rfl, hlen true⟩
  · exact ⟨[], _, by rw [hsent]; simp, hlen false⟩

/-- The length of the PDU of a segment is its cost (R210). -/
theorem segmentHeader_cost (h : Header) (sn : Sn) (len s e : Nat) :
    hdrLen (segmentHeader h sn len s e) + (e - s) = segmentCost h s e := by
  rw [hdrLen, segmentCost, segmentHeader, differencesFrom_length]
  rfl

theorem five_le_segmentCost (h : Header) {s e : Nat} (hlt : s < e) : 5 ≤ segmentCost h s e := by
  unfold segmentCost
  omega

theorem segmentCost_le_of_fits {p : Params} {h : Header} {n s e : Nat}
    (hfits : segmentFits p h n s e = true) : segmentCost h s e ≤ n := by
  rw [segmentFits, Bool.and_eq_true] at hfits
  exact of_decide_eq_true hfits.1

/-- One byte alone has no boundary inside it and costs five bytes (R211). -/
theorem segmentFits_one (p : Params) (h : Header) {n : Nat} (hn : 5 ≤ n) (s : Nat) :
    segmentFits p h n s (s + 1) = true := by
  have hinner : innerBetween h s (s + 1) = [] :=
    List.filter_eq_nil_iff.mpr fun x _ => by simp
  have hcost : segmentCost h s (s + 1) = 5 := by
    rw [segmentCost, hinner, Nat.add_sub_cancel_left]
    rfl
  rw [segmentFits, hcost, hinner, decide_eq_true hn, List.length_nil,
    decide_eq_true (Nat.zero_le _), Bool.and_self]

theorem greatestEnd_of_small {p : Params} {h : Header} {n : Nat} (hn : n < 5) (s m : Nat) :
    greatestEnd p h n s m = none := by
  rcases hend : greatestEnd p h n s m with _ | e
  · rfl
  · obtain ⟨hlt, -, hfits, -⟩ := greatestEnd_some hend
    have := five_le_segmentCost h hlt
    have := segmentCost_le_of_fits hfits
    omega

theorem exists_greatestEnd {p : Params} {h : Header} {n s m : Nat} (hn : 5 ≤ n) (hm : 1 ≤ m) :
    ∃ e, greatestEnd p h n s m = some e := by
  rcases hend : greatestEnd p h n s m with _ | e
  · have hnone := greatestEnd_none hend (s + 1) (by omega) (by omega)
    rw [segmentFits_one p h hn] at hnone
    cases hnone
  · exact ⟨e, rfl⟩

/-! ### Retransmission (R178, R210, R211) -/

section
variable {r : RetxEntry} {rest : List RetxEntry} {n : Nat} {s : State} {t : TxEntry}

theorem buildRetx_of_segment (ht : tableGet s.tx.window r.sn.toNat = some t)
    (hseg : r.isSegment = true ∨ n < hdrLen t.hdr + t.buf.length) :
    buildRetx r rest n s = buildSegment r rest t n s := by
  unfold buildRetx
  rw [ht]
  refine if_neg ?_
  rcases hseg with hseg | hbig
  · simp [hseg]
  · simp [hbig]

theorem buildSegment_of_none
    (hend : greatestEnd s.params t.hdr n r.soStart (r.soEnd - r.soStart) = none) :
    buildSegment r rest t n s = .ok (respondBytes [] s) := by
  rw [buildSegment, hend]

theorem buildSegment_of_some {e : Nat} (hin : r.soEnd ≤ t.buf.length)
    (hend : greatestEnd s.params t.hdr n r.soStart (r.soEnd - r.soStart) = some e) :
    buildSegment r rest t n s = .ok (transmit (segmentHeader t.hdr r.sn t.buf.length r.soStart e)
      ((t.buf.drop r.soStart).take (e - r.soStart)) (withRetxQ s (requeueRemainder r e rest))) := by
  obtain ⟨hlt, hle, -, -⟩ := greatestEnd_some hend
  rw [buildSegment, hend]
  dsimp only
  rw [memRead_of_le _ (by omega)]

end

/-! ### New data (R180, R181) -/

theorem buildNew_of_nothing {s : State} {n : Nat} (h : s.tx.sduQ = [] ∨ n < 3) :
    buildNew n s = .ok (respondBytes [] s) := by
  refine if_pos ?_
  rcases h with hq | hn
  · simp [hq]
  · simp [hn]

theorem packLoop_of_exhausted {p : Params} {sn : Sn} {n off : Nat} {q : List SduEntry} {pool : Pool}
    (hq : q ≠ []) (hn : 3 ≤ n) (hfree : pool.free = []) :
    packLoop p sn n q ⟨[], [], [], q, off, pool, false, false⟩ =
      .ok ⟨[], [], [], q, off, pool, false, true⟩ := by
  obtain ⟨head, rest, rfl⟩ := List.exists_cons_of_ne_nil hq
  have halloc : poolAllocate sn head.pdcpSn pool = none := by rw [poolAllocate, hfree]
  have hroom : ¬ n < 2 + ceilOneAndHalf 0 + 0 + 1 := by simp [ceilOneAndHalf]; omega
  unfold packLoop
  dsimp only [List.length_nil]
  rw [if_neg (Nat.not_lt_zero _), if_neg (by simp), if_neg hroom, halloc]

section
variable {s : State} {n : Nat} (hroom : modBase s.tx.vtA s.tx.vtS < 512) (hq : s.tx.sduQ ≠ [])
  (hn : 3 ≤ n)
include hroom hq hn

/-- With room in the window, an SDU and a grant of three bytes, the packing decides (R180). -/
theorem newData_possible :
    ¬ (txWindowFull s || s.tx.sduQ.isEmpty || decide (n < 3)) = true := by
  simpa [txWindowFull_of_room hroom, hq] using hn

theorem buildNew_of_exhausted (hfree : s.pool.free = []) :
    buildNew n s = .ok (respondError .errPoolExhausted 1 s) := by
  rw [buildNew, if_neg (newData_possible hroom hq hn), packLoop_of_exhausted hq hn hfree]
  rfl

theorem buildNew_of_packed {st : Packing} (hpack : Packs n s st) (hsegs : st.segs ≠ []) :
    buildNew n s = .ok (transmit (newHeader s.tx.vtS (decide (0 < s.tx.headOff)) st) st.payload
      (accountNew (newHeader s.tx.vtS (decide (0 < s.tx.headOff)) st) st s)) := by
  rw [buildNew, if_neg (newData_possible hroom hq hn), hpack]
  exact if_neg (by simpa using hsegs)

end

/-! ### At most the grant (R173, R196 (4)) -/

/-- The command behaved as one that answers with at most `n` bytes, after events. -/
def AnswersWithin (n : Nat) (s t : State) : Prop :=
  ∃ (events : List Event) (c : ResultCode) (pdu : List Byte),
    t.out = s.out ++ events.map .event ++
      [.response (responseOf c [BitVec.ofNat 32 pdu.length] pdu)] ∧
    pdu.length ≤ n

section
variable {n : Nat} {s u t : State}

theorem AnswersWithin.after (h : AnswersWithin n u t) (hu : EmitsOnly s u) : AnswersWithin n s t := by
  obtain ⟨-, before, hbefore⟩ := hu
  obtain ⟨events, c, pdu, hout, hlen⟩ := h
  exact ⟨before ++ events, c, pdu, by rw [hout, hbefore]; simp, hlen⟩

theorem within_respondBytes {bytes : List Byte} (hlen : bytes.length ≤ n) :
    AnswersWithin n s (respondBytes bytes s) := ⟨[], .ok, bytes, by simp, hlen⟩

theorem within_respondError (c : ResultCode) : AnswersWithin n s (respondError c 1 s) :=
  ⟨[], c, [], by simp, Nat.zero_le n⟩

theorem within_transmit {h : Header} {payload : List Byte} (hlen : hdrLen h + payload.length ≤ n) :
    AnswersWithin n s (transmit h payload s) := by
  obtain ⟨events, pdu, hout, hpdu⟩ := transmit_out h payload s
  exact ⟨events, .ok, pdu, hout, hpdu ▸ hlen⟩

theorem within_buildRetx {r : RetxEntry} {rest : List RetxEntry} (h : buildRetx r rest n s = .ok t) :
    AnswersWithin n s t := by
  unfold buildRetx at h
  split at h
  · cases h; exact within_respondBytes (Nat.zero_le n)
  next e _ =>
  split at h
  · next hfit =>
    cases h
    rw [Bool.and_eq_true, decide_eq_true_eq] at hfit
    exact (within_transmit hfit.2).after (emitsOnly_of_same rfl rfl)
  · unfold buildSegment at h
    split at h
    · cases h; exact within_respondBytes (Nat.zero_le n)
    next stop hend =>
    split at h
    · cases h
    next payload hread =>
    cases h
    obtain ⟨-, -, hpayload⟩ := memRead_ok hread
    obtain ⟨-, -, hfits, -⟩ := greatestEnd_some hend
    refine (within_transmit ?_).after (emitsOnly_of_same rfl rfl)
    rw [hpayload, segmentHeader_cost]
    exact segmentCost_le_of_fits hfits

theorem within_buildNew (h : buildNew n s = .ok t) : AnswersWithin n s t := by
  unfold buildNew at h
  split at h
  · cases h; exact within_respondBytes (Nat.zero_le n)
  split at h
  · cases h
  next st hpack =>
  split at h
  · cases h
    split
    · exact within_respondError _
    · exact within_respondBytes (Nat.zero_le n)
  next hsegs =>
  cases h
  have hwithin := (packLoop_run hpack).within ⟨rfl, fun hne => absurd rfl hne⟩
  refine (within_transmit ?_).after (emitsOnly_of_same rfl rfl)
  refine hwithin.fits fun hnil => hsegs ?_
  have hcount := hwithin.count
  rw [hnil, List.length_nil] at hcount
  rw [List.length_eq_zero_iff.mp hcount]
  rfl

theorem within_sendData (h : sendData n s = .ok t) : AnswersWithin n s t := by
  have dropped : EmitsOnly s (withRetxQ s (dropStale s.tx.window s.tx.retxQ)) :=
    emitsOnly_of_same rfl rfl
  unfold sendData at h
  dsimp only at h
  split at h
  · exact (within_buildRetx h).after dropped
  · exact (within_buildNew h).after dropped

theorem within_readData (h : readData n s = .ok t) : AnswersWithin n s t := by
  unfold readData at h
  split at h
  · split at h
    · cases h
      exact (within_respondError .errProtocolFailure).after
        (emitsOnly_emit .protocolFailure { s with failed := true })
    · next u hu => exact (within_sendData h).after (emitsOnly_scheduleOldest hu)
  · exact within_sendData h

theorem within_readPdu (h : readPdu n s = .ok t) : AnswersWithin n s t := by
  by_cases hdue : StatusDue s
  · have hdrawn := emitsOnly_drawRxBusy s
    rw [readPdu, if_pos ((statusDue_iff s).mpr hdue)] at h
    split at h
    · next u hu => exact (within_readData h).after (by rwa [hu] at hdrawn)
    · next u hu =>
      rw [hu] at hdrawn
      dsimp only at h
      split at h
      · exact (within_readData h).after hdrawn
      · cases h
        exact ((within_respondBytes (encodeStatus_length_le _ _)).after (emitsOnly_statusSent u)).after
          hdrawn
  · rw [readPdu_of_not_due hdue] at h
    exact within_readData h

end

end Sys2Proof.Machine

open Sys2Proof.Machine in
/-- Settles O36, branch by branch. -/
theorem grantNeverExceeded : Obligations.GrantNeverExceeded := by
  intro n s t h
  rcases requireLegal_cases h with ⟨-, h⟩ | ⟨-, rfl⟩
  · rcases dataPath_cases h with ⟨-, rfl⟩ | ⟨-, -, rfl⟩ | ⟨-, -, -, h⟩
    · exact within_respondError _
    · exact within_respondError _
    · exact within_readPdu (answerOf_next h)
  · exact within_respondError _

open Sys2Proof.Machine in
/-- Settles O32: an empty queue, a small grant and an empty pool are seen before anything is packed, and a
segment costs five bytes or more. -/
theorem nothingToSend : Obligations.NothingToSend := by
  refine ⟨fun n s hs hn hdue hq hroom => ⟨fun hnothing => ?_, fun hne hgrant hfree => ?_⟩,
    fun n s rest r t hs hn hdue hq ht hlt hend hseg => ?_⟩
  · rw [exec_readPdu_of_new hs hn hdue hq hroom, buildNew_of_nothing hnothing]
    rfl
  · rw [exec_readPdu_of_new hs hn hdue hq hroom, buildNew_of_exhausted hroom hne hgrant hfree]
    rfl
  · have hexec : exec (.readPdu n) s = answerOf (buildSegment r rest t n.toNat s) := by
      rw [exec_readPdu_of_head (stale := []) hs hn hdue hq (by simp) (validAt_of_some ht),
        withRetxQ_self hq, buildRetx_of_segment ht hseg]
    refine ⟨fun hsmall => ?_, fun hfive => ?_⟩
    · rw [hexec, buildSegment_of_none (greatestEnd_of_small hsmall ..)]
      rfl
    · obtain ⟨e, he⟩ := exists_greatestEnd (p := s.params) (h := t.hdr) (s := r.soStart)
        (m := r.soEnd - r.soStart) hfive (by omega)
      obtain ⟨hstart, hstop, hfits, -⟩ := greatestEnd_some he
      obtain ⟨events, pdu, hout, hlen⟩ := transmit_out
        (segmentHeader t.hdr r.sn t.buf.length r.soStart e)
        ((t.buf.drop r.soStart).take (e - r.soStart)) (withRetxQ s (requeueRemainder r e rest))
      have hpayload : ((t.buf.drop r.soStart).take (e - r.soStart)).length = e - r.soStart := by
        rw [List.length_take, List.length_drop]
        omega
      rw [hpayload, segmentHeader_cost] at hlen
      refine ⟨_, _, pdu, by rw [hexec, buildSegment_of_some hend he]; rfl, hout, ?_, ?_⟩
      · exact hlen ▸ five_le_segmentCost t.hdr hstart
      · exact hlen ▸ segmentCost_le_of_fits hfits
end

section
/-!
A new Data PDU (O31; R180, R196 (5)), from the run of the packing loop; and what HANDLE_CONTROL_PDU and
WRITE_PDU drop (O39; R188, R220, R221).
-/
namespace Sys2Proof.Machine

/-- A transmission stores nothing (R178, R184). -/
theorem transmit_byteAt (h : Header) (payload : List Byte) (u : State) (space : Space)
    (owner off : Nat) : byteAt (transmit h payload u) space owner off = byteAt u space owner off :=
  (transmitted_transmit h payload u).sameStores.byteAt_eq space owner off

/-- The packing before the first round (R180). -/
abbrev packStart (s : State) : Packing :=
  ⟨[], [], [], s.tx.sduQ, s.tx.headOff, s.pool, false, false⟩

theorem packStart_room (p : Params) {n : Nat} (hn : 3 ≤ n) (s : State) :
    ¬ PackFull p n (packStart s) := by
  have hused : (packStart s).used = 2 := by simp [Packing.used, ceilOneAndHalf]
  rintro (h | h | h)
  · exact Nat.not_lt_zero _ h
  · simp at h
  · omega

/-- A READ_PDU that can send a new Data PDU packs one (R180). -/
theorem exists_packed {n : Nat} {s : State} (hn : 3 ≤ n) (hsound : SduQueueSound s)
    (hq : s.tx.sduQ ≠ []) (hfree : s.pool.free ≠ []) :
    ∃ st, Packs n s st ∧ PackRun s.params s.tx.vtS n s.tx.sduQ (packStart s) st ∧ st.segs ≠ [] := by
  obtain ⟨st, hpack⟩ := packLoop_completes s.params s.tx.vtS n (q := s.tx.sduQ) (st := packStart s)
    fun e he => le_of_lt (hsound.2.2 e he)
  have hrun := packLoop_run hpack
  refine ⟨st, hpack, hrun, ?_⟩
  obtain ⟨head, rest, hcons⟩ := List.exists_cons_of_ne_nil hq
  rw [hcons] at hrun
  exact hrun.segs_ne_nil (packStart_room s.params hn s) hfree

/-- The length of the last fragment (R104, R180). -/
theorem getLastD_of_sum {l : List Nat} (hne : l ≠ []) : l.getLastD 0 = l.sum - l.dropLast.sum := by
  have hsum := congrArg List.sum (List.dropLast_append_getLast hne)
  rw [List.sum_append, List.sum_singleton] at hsum
  rw [List.getLastD_eq_getLast?, List.getLast?_eq_getLast_of_ne_nil hne, Option.getD_some]
  omega

/-! ### What is dropped (R188, R220, R221) -/

section
variable {b : List Byte} {s : State}

theorem handleControlPdu_of_corrupt (h : decodeStatus b = none) :
    handleControlPdu b s = respond .errCorruptHeader [] [] s := by
  rw [handleControlPdu, h]
  rfl

theorem handleControlPdu_of_outOfRange {st : StatusPdu} (h : decodeStatus b = some st)
    (hrange : modBase s.tx.vtA s.tx.vtS < modBase s.tx.vtA st.ackSn) :
    handleControlPdu b s = respond .dropAckOutOfRange [] [] s := by
  have hnot : ackInRange s st.ackSn = false := decide_eq_false (Nat.not_le.mpr hrange)
  rw [handleControlPdu, h]
  dsimp only
  rw [hnot]
  rfl

theorem handleControlPdu_of_inRange {st : StatusPdu} (h : decodeStatus b = some st)
    (hrange : modBase s.tx.vtA st.ackSn ≤ modBase s.tx.vtA s.tx.vtS) :
    handleControlPdu b s = processStatus st s := by
  rw [handleControlPdu, h]
  exact if_pos (decide_eq_true hrange)

theorem writePdu_of_control {b0 : Byte} {rest : List Byte} (h : b0.getLsbD 7 = false) :
    writePdu (b0 :: rest) s = .ok (handleControlPdu (b0 :: rest) s) := by
  rw [writePdu, h]
  rfl

theorem writePdu_of_corrupt {b0 : Byte} {rest : List Byte} (h : b0.getLsbD 7 = true)
    (hdecode : decodeDataHeader s.params (b0 :: rest) = none) :
    writePdu (b0 :: rest) s = .ok (respond .errCorruptHeader [] [] s) := by
  rw [writePdu, h, if_pos rfl, hdecode]
  rfl

theorem receiveData_of_outside {h : Header} (hout : 512 ≤ modBase s.rx.vrR h.sn) (d : List Byte) :
    receiveData h d s = .ok (respond .dropOutOfWindow [] [] s) := by
  have hnot : insideRxWindow s h.sn = false := decide_eq_false (Nat.not_lt.mpr hout)
  rw [receiveData, hnot]
  rfl

theorem receiveData_of_duplicate {h : Header} (hin : modBase s.rx.vrR h.sn < 512)
    (hdup : validAt s.rx.window h.sn = true) (d : List Byte) :
    receiveData h d s = .ok (respond .dropDuplicate [] [] s) := by
  have hinside : insideRxWindow s h.sn = true := decide_eq_true hin
  rw [receiveData, hinside, hdup]
  rfl

end

end Sys2Proof.Machine

open Sys2Proof.Machine in
/-- Settles O31: each clause is one of the facts about the run of the packing loop. -/
theorem newDataPdu : Obligations.NewDataPdu := by
  intro n s hs hn hthree hdue hretx hroom hsound hq hfree
  obtain ⟨st, hpack, hrun, hsegs⟩ := exists_packed hthree hsound hq hfree
  have hok := packLoop_ok hpack ⟨rfl, by simp, by simp, rfl, by simp, hsound⟩
  obtain ⟨hsum, hli, hcap, hcount⟩ := hok.pdu hsegs
  have hwithin := hrun.within ⟨rfl, fun h => absurd rfl h⟩
  have hlens : st.lens ≠ [] := fun h => hsegs (List.length_eq_zero_iff.mp (by rw [hwithin.count, h]; rfl))
  have hclosed : PackClosed (packStart s) := ⟨rfl, fun h => absurd rfl h⟩
  have hfiE := hrun.fiE_eq hclosed hsegs
  obtain ⟨hpart, hwhole⟩ := hrun.ends rfl rfl
  obtain ⟨popped, hpopped, hpoppedLen⟩ := hrun.popped rfl
  have hrecords := hrun.records
  refine ⟨newHeader s.tx.vtS (decide (0 < s.tx.headOff)) st, st.payload, st.segs, popped,
    accountNew (newHeader s.tx.vtS (decide (0 < s.tx.headOff)) st) st s, ?_, rfl, ?_,
    Nat.one_le_of_lt hsum, hwithin.fits hlens, hrun.bytes.symm, hpopped, ?_, ?_, hcap, hli,
    fun hoff => ?_, fun hoff => ?_, hcount, hrecords.symm, fun hpool k => ?_,
    fun space owner off hspace => ?_⟩
  · rw [exec_readPdu_of_new hs hn hdue hretx hroom, buildNew_of_packed hroom hq hthree hpack hsegs,
      answerOf_ok]
  · rw [newHeader, hfiE]
    rfl
  · change popped.length = st.lens.dropLast.length + if 0 < st.headOff then 0 else 1
    change st.lens.length = 0 + popped.length + st.fiE.toNat at hpoppedLen
    rw [hfiE] at hpoppedLen
    have hcount := hwithin.count ▸ hcount
    split
    · next hoff => rw [decide_eq_true hoff, Bool.toNat_true] at hpoppedLen; omega
    · next hoff => rw [decide_eq_false hoff, Bool.toNat_false] at hpoppedLen; omega
  · rw [pendingLengths_eq]
    exact List.prefix_iff_eq_take.mp hrun.lens_prefix
  · exact hpart (hfiE.trans (decide_eq_true hoff))
  · have hoff : st.headOff = 0 := hoff
    rcases hwhole (hfiE.trans (by rw [hoff]; rfl)) with hempty | hnone | hmany | hlong | hsmall
    · exact .inl hempty
    · exact .inr (.inl hnone)
    · exact .inr (.inr (.inl (hcount ▸ hmany)))
    · rw [getLastD_of_sum hlens, hok.total] at hlong
      exact .inr (.inr (.inr (.inl hlong)))
    · rw [Packing.used, hcount] at hsmall
      exact .inr (.inr (.inr (.inr hsmall)))
  · obtain ⟨ids, hids, hget⟩ := hrun.slots hpool.2.1
    have hids : st.segs = ids := hids
    rw [hids]
    exact hget k
  · rw [transmit_byteAt]
    cases space with
    | sdu => exact absurd rfl hspace
    | txPdu =>
      change (tableGet (tableSet s.tx.window s.tx.vtS.toNat _) owner >>= fun e => e.buf[off]?) = _
      rw [tableGet_tableSet]
      by_cases howner : owner = s.tx.vtS.toNat
      · rw [if_pos howner, if_pos ⟨rfl, howner⟩]
        rfl
      · rw [if_neg howner, if_neg fun h => howner h.2]
        rfl
    | rxPdu | rxSegment | rxSdu => rfl

open Sys2Proof.Machine in
/-- Settles O39, check by check. -/
theorem droppedPdus : Obligations.DroppedPdus := by
  intro b s hs hb
  rw [exec_handleControlPdu hs hb, exec_writePdu hs hb]
  refine ⟨fun hd => congrArg _ (handleControlPdu_of_corrupt hd),
    fun st hd hrange => congrArg _ (handleControlPdu_of_outOfRange hd hrange), ?_,
    fun b0 rest hcons hbit => ?_, fun b0 rest hcons hbit => ⟨fun hd => ?_, fun h len hd =>
      ⟨fun hout => ?_, fun hin hdup => ?_⟩⟩⟩
  · rintro rfl
    rfl
  · rw [hcons, writePdu_of_control hbit, answerOf_ok]
  · rw [hcons] at hd ⊢
    rw [writePdu_of_corrupt hbit hd, answerOf_ok]
  · rw [hcons] at hd ⊢
    rw [writePdu_of_data hbit hd, receiveData_of_outside hout, answerOf_ok]
  · rw [hcons] at hd ⊢
    rw [writePdu_of_data hbit hd, receiveData_of_duplicate hin hdup, answerOf_ok]
end

section
/-!
The pool under a STATUS (R190, R192): what releasing the RLC halves of many records leaves, which PDCP SNs
their records name, and what the loop of `notify` reports and frees.
-/
namespace Sys2Proof.Machine

/-! ### Releasing the RLC halves (R161, R190) -/

/-- The RLC halves of the listed records are released, in order (R190). -/
def releaseAll (ids : List Nat) (pool : Pool) : Pool :=
  ids.foldl (fun p id => releaseByRlc id p) pool

theorem releaseAll_append (ids js : List Nat) (pool : Pool) :
    releaseAll (ids ++ js) pool = releaseAll js (releaseAll ids pool) := List.foldl_append

/-- What the release of one RLC half leaves in any slot: the slot named loses its half, and leaves the pool
when the other half was released before (R161). -/
theorem tableGet_releaseByRlc_any (id : Nat) (pool : Pool) (k : Nat) :
    tableGet (releaseByRlc id pool).slots k = (tableGet pool.slots k).bind fun slot =>
      if k = id then (if slot.pdcpReleased then none else some { slot with rlcReleased := true })
      else some slot := by
  cases h : tableGet pool.slots id with
  | none =>
    rw [releaseByRlc, h]
    by_cases hk : k = id
    · rw [hk, h]; rfl
    · simp [hk]
  | some slot =>
    rw [tableGet_releaseByRlc h]
    by_cases hk : k = id
    · rw [if_pos hk, hk, h, Option.bind_some, if_pos rfl]
    · simp [hk]

/-- The slots after many releases: each listed one as after its first release. -/
theorem tableGet_releaseAll (ids : List Nat) (pool : Pool) (k : Nat) :
    tableGet (releaseAll ids pool).slots k = (tableGet pool.slots k).bind fun slot =>
      if k ∈ ids then (if slot.pdcpReleased then none else some { slot with rlcReleased := true })
      else some slot := by
  induction ids generalizing pool with
  | nil => simp [releaseAll]
  | cons id ids ih =>
    change tableGet (releaseAll ids (releaseByRlc id pool)).slots k = _
    rw [ih, tableGet_releaseByRlc_any]
    cases tableGet pool.slots k with
    | none => rfl
    | some slot =>
      obtain ⟨rlcSn, pdcpSn, rlc, pdcp⟩ := slot
      by_cases hk : k = id
      · subst hk
        cases pdcp <;> simp
      · simp [hk]

theorem poolOk_releaseAll {n : Nat} (ids : List Nat) {pool : Pool} (h : PoolOk n pool) :
    PoolOk n (releaseAll ids pool) := by
  induction ids generalizing pool with
  | nil => exact h
  | cons id ids ih => exact ih (poolOk_releaseByRlc id h)

/-- The listed records are in the pool with their PDCP halves not released. -/
abbrev InUse (pool : Pool) (ids : List Nat) : Prop :=
  ∀ id ∈ ids, ∃ slot, tableGet pool.slots id = some slot ∧ slot.pdcpReleased = false

/-- What a release leaves of a record in use: its RLC half is released if it is listed. -/
theorem tableGet_releaseAll_inUse {pool : Pool} {id : Nat} {slot : Slot} (ids : List Nat)
    (hget : tableGet pool.slots id = some slot) (hp : slot.pdcpReleased = false) :
    tableGet (releaseAll ids pool).slots id =
      some { slot with rlcReleased := slot.rlcReleased || decide (id ∈ ids) } := by
  obtain ⟨rlcSn, pdcpSn, rlc, pdcp⟩ := slot
  subst hp
  rw [tableGet_releaseAll, hget, Option.bind_some]
  by_cases hmem : id ∈ ids <;> simp [hmem]

theorem InUse.releaseAll {pool : Pool} {ids : List Nat} (h : InUse pool ids) (js : List Nat) :
    InUse (releaseAll js pool) ids := fun id hid => by
  obtain ⟨slot, hget, hp⟩ := h id hid
  exact ⟨_, tableGet_releaseAll_inUse js hget hp, hp⟩

/-- Records in use stay in the pool when their RLC halves are released, so `FREE` is as it was. -/
theorem releaseAll_free {pool : Pool} {ids : List Nat} (h : InUse pool ids) :
    (releaseAll ids pool).free = pool.free := by
  induction ids generalizing pool with
  | nil => rfl
  | cons id ids ih =>
    obtain ⟨slot, hget, hp⟩ := h id List.mem_cons_self
    have hrest : InUse (releaseByRlc id pool) ids :=
      InUse.releaseAll (fun j hj => h j (List.mem_cons_of_mem _ hj)) [id]
    refine (ih hrest).trans ?_
    rw [releaseByRlc_free hget, hp]
    rfl

/-! ### PDCP SNs of records (R164, R189) -/

/-- The PDCP SN that a record names, when it is in the pool (R164). -/
abbrev pdcpSnAt (pool : Pool) (id : Nat) : Option Word := (tableGet pool.slots id).map (·.pdcpSn)

theorem pdcpSnAt_releaseAll {pool : Pool} {ids : List Nat} (h : InUse pool ids) (js : List Nat) :
    ids.filterMap (pdcpSnAt (releaseAll js pool)) = ids.filterMap (pdcpSnAt pool) := by
  refine List.filterMap_congr fun id hid => ?_
  obtain ⟨slot, hget, hp⟩ := h id hid
  rw [pdcpSnAt, pdcpSnAt, tableGet_releaseAll_inUse js hget hp, hget]
  rfl

theorem addOnce_nodup {l : List Word} (h : l.Nodup) (q : Word) : (addOnce l q).Nodup := by
  unfold addOnce
  split
  · exact h
  · next hnot =>
    refine h.append (List.nodup_singleton q) fun x hx hq => hnot ?_
    rw [List.mem_singleton] at hq
    exact List.contains_iff_mem.mpr (hq ▸ hx)

/-- Adding PDCP SNs one by one keeps the first of each: what it adds is the list without duplicates. -/
theorem foldl_addOnce (l acc : List Word) :
    l.foldl addOnce acc = acc ++ (l.removeAll acc).eraseDups := by
  induction l generalizing acc with
  | nil => simp
  | cons q l ih =>
    rw [List.foldl_cons, ih, addOnce]
    by_cases hq : q ∈ acc
    · rw [if_pos (List.contains_iff_mem.mpr hq)]
      simp [List.removeAll, hq]
    · have hlater : l.removeAll (acc ++ [q]) = (l.removeAll acc).filter fun x => !x == q := by
        rw [List.removeAll, List.removeAll, List.filter_filter]
        refine List.filter_congr fun x _ => ?_
        by_cases hx : x = q <;> simp [hx]
      rw [if_neg fun h => hq (List.contains_iff_mem.mp h), hlater, List.append_assoc]
      simp [List.removeAll, hq, List.eraseDups_cons]

/-- The PDCP SNs that records name, gathered one by one (R164). -/
theorem pdcpSnsAt_eq_foldl (pool : Pool) (ids : List Nat) :
    pdcpSnsAt pool ids = (ids.filterMap (pdcpSnAt pool)).foldl addOnce [] := by
  rw [foldl_addOnce, List.nil_append, List.removeAll_nil]
  rfl

theorem slotPdcpSn_of_some {id : Nat} {slot : Slot} {s : State}
    (h : tableGet s.pool.slots id = some slot) : slotPdcpSn id s = (slot.pdcpSn, s) := by
  rw [slotPdcpSn, h]

/-- `pdcp_sns_of` of records that are in the pool (R164). -/
theorem pdcpSnsOf_of_present {ids : List Nat} {s : State} (acc : List Word)
    (h : ∀ id ∈ ids, (tableGet s.pool.slots id).isSome = true) :
    pdcpSnsOf ids acc s = ((ids.filterMap (pdcpSnAt s.pool)).foldl addOnce acc, s) := by
  induction ids generalizing acc with
  | nil => rfl
  | cons id ids ih =>
    obtain ⟨slot, hget⟩ := Option.isSome_iff_exists.mp (h id List.mem_cons_self)
    rw [pdcpSnsOf, slotPdcpSn_of_some hget, List.filterMap_cons, pdcpSnAt, hget]
    exact ih _ fun j hj => h j (List.mem_cons_of_mem _ hj)

theorem InUse.present {pool : Pool} {ids : List Nat} (h : InUse pool ids) :
    ∀ id ∈ ids, (tableGet pool.slots id).isSome = true := fun id hid => by
  obtain ⟨slot, hget, -⟩ := h id hid
  rw [hget, Option.isSome_some]

/-- The records of an acknowledged PDU: their PDCP SNs are noted and their RLC halves released (R190). -/
theorem releaseSegs_of_inUse {ids : List Nat} {s : State} (touched : List Word)
    (h : InUse s.pool ids) :
    releaseSegs ids touched s = ((ids.filterMap (pdcpSnAt s.pool)).foldl addOnce touched,
      { s with pool := releaseAll ids s.pool }) := by
  induction ids generalizing touched s with
  | nil => rfl
  | cons id ids ih =>
    obtain ⟨slot, hget, -⟩ := h id List.mem_cons_self
    have hrest : InUse s.pool ids := fun j hj => h j (List.mem_cons_of_mem _ hj)
    have hsame : ids.filterMap (pdcpSnAt (releaseByRlc id s.pool)) = ids.filterMap (pdcpSnAt s.pool) :=
      pdcpSnAt_releaseAll hrest [id]
    rw [releaseSegs, slotPdcpSn_of_some hget, List.filterMap_cons, pdcpSnAt, hget]
    dsimp only
    rw [ih (s := { s with pool := releaseByRlc id s.pool }) _ (hrest.releaseAll [id])]
    dsimp only
    rw [hsame]
    rfl

/-- Whatever the records hold, releasing them writes the pool and at most draws free values (R190). -/
theorem releaseSegs_frame (ids : List Nat) (touched : List Word) (s : State) :
    ∃ draws, (releaseSegs ids touched s).2 =
      { s with pool := releaseAll ids s.pool, draws := draws } := by
  induction ids generalizing touched s with
  | nil => exact ⟨s.draws, rfl⟩
  | cons id ids ih =>
    have hslot : ∃ draws, (slotPdcpSn id s).2 = { s with draws := draws } := by
      unfold slotPdcpSn
      split <;> exact ⟨_, rfl⟩
    obtain ⟨d, hd⟩ := hslot
    obtain ⟨draws, hrest⟩ := ih (addOnce touched (slotPdcpSn id s).1)
      { (slotPdcpSn id s).2 with pool := releaseByRlc id (slotPdcpSn id s).2.pool }
    refine ⟨draws, hrest.trans ?_⟩
    rw [hd]
    rfl

theorem releaseSegs_nodup (ids : List Nat) {touched : List Word} (s : State) (h : touched.Nodup) :
    (releaseSegs ids touched s).1.Nodup := by
  induction ids generalizing touched s with
  | nil => exact h
  | cons id ids ih => exact ih _ (addOnce_nodup h _)

theorem pdcpSnsOf_frame (ids : List Nat) (acc : List Word) (s : State) :
    ∃ draws, (pdcpSnsOf ids acc s).2 = { s with draws := draws } := by
  induction ids generalizing acc s with
  | nil => exact ⟨s.draws, rfl⟩
  | cons id ids ih =>
    have hslot : ∃ draws, (slotPdcpSn id s).2 = { s with draws := draws } := by
      unfold slotPdcpSn
      split <;> exact ⟨_, rfl⟩
    obtain ⟨d, hd⟩ := hslot
    obtain ⟨draws, hrest⟩ := ih (addOnce acc (slotPdcpSn id s).1) (slotPdcpSn id s).2
    refine ⟨draws, hrest.trans ?_⟩
    rw [hd]

/-! ### The records of one PDCP SN (R163, R164) -/

section
variable {n : Nat} {pool : Pool} (hw : tableWf n pool.slots = true)
include hw

theorem mem_slots_iff (e : Nat × Slot) : e ∈ pool.slots ↔ tableGet pool.slots e.1 = some e.2 :=
  ⟨fun h => tableGet_of_mem hw h, fun h => mem_of_tableGet h⟩

theorem mem_recordsOf_iff (q : Word) (k : Nat) :
    k ∈ recordsOf pool q ↔ ∃ slot, tableGet pool.slots k = some slot ∧ slot.pdcpSn = q := by
  simp only [recordsOf, recordsFor, List.mem_map, List.mem_filter, decide_eq_true_eq]
  constructor
  · rintro ⟨e, ⟨he, hq⟩, rfl⟩
    exact ⟨e.2, (mem_slots_iff hw e).mp he, hq⟩
  · rintro ⟨slot, hget, hq⟩
    exact ⟨(k, slot), ⟨mem_of_tableGet hget, hq⟩, rfl⟩

theorem recordsOf_pairwise (q : Word) : (recordsOf pool q).Pairwise (· < ·) := by
  refine List.Pairwise.sublist (List.filter_sublist.map _) ?_
  clear q
  generalize pool.slots = t at hw
  induction t with
  | nil => exact .nil
  | cons e t ih =>
    obtain ⟨-, hlt, ht⟩ := (tableWf_cons ..).mp hw
    refine List.pairwise_cons.mpr ⟨fun k hk => ?_, ih ht⟩
    obtain ⟨x, hx, rfl⟩ := List.mem_map.mp hk
    exact hlt x hx

/-- `is_sdu_fully_acked` by the slots (R163). -/
theorem isSduFullyAcked_iff_tableGet (q : Word) : isSduFullyAcked pool q = true ↔
    (∃ k slot, tableGet pool.slots k = some slot ∧ slot.pdcpSn = q) ∧
      ∀ k slot, tableGet pool.slots k = some slot → slot.pdcpSn = q → slot.rlcReleased = true := by
  rw [isSduFullyAcked_iff]
  constructor
  · rintro ⟨⟨e, he, hq⟩, hall⟩
    exact ⟨⟨e.1, e.2, (mem_slots_iff hw e).mp he, hq⟩, fun k slot hget =>
      hall (k, slot) (mem_of_tableGet hget)⟩
  · rintro ⟨⟨k, slot, hget, hq⟩, hall⟩
    exact ⟨⟨(k, slot), mem_of_tableGet hget, hq⟩, fun e he => hall e.1 e.2 ((mem_slots_iff hw e).mp he)⟩

end

/-- Two pools with the same indices of records for a PDCP SN list them alike. -/
theorem recordsOf_congr {n : Nat} {pool pool' : Pool} (hw : tableWf n pool.slots = true)
    (hw' : tableWf n pool'.slots = true) {q : Word}
    (h : ∀ k, (∃ slot, tableGet pool.slots k = some slot ∧ slot.pdcpSn = q) ↔
      ∃ slot, tableGet pool'.slots k = some slot ∧ slot.pdcpSn = q) :
    recordsOf pool q = recordsOf pool' q :=
  (recordsOf_pairwise hw q).eq_of_mem_iff (recordsOf_pairwise hw' q) fun k => by
    rw [mem_recordsOf_iff hw, mem_recordsOf_iff hw', h k]

/-! ### Freeing the records of an SDU (R162, R192) -/

theorem releaseRecords_of_released {ids : List Nat} {pool : Pool} (hnodup : ids.Nodup)
    (h : ∀ id ∈ ids, ∃ slot, tableGet pool.slots id = some slot ∧ slot.rlcReleased = true) :
    (releaseRecords ids pool).free = ids.reverse ++ pool.free ∧
    ∀ k, tableGet (releaseRecords ids pool).slots k =
      if k ∈ ids then none else tableGet pool.slots k := by
  induction ids generalizing pool with
  | nil => exact ⟨rfl, fun k => by simp [releaseRecords]⟩
  | cons id ids ih =>
    obtain ⟨slot, hget, hr⟩ := h id List.mem_cons_self
    obtain ⟨hnew, hnodup⟩ := List.nodup_cons.mp hnodup
    have hslots : ∀ k, tableGet (releaseByPdcp id pool).slots k =
        if k = id then none else tableGet pool.slots k := fun k => by
      rw [tableGet_releaseByPdcp hget, hr]
      rfl
    have hfree : (releaseByPdcp id pool).free = id :: pool.free := by
      rw [releaseByPdcp_free hget, hr]
      rfl
    obtain ⟨hf, hs⟩ := ih (pool := releaseByPdcp id pool) hnodup fun j hj => by
      obtain ⟨slot', hget', hr'⟩ := h j (List.mem_cons_of_mem _ hj)
      exact ⟨slot', by rw [hslots, if_neg fun e : j = id => hnew (e ▸ hj), hget'], hr'⟩
    refine ⟨?_, fun k => ?_⟩
    · rw [releaseRecords, hf, hfree, List.reverse_cons, List.append_assoc]
      rfl
    · rw [releaseRecords, hs, hslots]
      by_cases hk : k = id <;> simp [hk]

/-- An SDU that is fully acknowledged leaves the pool: its records are freed, the others stay (R192). -/
theorem releaseRecords_of_acked {n : Nat} {pool : Pool} (hw : tableWf n pool.slots = true) {q : Word}
    (hacked : isSduFullyAcked pool q = true) :
    (releaseRecords (recordsOf pool q) pool).free = (recordsOf pool q).reverse ++ pool.free ∧
    ∀ k, tableGet (releaseRecords (recordsOf pool q) pool).slots k =
      (tableGet pool.slots k).filter fun slot => decide (slot.pdcpSn ≠ q) := by
  obtain ⟨-, hall⟩ := (isSduFullyAcked_iff_tableGet hw q).mp hacked
  obtain ⟨hfree, hslots⟩ := releaseRecords_of_released
    ((recordsOf_pairwise hw q).imp Nat.ne_of_lt) fun id hid => by
      obtain ⟨slot, hget, hq⟩ := (mem_recordsOf_iff hw q id).mp hid
      exact ⟨slot, hget, hall id slot hget hq⟩
  refine ⟨hfree, fun k => ?_⟩
  rw [hslots]
  split
  · next hk =>
    obtain ⟨slot, hget, hq⟩ := (mem_recordsOf_iff hw q k).mp hk
    rw [hget, Option.filter_some, if_neg (by simpa using hq)]
  · next hk =>
    cases hget : tableGet pool.slots k with
    | none => rfl
    | some slot =>
      have hne : slot.pdcpSn ≠ q := fun hq => hk ((mem_recordsOf_iff hw q k).mpr ⟨slot, hget, hq⟩)
      rw [Option.filter_some, if_pos (decide_eq_true hne)]

/-! ### The loop of `notify` (R192) -/

/-- What the loop of `notify` tests of a PDCP SN: it is fully acknowledged and wholly sent (R192). -/
abbrev reportable (tx : Tx) (pool : Pool) (q : Word) : Bool :=
  isSduFullyAcked pool q && !partlySent tx q

/-- The loop reports the PDCP SNs that pass its test at the start, in order, and frees exactly their records:
what it frees for one changes nothing of another (R192). -/
theorem notifyLoop_eq {n : Nat} (tx : Tx) {touched : List Word} (hnodup : touched.Nodup) {pool : Pool}
    (hp : PoolOk n pool) :
    let reported := touched.filter (reportable tx pool)
    (notifyLoop tx touched pool).1 = reported ∧
    (notifyLoop tx touched pool).2.free = (reported.flatMap (recordsOf pool)).reverse ++ pool.free ∧
    ∀ k, tableGet (notifyLoop tx touched pool).2.slots k =
      (tableGet pool.slots k).filter fun slot => decide (slot.pdcpSn ∉ reported) := by
  induction touched generalizing pool with
  | nil => exact ⟨rfl, rfl, fun k => by
      cases h : tableGet pool.slots k <;> simp [notifyLoop, h, Option.filter]⟩
  | cons q qs ih =>
    obtain ⟨hnew, hnodup⟩ := List.nodup_cons.mp hnodup
    unfold notifyLoop
    by_cases hq : reportable tx pool q = true
    · rw [if_pos hq, List.filter_cons_of_pos hq]
      have hacked : isSduFullyAcked pool q = true := (Bool.and_eq_true_iff.mp hq).1
      obtain ⟨hfree, hslots⟩ := releaseRecords_of_acked hp.1 hacked
      have hp' : PoolOk n (releaseRecords (recordsOf pool q) pool) := poolOk_releaseRecords _ hp
      generalize releaseRecords (recordsOf pool q) pool = pool' at hfree hslots hp'
      have hother : ∀ q', q' ≠ q → ∀ k slot, (tableGet pool'.slots k = some slot ∧ slot.pdcpSn = q') ↔
          (tableGet pool.slots k = some slot ∧ slot.pdcpSn = q') := by
        rintro q' hne k slot
        rw [hslots, Option.filter_eq_some_iff, decide_eq_true_eq]
        exact ⟨fun ⟨⟨hget, _⟩, heq⟩ => ⟨hget, heq⟩, fun ⟨hget, heq⟩ => ⟨⟨hget, heq ▸ hne⟩, heq⟩⟩
      have hrecords : ∀ q', q' ≠ q → recordsOf pool' q' = recordsOf pool q' := fun q' hne =>
        recordsOf_congr hp'.1 hp.1 fun k => exists_congr fun slot => hother q' hne k slot
      have htest : ∀ q', q' ≠ q → reportable tx pool' q' = reportable tx pool q' := fun q' hne => by
        have hacked' : isSduFullyAcked pool' q' = isSduFullyAcked pool q' := by
          rw [Bool.eq_iff_iff, isSduFullyAcked_iff_tableGet hp'.1, isSduFullyAcked_iff_tableGet hp.1]
          simp only [← and_imp, hother q' hne]
        rw [reportable, hacked']
      have hne : ∀ q' ∈ qs, q' ≠ q := fun q' hq' e => hnew (e ▸ hq')
      obtain ⟨hsns, hfree', hslots'⟩ := ih hnodup hp'
      rw [List.filter_congr fun q' hq' => htest q' (hne q' hq')] at hsns hfree' hslots'
      refine ⟨congrArg (q :: ·) hsns, ?_, fun k => ?_⟩
      · have hlater : (qs.filter (reportable tx pool)).flatMap (recordsOf pool') =
            (qs.filter (reportable tx pool)).flatMap (recordsOf pool) :=
          List.flatMap_congr fun q' hq' => hrecords q' (hne q' (List.mem_of_mem_filter hq'))
        rw [hfree', hfree, hlater, List.flatMap_cons, List.reverse_append, List.append_assoc]
      · rw [hslots', hslots, Option.filter_filter]
        refine congrArg (Option.filter · _) (funext fun slot => ?_)
        simp
    · rw [if_neg hq, List.filter_cons_of_neg hq]
      exact ih hnodup hp

end Sys2Proof.Machine
end

section
/-!
The walk of a STATUS PDU to the last field (R189 to R191): what each SN does to the transmitter, and the
whole walk (`walk_spec`) in the terms of the claims.
-/
namespace Sys2Proof.Machine

/-! ### One SN of the walk -/

/-- The floor after an SN that is not, or no longer, in the window: past it when it stood there (R190). -/
def floorPast (sn floor : Sn) : Sn := if sn = floor then sn + 1 else floor

section
variable {nacks : List Nack} {before : List Sn} {sn : Sn} {u : State}

theorem walkStep_of_absent (touched : List Word) (h : tableGet u.tx.window sn.toNat = none) :
    walkStep nacks before sn touched u =
      (touched, { u with tx := { u.tx with vtA := floorPast sn u.tx.vtA } }) := by
  simp only [walkStep, ackSnStep, h, floorPast]
  split <;> rfl

/-- An acknowledged PDU leaves the window and the retransmission queue, and its records lose their RLC halves
(R190). -/
theorem walkStep_of_acked {t : TxEntry} (touched : List Word)
    (h : tableGet u.tx.window sn.toNat = some t)
    (hmine : (nacks.filter fun e => decide (e.nackSn = sn)) = []) :
    ∃ touched' draws, walkStep nacks before sn touched u =
      (touched', { u with
        tx := { u.tx with
          vtA := floorPast sn u.tx.vtA
          window := tableErase u.tx.window sn.toNat
          retxQ := u.tx.retxQ.filter fun e => decide (e.sn ≠ sn) }
        pool := releaseAll t.segs u.pool, draws := draws }) ∧
      (touched.Nodup → touched'.Nodup) ∧
      (InUse u.pool t.segs → touched' = (t.segs.filterMap (pdcpSnAt u.pool)).foldl addOnce touched ∧
        draws = u.draws) := by
  obtain ⟨draws, hframe⟩ := releaseSegs_frame t.segs touched u
  refine ⟨_, draws, ?_, releaseSegs_nodup t.segs u, fun huse => ?_⟩
  · simp only [walkStep, ackSnStep, h, hmine, hframe, floorPast, List.isEmpty_nil, if_true]
    split <;> rfl
  · rw [releaseSegs_of_inUse touched huse] at hframe ⊢
    exact ⟨rfl, (congrArg State.draws hframe).symm⟩

theorem walkStep_of_queued {t : TxEntry} (touched : List Word)
    (h : tableGet u.tx.window sn.toNat = some t)
    (hmine : (nacks.filter fun e => decide (e.nackSn = sn)) ≠ []) (hq : before.contains sn = true) :
    walkStep nacks before sn touched u = (touched, u) := by
  simp only [walkStep, nackSnStep, h, hq, List.isEmpty_iff, hmine, if_true, if_false]

/-- A NACKed PDU that was not queued: its counter rises, its ranges are queued, and the failure is reported
when the counter reaches the threshold (R191). -/
theorem walkStep_of_nacked {t : TxEntry} (touched : List Word)
    (h : tableGet u.tx.window sn.toNat = some t)
    (hmine : (nacks.filter fun e => decide (e.nackSn = sn)) ≠ []) (hq : before.contains sn = false) :
    ∃ draws sns, walkStep nacks before sn touched u =
      (touched, { u with
        tx := { u.tx with
          retxQ := queueNacks u.params.retxQCapacity sn t.buf.length
            (nacks.filter fun e => decide (e.nackSn = sn)) u.tx.retxQ
          window := tableSet u.tx.window sn.toNat { t with retxCount := t.retxCount + 1 } }
        draws := draws
        out := u.out ++ (if t.retxCount + 1 = u.cfg.maxRetxThresh then
          [.event (.notifyFailure sns)] else []) }) ∧
      ((∀ id ∈ t.segs, (tableGet u.pool.slots id).isSome = true) →
        sns = pdcpSnsAt u.pool t.segs ∧ draws = u.draws) := by
  have hstep : ∀ r, nackSnStep sn t (nacks.filter fun e => decide (e.nackSn = sn)) before u = r →
      walkStep nacks before sn touched u = (touched, r) := fun r hr => by
    simp only [walkStep, h, List.isEmpty_iff, hmine, if_false, hr]
  unfold nackSnStep at hstep
  rw [hq, if_neg Bool.false_ne_true] at hstep
  dsimp only at hstep
  by_cases hcount : t.retxCount + 1 = u.cfg.maxRetxThresh
  · simp only [if_pos hcount] at hstep ⊢
    generalize hu' : ({ u with tx := _ } : State) = u' at hstep
    obtain ⟨draws, hframe⟩ := pdcpSnsOf_frame t.segs [] u'
    refine ⟨draws, (pdcpSnsOf t.segs [] u').1, hstep _ ?_, fun hpresent => ?_⟩
    · rw [hframe, ← hu']
      rfl
    · have hpool : u'.pool = u.pool := by rw [← hu']
      rw [pdcpSnsOf_of_present [] (s := u') (hpool ▸ hpresent)] at hframe ⊢
      refine ⟨by rw [pdcpSnsAt_eq_foldl, hpool], ?_⟩
      have hdraws := congrArg State.draws hframe
      rw [← hu'] at hdraws
      exact hdraws.symm
  · simp only [if_neg hcount, List.append_nil] at hstep ⊢
    exact ⟨u.draws, _, hstep _ rfl, fun _ => ⟨rfl, rfl⟩⟩

end

/-- The ranges that NACK elements ask for are queued in order while there is room (R191). -/
theorem nackToEntry_eq (e : Nack) (sn : Sn) (len : Nat) :
    nackToEntry e sn len = requestedRange e sn len := by
  unfold nackToEntry requestedRange
  dsimp only
  generalize (if e.soEnd = 0x7FFF then len else e.soEnd + 1) = stop
  cases e.hasSo with
  | false => simp
  | true =>
    by_cases hin : e.soStart < stop ∧ stop ≤ len
    · obtain ⟨hlt, hle⟩ := hin
      have hfits : ¬ (len ≤ e.soStart ∨ len < stop ∨ stop ≤ e.soStart) := by omega
      have hpart : e.soStart = 0 ∧ stop = len ↔ ¬ (0 < e.soStart ∨ stop < len) := by omega
      by_cases hsome : 0 < e.soStart ∨ stop < len <;> simp [hfits, hpart, hsome, hlt, hle]
    · have hout : len ≤ e.soStart ∨ len < stop ∨ stop ≤ e.soStart := by omega
      have hnot : ¬ (e.soStart < stop ∧ stop ≤ len ∧ (0 < e.soStart ∨ stop < len)) :=
        fun ⟨hlt, hle, _⟩ => hin ⟨hlt, hle⟩
      simp only [hout, hnot, Bool.not_true, Bool.false_eq_true, if_true, if_false, true_and]

theorem queueNacks_eq (capacity : Nat) (sn : Sn) (len : Nat) (es : List Nack) (q : List RetxEntry) :
    queueNacks capacity sn len es q =
      q ++ (es.map fun e => requestedRange e sn len).take (capacity - q.length) := by
  induction es generalizing q with
  | nil => simp [queueNacks]
  | cons e es ih =>
    rw [queueNacks, ih, nackToEntry_eq]
    split
    · next hroom =>
      obtain ⟨k, hk⟩ : ∃ k, capacity - q.length = k + 1 := ⟨capacity - q.length - 1, by omega⟩
      have hk' : capacity - (q.length + 1) = k := by omega
      simp [hk, hk']
    · next hfull =>
      have hk : capacity - q.length = 0 := by omega
      simp [hk]

theorem filter_nacks_eq_nil_iff {st : StatusPdu} {a : Sn} :
    (st.nacks.filter fun e => decide (e.nackSn = a)) = [] ↔ isNacked st a = false := by
  simp [isNacked]

theorem filter_nacks_ne_nil {st : StatusPdu} {a : Sn} (h : isNacked st a = true) :
    (st.nacks.filter fun e => decide (e.nackSn = a)) ≠ [] := fun hnil => by
  rw [filter_nacks_eq_nil_iff.mp hnil] at h
  exact Bool.false_ne_true h

theorem contains_retxSns (s : State) (a : Sn) :
    (s.tx.retxQ.map (·.sn)).contains a = queuedBefore s a := by
  rw [Bool.eq_iff_iff, queuedBefore]
  simp

/-! ### What the claims say of the walk, SN by SN -/

theorem modBase_snAdd (a : Sn) {n : Nat} (hn : n < 1024) : modBase a (snAdd a n) = n := modBase_add a hn

theorem modBase_lt_succ_iff {a x : Sn} {n : Nat} (hn : n < 1024) :
    modBase a x < n + 1 ↔ modBase a x < n ∨ x = snAdd a n := by
  have ha := modBase_snAdd a hn
  constructor
  · intro h
    rcases Nat.lt_or_ge (modBase a x) n with hlt | hge
    · exact .inl hlt
    · exact .inr (modBase_inj (b := a) (by omega))
  · rintro (h | rfl) <;> omega

/-- The window entry at `x` after the `n` SNs from `VT_A` were walked (R190, R191). -/
def windowAfter (s : State) (st : StatusPdu) (n : Nat) (x : Sn) : Option TxEntry :=
  if modBase s.tx.vtA x < n then
    if isNacked st x then (tableGet s.tx.window x.toNat).map fun e =>
      { e with retxCount := if queuedBefore s x then e.retxCount else e.retxCount + 1 }
    else none
  else tableGet s.tx.window x.toNat

section
variable {s : State} {st : StatusPdu} {n : Nat}

theorem windowAfter_next (hn : n < 1024) :
    windowAfter s st n (snAdd s.tx.vtA n) = tableGet s.tx.window (snAdd s.tx.vtA n).toNat :=
  if_neg (by rw [modBase_snAdd _ hn]; omega)

theorem windowAfter_succ (hn : n < 1024) (x : Sn) :
    windowAfter s st (n + 1) x =
      if x = snAdd s.tx.vtA n then
        if isNacked st x then (tableGet s.tx.window x.toNat).map fun e =>
          { e with retxCount := if queuedBefore s x then e.retxCount else e.retxCount + 1 }
        else none
      else windowAfter s st n x := by
  unfold windowAfter
  by_cases hx : x = snAdd s.tx.vtA n
  · rw [if_pos hx, if_pos ((modBase_lt_succ_iff hn).mpr (.inr hx))]
  · simp only [modBase_lt_succ_iff hn, hx, or_false, if_false]

section
variable (h : tableGet s.tx.window (snAdd s.tx.vtA n).toNat = none)
include h

theorem retxQueueAfter_of_absent : retxQueueAfter s st (n + 1) = retxQueueAfter s st n := by
  simp [retxQueueAfter, List.range_succ, h]

theorem ackedRecords_of_absent :
    ackedRecords s.tx.window st s.tx.vtA (n + 1) = ackedRecords s.tx.window st s.tx.vtA n := by
  simp [ackedRecords, List.range_succ, h]

theorem failuresOf_of_absent : failuresOf s st (n + 1) = failuresOf s st n := by
  simp [failuresOf, List.range_succ, h]

end

section
variable {t : TxEntry} (h : tableGet s.tx.window (snAdd s.tx.vtA n).toNat = some t)
include h

theorem retxQueueAfter_of_acked (hn : isNacked st (snAdd s.tx.vtA n) = false) :
    retxQueueAfter s st (n + 1) =
      (retxQueueAfter s st n).filter fun r => decide (r.sn ≠ snAdd s.tx.vtA n) := by
  simp [retxQueueAfter, List.range_succ, h, hn]

theorem retxQueueAfter_of_queued (hn : isNacked st (snAdd s.tx.vtA n) = true)
    (hq : queuedBefore s (snAdd s.tx.vtA n) = true) :
    retxQueueAfter s st (n + 1) = retxQueueAfter s st n := by
  simp [retxQueueAfter, List.range_succ, h, hn, hq]

theorem retxQueueAfter_of_nacked (hn : isNacked st (snAdd s.tx.vtA n) = true)
    (hq : queuedBefore s (snAdd s.tx.vtA n) = false) :
    retxQueueAfter s st (n + 1) = retxQueueAfter s st n ++
      ((st.nacks.filter fun e => decide (e.nackSn = snAdd s.tx.vtA n)).map fun e =>
        requestedRange e (snAdd s.tx.vtA n) t.buf.length).take
          (s.params.retxQCapacity - (retxQueueAfter s st n).length) := by
  simp [retxQueueAfter, List.range_succ, h, hn, hq]

theorem ackedRecords_of_acked (hn : isNacked st (snAdd s.tx.vtA n) = false) :
    ackedRecords s.tx.window st s.tx.vtA (n + 1) =
      ackedRecords s.tx.window st s.tx.vtA n ++ t.segs := by
  simp [ackedRecords, List.range_succ, h, hn]

theorem failuresOf_of_acked (hn : isNacked st (snAdd s.tx.vtA n) = false) :
    failuresOf s st (n + 1) = failuresOf s st n := by
  simp [failuresOf, List.range_succ, h, hn]

theorem failuresOf_of_queued (hq : queuedBefore s (snAdd s.tx.vtA n) = true) :
    failuresOf s st (n + 1) = failuresOf s st n := by
  simp [failuresOf, List.range_succ, h, hq]

theorem failuresOf_of_nacked (hn : isNacked st (snAdd s.tx.vtA n) = true)
    (hq : queuedBefore s (snAdd s.tx.vtA n) = false) :
    failuresOf s st (n + 1) = failuresOf s st n ++
      (if t.retxCount + 1 = s.cfg.maxRetxThresh then [.notifyFailure (pdcpSnsAt s.pool t.segs)]
        else []) := by
  rw [failuresOf, List.range_succ, List.filterMap_append]
  refine congrArg (failuresOf s st n ++ ·) ?_
  by_cases hc : t.retxCount + 1 = s.cfg.maxRetxThresh
  · simp only [List.filterMap_cons, List.filterMap_nil, h, hn, hq, hc, and_self, if_true]
  · simp only [List.filterMap_cons, List.filterMap_nil, h, hc, and_false, if_false]

end

theorem ackedRecords_of_nacked (hn : isNacked st (snAdd s.tx.vtA n) = true) :
    ackedRecords s.tx.window st s.tx.vtA (n + 1) = ackedRecords s.tx.window st s.tx.vtA n := by
  simp [ackedRecords, List.range_succ, hn]

end

end Sys2Proof.Machine
end

section
/-!
The whole walk of a STATUS PDU (R189): by induction on the number of SNs walked, what it leaves of the
transmitter and the pool, in the terms of the claims (`walk_spec`).
-/
namespace Sys2Proof.Machine

/-- What the walk leaves besides the retransmission queue and the pool. -/
structure WalkResult where
  touched : List Word
  floor : Sn
  window : Table TxEntry
  draws : Nat
  failures : List Event

/-- The walk's result in the state: what it left, with a retransmission queue and a pool. -/
def WalkResult.state (w : WalkResult) (s : State) (queue : List RetxEntry) (pool : Pool) : State :=
  { s with
    tx := { s.tx with vtA := w.floor, window := w.window, retxQ := queue }
    pool := pool, draws := w.draws, out := s.out ++ w.failures.map .event }

/-- The state after the `n` SNs from `VT_A` were walked. -/
abbrev WalkResult.after (w : WalkResult) (s : State) (st : StatusPdu) (n : Nat) : State :=
  w.state s (retxQueueAfter s st n) (releaseAll (ackedRecords s.tx.window st s.tx.vtA n) s.pool)

/-- What holds of the walk's result: the window SN by SN, nothing left below the floor, no PDCP SN touched
twice, only failures reported; and the touched PDCP SNs and the failures themselves when every PDU has its
records in use. -/
structure WalkResult.Sound (w : WalkResult) (s : State) (st : StatusPdu) (n : Nat) : Prop where
  window : ∀ x : Sn, tableGet w.window x.toNat = windowAfter s st n x
  floor : modBase s.tx.vtA w.floor ≤ n
  below : ∀ x : Sn, modBase s.tx.vtA x < modBase s.tx.vtA w.floor → tableGet w.window x.toNat = none
  nodup : w.touched.Nodup
  failures : ∀ e ∈ w.failures, ∃ qs, e = .notifyFailure qs
  told : RecordsInUse s →
    w.touched = pdcpSnsAt s.pool (ackedRecords s.tx.window st s.tx.vtA n) ∧
    w.failures = failuresOf s st n

theorem RecordsInUse.inUse {s : State} (h : RecordsInUse s) {i : Nat} {t : TxEntry}
    (ht : tableGet s.tx.window i = some t) : InUse s.pool t.segs :=
  fun id hid => h (i, t) (mem_of_tableGet ht) id hid

/-- The records of the acknowledged PDUs are in use when those of every PDU are. -/
theorem RecordsInUse.acked {s : State} (h : RecordsInUse s) (st : StatusPdu) (n : Nat) :
    InUse s.pool (ackedRecords s.tx.window st s.tx.vtA n) := fun id hid => by
  obtain ⟨k, -, hk⟩ := List.mem_flatMap.mp hid
  split at hk
  · exact absurd hk List.not_mem_nil
  · split at hk
    · exact absurd hk List.not_mem_nil
    · next t ht => exact h.inUse ht id hk

theorem floorPast_sound {s : State} {n : Nat} {floor : Sn} {w w' : Table TxEntry} (hn : n < 1023)
    (hfloor : modBase s.tx.vtA floor ≤ n)
    (hbelow : ∀ x : Sn, modBase s.tx.vtA x < modBase s.tx.vtA floor → tableGet w x.toNat = none)
    (hkeep : ∀ x : Sn, tableGet w x.toNat = none → tableGet w' x.toNat = none)
    (hgone : tableGet w' (snAdd s.tx.vtA n).toNat = none) :
    let floor' := floorPast (snAdd s.tx.vtA n) floor
    modBase s.tx.vtA floor' ≤ n + 1 ∧
    ∀ x : Sn, modBase s.tx.vtA x < modBase s.tx.vtA floor' → tableGet w' x.toNat = none := by
  dsimp only [floorPast]
  split
  · next heq =>
    subst heq
    have hd := modBase_snAdd s.tx.vtA (n := n) (by omega)
    have hd' : modBase s.tx.vtA (snAdd s.tx.vtA n + 1) = n + 1 := by
      rw [modBase_succ (by omega), hd]
    refine ⟨hd'.le, fun x hx => ?_⟩
    rcases (modBase_lt_succ_iff (by omega)).mp (hd' ▸ hx) with hlt | rfl
    · exact hkeep x (hbelow x (by omega))
    · exact hgone
  · exact ⟨by omega, fun x hx => hkeep x (hbelow x hx)⟩

section
variable {w : WalkResult} {s : State} {st : StatusPdu} {n : Nat}

theorem WalkResult.Sound.next_entry (h : w.Sound s st n) (hn : n < 1023) :
    tableGet w.window (snAdd s.tx.vtA n).toNat =
      tableGet s.tx.window (snAdd s.tx.vtA n).toNat := by
  rw [h.window, windowAfter_next (by omega)]

theorem map_event_append_ite (c : Prop) [Decidable c] (es : List Event) (e : Event) :
    (es ++ if c then [e] else []).map Output.event = es.map .event ++ if c then [.event e] else [] := by
  split <;> simp

/-- One SN of the walk: what holds of the result so far holds of the next one. -/
abbrev WalkStepSound (w : WalkResult) (s : State) (st : StatusPdu) (n : Nat) : Prop :=
  ∃ w' : WalkResult, walkStep st.nacks (s.tx.retxQ.map (·.sn)) (snAdd s.tx.vtA n) w.touched
    (w.after s st n) = (w'.touched, w'.after s st (n + 1)) ∧ w'.Sound s st (n + 1)

theorem walkStep_sound_of_absent (h : w.Sound s st n) (hn : n < 1023)
    (ht : tableGet s.tx.window (snAdd s.tx.vtA n).toNat = none) : WalkStepSound w s st n := by
  have hentry := (h.next_entry hn).trans ht
  obtain ⟨hfloor, hbelow⟩ := floorPast_sound hn h.floor h.below (fun _ hx => hx) hentry
  refine ⟨{ w with floor := floorPast (snAdd s.tx.vtA n) w.floor }, ?_, ?_, hfloor, hbelow, h.nodup,
    h.failures, ?_⟩
  · rw [walkStep_of_absent (u := w.after s st n) _ hentry, WalkResult.after, WalkResult.after,
      retxQueueAfter_of_absent ht, ackedRecords_of_absent ht]
    rfl
  · intro x
    rw [h.window, windowAfter_succ (by omega)]
    split
    · next hx => rw [← h.window, hx, hentry, ht, Option.map_none, ite_self]
    · rfl
  · rw [ackedRecords_of_absent ht, failuresOf_of_absent ht]
    exact h.told

variable {t : TxEntry}

theorem walkStep_sound_of_acked (h : w.Sound s st n) (hn : n < 1023)
    (ht : tableGet s.tx.window (snAdd s.tx.vtA n).toNat = some t)
    (hnack : isNacked st (snAdd s.tx.vtA n) = false) : WalkStepSound w s st n := by
  have hentry := (h.next_entry hn).trans ht
  obtain ⟨touched, draws, hstep, hnodup, htold⟩ := walkStep_of_acked (u := w.after s st n)
    (before := s.tx.retxQ.map (·.sn)) w.touched hentry (filter_nacks_eq_nil_iff.mpr hnack)
  have herase : ∀ x : Sn, tableGet (tableErase w.window (snAdd s.tx.vtA n).toNat) x.toNat =
      if x = snAdd s.tx.vtA n then none else tableGet w.window x.toNat := fun x => by
    rw [tableGet_tableErase]
    simp only [BitVec.toNat_inj]
  obtain ⟨hfloor, hbelow⟩ := floorPast_sound hn h.floor h.below
    (fun x hx => by rw [herase, hx, ite_self]) (tableGet_tableErase_self ..)
  refine ⟨⟨touched, floorPast (snAdd s.tx.vtA n) w.floor,
    tableErase w.window (snAdd s.tx.vtA n).toNat, draws, w.failures⟩, ?_, ?_, hfloor, hbelow,
    hnodup h.nodup, h.failures, fun huse => ?_⟩
  · rw [hstep, WalkResult.after, WalkResult.after, retxQueueAfter_of_acked ht hnack,
      ackedRecords_of_acked ht hnack, releaseAll_append]
    rfl
  · intro x
    rw [herase, windowAfter_succ (by omega), h.window]
    split
    · next hx => rw [hx, hnack, if_neg Bool.false_ne_true]
    · rfl
  · obtain ⟨htouched, hfailures⟩ := h.told huse
    have hsegs := huse.inUse ht
    obtain ⟨hmore, -⟩ := htold (hsegs.releaseAll _)
    have hsns : t.segs.filterMap (pdcpSnAt (w.after s st n).pool) = t.segs.filterMap (pdcpSnAt s.pool) :=
      pdcpSnAt_releaseAll hsegs _
    rw [ackedRecords_of_acked ht hnack, failuresOf_of_acked ht hnack]
    refine ⟨?_, hfailures⟩
    rw [hmore, hsns, htouched, pdcpSnsAt_eq_foldl, pdcpSnsAt_eq_foldl, List.filterMap_append,
      List.foldl_append]

theorem walkStep_sound_of_queued (h : w.Sound s st n) (hn : n < 1023)
    (ht : tableGet s.tx.window (snAdd s.tx.vtA n).toNat = some t)
    (hnack : isNacked st (snAdd s.tx.vtA n) = true)
    (hq : queuedBefore s (snAdd s.tx.vtA n) = true) : WalkStepSound w s st n := by
  have hmine := filter_nacks_ne_nil hnack
  refine ⟨w, ?_, ?_, Nat.le_succ_of_le h.floor, h.below, h.nodup, h.failures, ?_⟩
  · rw [walkStep_of_queued (u := w.after s st n) _ ((h.next_entry hn).trans ht) hmine
      ((contains_retxSns s _).trans hq), WalkResult.after, WalkResult.after,
      retxQueueAfter_of_queued ht hnack hq, ackedRecords_of_nacked hnack]
  · intro x
    rw [windowAfter_succ (by omega)]
    split
    · next hx => rw [hx, h.next_entry hn, ht, hnack, hq]; rfl
    · exact h.window x
  · rw [ackedRecords_of_nacked hnack, failuresOf_of_queued ht hq]
    exact h.told

theorem walkStep_sound_of_nacked (h : w.Sound s st n) (hn : n < 1023)
    (ht : tableGet s.tx.window (snAdd s.tx.vtA n).toNat = some t)
    (hnack : isNacked st (snAdd s.tx.vtA n) = true)
    (hq : queuedBefore s (snAdd s.tx.vtA n) = false) : WalkStepSound w s st n := by
  have hmine := filter_nacks_ne_nil hnack
  obtain ⟨draws, sns, hstep, htold⟩ := walkStep_of_nacked (u := w.after s st n) w.touched
    ((h.next_entry hn).trans ht) hmine ((contains_retxSns s _).trans hq)
  have hset : ∀ x : Sn, tableGet (tableSet w.window (snAdd s.tx.vtA n).toNat
      { t with retxCount := t.retxCount + 1 }) x.toNat =
      if x = snAdd s.tx.vtA n then some { t with retxCount := t.retxCount + 1 }
      else tableGet w.window x.toNat := fun x => by
    rw [tableGet_tableSet]
    simp only [BitVec.toNat_inj]
  refine ⟨⟨w.touched, w.floor,
    tableSet w.window (snAdd s.tx.vtA n).toNat { t with retxCount := t.retxCount + 1 }, draws,
    w.failures ++ (if t.retxCount + 1 = s.cfg.maxRetxThresh then [.notifyFailure sns] else [])⟩,
    ?_, ?_, Nat.le_succ_of_le h.floor, ?_, h.nodup, ?_, ?_⟩
  · have hout : (w.after s st n).out ++ (if t.retxCount + 1 = (w.after s st n).cfg.maxRetxThresh then
        [.event (.notifyFailure sns)] else []) = s.out ++ (w.failures ++
          (if t.retxCount + 1 = s.cfg.maxRetxThresh then [Event.notifyFailure sns] else [])).map .event := by
      rw [map_event_append_ite, ← List.append_assoc]
      rfl
    rw [hstep, hout, WalkResult.after, WalkResult.after, retxQueueAfter_of_nacked ht hnack hq,
      ackedRecords_of_nacked hnack, queueNacks_eq]
    rfl
  · intro x
    rw [hset, windowAfter_succ (by omega), h.window]
    split
    · next hx => rw [hx, ht, hnack, hq]; rfl
    · rfl
  · intro x hx
    have hne : x ≠ snAdd s.tx.vtA n := fun e => by
      rw [e, modBase_snAdd _ (by omega)] at hx
      exact absurd h.floor (Nat.not_le.mpr hx)
    rw [hset, if_neg hne, h.below x hx]
  · intro e he
    rcases List.mem_append.mp he with he | he
    · exact h.failures e he
    · split at he
      · exact ⟨sns, List.mem_singleton.mp he⟩
      · exact absurd he List.not_mem_nil
  · intro huse
    obtain ⟨htouched, hfailures⟩ := h.told huse
    have hsegs := huse.inUse ht
    obtain ⟨hsns, -⟩ := htold (hsegs.releaseAll _).present
    have hsame : pdcpSnsAt (w.after s st n).pool t.segs = pdcpSnsAt s.pool t.segs :=
      congrArg List.eraseDups (pdcpSnAt_releaseAll hsegs _)
    rw [ackedRecords_of_nacked hnack, failuresOf_of_nacked ht hnack hq]
    exact ⟨htouched, by rw [hsns, hsame, hfailures]⟩

/-- One more SN of the walk keeps what holds of its result. -/
theorem walkStep_sound (h : w.Sound s st n) (hn : n < 1023) : WalkStepSound w s st n := by
  cases ht : tableGet s.tx.window (snAdd s.tx.vtA n).toNat with
  | none => exact walkStep_sound_of_absent h hn ht
  | some t =>
    cases hnack : isNacked st (snAdd s.tx.vtA n) with
    | false => exact walkStep_sound_of_acked h hn ht hnack
    | true =>
      cases hq : queuedBefore s (snAdd s.tx.vtA n) with
      | true => exact walkStep_sound_of_queued h hn ht hnack hq
      | false => exact walkStep_sound_of_nacked h hn ht hnack hq

end

theorem walk_snoc (nacks : List Nack) (before : List Sn) (n : Nat) (sn : Sn) (touched : List Word)
    (s : State) : walk nacks before (n + 1) sn touched s =
      walkStep nacks before (snAdd sn n) (walk nacks before n sn touched s).1
        (walk nacks before n sn touched s).2 := by
  induction n generalizing sn touched s with
  | zero => simp [walk, snAdd]
  | succ n ih =>
    rw [walk, ih, snAdd, sn_add_succ]
    rfl

/-- The walk over the `n` SNs from `VT_A` (R189). -/
theorem walk_spec (s : State) (st : StatusPdu) {n : Nat} (hn : n ≤ 1023) :
    ∃ w : WalkResult, walk st.nacks (s.tx.retxQ.map (·.sn)) n s.tx.vtA [] s =
      (w.touched, w.after s st n) ∧ w.Sound s st n := by
  induction n with
  | zero =>
    refine ⟨⟨[], s.tx.vtA, s.tx.window, s.draws, []⟩, ?_, fun x => rfl, by simp, by simp,
      List.nodup_nil, by simp, fun _ => ⟨rfl, rfl⟩⟩
    rw [WalkResult.after, WalkResult.state, List.map_nil, List.append_nil]
    rfl
  | succ n ih =>
    obtain ⟨w, hwalk, hsound⟩ := ih (by omega)
    rw [walk_snoc, hwalk]
    exact walkStep_sound hsound hn

end Sys2Proof.Machine
end

section
/-!
The processing of an accepted STATUS, to the last field (R188, R190, R192): the poll timer, the walk
(`walk_spec`), the floor and the report.
-/
namespace Sys2Proof.Machine

/-! ### The poll timer and the floor (R188, R190) -/

/-- The poll timer runs and the `n` SNs from `VT_A` cover `POLL_SN` (R188). -/
abbrev PollCovered (s : State) (n : Nat) : Prop :=
  s.tx.pollRetxRunning = true ∧ modBase s.tx.vtA s.tx.pollSn < n

theorem stopPollIfCovered_eq (n : Nat) (s : State) : stopPollIfCovered n s =
    { s with
      tx := { s.tx with
        pollRetxRunning := s.tx.pollRetxRunning && !decide (modBase s.tx.vtA s.tx.pollSn < n) }
      timers := { s.timers with pollRetx := if PollCovered s n then false else s.timers.pollRetx }
      out := s.out ++ (if PollCovered s n then [.event (.timerStop .pollRetx)] else []) } := by
  have hiff : (s.tx.pollRetxRunning && decide (txModBase s s.tx.pollSn < n)) = true ↔ PollCovered s n := by
    rw [Bool.and_eq_true, decide_eq_true_eq]
    rfl
  unfold stopPollIfCovered
  by_cases h : PollCovered s n
  · rw [if_pos (hiff.mpr h), if_pos h, if_pos h, decide_eq_true h.2, Bool.not_true, Bool.and_false]
    rfl
  · have hflag : (s.tx.pollRetxRunning && !decide (modBase s.tx.vtA s.tx.pollSn < n)) =
        s.tx.pollRetxRunning := by
      cases hr : s.tx.pollRetxRunning with
      | false => rfl
      | true => rw [decide_eq_false fun hlt => h ⟨hr, hlt⟩]; rfl
    rw [if_neg (mt hiff.mp h), if_neg h, if_neg h, hflag, List.append_nil]

theorem floorFrom_of_valid {w : Table TxEntry} {a : Sn} (h : validAt w a = true) (stop : Sn) (n : Nat) :
    floorFrom w stop n a = a := by
  cases n with
  | zero => rfl
  | succ n => simp [floorFrom, h]

theorem floorFrom_of_stop (w : Table TxEntry) (a : Sn) (n : Nat) : floorFrom w a n a = a := by
  cases n with
  | zero => rfl
  | succ n => simp [floorFrom]

/-- The floor moves only over SNs that are not in the window, and not past `VT_S` (R190). -/
theorem floorFrom_bounds (w : Table TxEntry) (b stop : Sn) (n : Nat) {a : Sn}
    (ha : modBase b a ≤ modBase b stop) :
    let floor := floorFrom w stop n a
    modBase b floor ≤ modBase b stop ∧
    ∀ x : Sn, modBase b a ≤ modBase b x → modBase b x < modBase b floor →
      tableGet w x.toNat = none := by
  induction n generalizing a with
  | zero => exact ⟨ha, fun x hle hlt => absurd hlt (Nat.not_lt.mpr hle)⟩
  | succ n ih =>
    unfold floorFrom
    split
    · next hc =>
      obtain ⟨hstop, habs⟩ := hc
      have hne : modBase b a ≠ modBase b stop := fun e => hstop (modBase_inj e)
      have hlast := modBase_lt b stop
      have hsucc : modBase b (a + 1) = modBase b a + 1 := modBase_succ (by omega)
      obtain ⟨hbound, hgone⟩ := ih (a := a + 1) (by omega)
      refine ⟨hbound, fun x hle hlt => ?_⟩
      rcases Nat.eq_or_lt_of_le hle with heq | hlt'
      · rw [← modBase_inj heq]
        simpa [validAt] using habs
      · exact hgone x (by omega) hlt
    · exact ⟨ha, fun x hle hlt => absurd hlt (Nat.not_lt.mpr hle)⟩

/-! ### The report (R192) -/

theorem notify_eq (touched : List Word) (s : State) : notify touched s =
    { s with
      pool := (notifyLoop s.tx touched s.pool).2
      out := s.out ++ (if (notifyLoop s.tx touched s.pool).1 = [] then []
        else [.event (.notifyDelivery (notifyLoop s.tx touched s.pool).1)]) } := by
  unfold notify
  dsimp only
  by_cases h : (notifyLoop s.tx touched s.pool).1 = []
  · rw [if_pos (List.isEmpty_iff.mpr h), if_pos h, List.append_nil]
  · rw [if_neg (mt List.isEmpty_iff.mp h), if_neg h]
    rfl

/-! ### The whole command (R188) -/

/-- The SNs an accepted STATUS covers. -/
abbrev snsCovered (st : StatusPdu) (s : State) : Nat := modBase s.tx.vtA st.ackSn

/-- The pool when the walk is over: the records of the acknowledged PDUs have lost their RLC halves. -/
abbrev poolAfter (st : StatusPdu) (s : State) : Pool :=
  releaseAll (ackedRecords s.tx.window st s.tx.vtA (snsCovered st s)) s.pool

/-- The state after an accepted STATUS, by the result of its walk. -/
def WalkResult.processed (w : WalkResult) (st : StatusPdu) (s : State) : State :=
  { s with
    tx := { s.tx with
      vtA := floorFrom w.window s.tx.vtS (modBase w.floor s.tx.vtS) w.floor
      window := w.window
      retxQ := retxQueueAfter s st (snsCovered st s)
      pollRetxRunning :=
        s.tx.pollRetxRunning && !decide (modBase s.tx.vtA s.tx.pollSn < snsCovered st s) }
    pool := (notifyLoop s.tx w.touched (poolAfter st s)).2
    timers := { s.timers with
      pollRetx := if PollCovered s (snsCovered st s) then false else s.timers.pollRetx }
    draws := w.draws
    out := s.out ++ (if PollCovered s (snsCovered st s) then [.event (.timerStop .pollRetx)] else []) ++
      w.failures.map .event ++
      (if (notifyLoop s.tx w.touched (poolAfter st s)).1 = [] then []
        else [.event (.notifyDelivery (notifyLoop s.tx w.touched (poolAfter st s)).1)]) ++
      [.response (responseOf .ok [] [])] }

theorem notifyLoop_congr {tx tx' : Tx} (hq : tx'.sduQ = tx.sduQ) (hoff : tx'.headOff = tx.headOff)
    (touched : List Word) (pool : Pool) : notifyLoop tx' touched pool = notifyLoop tx touched pool := by
  induction touched generalizing pool with
  | nil => rfl
  | cons q qs ih =>
    unfold notifyLoop partlySent
    rw [ih, ih, hq, hoff]

/-- Stopping the poll timer changes nothing that the walk goes by. -/
theorem WalkResult.Sound.of_stopped {w : WalkResult} {s : State} {st : StatusPdu} {n k : Nat}
    (h : w.Sound (stopPollIfCovered k s) st n) : w.Sound s st n := by
  rw [stopPollIfCovered_eq] at h
  exact ⟨h.window, h.floor, h.below, h.nodup, h.failures, h.told⟩

/-- What the processing of an accepted STATUS leaves (R188). -/
theorem processStatus_eq (st : StatusPdu) (s : State) :
    ∃ w : WalkResult, w.Sound s st (snsCovered st s) ∧ processStatus st s = w.processed st s := by
  have hlt : snsCovered st s < 1024 := modBase_lt ..
  obtain ⟨w, hwalk, hsound⟩ := walk_spec (stopPollIfCovered (snsCovered st s) s) st (n := snsCovered st s)
    (by omega)
  refine ⟨w, hsound.of_stopped, ?_⟩
  unfold processStatus
  dsimp only [txModBase]
  rw [hwalk]
  dsimp only
  rw [notify_eq, notifyLoop_congr (tx := s.tx), stopPollIfCovered_eq]
  · rfl
  · rw [stopPollIfCovered_eq]; rfl
  · rw [stopPollIfCovered_eq]; rfl

end Sys2Proof.Machine
end

section
/-!
An accepted STATUS and the transmitter (O40, O41; R188 to R191).
-/
namespace Sys2Proof.Machine

/-- An accepted STATUS on an engine that takes it, by the result of its walk. -/
theorem exec_handleControlPdu_of_inRange {b : List Byte} {s : State} {st : StatusPdu} (hs : Accepting s)
    (hb : b.length ≤ s.params.maxPduBytes) (hd : decodeStatus b = some st)
    (hrange : modBase s.tx.vtA st.ackSn ≤ modBase s.tx.vtA s.tx.vtS) :
    ∃ w : WalkResult, w.Sound s st (snsCovered st s) ∧
      exec (.handleControlPdu b) s = .next (w.processed st s) := by
  obtain ⟨w, hsound, heq⟩ := processStatus_eq st s
  exact ⟨w, hsound, by rw [exec_handleControlPdu hs hb, handleControlPdu_of_inRange hd hrange, heq]⟩

theorem queuedBefore_iff (s : State) (a : Sn) :
    queuedBefore s a = true ↔ ∃ r ∈ s.tx.retxQ, r.sn = a := by
  simp [queuedBefore]

theorem requestedRange_sn (e : Nack) (sn : Sn) (len : Nat) : (requestedRange e sn len).sn = sn := by
  unfold requestedRange
  exact (apply_ite RetxEntry.sn ..).trans (ite_self sn)

/-! ### What the walk queues (R190, R191) -/

/-- A STATUS acknowledges an SN that lies below `ack_sn` and that it does not NACK (R189). -/
abbrev Acknowledged (s : State) (st : StatusPdu) (n : Nat) (x : Sn) : Prop :=
  modBase s.tx.vtA x < n ∧ isNacked st x = false

/-- A NACKed SN below `ack_sn` that was not queued when the STATUS came (R191). -/
abbrev NewlyNacked (s : State) (st : StatusPdu) (n : Nat) (x : Sn) : Prop :=
  modBase s.tx.vtA x < n ∧ isNacked st x = true ∧ ∀ e ∈ s.tx.retxQ, e.sn ≠ x

/-- The queue of the walk holds what was queued and is not acknowledged, all of it, and entries of newly
NACKed SNs, when no entry of the queue is stale. -/
structure QueueSound (s : State) (st : StatusPdu) (n : Nat) : Prop where
  kept : ∀ r ∈ s.tx.retxQ, ¬ Acknowledged s st n r.sn → r ∈ retxQueueAfter s st n
  only : ∀ r ∈ retxQueueAfter s st n,
    (r ∈ s.tx.retxQ ∧ ¬ Acknowledged s st n r.sn) ∨ NewlyNacked s st n r.sn

section
variable {s : State} {st : StatusPdu} {n : Nat}

theorem acknowledged_succ (hn : n < 1024) (x : Sn) : Acknowledged s st (n + 1) x ↔
    Acknowledged s st n x ∨ (x = snAdd s.tx.vtA n ∧ isNacked st x = false) := by
  rw [Acknowledged, modBase_lt_succ_iff hn, or_and_right]

theorem NewlyNacked.mono {x : Sn} (h : NewlyNacked s st n x) : NewlyNacked s st (n + 1) x :=
  ⟨Nat.lt_succ_of_lt h.1, h.2⟩

/-- An SN that takes nothing out of the queue and puts nothing in. -/
theorem QueueSound.of_same (h : QueueSound s st n) (hn : n < 1024)
    (hsame : retxQueueAfter s st (n + 1) = retxQueueAfter s st n)
    (hnot : ∀ r ∈ s.tx.retxQ, r.sn = snAdd s.tx.vtA n → isNacked st r.sn = true) :
    QueueSound s st (n + 1) := by
  refine ⟨fun r hr hna => ?_, fun r hr => ?_⟩
  · rw [hsame]
    exact h.kept r hr fun ha => hna ((acknowledged_succ hn _).mpr (.inl ha))
  · rw [hsame] at hr
    refine (h.only r hr).imp (fun ⟨hold, hna⟩ => ⟨hold, fun ha => ?_⟩) NewlyNacked.mono
    rcases (acknowledged_succ hn _).mp ha with ha | ⟨hx, hf⟩
    · exact hna ha
    · rw [hnot r hold hx] at hf
      exact Bool.false_ne_true hf.symm

theorem retxQueueAfter_sound (hpresent : ∀ r ∈ s.tx.retxQ, tableGet s.tx.window r.sn.toNat ≠ none)
    (hn : n ≤ 1023) : QueueSound s st n := by
  induction n with
  | zero => exact ⟨fun r hr _ => hr, fun r hr => .inl ⟨hr, fun ha => absurd ha.1 (by omega)⟩⟩
  | succ n ih =>
    have h := ih (by omega)
    have hn : n < 1024 := by omega
    cases ht : tableGet s.tx.window (snAdd s.tx.vtA n).toNat with
    | none =>
      exact h.of_same hn (retxQueueAfter_of_absent ht) fun r hr hx =>
        absurd (hx ▸ ht) (hpresent r hr)
    | some t =>
      cases hnack : isNacked st (snAdd s.tx.vtA n) with
      | false =>
        have hqueue := retxQueueAfter_of_acked ht hnack
        refine ⟨fun r hr hna => ?_, fun r hr => ?_⟩
        · rw [acknowledged_succ hn, not_or] at hna
          rw [hqueue, List.mem_filter, decide_eq_true_eq]
          exact ⟨h.kept r hr hna.1, fun hx => hna.2 ⟨hx, hx ▸ hnack⟩⟩
        · rw [hqueue, List.mem_filter, decide_eq_true_eq] at hr
          refine (h.only r hr.1).imp (fun ⟨hold, hna⟩ => ⟨hold, fun ha => ?_⟩) NewlyNacked.mono
          rcases (acknowledged_succ hn _).mp ha with ha | ⟨hx, -⟩
          · exact hna ha
          · exact hr.2 hx
      | true =>
        cases hq : queuedBefore s (snAdd s.tx.vtA n) with
        | true => exact h.of_same hn (retxQueueAfter_of_queued ht hnack hq) fun r _ hx => hx ▸ hnack
        | false =>
          have hqueue := retxQueueAfter_of_nacked ht hnack hq
          have hnone : ∀ e ∈ s.tx.retxQ, e.sn ≠ snAdd s.tx.vtA n := fun e he hx =>
            absurd ((queuedBefore_iff s _).mpr ⟨e, he, hx⟩) (by simp [hq])
          have hfree : ∀ r ∈ s.tx.retxQ, Acknowledged s st (n + 1) r.sn → Acknowledged s st n r.sn :=
            fun r hr ha => ((acknowledged_succ hn _).mp ha).resolve_right fun hx => hnone r hr hx.1
          refine ⟨fun r hr hna => ?_, fun r hr => ?_⟩
          · rw [hqueue]
            exact List.mem_append_left _ (h.kept r hr fun ha => hna
              ((acknowledged_succ hn _).mpr (.inl ha)))
          · rw [hqueue] at hr
            rcases List.mem_append.mp hr with hr | hr
            · exact (h.only r hr).imp (fun ⟨hold, hna⟩ => ⟨hold, fun ha => hna (hfree r hold ha)⟩)
                NewlyNacked.mono
            · obtain ⟨e, -, rfl⟩ := List.mem_map.mp (List.mem_of_mem_take hr)
              rw [requestedRange_sn]
              exact .inr ⟨(modBase_lt_succ_iff hn).mpr (.inr rfl), hnack, hnone⟩

/-! ### The window and the floor (R190) -/

theorem windowAfter_of_acknowledged {x : Sn} (h : Acknowledged s st n x) :
    windowAfter s st n x = none := by
  rw [windowAfter, if_pos h.1, h.2, if_neg Bool.false_ne_true]

theorem windowAfter_of_nacked {x : Sn} (hlt : modBase s.tx.vtA x < n) (hnack : isNacked st x = true) :
    windowAfter s st n x = (tableGet s.tx.window x.toNat).map fun e =>
      { e with retxCount :=
          if ∃ r ∈ s.tx.retxQ, r.sn = x then e.retxCount else e.retxCount + 1 } := by
  rw [windowAfter, if_pos hlt, if_pos hnack]
  simp only [queuedBefore_iff]

theorem windowAfter_of_beyond {x : Sn} (h : n ≤ modBase s.tx.vtA x) :
    windowAfter s st n x = tableGet s.tx.window x.toNat := if_neg (Nat.not_lt.mpr h)

end

/-- The floor after an accepted STATUS: nothing is left below it, it is not past `VT_S`, and it stands there
or on an SN of the window (R190). -/
theorem WalkResult.Sound.processed_floor {w : WalkResult} {st : StatusPdu} {s : State}
    (h : w.Sound s st (snsCovered st s))
    (hrange : modBase s.tx.vtA st.ackSn ≤ modBase s.tx.vtA s.tx.vtS) :
    let t := w.processed st s
    (∀ x : Sn, modBase s.tx.vtA x < modBase s.tx.vtA t.tx.vtA → tableGet t.tx.window x.toNat = none) ∧
    modBase s.tx.vtA t.tx.vtA ≤ modBase s.tx.vtA s.tx.vtS ∧
    (t.tx.vtA = s.tx.vtS ∨ validAt t.tx.window t.tx.vtA = true) := by
  obtain ⟨hbound, hgone⟩ := floorFrom_bounds w.window s.tx.vtA s.tx.vtS
    (modBase w.floor s.tx.vtS) (h.floor.trans hrange)
  refine ⟨fun x hx => ?_, hbound, or_iff_not_imp_left.mpr fun hne =>
    floorFrom_present w.window s.tx.vtS le_rfl hne⟩
  rcases Nat.lt_or_ge (modBase s.tx.vtA x) (modBase s.tx.vtA w.floor) with hlt | hge
  · exact h.below x hlt
  · exact hgone x hge hx

end Sys2Proof.Machine

open Sys2Proof.Machine in
/-- Settles O40, from the walk's result (`walk_spec`), SN by SN. -/
theorem statusWalk : Obligations.StatusWalk := by
  intro b s st hs hb hd hrange htx
  obtain ⟨w, hsound, hexec⟩ := exec_handleControlPdu_of_inRange hs hb hd hrange
  obtain ⟨hbelow, hbound, hfloor⟩ := hsound.processed_floor hrange
  obtain ⟨-, -, -, hretx⟩ := htx
  have hlt : snsCovered st s < 1024 := modBase_lt ..
  have hqueue : QueueSound s st (snsCovered st s) :=
    retxQueueAfter_sound (fun r hr hnone => by
      obtain ⟨t, ht, -⟩ := hretx r hr
      exact Option.some_ne_none t (ht.symm.trans hnone)) (by omega)
  refine ⟨w.processed st s, hexec, fun x => ⟨fun ha => ?_, fun hx hnack => ?_, fun hx => ?_⟩, hbelow,
    hbound, hfloor, fun r hr hna => hqueue.kept r hr hna, fun r hr => ?_, rfl, rfl⟩
  · exact (hsound.window x).trans (windowAfter_of_acknowledged ha)
  · exact (hsound.window x).trans (windowAfter_of_nacked hx hnack)
  · exact (hsound.window x).trans (windowAfter_of_beyond hx)
  · rcases hqueue.only r hr with ⟨hold, hna⟩ | hnew
    · exact ⟨hna, .inl hold⟩
    · exact ⟨fun ha => Bool.false_ne_true (ha.2.symm.trans hnew.2.1), .inr hnew⟩
end

section
/-!
A STATUS that covers one SN, to the last field (O41, O42): the window floor NACKed, or acknowledged.
-/
namespace Sys2Proof.Machine

/-- A STATUS whose `ack_sn` is just above the window floor: the one step of the walk, the floor and the
report. -/
theorem exec_handleControlPdu_of_next {b : List Byte} {s : State} {nacks : List Nack} (hs : Accepting s)
    (hb : b.length ≤ s.params.maxPduBytes) (hd : decodeStatus b = some ⟨s.tx.vtA + 1, nacks⟩)
    (hne : s.tx.vtA ≠ s.tx.vtS) (hpoll : ¬ PollCovered s 1) :
    exec (.handleControlPdu b) s = .next (respond .ok [] []
      (notify (walkStep nacks (s.tx.retxQ.map (·.sn)) s.tx.vtA [] s).1
        (fixFloor (walkStep nacks (s.tx.retxQ.map (·.sn)) s.tx.vtA [] s).2))) := by
  have hpos : modBase s.tx.vtA s.tx.vtS ≠ 0 := fun h => hne (modBase_eq_zero.mp h).symm
  have hone : modBase s.tx.vtA (s.tx.vtA + 1) = 1 := modBase_succ_base _
  have hsame : stopPollIfCovered 1 s = s := by
    unfold stopPollIfCovered
    refine if_neg fun h => hpoll ?_
    obtain ⟨hrun, hlt⟩ := Bool.and_eq_true_iff.mp h
    exact ⟨hrun, of_decide_eq_true hlt⟩
  rw [exec_handleControlPdu hs hb, handleControlPdu_of_inRange hd (by dsimp only; omega)]
  unfold processStatus
  dsimp only [txModBase]
  rw [hone, hsame]
  rfl

theorem exec_handleControlPdu_of_floorNacked {b : List Byte} {s : State} {e : Nack} {t : TxEntry} (hs : Accepting s)
    (hb : b.length ≤ s.params.maxPduBytes) (hd : decodeStatus b = some ⟨s.tx.vtA + 1, [e]⟩)
    (he : e.nackSn = s.tx.vtA) (hne : s.tx.vtA ≠ s.tx.vtS)
    (ht : tableGet s.tx.window s.tx.vtA.toNat = some t) (hq : ∀ r ∈ s.tx.retxQ, r.sn ≠ s.tx.vtA)
    (hroom : s.tx.retxQ.length < s.params.retxQCapacity)
    (hpoll : s.tx.pollRetxRunning = true → s.tx.pollSn ≠ s.tx.vtA)
    (hpresent : ∀ id ∈ t.segs, (tableGet s.pool.slots id).isSome = true) :
    exec (.handleControlPdu b) s = .next (respond .ok [] [] { s with
      tx := { s.tx with
        retxQ := s.tx.retxQ ++ [requestedRange e s.tx.vtA t.buf.length]
        window := tableSet s.tx.window s.tx.vtA.toNat { t with retxCount := t.retxCount + 1 } }
      out := s.out ++ (if t.retxCount + 1 = s.cfg.maxRetxThresh then
        [.event (.notifyFailure (pdcpSnsAt s.pool t.segs))] else []) }) := by
  have hcovered : ¬ PollCovered s 1 := fun ⟨hrun, hlt⟩ =>
    hpoll hrun (modBase_eq_zero.mp (Nat.lt_one_iff.mp hlt))
  have hmine : ([e].filter fun e => decide (e.nackSn = s.tx.vtA)) = [e] := by simp [he]
  have hbefore : (s.tx.retxQ.map (·.sn)).contains s.tx.vtA = false := by
    rw [contains_retxSns, Bool.eq_false_iff]
    exact fun h => let ⟨r, hr, hsn⟩ := (queuedBefore_iff s _).mp h; hq r hr hsn
  obtain ⟨draws, sns, hstep, htold⟩ := walkStep_of_nacked (before := s.tx.retxQ.map (·.sn)) [] ht
    (by rw [hmine]; exact List.cons_ne_nil e []) hbefore
  obtain ⟨rfl, rfl⟩ := htold hpresent
  have hqueue : queueNacks s.params.retxQCapacity s.tx.vtA t.buf.length [e] s.tx.retxQ =
      s.tx.retxQ ++ [requestedRange e s.tx.vtA t.buf.length] := by
    rw [queueNacks_eq, List.map_singleton, List.take_of_length_le]
    rw [List.length_singleton]
    omega
  rw [exec_handleControlPdu_of_next hs hb hd hne hcovered, hstep, hmine, hqueue]
  have hfloor : ∀ stop k, floorFrom (tableSet s.tx.window s.tx.vtA.toNat
      { t with retxCount := t.retxCount + 1 }) stop k s.tx.vtA = s.tx.vtA := fun stop k =>
    floorFrom_of_valid (by simp [validAt]) stop k
  unfold fixFloor
  dsimp only
  rw [hfloor]
  rfl

end Sys2Proof.Machine

open Sys2Proof.Machine in
/-- Settles O41: the walk's queue and failures, and for one NACK the single step of the walk. -/
theorem nackQueuesRetransmission : Obligations.NackQueuesRetransmission := by
  refine ⟨fun b s st hs hb hd hrange huse => ?_, ?_⟩
  · obtain ⟨w, hsound, hexec⟩ := exec_handleControlPdu_of_inRange hs hb hd hrange
    obtain ⟨-, hfailures⟩ := hsound.told huse
    refine ⟨w.processed st s, if (notifyLoop s.tx w.touched (poolAfter st s)).1 = [] then []
      else [.notifyDelivery (notifyLoop s.tx w.touched (poolAfter st s)).1], hexec, rfl, ?_, ?_⟩
    · split
      · exact .inl rfl
      · exact .inr ⟨_, rfl⟩
    · rw [WalkResult.processed, hfailures, List.map_append, apply_ite (List.map Output.event)]
      simp only [List.append_assoc]
      rfl
  · intro b s e t hs hb hd he hne ht hq hroom hpoll hpresent
    exact exec_handleControlPdu_of_floorNacked hs hb hd he hne ht hq hroom hpoll hpresent
end

section
/-!
What an accepted STATUS reports and frees (O42, O43; R190, R192, R48).
-/
namespace Sys2Proof.Machine

/-! ### The pool when the walk is over (R190) -/

/-- Records in use stay, with their RLC halves released when they are listed. -/
theorem tableGet_releaseAll_map {pool : Pool} {ids : List Nat} (h : InUse pool ids) (k : Nat) :
    tableGet (releaseAll ids pool).slots k = (tableGet pool.slots k).map fun slot =>
      { slot with rlcReleased := slot.rlcReleased || ids.contains k } := by
  rw [tableGet_releaseAll]
  cases hget : tableGet pool.slots k with
  | none => rfl
  | some slot =>
    rw [Option.bind_some, Option.map_some]
    by_cases hk : k ∈ ids
    · obtain ⟨slot', hget', hp⟩ := h k hk
      rw [hget, Option.some.injEq] at hget'
      rw [if_pos hk, hget', hp, if_neg Bool.false_ne_true, List.contains_iff_mem.mpr hk, Bool.or_true]
    · rw [if_neg hk, Bool.eq_false_iff.mpr (mt List.contains_iff_mem.mp hk), Bool.or_false]

section
variable {n : Nat} {pool : Pool} {ids : List Nat} (hp : PoolOk n pool)
include hp

theorem recordsOf_releaseAll (h : InUse pool ids) (q : Word) :
    recordsOf (releaseAll ids pool) q = recordsOf pool q :=
  recordsOf_congr (poolOk_releaseAll ids hp).1 hp.1 fun k => by
    rw [tableGet_releaseAll_map h]
    cases tableGet pool.slots k <;> simp

/-- An SDU that has a record is fully acknowledged once every record of it has its RLC half released, before
or by the walk. -/
theorem isSduFullyAcked_releaseAll (h : InUse pool ids) {q : Word}
    (hq : ∃ k slot, tableGet pool.slots k = some slot ∧ slot.pdcpSn = q) :
    isSduFullyAcked (releaseAll ids pool) q =
      (pool.slots.filter fun e => decide (e.2.pdcpSn = q)).all fun e =>
        e.2.rlcReleased || ids.contains e.1 := by
  have hafter : ∀ k slot, tableGet pool.slots k = some slot → tableGet (releaseAll ids pool).slots k =
      some { slot with rlcReleased := slot.rlcReleased || ids.contains k } := fun k slot hget => by
    rw [tableGet_releaseAll_map h, hget, Option.map_some]
  rw [Bool.eq_iff_iff, isSduFullyAcked_iff_tableGet (poolOk_releaseAll ids hp).1, List.all_eq_true]
  constructor
  · rintro ⟨-, hall⟩ e he
    rw [List.mem_filter, decide_eq_true_eq] at he
    exact hall e.1 _ (hafter e.1 e.2 ((mem_slots_iff hp.1 e).mp he.1)) he.2
  · intro hall
    obtain ⟨k, slot, hget, hsn⟩ := hq
    refine ⟨⟨k, _, hafter k slot hget, hsn⟩, fun k slot hget hsn => ?_⟩
    rw [tableGet_releaseAll_map h, Option.map_eq_some_iff] at hget
    obtain ⟨old, hold, rfl⟩ := hget
    exact hall (k, old) (List.mem_filter.mpr ⟨mem_of_tableGet hold, decide_eq_true hsn⟩)

end

/-- Every PDCP SN of the touched ones has a record. -/
theorem exists_record_of_touched {pool : Pool} {ids : List Nat} {q : Word} (h : q ∈ pdcpSnsAt pool ids) :
    ∃ k slot, tableGet pool.slots k = some slot ∧ slot.pdcpSn = q := by
  rw [pdcpSnsAt, List.mem_eraseDups] at h
  obtain ⟨k, -, hk⟩ := List.mem_filterMap.mp h
  obtain ⟨slot, hget, hsn⟩ := Option.map_eq_some_iff.mp hk
  exact ⟨k, slot, hget, hsn⟩

theorem partlySent_eq (tx : Tx) (q : Word) : partlySent tx q =
    (decide (0 < tx.headOff) && tx.sduQ.head?.any fun h => decide (h.pdcpSn = q)) := by
  unfold partlySent
  cases tx.sduQ with
  | nil => simp
  | cons head rest => simp [Bool.and_comm]

/-! ### The report of an accepted STATUS (R192) -/

/-- The PDCP SNs that an accepted STATUS reports, in the words of the claim. -/
theorem reported_eq {n : Nat} {pool : Pool} {ids : List Nat} (tx : Tx) (hp : PoolOk n pool)
    (h : InUse pool ids) :
    (pdcpSnsAt pool ids).filter (reportable tx (releaseAll ids pool)) =
      (pdcpSnsAt pool ids).filter fun q =>
        ((pool.slots.filter fun e => decide (e.2.pdcpSn = q)).all fun e =>
          e.2.rlcReleased || ids.contains e.1) &&
        !(decide (0 < tx.headOff) && tx.sduQ.head?.any fun h => decide (h.pdcpSn = q)) :=
  List.filter_congr fun q hq => by
    rw [reportable, isSduFullyAcked_releaseAll hp h (exists_record_of_touched hq), partlySent_eq]

/-- The one record of an SDU that is wholly sent is released, reported and freed (R192). -/
theorem notifyLoop_of_single {n : Nat} {pool : Pool} {id : Nat} {slot : Slot} {tx : Tx}
    (hp : PoolOk n pool) (hget : tableGet pool.slots id = some slot) (hpdcp : slot.pdcpReleased = false)
    (honly : ∀ e ∈ pool.slots, e.2.pdcpSn = slot.pdcpSn → e.1 = id)
    (hsent : partlySent tx slot.pdcpSn = false) :
    notifyLoop tx [slot.pdcpSn] (releaseAll [id] pool) =
      ([slot.pdcpSn], { slots := tableErase pool.slots id, free := id :: pool.free }) := by
  have huse : InUse pool [id] := fun j hj => List.mem_singleton.mp hj ▸ ⟨slot, hget, hpdcp⟩
  have hp' : PoolOk n (releaseAll [id] pool) := poolOk_releaseAll [id] hp
  have hrecords : recordsOf pool slot.pdcpSn = [id] :=
    (recordsOf_pairwise hp.1 _).eq_of_mem_iff (List.pairwise_singleton ..) fun k => by
      rw [mem_recordsOf_iff hp.1, List.mem_singleton]
      exact ⟨fun ⟨v, hv, hsn⟩ => honly (k, v) (mem_of_tableGet hv) hsn, fun hk => ⟨slot, hk ▸ hget, rfl⟩⟩
  have hacked : isSduFullyAcked (releaseAll [id] pool) slot.pdcpSn = true := by
    rw [isSduFullyAcked_releaseAll hp huse ⟨id, slot, hget, rfl⟩, List.all_eq_true]
    intro e he
    rw [List.mem_filter, decide_eq_true_eq] at he
    rw [honly e he.1 he.2]
    simp
  obtain ⟨hsns, hfree, hslots⟩ := notifyLoop_eq tx (List.nodup_singleton slot.pdcpSn) hp'
  have hwf := poolOk_notifyLoop tx [slot.pdcpSn] hp'
  have hreported : [slot.pdcpSn].filter (reportable tx (releaseAll [id] pool)) = [slot.pdcpSn] := by
    simp [reportable, hacked, hsent]
  rw [hreported] at hsns hfree hslots
  generalize notifyLoop tx [slot.pdcpSn] (releaseAll [id] pool) = r at hsns hfree hslots hwf
  obtain ⟨sns, ⟨slots, free⟩⟩ := r
  dsimp only at hsns hfree hslots hwf
  have hslots' : slots = tableErase pool.slots id :=
    tableWf_ext hwf.1 (tableWf_tableErase hp.1 id) fun k => by
      rw [hslots, tableGet_releaseAll_map huse, tableGet_tableErase]
      cases hk : tableGet pool.slots k with
      | none => simp
      | some v =>
        rw [Option.map_some, Option.filter_some]
        by_cases hid : k = id
        · have hv : v = slot := Option.some.inj ((hid ▸ hk).symm.trans hget)
          simp [hid, hv]
        · have hv : v.pdcpSn ≠ slot.pdcpSn := fun e => hid (honly (k, v) (mem_of_tableGet hk) e)
          simp [hid, hv]
  rw [hsns, hslots', hfree, List.flatMap_singleton, recordsOf_releaseAll hp huse, hrecords,
    releaseAll_free huse]
  rfl

/-- The acknowledgement of the window floor, whose PDU carries the one record of a wholly sent SDU. -/
theorem exec_handleControlPdu_of_floorAcked {b : List Byte} {s : State} {t : TxEntry} {id : Nat}
    {slot : Slot} (hs : Accepting s) (hb : b.length ≤ s.params.maxPduBytes)
    (hd : decodeStatus b = some ⟨s.tx.vtA + 1, []⟩) (hne : s.tx.vtA ≠ s.tx.vtS)
    (ht : tableGet s.tx.window s.tx.vtA.toNat = some t) (hsegs : t.segs = [id])
    (hnext : s.tx.vtA + 1 = s.tx.vtS ∨ validAt s.tx.window (s.tx.vtA + 1) = true) (hp : PoolSound s)
    (hget : tableGet s.pool.slots id = some slot) (hpdcp : slot.pdcpReleased = false)
    (honly : ∀ e ∈ s.pool.slots, e.2.pdcpSn = slot.pdcpSn → e.1 = id)
    (hsent : s.tx.sduQ = [] ∨ s.tx.headOff = 0) (hpoll : s.tx.pollRetxRunning = false) :
    exec (.handleControlPdu b) s = .next (respond .ok [] [] { s with
      tx := { s.tx with
        vtA := s.tx.vtA + 1
        window := tableErase s.tx.window s.tx.vtA.toNat
        retxQ := s.tx.retxQ.filter fun e => decide (e.sn ≠ s.tx.vtA) }
      pool := { slots := tableErase s.pool.slots id, free := id :: s.pool.free }
      out := s.out ++ [.event (.notifyDelivery [slot.pdcpSn])] }) := by
  have hcovered : ¬ PollCovered s 1 := fun ⟨hrun, _⟩ => Bool.false_ne_true (hpoll.symm.trans hrun)
  have huse : InUse s.pool t.segs := fun j hj =>
    List.mem_singleton.mp (hsegs ▸ hj) ▸ ⟨slot, hget, hpdcp⟩
  obtain ⟨touched, draws, hstep, -, htold⟩ :=
    walkStep_of_acked (nacks := []) (before := s.tx.retxQ.map (·.sn)) [] ht rfl
  obtain ⟨rfl, rfl⟩ := htold huse
  have htouched : (t.segs.filterMap (pdcpSnAt s.pool)).foldl addOnce [] = [slot.pdcpSn] := by
    rw [hsegs, List.filterMap_cons, pdcpSnAt, hget]
    rfl
  have hfloor : ∀ k, floorFrom (tableErase s.tx.window s.tx.vtA.toNat) s.tx.vtS k (s.tx.vtA + 1) =
      s.tx.vtA + 1 := fun k => by
    rcases hnext with hstop | hvalid
    · rw [hstop, floorFrom_of_stop]
    · refine floorFrom_of_valid ?_ _ _
      have hsn : (s.tx.vtA + 1).toNat ≠ s.tx.vtA.toNat := fun e => by
        have := modBase_succ_base s.tx.vtA
        rw [BitVec.eq_of_toNat_eq e, modBase_self] at this
        omega
      rwa [validAt, tableGet_tableErase, if_neg hsn]
  have hpart : partlySent s.tx slot.pdcpSn = false := by
    rw [partlySent_eq]
    rcases hsent with h | h <;> simp [h]
  have hraise : floorPast s.tx.vtA s.tx.vtA = s.tx.vtA + 1 := if_pos rfl
  rw [exec_handleControlPdu_of_next hs hb hd hne hcovered, hstep, htouched, hsegs, hraise]
  unfold fixFloor
  dsimp only
  rw [hfloor, notify_eq]
  dsimp only
  rw [notifyLoop_congr (tx := s.tx), notifyLoop_of_single hp hget hpdcp honly hpart] <;> rfl

end Sys2Proof.Machine

open Sys2Proof.Machine in
/-- Settles O42: the walk releases the records, the loop of `notify` reports and frees (`notifyLoop_eq`). -/
theorem ackedSduReported : Obligations.AckedSduReported := by
  refine ⟨fun b s st hs hb hd hrange hp huse => ?_, ?_⟩
  · intro released records sns
    obtain ⟨w, hsound, hexec⟩ := exec_handleControlPdu_of_inRange hs hb hd hrange
    obtain ⟨htouched, hfailures⟩ := hsound.told huse
    have hin : InUse s.pool released := huse.acked st _
    obtain ⟨hsns, hfree, hslots⟩ := notifyLoop_eq s.tx hsound.nodup (poolOk_releaseAll released hp)
    have hreported : w.touched.filter (reportable s.tx (releaseAll released s.pool)) = sns := by
      rw [htouched]
      exact reported_eq s.tx hp hin
    rw [hreported] at hsns hfree hslots
    refine ⟨w.processed st s, (if PollCovered s (snsCovered st s) then [.event (.timerStop .pollRetx)]
      else []) ++ w.failures.map .event, hexec, fun k => ?_, ?_, fun qs hqs => ?_, ?_⟩
    · refine (hslots k).trans ?_
      rw [tableGet_releaseAll_map hin]
      cases tableGet s.pool.slots k with
      | none => rfl
      | some slot =>
        rw [Option.map_some, Option.filter_some]
        by_cases hq : slot.pdcpSn ∈ sns <;> simp [hq]
    · refine hfree.trans ?_
      rw [releaseAll_free hin, List.flatMap_congr fun q _ => recordsOf_releaseAll hp hin q]
      rfl
    · rcases List.mem_append.mp hqs with hqs | hqs
      · split at hqs <;> simp at hqs
      · obtain ⟨e, he, heq⟩ := List.mem_map.mp hqs
        obtain ⟨qs', rfl⟩ := hsound.failures e he
        cases heq
    · rw [WalkResult.processed, hsns]
      simp only [List.append_assoc]
  · intro b s t id slot hs hb hd hne ht hsegs hnext hp hget hpdcp honly hsent hpoll
    exact exec_handleControlPdu_of_floorAcked hs hb hd hne ht hsegs hnext hp hget hpdcp honly hsent hpoll
end

section
/-!
HANDLE_CONTROL_PDU orders its events and reports each PDCP SN once (O43; R192, R268, R48).
-/
namespace Sys2Proof.Machine

/-- A reported PDCP SN, by the pool before the STATUS and after it (R192, R48). -/
structure ReportedOnce (s t : State) (acked : List Nat) (q : Word) : Prop where
  gone : ∀ e ∈ t.pool.slots, e.2.pdcpSn ≠ q
  sent : ∀ head ∈ t.tx.sduQ.head?, head.pdcpSn = q → t.tx.headOff = 0
  present : ∃ e ∈ s.pool.slots, e.2.pdcpSn = q
  released : ∀ e ∈ s.pool.slots, e.2.pdcpSn = q → e.2.rlcReleased = true ∨ e.1 ∈ acked

theorem isSduFullyAcked_of_gone {pool : Pool} {q : Word} (h : ∀ e ∈ pool.slots, e.2.pdcpSn ≠ q) :
    isSduFullyAcked pool q = false := by
  rw [Bool.eq_false_iff]
  intro hacked
  obtain ⟨⟨e, he, hq⟩, -⟩ := (isSduFullyAcked_iff pool q).mp hacked
  exact h e he hq

/-- A slot that is not listed is as it was. -/
theorem tableGet_releaseAll_of_not_mem {ids : List Nat} {k : Nat} (h : k ∉ ids) (pool : Pool) :
    tableGet (releaseAll ids pool).slots k = tableGet pool.slots k := by
  rw [tableGet_releaseAll]
  cases tableGet pool.slots k with
  | none => rfl
  | some slot => rw [Option.bind_some, if_neg h]

/-- A slot after the release stood there before, with the same PDCP SN. -/
theorem pdcpSn_of_releaseAll {ids : List Nat} {pool : Pool} {k : Nat} {slot : Slot}
    (h : tableGet (releaseAll ids pool).slots k = some slot) :
    ∃ old, tableGet pool.slots k = some old ∧ old.pdcpSn = slot.pdcpSn := by
  rw [tableGet_releaseAll, Option.bind_eq_some_iff] at h
  obtain ⟨old, hold, hslot⟩ := h
  refine ⟨old, hold, ?_⟩
  split at hslot
  · split at hslot <;> cases hslot
    rfl
  · cases hslot
    rfl

/-- A PDCP SN that the loop of `notify` reports at the end of an accepted STATUS. -/
theorem reportedOnce_of_mem {w : WalkResult} {st : StatusPdu} {s : State} {q : Word} (hp : PoolSound s)
    (hnodup : w.touched.Nodup) (hq : q ∈ w.touched.filter (reportable s.tx (poolAfter st s))) :
    ReportedOnce s (w.processed st s) (ackedRecords s.tx.window st s.tx.vtA (snsCovered st s)) q := by
  have hpool : PoolOk s.params.poolCapacity (poolAfter st s) := poolOk_releaseAll _ hp
  obtain ⟨-, -, hslots⟩ := notifyLoop_eq s.tx hnodup hpool
  have hwf := poolOk_notifyLoop s.tx w.touched hpool
  obtain ⟨hacked, hsent⟩ := Bool.and_eq_true_iff.mp (List.mem_filter.mp hq).2
  obtain ⟨⟨k, slot, hget, hsn⟩, hall⟩ := (isSduFullyAcked_iff_tableGet hpool.1 q).mp hacked
  refine ⟨fun e he hsn => ?_, fun head hhead hsn => ?_, ?_, fun e he hsn => ?_⟩
  · have hfound := (mem_slots_iff hwf.1 e).mp he
    rw [hslots, Option.filter_eq_some_iff, decide_eq_true_eq] at hfound
    exact hfound.2 (hsn ▸ hq)
  · rw [partlySent_eq] at hsent
    have hhead' : s.tx.sduQ.head? = some head := hhead
    change s.tx.headOff = 0
    simpa [hhead', hsn] using hsent
  · obtain ⟨old, hold, hsame⟩ := pdcpSn_of_releaseAll hget
    exact ⟨(k, old), mem_of_tableGet hold, hsame.trans hsn⟩
  · by_cases hmem : e.1 ∈ ackedRecords s.tx.window st s.tx.vtA (snsCovered st s)
    · exact .inr hmem
    · exact .inl (hall e.1 e.2
        ((tableGet_releaseAll_of_not_mem hmem _).trans ((mem_slots_iff hp.1 e).mp he)) hsn)

/-- HANDLE_CONTROL_PDU refuses, drops or processes (R188, R261). -/
theorem exec_handleControlPdu_cases {b : List Byte} {s t : State}
    (h : exec (.handleControlPdu b) s = .next t) :
    (∃ c, t = respondError c 0 s) ∨ ∃ st, decodeStatus b = some st ∧ t = processStatus st s := by
  rcases requireLegal_cases h with ⟨-, h⟩ | ⟨-, h⟩
  · rcases dataPath_cases h with ⟨-, h⟩ | ⟨-, -, h⟩ | ⟨-, -, -, h⟩
    · exact .inl ⟨_, h⟩
    · exact .inl ⟨_, h⟩
    · cases h
      unfold handleControlPdu
      split
      · exact .inl ⟨_, rfl⟩
      · next st hd =>
        split
        · exact .inr ⟨st, hd, rfl⟩
        · exact .inl ⟨_, rfl⟩
  · exact .inl ⟨_, h⟩

end Sys2Proof.Machine

open Sys2Proof.Machine in
/-- Settles O43: a refused or dropped STATUS emits nothing; what an accepted one reports is what the loop of
`notify` finds (`reportedOnce_of_mem`). -/
theorem deliveryReportedOnce : Obligations.DeliveryReportedOnce := by
  intro b s t hp hexec
  rcases exec_handleControlPdu_cases hexec with ⟨c, rfl⟩ | ⟨st, hd, rfl⟩
  · exact ⟨[], [], [], c, by simp [respondError, respond], .inl rfl, by simp, .inl rfl⟩
  obtain ⟨w, hsound, heq⟩ := processStatus_eq st s
  rw [heq]
  have hpool : PoolOk s.params.poolCapacity (poolAfter st s) := poolOk_releaseAll _ hp
  obtain ⟨hsns, -⟩ := notifyLoop_eq s.tx hsound.nodup hpool
  refine ⟨if PollCovered s (snsCovered st s) then [.timerStop .pollRetx] else [], w.failures,
    if (notifyLoop s.tx w.touched (poolAfter st s)).1 = [] then []
      else [.notifyDelivery (notifyLoop s.tx w.touched (poolAfter st s)).1], .ok, ?_, ?_, hsound.failures, ?_⟩
  · rw [WalkResult.processed, List.map_append, List.map_append, apply_ite (List.map Output.event),
      apply_ite (List.map Output.event)]
    simp only [List.append_assoc]
    rfl
  · split
    · exact .inr rfl
    · exact .inl rfl
  · rw [hsns]
    split
    · exact .inl rfl
    · next hne =>
      refine .inr ⟨_, rfl, hne, hsound.nodup.filter _, fun q hq => ?_⟩
      obtain ⟨hgone, hsent, hpresent, hreleased⟩ := reportedOnce_of_mem hp hsound.nodup hq
      exact ⟨isSduFullyAcked_of_gone hgone, hgone, hsent, hpresent,
        fun e he hsn => (hreleased e he hsn).imp_right fun hmem => ⟨st, hd, hmem⟩⟩
end

section
/-!
Segments of a retransmission (O34; R210, R212): the boundaries of a parent payload and the greatest end of
a segment.
-/
namespace Sys2Proof.Machine

/-! ### Running sums and their differences (R210) -/

theorem boundariesFrom_eq_map (acc : Nat) (li : List Nat) :
    boundariesFrom acc li = (List.range li.length).map fun j => acc + (li.take (j + 1)).sum := by
  induction li generalizing acc with
  | nil => rfl
  | cons l li ih =>
    rw [boundariesFrom, ih, List.length_cons, List.range_succ_eq_map, List.map_cons, List.map_map]
    simp [Function.comp_def, Nat.add_assoc]

theorem innerBoundaries_eq_map (h : Header) :
    innerBoundaries h = (List.range h.li.length).map fun j => (h.li.take (j + 1)).sum := by
  simp only [innerBoundaries, boundariesFrom_eq_map, Nat.zero_add]

theorem differencesFrom_eq_zipWith (prev : Nat) (l : List Nat) :
    differencesFrom prev l = List.zipWith (· - ·) l (prev :: l) := by
  induction l generalizing prev with
  | nil => rfl
  | cons x l ih => rw [differencesFrom, ih, List.zipWith_cons_cons]

/-! ### The greatest end (R210) -/

section
variable {p : Params} {h : Header} {maxBytes s n : Nat}

theorem segmentFits_iff {e : Nat} : segmentFits p h maxBytes s e = true ↔
    segmentCost h s e ≤ maxBytes ∧ (innerBetween h s e).length ≤ p.nLiMax := by
  rw [segmentFits, Bool.and_eq_true, decide_eq_true_eq, decide_eq_true_eq]

/-- Only one end fits while no greater one does. -/
theorem greatestEnd_of_greatest {e : Nat} (hlt : s < e) (hle : e ≤ s + n)
    (hfits : segmentFits p h maxBytes s e = true)
    (hmax : ∀ e', e < e' → e' ≤ s + n → ¬ segmentFits p h maxBytes s e' = true) :
    greatestEnd p h maxBytes s n = some e := by
  cases hend : greatestEnd p h maxBytes s n with
  | none => exact absurd hfits (by simp [greatestEnd_none hend e hlt hle])
  | some e' =>
    obtain ⟨-, hle', hfits', hmax'⟩ := greatestEnd_some hend
    rcases Nat.lt_trichotomy e e' with hgt | rfl | hgt
    · exact absurd hfits' (hmax e' hgt hle')
    · rfl
    · exact absurd hfits (by simp [hmax' e hgt hle])

theorem greatestEnd_of_no_fit
    (hnone : ∀ e, s < e → e ≤ s + n → ¬ segmentFits p h maxBytes s e = true) :
    greatestEnd p h maxBytes s n = none := by
  cases hend : greatestEnd p h maxBytes s n with
  | none => rfl
  | some e =>
    obtain ⟨hlt, hle, hfits, -⟩ := greatestEnd_some hend
    exact absurd hfits (hnone e hlt hle)

end

end Sys2Proof.Machine

open Sys2Proof.Machine in
/-- Settles O34: the statement's boundaries, differences and costs are those of `build_segment`, and the end
it names is the greatest one. -/
theorem segmentRetransmission : Obligations.SegmentRetransmission := by
  intro n s stale rest r t hs hn hdue hq hstale ht hin hseg bounds inner fits
  have hexec : exec (.readPdu n) s =
      answerOf (buildSegment r rest t n.toNat (withRetxQ s (r :: rest))) := by
    rw [exec_readPdu_of_head hs hn hdue hq hstale (validAt_of_some ht),
      buildRetx_of_segment (s := withRetxQ s (r :: rest)) ht hseg]
  have hbounds : bounds = innerBoundaries t.hdr := (innerBoundaries_eq_map t.hdr).symm
  have hinner : inner = innerBetween t.hdr r.soStart := funext fun e => by
    rw [innerBetween, ← hbounds]
  have hfits : ∀ e, fits e ↔ segmentFits s.params t.hdr n.toNat r.soStart e = true := fun e => by
    rw [segmentFits_iff, segmentCost, ceilOneAndHalf, ← hinner]
  refine ⟨fun e hlt hle hfit hmax => ?_, fun hnone => ?_⟩
  · have hend : greatestEnd s.params t.hdr n.toNat r.soStart (r.soEnd - r.soStart) = some e :=
      greatestEnd_of_greatest hlt (by omega) ((hfits e).mp hfit)
        fun e' hgt hle' hfit' => hmax e' hgt (by omega) ((hfits e').mpr hfit')
    rw [hexec, buildSegment_of_some (s := withRetxQ s (r :: rest)) hin hend, segmentHeader,
      differencesFrom_eq_zipWith, ← hbounds, ← hinner]
    rfl
  · have hend : greatestEnd s.params t.hdr n.toNat r.soStart (r.soEnd - r.soStart) = none :=
      greatestEnd_of_no_fit fun e hlt hle hfit => hnone e hlt (by omega) ((hfits e).mpr hfit)
    rw [hexec, buildSegment_of_none (s := withRetxQ s (r :: rest)) hend]
    rfl
end

section
/-!
The segments of a parent PDU (R210): their boundaries are the parent's, the encoder accepts their headers,
and WRITE_PDU hands them to the receiver as they are.
-/
namespace Sys2Proof.Machine

/-! ### Boundaries (R210, R223) -/

theorem mem_boundariesFrom_bounds {acc x : Nat} {li : List Nat} (hli : ∀ l ∈ li, 1 ≤ l)
    (hx : x ∈ boundariesFrom acc li) : acc < x ∧ x ≤ acc + li.sum := by
  induction li generalizing acc with
  | nil => cases hx
  | cons l li ih =>
    obtain ⟨hl, hli⟩ := List.forall_mem_cons.mp hli
    rw [List.sum_cons]
    rcases List.mem_cons.mp hx with rfl | hx
    · omega
    · have := ih hli hx
      omega

theorem boundariesFrom_pairwise (acc : Nat) {li : List Nat} (hli : ∀ l ∈ li, 1 ≤ l) :
    (boundariesFrom acc li).Pairwise (· < ·) := by
  induction li generalizing acc with
  | nil => exact .nil
  | cons l li ih =>
    obtain ⟨-, hli⟩ := List.forall_mem_cons.mp hli
    exact .cons (fun x hx => (mem_boundariesFrom_bounds hli hx).1) (ih _ hli)

/-- The running sums of the differences of rising numbers are these numbers. -/
theorem boundariesFrom_differencesFrom {prev : Nat} {l : List Nat} (hl : l.Pairwise (· < ·))
    (hprev : ∀ x ∈ l, prev ≤ x) : boundariesFrom prev (differencesFrom prev l) = l := by
  induction l generalizing prev with
  | nil => rfl
  | cons x l ih =>
    obtain ⟨hx, hl⟩ := List.pairwise_cons.mp hl
    rw [differencesFrom, boundariesFrom, Nat.add_sub_cancel' (hprev x List.mem_cons_self),
      ih hl fun y hy => Nat.le_of_lt (hx y hy)]

/-- The length indicators of a segment that starts at `s` are ones the encoder accepts: each ends where
one of the parent's ends, and starts no earlier (R210). -/
theorem liOk_differencesFrom {acc s e : Nat} {li : List Nat} (hli : ∀ l ∈ li, LiOk l) (hs : acc ≤ s) :
    ∀ l ∈ differencesFrom s ((boundariesFrom acc li).filter fun x => decide (s < x ∧ x < e)),
      LiOk l := by
  induction li generalizing acc s with
  | nil => intro l hl; cases hl
  | cons l li ih =>
    obtain ⟨⟨hpos, hmax⟩, hli⟩ := List.forall_mem_cons.mp hli
    have later : ∀ x ∈ boundariesFrom (acc + l) li, acc + l < x := fun x hx =>
      (mem_boundariesFrom_bounds (fun l hl => (hli l hl).1) hx).1
    rw [boundariesFrom]
    by_cases hin : s < acc + l ∧ acc + l < e
    · rw [List.filter_cons_of_pos (by simpa using hin), differencesFrom]
      refine List.forall_mem_cons.mpr ⟨⟨by omega, by omega⟩, ?_⟩
      have same : (boundariesFrom (acc + l) li).filter (fun x => decide (s < x ∧ x < e)) =
          (boundariesFrom (acc + l) li).filter fun x => decide (acc + l < x ∧ x < e) :=
        List.filter_congr fun x hx => decide_eq_decide.mpr (by have := later x hx; omega)
      rw [same]
      exact ih hli le_rfl
    · rw [List.filter_cons_of_neg (by simpa using hin)]
      by_cases hbefore : acc + l ≤ s
      · exact ih hli hbefore
      · have none : (boundariesFrom (acc + l) li).filter (fun x => decide (s < x ∧ x < e)) = [] :=
          List.filter_eq_nil_iff.mpr fun x hx => by
            have := later x hx
            rw [decide_eq_true_eq]
            omega
        rw [none]
        intro g hg
        cases hg

/-! ### The parent and its segments -/

/-- `h` and `d` are the header and the payload of a complete Data PDU, with room for every segment offset
(R141, R180). -/
structure ParentOk (p : Params) (h : Header) (d : List Byte) : Prop where
  encodable : headerEncodable p h = true
  whole : h.rf = false
  payload : h.li.sum < d.length
  short : d.length ≤ 32767

/-- The bytes `[s, e)` of a payload. -/
abbrev segmentBytes (d : List Byte) (s e : Nat) : List Byte := (d.drop s).take (e - s)

/-- The PDU of the segment `[s, e)` of a parent, without a poll (R210). -/
abbrev segmentPdu (h : Header) (d : List Byte) (s e : Nat) : List Byte :=
  encodeDataHeader (segmentHeader h h.sn d.length s e) ++ segmentBytes d s e

theorem segmentBytes_length {d : List Byte} {s e : Nat} (he : e ≤ d.length) :
    (segmentBytes d s e).length = e - s := by
  rw [List.length_take, List.length_drop]
  omega

theorem add_segmentBytes_length {d : List Byte} {s e : Nat} (hse : s ≤ e) (he : e ≤ d.length) :
    s + (segmentBytes d s e).length = e := by
  rw [segmentBytes_length he, Nat.add_sub_cancel' hse]

theorem getElem?_segmentBytes {d : List Byte} {s e off : Nat} (hs : s ≤ off) (he : off < e) :
    (segmentBytes d s e)[off - s]? = d[off]? := by
  rw [List.getElem?_take_of_lt (by omega), List.getElem?_drop, Nat.add_sub_cancel' hs]

theorem mem_innerBetween {h : Header} {s e x : Nat} :
    x ∈ innerBetween h s e ↔ x ∈ innerBoundaries h ∧ s < x ∧ x < e := by
  rw [innerBetween, List.mem_filter, decide_eq_true_eq]

section
variable {p : Params} {h : Header} {d : List Byte} (hp : ParentOk p h d) {s e : Nat}
include hp

theorem ParentOk.innerBoundaries_pairwise : (innerBoundaries h).Pairwise (· < ·) := by
  obtain ⟨-, -, hli⟩ := headerEncodable_iff.mp hp.encodable
  exact boundariesFrom_pairwise 0 fun l hl => (hli l hl).1

/-- Every boundary lies inside the payload. -/
theorem ParentOk.innerBoundaries_inside {x : Nat} (hx : x ∈ innerBoundaries h) :
    0 < x ∧ x < d.length := by
  obtain ⟨-, -, hli⟩ := headerEncodable_iff.mp hp.encodable
  have := mem_boundariesFrom_bounds (fun l hl => (hli l hl).1) hx
  have := hp.payload
  omega

theorem ParentOk.innerBetween_pairwise : (innerBetween h s e).Pairwise (· < ·) :=
  hp.innerBoundaries_pairwise.filter _

theorem ParentOk.segment_encodable (hlt : s < e) (hle : e ≤ d.length) :
    headerEncodable p (segmentHeader h h.sn d.length s e) = true := by
  obtain ⟨-, hcap, hli⟩ := headerEncodable_iff.mp hp.encodable
  have := hp.short
  have hcount : (innerBetween h s e).length ≤ h.li.length :=
    (List.length_filter_le ..).trans_eq (boundariesFrom_length 0 h.li)
  refine headerEncodable_iff.mpr ⟨⟨rfl, .inl rfl, by dsimp only [segmentHeader]; omega⟩, ?_, ?_⟩
  · rw [segmentHeader, differencesFrom_length]
    exact hcount.trans hcap
  · exact liOk_differencesFrom hli (Nat.zero_le s)

/-- The length indicators of a segment leave a byte for its last fragment. -/
theorem ParentOk.segment_payload (hlt : s < e) (hle : e ≤ d.length) :
    (segmentHeader h h.sn d.length s e).li.sum < (segmentBytes d s e).length := by
  have := sum_differencesFrom_lt (hp.innerBetween_pairwise (s := s) (e := e)) hlt fun x hx =>
    (mem_innerBetween.mp hx).2.imp_left Nat.le_of_lt
  rw [segmentBytes_length hle]
  dsimp only [segmentHeader]
  omega

/-- What a segment announces, through its length indicators and the framing bits of its ends, are the
boundaries of the parent from its first to its last offset (R214, R223). -/
theorem ParentOk.mem_announcedBounds (hlt : s < e) {x : Nat} :
    x ∈ announcedBounds (segmentHeader h h.sn d.length s e) s e ↔
      x ∈ innerBoundaries h ∧ s ≤ x ∧ x ≤ e := by
  have inside : ∀ {y}, y ∈ innerBoundaries h → 0 < y ∧ y < d.length := hp.innerBoundaries_inside
  have hinner : boundariesFrom s (segmentHeader h h.sn d.length s e).li = innerBetween h s e :=
    boundariesFrom_differencesFrom hp.innerBetween_pairwise fun y hy =>
      Nat.le_of_lt (mem_innerBetween.mp hy).2.1
  have hstart : (0 < s ∧ (segmentHeader h h.sn d.length s e).fiS = false) ↔ s ∈ innerBoundaries h := by
    by_cases hs : s = 0
    · simpa [hs] using fun hmem => (inside hmem).1.ne rfl
    · simp [segmentHeader, hs, Nat.pos_of_ne_zero hs]
  have hstop : ((segmentHeader h h.sn d.length s e).lsf = false ∧
      (segmentHeader h h.sn d.length s e).fiE = false) ↔ e ∈ innerBoundaries h := by
    by_cases he : e = d.length
    · simpa [segmentHeader, he] using fun hmem => (inside hmem).2.ne rfl
    · simp [segmentHeader, he]
  have hmem : ∀ (c : Prop) [Decidable c] (y : Nat), x ∈ (if c then [y] else []) ↔ c ∧ x = y := by
    intro c _ y
    by_cases hc : c <;> simp [hc]
  rw [announcedBounds, hinner, List.mem_append, List.mem_append, mem_innerBetween, hmem, hmem, hstart,
    hstop]
  constructor
  · rintro ((⟨hx, hsx, hxe⟩ | ⟨hx, rfl⟩) | ⟨hx, rfl⟩)
    · exact ⟨hx, hsx.le, hxe.le⟩
    · exact ⟨hx, le_rfl, hlt.le⟩
    · exact ⟨hx, hlt.le, le_rfl⟩
  · rintro ⟨hx, hsx, hxe⟩
    rcases hsx.eq_or_lt with rfl | hsx
    · exact .inl (.inr ⟨hx, rfl⟩)
    · rcases hxe.eq_or_lt with rfl | hxe
      · exact .inr ⟨hx, rfl⟩
      · exact .inl (.inl ⟨hx, hsx, hxe⟩)

end

/-! ### WRITE_PDU (R220) -/

/-- What decodes as a Data PDU goes to the receiver (R106, R220). -/
theorem writePdu_of_decoded {b : List Byte} {s : State} {h : Header} {len : Nat}
    (hd : decodeDataHeader s.params b = some (h, len)) :
    writePdu b s = receiveData h (b.drop len) s := by
  obtain ⟨-, -, -, rest, hbits⟩ := headerBits_of_decodeDataHeader hd
  cases b with
  | nil => cases hbits
  | cons b0 b =>
    have hb : b0.getLsbD 7 = true := by
      rw [bitsOfBytes_cons] at hbits
      rw [← BitVec.testBit_toNat]
      simpa [bitsOf, headerBits] using congrArg List.head? hbits
    rw [writePdu_of_data hb hd]

theorem writePdu_of_encoded {s : State} {h : Header} {d : List Byte}
    (hok : headerEncodable s.params h = true) (hd : h.li.sum < d.length) :
    writePdu (encodeDataHeader h ++ d) s = receiveData h d s := by
  have hdec := decodeDataHeader_encodeDataHeader hok d
  rw [if_neg (Nat.not_le.mpr hd)] at hdec
  rw [writePdu_of_decoded hdec, List.drop_left' (encodeDataHeader_length h)]

end Sys2Proof.Machine
end

section
/-!
The entry of a parent PDU in the segment store (R31, R223): when it is complete, and what it holds after
segments of the parent were merged into it, in any order.
-/
namespace Sys2Proof.Machine

/-! ### Ranges (R31) -/

theorem exists_range_of_rangeByte {l : List ByteRange} {off : Nat} (h : rangeByte l off ≠ none) :
    ∃ r ∈ l, r.so ≤ off ∧ off < r.so + r.bytes.length := by
  have hcovered := Option.isSome_iff_ne_none.mpr h
  rw [rangeByte_isSome] at hcovered
  obtain ⟨r, hr, hin⟩ := List.any_eq_true.mp hcovered
  exact ⟨r, hr, of_decide_eq_true hin⟩

theorem rangeByte_ne_none {l : List ByteRange} {r : ByteRange} {off : Nat} (hr : r ∈ l)
    (hin : r.so ≤ off ∧ off < r.so + r.bytes.length) : rangeByte l off ≠ none := by
  rw [← Option.isSome_iff_ne_none, rangeByte_isSome]
  exact List.any_eq_true.mpr ⟨r, hr, decide_eq_true hin⟩

/-- Ranges that are apart and hold exactly the bytes of a payload are one range (R223). -/
theorem ranges_eq_singleton {l : List ByteRange} {bytes : List Byte} (hl : RangesApart l)
    (hne : bytes ≠ []) (hbytes : ∀ off, rangeByte l off = bytes[off]?) : l = [⟨0, bytes⟩] := by
  have held : ∀ off, rangeByte l off ≠ none ↔ off < bytes.length := fun off => by
    rw [hbytes, ne_eq, List.getElem?_eq_none_iff, Nat.not_le]
  obtain ⟨hnonempty, hapart⟩ := hl
  cases l with
  | nil => exact absurd (List.length_pos_iff.mpr hne) (by simpa [rangeByte] using held 0)
  | cons r rest =>
    obtain ⟨hlater, -⟩ := List.pairwise_cons.mp hapart
    -- the first range starts at 0, for a later one starts above its end
    have hso : r.so = 0 := by
      obtain ⟨x, hx, hx0, -⟩ :=
        exists_range_of_rangeByte ((held 0).mpr (List.length_pos_iff.mpr hne))
      rcases List.mem_cons.mp hx with rfl | hx
      · omega
      · have := hlater x hx
        omega
    -- a later range would leave its end free, below a byte that is held
    have hrest : rest = [] := List.eq_nil_iff_forall_not_mem.mpr fun x hx => by
      have hgap := hlater x hx
      have hpos := List.length_pos_iff.mpr (hnonempty x (List.mem_cons_of_mem _ hx))
      have := (held x.so).mp (rangeByte_ne_none (List.mem_cons_of_mem _ hx) (by omega))
      obtain ⟨y, hy, hys, hye⟩ := exists_range_of_rangeByte ((held r.bytes.length).mpr (by omega))
      rcases List.mem_cons.mp hy with rfl | hy
      · omega
      · have := hlater y hy
        omega
    have hbytes : r.bytes = bytes := List.ext_getElem? fun off => by
      rw [← hbytes, hrest, rangeByte, rangeByte, hso]
      split_ifs with hin
      · rfl
      · exact List.getElem?_eq_none (by omega)
    rw [hrest, ← hbytes, ← hso]

/-- A parent is complete when its length is known and one range holds it (R223). -/
theorem completePayload_eq_some_iff {entry : SegEntry} {bytes : List Byte} :
    completePayload entry = some bytes ↔
      entry.tlKnown = true ∧ bytes.length = entry.tl ∧ entry.ranges = [⟨0, bytes⟩] := by
  unfold completePayload
  split
  · next r hr =>
    rw [hr]
    obtain ⟨so, held⟩ := r
    simp only [Option.ite_none_right_eq_some, Option.some.injEq, List.cons.injEq, and_true,
      ByteRange.mk.injEq]
    constructor
    · rintro ⟨⟨hk, rfl, hlen⟩, rfl⟩
      exact ⟨hk, hlen, rfl, rfl⟩
    · rintro ⟨hk, hlen, rfl, rfl⟩
      exact ⟨⟨hk, rfl, hlen⟩, rfl⟩
  · next hno => exact ⟨nofun, fun ⟨_, _, hr⟩ => absurd hr (hno _)⟩

/-! ### The outcome of a merge (R223) -/

/-- What a segment that ends at `e` must not contradict (R223). -/
theorem segmentConsistent_iff {entry : SegEntry} {h : Header} {e : Nat} :
    segmentConsistent entry h e = true ↔
      (entry.tlKnown = true → e ≤ entry.tl) ∧
      (h.lsf = true → entry.tlKnown = true → e = entry.tl) ∧
      (h.lsf = true → ∀ r ∈ entry.ranges, r.so + r.bytes.length ≤ e) := by
  simp only [segmentConsistent, Bool.and_eq_true, Bool.not_eq_true', ← Bool.not_eq_true,
    List.any_eq_true, decide_eq_true_eq, not_and, not_exists, not_lt, ne_eq, not_not, and_assoc]

section
variable {h : Header} {d : List Byte} {rx : Rx} {entry : SegEntry}
  (hentry : segEntryOf rx.segments h.sn = entry)
  (hc : segmentConsistent entry h (h.so + d.length) = true)
  (hnew : newBytes entry.ranges h.so d ≠ [])
include hentry hc hnew

theorem mergeSegment_of_partial (hpart : completePayload (merged entry h d) = none) :
    mergeSegment h d rx =
      .ok { rx with segments := tableSet rx.segments h.sn.toNat (merged entry h d) } := by
  unfold mergeSegment
  dsimp only
  rw [hentry, hc, if_neg (by simp), if_neg (by simpa using hnew), hpart]

theorem mergeSegment_of_complete {bytes : List Byte}
    (hall : completePayload (merged entry h d) = some bytes) :
    mergeSegment h d rx = .ok { rx with
      window := tableSet rx.window h.sn.toNat ⟨rebuiltHeader (merged entry h d) h.sn, bytes⟩
      segments := tableErase rx.segments h.sn.toNat } := by
  unfold mergeSegment
  dsimp only
  rw [hentry, hc, if_neg (by simp), if_neg (by simpa using hnew), hall]

end

theorem mem_foldl_insertBound {x : Nat} {xs l : List Nat} :
    x ∈ xs.foldl (fun acc y => insertBound y acc) l ↔ x ∈ xs ∨ x ∈ l := by
  induction xs generalizing l with
  | nil => simp
  | cons y xs ih => rw [List.foldl_cons, ih, mem_insertBound, List.mem_cons]; tauto

/-! ### Segments of one parent (R214) -/

/-- One of the segments `[s, e)` of `parts` has the offset. -/
def InParts (parts : List (Nat × Nat)) (off : Nat) : Prop := ∃ x ∈ parts, x.1 ≤ off ∧ off < x.2

/-- The entry `entry` holds what the segments `parts` of a parent with header `h` and payload `d`
bring, and nothing else: their bytes, the boundaries from their first to their last offset, the length
and `fi.e` of the parent once its end is there, and `fi.s` once its start is. -/
structure PartsHeld (h : Header) (d : List Byte) (parts : List (Nat × Nat)) (entry : SegEntry) :
    Prop where
  inside : ∀ y ∈ parts, y.2 ≤ d.length
  apart : RangesApart entry.ranges
  held : ∀ off, InParts parts off → rangeByte entry.ranges off = d[off]?
  free : ∀ off, ¬ InParts parts off → rangeByte entry.ranges off = none
  rising : entry.bounds.Pairwise (· < ·)
  bounds : ∀ x, x ∈ entry.bounds ↔ x ∈ innerBoundaries h ∧ ∃ y ∈ parts, y.1 ≤ x ∧ x ≤ y.2
  known : entry.tlKnown = true ↔ ∃ y ∈ parts, y.2 = d.length
  stop : entry.tlKnown = true → entry.tl = d.length ∧ entry.fiE = h.fiE
  start : (∃ y ∈ parts, y.1 = 0) → entry.fiS = h.fiS

theorem partsHeld_nil (h : Header) (d : List Byte) :
    PartsHeld h d [] ⟨[], [], false, 0, false, false, false⟩ where
  inside := nofun
  apart := ⟨nofun, .nil⟩
  held := fun off ⟨_, hx, _⟩ => nomatch hx
  free := fun _ _ => rfl
  rising := .nil
  bounds := by simp
  known := by simp
  stop := nofun
  start := fun ⟨_, hx, _⟩ => nomatch hx

theorem inParts_cons {s e off : Nat} {parts : List (Nat × Nat)} :
    InParts ((s, e) :: parts) off ↔ (s ≤ off ∧ off < e) ∨ InParts parts off := by
  simp [InParts]

section
variable {p : Params} {h : Header} {d : List Byte} {parts : List (Nat × Nat)} {entry : SegEntry}
variable (hp : ParentOk p h d) (hh : PartsHeld h d parts entry)

include hh in
/-- No entry of the parent's bytes reaches past its end. -/
theorem PartsHeld.range_le {r : ByteRange} (hr : r ∈ entry.ranges) :
    r.so + r.bytes.length ≤ d.length := by
  have hpos := List.length_pos_iff.mpr (hh.apart.1 r hr)
  have hlast := rangeByte_ne_none (off := r.so + r.bytes.length - 1) hr (by omega)
  by_cases hin : InParts parts (r.so + r.bytes.length - 1)
  · rw [hh.held _ hin, ne_eq, List.getElem?_eq_none_iff] at hlast
    omega
  · exact absurd (hh.free _ hin) hlast

include hh in
/-- A segment of the same parent never contradicts the entry (R223). -/
theorem PartsHeld.consistent {s e : Nat} (he : e ≤ d.length) :
    segmentConsistent entry (segmentHeader h h.sn d.length s e) e = true := by
  refine segmentConsistent_iff.mpr ⟨fun hk => ?_, fun hlast hk => ?_, fun hlast r hr => ?_⟩
  · rwa [(hh.stop hk).1]
  · rw [(hh.stop hk).1, of_decide_eq_true hlast]
  · rw [of_decide_eq_true hlast]
    exact hh.range_le hr

include hh in
/-- An offset that no part holds is new (R223). -/
theorem PartsHeld.newBytes_ne_nil {s e off : Nat} (he : e ≤ d.length) (hin : s ≤ off ∧ off < e)
    (hfree : ¬ InParts parts off) : newBytes entry.ranges s (segmentBytes d s e) ≠ [] := by
  have hcovered : covered entry.ranges off = false := by
    rw [← rangeByte_isSome, hh.free off hfree, Option.isSome_none]
  obtain ⟨b, hb, -⟩ := (newBytes_spec entry.ranges s (segmentBytes d s e)).2.2 off hin.1
    (by rw [segmentBytes_length he]; omega) hcovered
  exact List.ne_nil_of_mem hb

/-- The entry with the segment `[s, e)` of the parent merged in. -/
abbrev withSegment (h : Header) (d : List Byte) (entry : SegEntry) (s e : Nat) : SegEntry :=
  merged entry (segmentHeader h h.sn d.length s e) (segmentBytes d s e)

/-- What a segment says of its parent: the length and `fi.e` from the last one, `fi.s` from the first. -/
theorem withSegment_framing {s e : Nat} (hlt : s < e) (he : e ≤ d.length) :
    (withSegment h d entry s e).tlKnown = (entry.tlKnown || decide (e = d.length)) ∧
    (withSegment h d entry s e).tl = (if e = d.length then d.length else entry.tl) ∧
    (withSegment h d entry s e).fiE = (if e = d.length then h.fiE else entry.fiE) ∧
    (withSegment h d entry s e).fiS = (if s = 0 then h.fiS else entry.fiS) := by
  have hstop : s + (segmentBytes d s e).length = e := add_segmentBytes_length hlt.le he
  refine ⟨rfl, ?_, ?_, ?_⟩
  · by_cases hlast : e = d.length
    · simpa [mergedEntry, segmentHeader, hlast] using hstop.trans hlast
    · simp [mergedEntry, segmentHeader, hlast]
  · by_cases hlast : e = d.length <;> simp [mergedEntry, segmentHeader, hlast]
  · by_cases hfirst : s = 0 <;> simp [mergedEntry, segmentHeader, hfirst]

include hh in
theorem PartsHeld.rangeByte_withSegment {s e : Nat} (hlt : s < e) (he : e ≤ d.length) (off : Nat) :
    rangeByte (withSegment h d entry s e).ranges off =
      if (rangeByte entry.ranges off).isSome = true then rangeByte entry.ranges off
      else if s ≤ off ∧ off < e then d[off]? else none := by
  have hstop : s + (segmentBytes d s e).length = e := add_segmentBytes_length hlt.le he
  refine ((mergedEntry_ranges (h := segmentHeader h h.sn d.length s e) hh.apart _).2 off).trans ?_
  refine ite_congr rfl (fun _ => rfl) fun _ => ite_congr ?_ (fun hin => ?_) fun _ => rfl
  · change (s ≤ off ∧ off < s + (segmentBytes d s e).length) = _
    rw [hstop]
  · exact getElem?_segmentBytes hin.1 hin.2

include hh hp in
/-- One more segment of the parent is one more part (R214, R223). -/
theorem PartsHeld.withSegment {s e : Nat} (hlt : s < e) (he : e ≤ d.length) :
    PartsHeld h d ((s, e) :: parts) (withSegment h d entry s e) := by
  have hstop : s + (segmentBytes d s e).length = e := add_segmentBytes_length hlt.le he
  obtain ⟨hknown, htl, hfiE, hfiS⟩ := withSegment_framing (h := h) (entry := entry) hlt he
  refine ⟨List.forall_mem_cons.mpr ⟨he, hh.inside⟩,
    (mergedEntry_ranges (h := segmentHeader h h.sn d.length s e) hh.apart _).1, fun off hin => ?_,
    fun off hout => ?_, foldl_insertBound_pairwise _ hh.rising, fun x => ?_, ?_, fun hk => ?_,
    fun hzero => ?_⟩
  · rw [hh.rangeByte_withSegment hlt he]
    by_cases hold : InParts parts off
    · rw [hh.held off hold]
      cases d[off]? <;> simp
    · rw [hh.free off hold]
      simp [(inParts_cons.mp hin).resolve_right hold]
  · rw [inParts_cons, not_or] at hout
    rw [hh.rangeByte_withSegment hlt he, hh.free off hout.2, if_neg (by simp), if_neg hout.1]
  · refine mem_foldl_insertBound.trans ?_
    change x ∈ announcedBounds _ s (s + (segmentBytes d s e).length) ∨ _ ↔ _
    rw [hstop, hp.mem_announcedBounds hlt, hh.bounds]
    simp [and_or_left]
  · simp [hknown, hh.known, or_comm]
  · rw [htl, hfiE]
    by_cases hlast : e = d.length
    · simp [hlast]
    · rw [if_neg hlast, if_neg hlast]
      exact hh.stop (by simpa [hknown, hlast] using hk)
  · rw [hfiS]
    by_cases hfirst : s = 0
    · exact if_pos hfirst
    · rw [if_neg hfirst]
      exact hh.start (by simpa [hfirst] using hzero)

/-! ### The complete parent (R223) -/

include hh

theorem PartsHeld.completePayload_eq_none {off : Nat} (hoff : off < d.length)
    (hmissing : ¬ InParts parts off) : completePayload entry = none := by
  refine Option.eq_none_iff_forall_ne_some.mpr fun bytes hbytes => ?_
  obtain ⟨hk, hlen, hranges⟩ := completePayload_eq_some_iff.mp hbytes
  rw [(hh.stop hk).1] at hlen
  refine rangeByte_ne_none (r := ⟨0, bytes⟩) (off := off) ?_ ?_ (hh.free off hmissing)
  · rw [hranges]
    exact List.mem_cons_self
  · dsimp only
    omega

variable (hall : ∀ off, off < d.length → InParts parts off) (hne : d ≠ [])
include hall hne

/-- The last byte came with the last segment, and the first with the first. -/
theorem PartsHeld.known_and_started : entry.tlKnown = true ∧ ∃ y ∈ parts, y.1 = 0 := by
  have hpos := List.length_pos_iff.mpr hne
  obtain ⟨y, hy, -, hlast⟩ := hall (d.length - 1) (by omega)
  obtain ⟨z, hz, hfirst, -⟩ := hall 0 hpos
  have := hh.inside y hy
  exact ⟨hh.known.mpr ⟨y, hy, by omega⟩, z, hz, by omega⟩

theorem PartsHeld.completePayload_eq_some : completePayload entry = some d := by
  obtain ⟨hk, -⟩ := hh.known_and_started hall hne
  refine completePayload_eq_some_iff.mpr
    ⟨hk, (hh.stop hk).1.symm, ranges_eq_singleton hh.apart hne fun off => ?_⟩
  by_cases hin : InParts parts off
  · exact hh.held off hin
  · rw [hh.free off hin, List.getElem?_eq_none]
    exact Nat.le_of_not_lt fun hlt => hin (hall off hlt)

include hp in
/-- The header of the parent is rebuilt, but for its poll bit (R214, R223). -/
theorem PartsHeld.rebuiltHeader_eq : rebuiltHeader entry h.sn = { h with p := false } := by
  obtain ⟨hk, hfirst⟩ := hh.known_and_started hall hne
  obtain ⟨htl, hfiE⟩ := hh.stop hk
  obtain ⟨⟨hdc, hframe, -⟩, -⟩ := headerEncodable_iff.mp hp.encodable
  obtain ⟨hlsf, hso⟩ := hframe.resolve_left (by simp [hp.whole])
  have hbounds : entry.bounds = innerBoundaries h :=
    hh.rising.eq_of_mem_iff hp.innerBoundaries_pairwise fun x => by
      refine (hh.bounds x).trans ⟨And.left, fun hx => ⟨hx, ?_⟩⟩
      obtain ⟨y, hy, hlo, hhi⟩ := hall x (hp.innerBoundaries_inside hx).2
      exact ⟨y, hy, hlo, hhi.le⟩
  have hfilter : (innerBoundaries h).filter (fun x => decide (0 < x ∧ x < d.length)) =
      innerBoundaries h :=
    List.filter_eq_self.mpr fun x hx => decide_eq_true (hp.innerBoundaries_inside hx)
  rw [rebuiltHeader, htl, hbounds, hfilter, innerBoundaries, differencesFrom_boundariesFrom, hfiE,
    hh.start hfirst, hdc, hp.whole, hlsf, hso]

end

end Sys2Proof.Machine
end

section
/-!
Two segments of a parent PDU at the receiver (O48; R210, R214, R223): each is merged while `VR_R` is
missing, so nothing is consumed, and the one that completes the parent puts it into the window.
-/
namespace Sys2Proof.Machine

/-! ### Acceptance while `VR_R` is missing (R220, R230) -/

/-- The timer's update moves its snapshot, its flags and the outputs alone (R228). -/
theorem updateReorderingTimer_frame (s : State) : ∃ vrX running pending out,
    updateReorderingTimer s = { s with
      rx := { s.rx with vrX := vrX, reordRunning := running }
      timers := { s.timers with reordering := pending }
      out := out } := by
  unfold updateReorderingTimer
  dsimp only
  by_cases hstop : (s.rx.reordRunning && reordMustStop s) = true
  · rw [if_pos hstop]
    split <;> exact ⟨_, _, _, _, rfl⟩
  · rw [if_neg hstop]
    split <;> exact ⟨_, _, _, _, rfl⟩

theorem RxSound.vrR_missing {s : State} (h : RxSound s) : validAt s.rx.window s.rx.vrR = false := by
  obtain ⟨⟨-, -, hmissing, -⟩, -⟩ := h
  exact hmissing

theorem reassemble_of_missing {s : State} (hgap : validAt s.rx.window s.rx.vrR = false) (n : Nat) :
    reassemble n s = .ok s := by
  rw [validAt, Option.isSome_eq_false_iff, Option.isNone_iff_eq_none] at hgap
  cases n with
  | zero => rfl
  | succ n => rw [reassemble, hgap]

/-- While `VR_R` is missing an accepted Data PDU consumes nothing: the tables and `VR_R` stay. -/
theorem afterAccept_of_missing {h : Header} {s t : State} (ht : afterAccept h s = .ok t)
    (hgap : validAt s.rx.window s.rx.vrR = false) :
    t.rx.window = s.rx.window ∧ t.rx.segments = s.rx.segments ∧ t.rx.vrR = s.rx.vrR := by
  obtain ⟨m, u, -, hu, rfl⟩ := afterAccept_cases ht
  obtain ⟨_, _, _, hacked⟩ := acknowledged_updateVrH h m h.sn s
  rw [hacked] at hu
  cases (reassemble_of_missing (by exact hgap) 1024).symm.trans hu
  obtain ⟨_, _, _, _, htimer⟩ := updateReorderingTimer_frame _
  rw [htimer]
  exact ⟨rfl, rfl, rfl⟩

theorem receiveData_of_merged {g : Header} {b : List Byte} {s : State} {rx : Rx} (hrf : g.rf = true)
    (hin : modBase s.rx.vrR g.sn < 512) (hfresh : validAt s.rx.window g.sn = false)
    (hm : mergeSegment g b s.rx = .ok rx) : receiveData g b s = afterAccept g { s with rx := rx } := by
  have hinside : insideRxWindow s g.sn = true := decide_eq_true hin
  rw [receiveData, hinside, if_neg (by simp), if_neg (by simp [hfresh]), if_pos hrf, hm]

/-- `t` accepts, keeps the receiver invariant and the base of `s`, and has the tables of `rx`. -/
structure SegmentAccepted (s : State) (rx : Rx) (t : State) : Prop where
  accepting : Accepting t
  sound : RxSound t
  params : t.params = s.params
  vrR : t.rx.vrR = s.rx.vrR
  window : t.rx.window = rx.window
  segments : t.rx.segments = rx.segments

/-- WRITE_PDU of a segment that is merged while `VR_R` is missing (R220, R223). -/
theorem exec_writePdu_of_merged {g : Header} {b : List Byte} {s : State} {rx : Rx} (hs : Accepting s)
    (hrx : RxSound s) (hok : headerEncodable s.params g = true) (hrf : g.rf = true)
    (hpayload : g.li.sum < b.length) (hlen : (encodeDataHeader g ++ b).length ≤ s.params.maxPduBytes)
    (hin : modBase s.rx.vrR g.sn < 512) (hfresh : validAt s.rx.window g.sn = false)
    (hm : mergeSegment g b s.rx = .ok rx) (hbase : rx.vrR = s.rx.vrR)
    (hgap : validAt rx.window rx.vrR = false) :
    ∃ t, exec (.writePdu (encodeDataHeader g ++ b)) s = .next t ∧ SegmentAccepted s rx t := by
  have hstored : Stored g b s rx := ⟨hpayload, hin, hfresh, .inr hm⟩
  obtain ⟨t, ht⟩ := hstored.completes hrx
  refine ⟨t, ?_, ?_⟩
  · rw [exec_writePdu hs hlen, writePdu_of_encoded hok hpayload,
      receiveData_of_merged hrf hin hfresh hm, ht]
    rfl
  · obtain ⟨hwindow, hsegments, hvrR⟩ := afterAccept_of_missing ht hgap
    have hsound := rxSound_afterAccept hstored hrx ht
    obtain ⟨_, _, _, rfl, -⟩ := afterAccept_rxMoved ht
    exact ⟨hs, hsound, rfl, hvrR.trans hbase, hwindow, hsegments⟩

/-! ### Segments of one parent (R214) -/

/-- The engine `s` can take a segment of the parent: its SN is inside the window, above `VR_R` and not
complete, and the segment store holds the segments `parts` of it. -/
structure Collecting (h : Header) (d : List Byte) (parts : List (Nat × Nat)) (s : State) : Prop where
  accepting : Accepting s
  sound : RxSound s
  parent : ParentOk s.params h d
  inside : modBase s.rx.vrR h.sn < 512
  above : h.sn ≠ s.rx.vrR
  fresh : validAt s.rx.window h.sn = false
  held : PartsHeld h d parts (segEntryOf s.rx.segments h.sn)

section
variable {h : Header} {d : List Byte} {parts : List (Nat × Nat)} {s : State} {i e : Nat}
  (hs : Collecting h d parts s) (hlt : i < e) (he : e ≤ d.length)
  (hlen : (segmentPdu h d i e).length ≤ s.params.maxPduBytes)
include hs hlt he

theorem Collecting.consistent : segmentConsistent (segEntryOf s.rx.segments h.sn)
    (segmentHeader h h.sn d.length i e) (i + (segmentBytes d i e).length) = true := by
  rw [add_segmentBytes_length hlt.le he]
  exact hs.held.consistent he

include hlen

theorem Collecting.exec_writePdu {rx : Rx}
    (hm : mergeSegment (segmentHeader h h.sn d.length i e) (segmentBytes d i e) s.rx = .ok rx)
    (hbase : rx.vrR = s.rx.vrR) (hgap : validAt rx.window rx.vrR = false) :
    ∃ t, exec (.writePdu (segmentPdu h d i e)) s = .next t ∧ SegmentAccepted s rx t :=
  exec_writePdu_of_merged hs.accepting hs.sound (hs.parent.segment_encodable hlt he) rfl
    (hs.parent.segment_payload hlt he) hlen hs.inside hs.fresh hm hbase hgap

variable (hnew : ∃ off, (i ≤ off ∧ off < e) ∧ ¬ InParts parts off)
include hnew

/-- A segment with a new byte that leaves another one missing is held with the others. -/
theorem Collecting.exec_writePdu_held
    (hmissing : ∃ off, off < d.length ∧ ¬ InParts ((i, e) :: parts) off) :
    ∃ t, exec (.writePdu (segmentPdu h d i e)) s = .next t ∧ t.params = s.params ∧
      Collecting h d ((i, e) :: parts) t := by
  obtain ⟨off, hin, hfree⟩ := hnew
  obtain ⟨miss, hmiss, hout⟩ := hmissing
  have hheld := hs.held.withSegment hs.parent hlt he
  have hm := mergeSegment_of_partial (h := segmentHeader h h.sn d.length i e) rfl
    (hs.consistent hlt he) (hs.held.newBytes_ne_nil he hin hfree)
    (hheld.completePayload_eq_none hmiss hout)
  obtain ⟨t, ht, hacc⟩ := hs.exec_writePdu hlt he hlen hm rfl hs.sound.vrR_missing
  refine ⟨t, ht, hacc.params, hacc.accepting, hacc.sound, hacc.params ▸ hs.parent,
    hacc.vrR ▸ hs.inside, hacc.vrR ▸ hs.above, hacc.window ▸ hs.fresh, ?_⟩
  have hentry : segEntryOf t.rx.segments h.sn =
      withSegment h d (segEntryOf s.rx.segments h.sn) i e := by
    rw [hacc.segments, segEntryOf]
    exact congrArg (Option.getD · _) (tableGet_tableSet_self ..)
  rwa [hentry]

/-- The segment that brings the last missing bytes puts the parent into the window. -/
theorem Collecting.exec_writePdu_complete
    (hall : ∀ off, off < d.length → InParts ((i, e) :: parts) off) :
    ∃ t, exec (.writePdu (segmentPdu h d i e)) s = .next t ∧
      tableGet t.rx.window h.sn.toNat = some ⟨{ h with p := false }, d⟩ ∧
      validAt t.rx.segments h.sn = false := by
  obtain ⟨off, hin, hfree⟩ := hnew
  have hne : d ≠ [] := List.length_pos_iff.mp (by omega)
  have hheld := hs.held.withSegment hs.parent hlt he
  have hm := mergeSegment_of_complete (h := segmentHeader h h.sn d.length i e) rfl
    (hs.consistent hlt he) (hs.held.newBytes_ne_nil he hin hfree)
    (hheld.completePayload_eq_some hall hne)
  have hgap : validAt (tableSet s.rx.window h.sn.toNat ⟨rebuiltHeader (withSegment h d
      (segEntryOf s.rx.segments h.sn) i e) h.sn, d⟩) s.rx.vrR = false := by
    have hother : s.rx.vrR.toNat ≠ h.sn.toNat := fun heq =>
      hs.above (BitVec.eq_of_toNat_eq heq).symm
    rw [validAt, tableGet_tableSet, if_neg hother]
    exact hs.sound.vrR_missing
  obtain ⟨t, ht, hacc⟩ := hs.exec_writePdu hlt he hlen hm rfl hgap
  refine ⟨t, ht, ?_, ?_⟩
  · rw [hacc.window, ← hheld.rebuiltHeader_eq hs.parent hall hne]
    exact tableGet_tableSet_self ..
  · rw [hacc.segments]
    exact congrArg Option.isSome (tableGet_tableErase_self ..)

end

/-- Two segments that bring different bytes and together all of them rebuild the parent, the one of
`[i, e)` written first. -/
theorem Collecting.exec_writePdu_both {h : Header} {d : List Byte} {s : State} {i e j f : Nat}
    (hs : Collecting h d [] s) (hie : i < e) (he : e ≤ d.length) (hjf : j < f) (hf : f ≤ d.length)
    (hlen1 : (segmentPdu h d i e).length ≤ s.params.maxPduBytes)
    (hlen2 : (segmentPdu h d j f).length ≤ s.params.maxPduBytes)
    (hapart : e ≤ j ∨ f ≤ i)
    (hall : ∀ off, off < d.length → (i ≤ off ∧ off < e) ∨ (j ≤ off ∧ off < f)) :
    ∃ a t, exec (.writePdu (segmentPdu h d i e)) s = .next a ∧
      exec (.writePdu (segmentPdu h d j f)) a = .next t ∧
      tableGet t.rx.window h.sn.toNat = some ⟨{ h with p := false }, d⟩ ∧
      validAt t.rx.segments h.sn = false := by
  have hparts : ∀ off, InParts [(i, e)] off ↔ i ≤ off ∧ off < e := fun off => by simp [InParts]
  have hmissing : (j ≤ j ∧ j < f) ∧ ¬ InParts [(i, e)] j := by
    rw [hparts]
    omega
  obtain ⟨a, ha, hparams, hcollect⟩ := hs.exec_writePdu_held hie he hlen1 ⟨i, ⟨le_rfl, hie⟩, nofun⟩
    ⟨j, by omega, hmissing.2⟩
  have hboth : ∀ off, off < d.length → InParts [(j, f), (i, e)] off := fun off hoff => by
    rw [inParts_cons, hparts]
    exact (hall off hoff).symm
  obtain ⟨t, ht, hparent, hgone⟩ :=
    hcollect.exec_writePdu_complete hjf hf (hparams ▸ hlen2) ⟨j, hmissing⟩ hboth
  exact ⟨a, t, ha, ht, hparent, hgone⟩

end Sys2Proof.Machine

open Sys2Proof.Machine in
/-- Settles O48: the first segment is held in the segment store and the second completes the parent, in
either order (`Collecting.exec_writePdu_both`). -/
theorem segmentsRebuildParent : Obligations.SegmentsRebuildParent := by
  intro s h d m hs hrx hok hrf hpayload hpos hlt hshort hin habove hfresh hnone front back hfront hback
  have hfrontPdu : front = segmentPdu h d 0 m := by
    rw [segmentPdu, segmentBytes, List.drop_zero, Nat.sub_zero]
  have hbackPdu : back = segmentPdu h d m d.length := by
    rw [segmentPdu, segmentBytes, List.take_of_length_le (by rw [List.length_drop])]
  have hempty : tableGet s.rx.segments h.sn.toNat = none := by
    rwa [validAt, Option.isSome_eq_false_iff, Option.isNone_iff_eq_none] at hnone
  have hcollect : Collecting h d [] s := by
    refine ⟨hs, hrx, ⟨hok, hrf, hpayload, hshort⟩, hin, habove, hfresh, ?_⟩
    rw [segEntryOf, hempty]
    exact partsHeld_nil h d
  rw [hfrontPdu] at hfront ⊢
  rw [hbackPdu] at hback ⊢
  obtain ⟨a, t, ha, ht, hparent, hgone⟩ :=
    hcollect.exec_writePdu_both hpos hlt.le hlt le_rfl hfront hback (.inl le_rfl) fun off hoff => by
      omega
  obtain ⟨a', t', ha', ht', hparent', hgone'⟩ :=
    hcollect.exec_writePdu_both hlt le_rfl hpos hlt.le hback hfront (.inr le_rfl) fun off hoff => by
      omega
  exact ⟨a, t, a', t', ha, ht, ha', ht', hparent, hparent', hgone, hgone'⟩
end

section
/-!
The scans of the reception window for missing SNs (O50, O51; R225, R235, R240): the reordering expiry and the
STATUS report.
-/
namespace Sys2Proof.Machine

/-! ### Missing SNs -/

theorem missingFrom_eq_filter (w : Table RxEntry) (n : Nat) (x : Sn) :
    missingFrom w n x = ((List.range n).map (snAdd x)).filter fun y => !validAt w y := by
  induction n generalizing x with
  | zero => rfl
  | succ n ih =>
    have hfirst : snAdd x 0 = x := by simp [snAdd]
    have hlater : (List.range n).map (snAdd x ∘ Nat.succ) = (List.range n).map (snAdd (x + 1)) :=
      List.map_congr_left fun k _ => (sn_add_succ x k).symm
    rw [missingFrom, ih, List.range_succ_eq_map, List.map_cons, List.map_map, hlater, hfirst]
    cases hx : validAt w x <;> simp [hx]

/-- Seen from the base, a scan reports the missing SNs below its length (R240). -/
theorem mem_missingFrom_base {w : Table RxEntry} {n : Nat} (hn : n ≤ 1024) {b x : Sn} :
    x ∈ missingFrom w n b ↔ modBase b x < n ∧ validAt w x = false := by
  rw [mem_missingFrom]
  constructor
  · rintro ⟨k, hk, rfl, hv⟩
    exact ⟨by rwa [modBase_add b (by omega)], hv⟩
  · rintro ⟨hlt, hv⟩
    exact ⟨modBase b x, hlt, eq_add_modBase b x, hv⟩

/-- Seen from the base, a scan reports SNs in rising order (R240). -/
theorem missingFrom_rising (w : Table RxEntry) {n : Nat} (hn : n ≤ 1024) (b : Sn) :
    (missingFrom w n b).Pairwise fun x y => modBase b x < modBase b y := by
  rw [missingFrom_eq_filter]
  refine List.Pairwise.filter _ (List.pairwise_map.mpr ?_)
  refine List.pairwise_lt_range.imp_of_mem fun hi hj hij => ?_
  rw [List.mem_range] at hi hj
  rw [snAdd, snAdd, modBase_add b (by omega), modBase_add b (by omega)]
  exact hij

theorem missingFrom_length_le (w : Table RxEntry) (n : Nat) (x : Sn) :
    (missingFrom w n x).length ≤ n := by
  rw [missingFrom_eq_filter]
  exact (List.length_filter_le ..).trans (by simp)

/-- The numbers of an interval among the first 1024. -/
theorem range_filter_interval {a b : Nat} (hab : a + (b - a) ≤ 1024) :
    (List.range 1024).filter (fun k => decide (a ≤ k ∧ k < b)) = List.range' a (b - a) :=
  (List.pairwise_lt_range.filter _).eq_of_mem_iff List.pairwise_lt_range' fun k => by
    rw [List.mem_filter, List.mem_range, List.mem_range'_1, decide_eq_true_eq]
    omega

/-- The number of lost PDUs, counted over all distances from `VR_R` (R235). -/
theorem lostSns_length (s : State) : (lostSns s).length =
    ((List.range 1024).filter fun k =>
      decide (modBase s.rx.vrR s.rx.vrMs ≤ k ∧ k < modBase s.rx.vrR s.rx.vrX) &&
        !validAt s.rx.window (s.rx.vrR + BitVec.ofNat 10 k)).length := by
  have hX := modBase_lt s.rx.vrR s.rx.vrX
  have hMs := modBase_lt s.rx.vrR s.rx.vrMs
  have hshift : ∀ k, snAdd s.rx.vrMs k =
      s.rx.vrR + BitVec.ofNat 10 (modBase s.rx.vrR s.rx.vrMs + k) := fun k => by
    rw [snAdd, BitVec.ofNat_add, ← BitVec.add_assoc, ← eq_add_modBase]
  have hcomm : (fun k => decide (modBase s.rx.vrR s.rx.vrMs ≤ k ∧ k < modBase s.rx.vrR s.rx.vrX) &&
      !validAt s.rx.window (s.rx.vrR + BitVec.ofNat 10 k)) = fun k =>
      !validAt s.rx.window (s.rx.vrR + BitVec.ofNat 10 k) &&
        decide (modBase s.rx.vrR s.rx.vrMs ≤ k ∧ k < modBase s.rx.vrR s.rx.vrX) :=
    funext fun k => Bool.and_comm ..
  rw [hcomm, ← List.filter_filter, range_filter_interval (by omega), List.range'_eq_map_range,
    List.filter_map, List.length_map, lostSns, missingFrom_eq_filter, List.filter_map, List.length_map]
  simp only [Function.comp_def, hshift]
  rfl

/-! ### The first missing SN -/

/-- Every SN that a scan passed is there (R225, R235). -/
theorem scanMissing_passed {w : Table RxEntry} {b x m y : Sn} (h : scanMissing w x = .ok m)
    (hxy : modBase b x ≤ modBase b y) (hym : modBase b y < modBase b m) : validAt w y = true := by
  have hfound : firstMissing w 1024 x = some m := by
    unfold scanMissing at h
    split at h
    · next hy => cases h; exact hy
    · cases h
  obtain ⟨k, hk, hm, -, hall⟩ := firstMissing_some hfound
  have hdist : modBase x m = k := by rw [hm, modBase_add x hk]
  have hy := modBase_shift hxy
  have hmx := modBase_shift (c := x) (x := m) (hxy.trans hym.le)
  rw [eq_add_modBase x y]
  exact hall _ (by omega)

/-! ### The reordering expiry (R235) -/

theorem exec_texpReordering {s : State} (hs : Accepting s) :
    exec .texpReordering s = answerOf (texpReordering s) := by
  rw [exec, execTexpReordering, dataPath_of_accepting hs]

theorem texpReordering_of_stale {s : State} (hrun : s.rx.reordRunning = false) :
    texpReordering s = .ok (respond .ok [] [] s) := by
  rw [texpReordering, if_neg (by simp [hrun])]

theorem texpReordering_of_running {s : State} {m : Sn} (hrun : s.rx.reordRunning = true)
    (hm : scanMissing s.rx.window (if rxAhead s s.rx.vrX s.rx.vrMs then s.rx.vrX else s.rx.vrMs) = .ok m) :
    texpReordering s = .ok (respond .ok [] [] (afterExpiry m
      (reorderingExpired s (s.lostPduCount + BitVec.ofNat 32 (lostSns s).length)))) := by
  unfold texpReordering
  rw [if_pos hrun]
  dsimp only [expireTimer_eq]
  split
  · next hf => cases hm.symm.trans hf
  · next hm' => cases hm.symm.trans hm'; rfl

/-- The timer is armed again when `VR_H` is still ahead of `VR_MS` (R235). -/
theorem afterExpiry_eq {m : Sn} {s : State} {again : Bool}
    (hagain : again = decide (modBase s.rx.vrR m < modBase s.rx.vrR s.rx.vrH)) :
    afterExpiry m s = { s with
      rx := { s.rx with
        vrMs := m
        doStatus := s.rx.doStatus || s.rx.pollReceived
        vrX := if again then s.rx.vrH else s.rx.vrX
        reordRunning := again || s.rx.reordRunning }
      timers := { s.timers with reordering := again || s.timers.reordering }
      out := s.out ++
        if again then [.event (.timerStart .reordering s.cfg.tReordering)] else [] } := by
  unfold afterExpiry
  dsimp only
  split
  · next hahead =>
    obtain rfl : again = true := hagain.trans hahead
    rfl
  · next hahead =>
    obtain rfl : again = false := hagain.trans (Bool.eq_false_iff.mpr hahead)
    simp

/-! ### The STATUS report (R240) -/

theorem exec_getStatusPdu {s : State} {n : Word} (hs : Accepting s)
    (hn : n.toNat ≤ s.params.maxPduBytes) :
    exec (.getStatusPdu n) s = .next (respondBytes (statusPduBytes n.toNat s) s) :=
  gates_of_accepting hs (decide_eq_true hn) ..

end Sys2Proof.Machine

open Sys2Proof.Machine in
/-- Settles O50: the scan from the later of `VR_MS` and `VR_X` gives the new `VR_MS` (`scanMissing_le_vrH`,
`scanMissing_passed`), and `afterExpiry_eq` the state. -/
theorem reorderingExpiry : Obligations.ReorderingExpiry := by
  intro s hs
  rw [exec_texpReordering hs]
  refine ⟨fun hrun => by rw [texpReordering_of_stale hrun, answerOf_ok], fun hrun hrx => ?_⟩
  intro d start lost
  obtain ⟨⟨hMsH, hH, hmiss, -⟩, hw, -, hreord, -⟩ := hrx
  have hstart : d start ≤ d s.rx.vrH := by
    by_cases hlt : d s.rx.vrMs < d s.rx.vrX
    · rw [show start = s.rx.vrX from if_pos hlt]
      exact (hreord hrun).2
    · rw [show start = s.rx.vrMs from if_neg hlt]
      exact hMsH
  have hahead : start = if rxAhead s s.rx.vrX s.rx.vrMs then s.rx.vrX else s.rx.vrMs :=
    (if_congr decide_eq_true_iff rfl rfl).symm
  obtain ⟨m, hm, -⟩ := scanMissing_ok (x := start) hmiss
  obtain ⟨hmMissing, hle, -⟩ := scanMissing_le_vrH hw hH hstart hm
  refine ⟨m, hle, hmMissing, fun x hx hxm => scanMissing_passed hm hx hxm, ?_⟩
  intro again
  rw [texpReordering_of_running hrun (hahead ▸ hm), answerOf_ok,
    afterExpiry_eq (s := reorderingExpired s _) (again := again) rfl, lostSns_length]
  cases again <;> rfl

open Sys2Proof.Machine in
/-- Settles O51: the SNs reported missing are those of the scan from `VR_R` to `VR_MS`. -/
theorem statusReport : Obligations.StatusReport := by
  intro n s hs hn
  have hbound := (modBase_lt s.rx.vrR s.rx.vrMs).le
  refine ⟨missingFrom s.rx.window (modBase s.rx.vrR s.rx.vrMs) s.rx.vrR,
    fun x => mem_missingFrom_base hbound, missingFrom_rising _ hbound _, fun hrx => ?_, ?_⟩
  · obtain ⟨⟨hMsH, hH, -, -⟩, -⟩ := hrx
    exact (missingFrom_length_le ..).trans (hMsH.trans hH)
  · exact exec_getStatusPdu hs hn
end

section
/-!
Reassembly (R230, R231): the rounds of REASSEMBLE, which SNs they take out of the tables, and the SDUs that the
fragments of the consumed PDUs complete.
-/
namespace Sys2Proof.Machine

/-- A list is what reading it at its positions, one after another, gives. -/
theorem filterMap_range_getElem? {α : Type} (l : List α) :
    ((List.range l.length).filterMap fun k => l[k]?) = l := by
  induction l with
  | nil => rfl
  | cons a l ih =>
    rw [List.length_cons, List.range_succ_eq_map, List.filterMap_cons, List.filterMap_map]
    exact congrArg (a :: ·) ih

/-! ### The rounds of REASSEMBLE (R230) -/

/-- From `s` to `t` the PDUs `entries` were consumed, one per round, each at `VR_R` when its turn came. -/
inductive Consumes : State → State → List RxEntry → Prop
  | stop (s : State) : Consumes s s []
  | round {s u t : State} {entry : RxEntry} {entries : List RxEntry}
      (hentry : tableGet s.rx.window s.rx.vrR.toNat = some entry) (hconsume : consume entry s = .ok u)
      (hrest : Consumes (advanceVrR u) t entries) : Consumes s t (entry :: entries)

theorem consumes_of_reassemble {n : Nat} {s t : State} (h : reassemble n s = .ok t) :
    ∃ entries, Consumes s t entries := by
  induction n generalizing s with
  | zero => cases h; exact ⟨[], .stop _⟩
  | succ n ih =>
    unfold reassemble at h
    split at h
    · cases h; exact ⟨[], .stop _⟩
    next entry hentry =>
    split at h
    · cases h
    next u hu =>
    obtain ⟨entries, hrest⟩ := ih h
    exact ⟨entry :: entries, .round hentry hu hrest⟩

/-- The receiver's variables after one PDU was consumed (R230). -/
theorem advanceVrR_of_consume {entry : RxEntry} {s u : State} (h : consume entry s = .ok u) :
    (advanceVrR u).rx.vrR = s.rx.vrR + 1 ∧
    (advanceVrR u).rx.window = tableErase s.rx.window s.rx.vrR.toNat ∧
    (advanceVrR u).rx.segments = tableErase s.rx.segments s.rx.vrR.toNat := by
  obtain ⟨_, _, _, rfl, -⟩ := consumeFrom_moved h
  exact ⟨rfl, rfl, rfl⟩

section
variable {s t : State} {entries : List RxEntry} (h : Consumes s t entries)
include h

theorem Consumes.vrR : t.rx.vrR = snAdd s.rx.vrR entries.length := by
  induction h with
  | stop s => simp [snAdd]
  | round _ hconsume _ ih =>
    obtain ⟨hvrR, -, -⟩ := advanceVrR_of_consume hconsume
    rw [ih, hvrR, snAdd, sn_add_succ]
    rfl

/-- The PDUs consumed are those that the window held from `VR_R` on. -/
theorem Consumes.entry {j : Nat} (hj : j < entries.length) :
    tableGet s.rx.window (snAdd s.rx.vrR j).toNat = some entries[j] := by
  induction h generalizing j with
  | stop s => cases hj
  | @round s u t entry entries hentry hconsume _ ih =>
    obtain ⟨hvrR, hwindow, -⟩ := advanceVrR_of_consume hconsume
    cases j with
    | zero => simpa [snAdd] using hentry
    | succ j =>
      have hget := ih (Nat.lt_of_succ_lt_succ hj)
      rw [hvrR, hwindow, snAdd, sn_add_succ, tableGet_tableErase] at hget
      split at hget
      · cases hget
      · exact hget

/-- A table that loses the entry at `VR_R` in every round holds no consumed SN, and is else as it was. -/
theorem Consumes.tableGet_eq {α : Type} (table : Rx → Table α)
    (herase : ∀ {entry u v}, consume entry u = .ok v →
      table (advanceVrR v).rx = tableErase (table u.rx) u.rx.vrR.toNat) (x : Sn) :
    tableGet (table t.rx) x.toNat =
      if modBase s.rx.vrR x < entries.length then none else tableGet (table s.rx) x.toNat := by
  induction h with
  | stop s => simp
  | @round s u t entry entries _ hconsume _ ih =>
    obtain ⟨hvrR, -, -⟩ := advanceVrR_of_consume hconsume
    rw [ih, hvrR, herase hconsume, tableGet_tableErase]
    by_cases hx : x = s.rx.vrR
    · simp [hx]
    · have hne : x.toNat ≠ s.rx.vrR.toNat := fun heq => hx (BitVec.eq_of_toNat_eq heq)
      have hnear := modBase_succ_left hx
      rw [if_neg hne, List.length_cons, ← hnear]
      exact if_congr (by omega) rfl rfl

theorem Consumes.window (x : Sn) : tableGet t.rx.window x.toNat =
    if modBase s.rx.vrR x < entries.length then none else tableGet s.rx.window x.toNat :=
  h.tableGet_eq (·.window) (fun hconsume => (advanceVrR_of_consume hconsume).2.1) x

theorem Consumes.segments (x : Sn) : tableGet t.rx.segments x.toNat =
    if modBase s.rx.vrR x < entries.length then none else tableGet s.rx.segments x.toNat :=
  h.tableGet_eq (·.segments) (fun hconsume => (advanceVrR_of_consume hconsume).2.2) x

/-- No SN that is missing is passed. -/
theorem Consumes.length_le {x : Sn} (hx : validAt s.rx.window x = false) :
    entries.length ≤ modBase s.rx.vrR x := by
  by_contra hlt
  have hget := h.entry (Nat.lt_of_not_le hlt)
  rw [snAdd, ← eq_add_modBase] at hget
  rw [validAt, hget] at hx
  cases hx

/-- Below 1024 rounds, `VR_R` is as many SNs further. -/
theorem Consumes.modBase_vrR {x : Sn} (hx : validAt s.rx.window x = false) :
    modBase s.rx.vrR t.rx.vrR = entries.length := by
  rw [h.vrR, snAdd, modBase_add _ (lt_of_le_of_lt (h.length_le hx) (modBase_lt ..))]

/-- The PDUs consumed, read off the window as it was. -/
theorem Consumes.entries_eq : entries = (List.range entries.length).filterMap fun k =>
    tableGet s.rx.window (snAdd s.rx.vrR k).toNat := by
  have hread : (List.range entries.length).filterMap
      (fun k => tableGet s.rx.window (snAdd s.rx.vrR k).toNat) =
      (List.range entries.length).filterMap fun k => entries[k]? :=
    List.filterMap_congr fun k hk => by
      rw [List.mem_range] at hk
      rw [h.entry hk, List.getElem?_eq_getElem hk]
  rw [hread, filterMap_range_getElem?]

end

/-! ### Fragments (R231) -/

/-- The SDU in progress, if there is one (R32). -/
abbrev sduInProgress (s : State) : Option (List Byte) :=
  if s.rx.sduActive then some s.rx.sdu else none

theorem sdusOf_append (limit : Nat) (cur : Option (List Byte)) (fs gs : List Fragment) :
    sdusOf limit cur (fs ++ gs) =
      ((sdusOf limit cur fs).1 ++ (sdusOf limit (sdusOf limit cur fs).2 gs).1,
        (sdusOf limit (sdusOf limit cur fs).2 gs).2) := by
  induction fs generalizing cur with
  | nil => simp [sdusOf]
  | cons f fs ih =>
    rw [List.cons_append, sdusOf, sdusOf, ih, ih]
    split <;> simp

/-- From `s` to `t` the fragments were taken one after another: `t` has the SDU in progress after them,
and the SDUs they completed were delivered in order (R231). -/
structure Takes (s t : State) (fs : List Fragment) : Prop where
  params : t.params = s.params
  progress : sduInProgress t = (sdusOf s.params.maxSduBytes (sduInProgress s) fs).2
  out : t.out = s.out ++
    (sdusOf s.params.maxSduBytes (sduInProgress s) fs).1.map fun x => .event (.deliverSdu x)

theorem Takes.nil (s : State) : Takes s s [] := ⟨rfl, rfl, by simp [sdusOf]⟩

theorem Takes.append {s t u : State} {fs gs : List Fragment} (h : Takes s t fs) (h' : Takes t u gs) :
    Takes s u (fs ++ gs) := by
  refine ⟨h'.params.trans h.params, ?_, ?_⟩
  · rw [h'.progress, h.params, h.progress, sdusOf_append]
  · rw [h'.out, h.out, h.params, h.progress, sdusOf_append, List.map_append, List.append_assoc]

/-- Taking a fragment makes the SDU in progress the one that R231 names, and delivers nothing. -/
theorem takeFragment_progress (f : Fragment) (s : State) :
    (takeFragment f.continues f.bytes s).params = s.params ∧
    (takeFragment f.continues f.bytes s).out = s.out ∧
    sduInProgress (takeFragment f.continues f.bytes s) =
      sduWith s.params.maxSduBytes (sduInProgress s) f := by
  unfold takeFragment sduWith
  cases f.continues with
  | true =>
    cases hactive : s.rx.sduActive with
    | false => exact ⟨rfl, rfl, by simp [hactive]⟩
    | true =>
      by_cases hlong : s.params.maxSduBytes < s.rx.sdu.length + f.bytes.length
      · rw [if_pos rfl, if_pos rfl, if_pos hlong]
        exact ⟨rfl, rfl, by simp [sduInProgress, hactive, hlong]⟩
      · rw [if_pos rfl, if_pos rfl, if_neg hlong]
        exact ⟨rfl, rfl, by simp [hactive, Nat.le_of_not_lt hlong]⟩
  | false =>
    by_cases hlong : s.params.maxSduBytes < f.bytes.length
    · rw [if_neg Bool.false_ne_true, if_pos hlong]
      exact ⟨rfl, rfl, by simp [sduInProgress, hlong]⟩
    · rw [if_neg Bool.false_ne_true, if_neg hlong]
      exact ⟨rfl, rfl, by simp [Nat.le_of_not_lt hlong]⟩

/-- The end of an SDU delivers the SDU in progress, if there is one (R231). -/
theorem deliverIfEnded_progress (ends : Bool) (s : State) :
    (deliverIfEnded ends s).params = s.params ∧
    sduInProgress (deliverIfEnded ends s) = (if ends then none else sduInProgress s) ∧
    (deliverIfEnded ends s).out = s.out ++
      if ends then (sduInProgress s).toList.map fun x => .event (.deliverSdu x) else [] := by
  unfold deliverIfEnded
  cases ends with
  | false => simp
  | true => cases hactive : s.rx.sduActive <;> simp [sduInProgress, hactive]

theorem takes_fragment (f : Fragment) (s : State) :
    Takes s (deliverIfEnded f.ends (takeFragment f.continues f.bytes s)) [f] := by
  obtain ⟨hparams, hout, hprogress⟩ := takeFragment_progress f s
  obtain ⟨hparams', hprogress', hout'⟩ :=
    deliverIfEnded_progress f.ends (takeFragment f.continues f.bytes s)
  rw [hprogress] at hprogress' hout'
  refine ⟨hparams'.trans hparams, ?_, ?_⟩
  · rw [hprogress']
    cases hends : f.ends <;> simp [sdusOf, hends]
  · rw [hout', hout]
    cases hends : f.ends <;> simp [sdusOf, hends]

/-- The fragments of the payload `d` with the length indicators `li`: the first continues an SDU as
`continues` says, the last ends one as `ends` says (R231). -/
def fragmentRun (ends : Bool) : (li : List Nat) → (d : List Byte) → (continues : Bool) → List Fragment
  | [], d, continues => [⟨continues, d, ends⟩]
  | l :: li, d, continues => ⟨continues, d.take l, true⟩ :: fragmentRun ends li (d.drop l) false

theorem fragmentRun_eq_zipIdx (fiS ends : Bool) (li : List Nat) (d : List Byte) (k : Nat) :
    fragmentRun ends li d (fiS && decide (k = 0)) = ((fragmentsOf li d).zipIdx k).map fun x =>
      ⟨fiS && decide (x.2 = 0), x.1, decide (x.2 < k + li.length) || ends⟩ := by
  induction li generalizing d k with
  | nil => simp [fragmentRun, fragmentsOf]
  | cons l li ih =>
    have hlater := ih (d.drop l) (k + 1)
    simp only [Nat.succ_ne_zero, decide_false, Bool.and_false] at hlater
    have hlen : k + (l :: li).length = k + 1 + li.length := by rw [List.length_cons]; omega
    rw [fragmentRun, fragmentsOf, List.zipIdx_cons, List.map_cons, hlater, hlen]
    simp [show k < k + 1 + li.length by omega]

theorem rxFragments_eq (e : RxEntry) :
    rxFragments e = fragmentRun (!e.hdr.fiE) e.hdr.li e.buf e.hdr.fiS := by
  have h := fragmentRun_eq_zipIdx e.hdr.fiS (!e.hdr.fiE) e.hdr.li e.buf 0
  rw [decide_eq_true rfl, Bool.and_true] at h
  rw [h, rxFragments]
  simp

/-- Consuming a PDU takes its fragments (R231). -/
theorem takes_consumeFrom {entry : RxEntry} {li : List Nat} {off : Nat} {continues : Bool} {s t : State}
    (h : consumeFrom entry li off continues s = .ok t) :
    Takes s t (fragmentRun (!entry.hdr.fiE) li (entry.buf.drop off) continues) := by
  induction li generalizing off continues s with
  | nil =>
    unfold consumeFrom at h
    split at h
    · cases h
    next f hf =>
    cases h
    obtain ⟨-, rfl, -⟩ := memRead_ok hf
    have hall : (entry.buf.drop off).take (entry.buf.length - off) = entry.buf.drop off :=
      List.take_of_length_le (by rw [List.length_drop])
    rw [hall]
    exact takes_fragment ⟨continues, entry.buf.drop off, !entry.hdr.fiE⟩ s
  | cons l li ih =>
    unfold consumeFrom at h
    split at h
    · cases h
    next f hf =>
    obtain ⟨-, rfl, -⟩ := memRead_ok hf
    have hrest := ih h
    rw [← List.drop_drop] at hrest
    exact (takes_fragment ⟨continues, (entry.buf.drop off).take l, true⟩ s).append hrest

theorem takes_consume {entry : RxEntry} {s t : State} (h : consume entry s = .ok t) :
    Takes s t (rxFragments entry) := by
  rw [rxFragments_eq]
  exact takes_consumeFrom h

/-- The rounds of REASSEMBLE take the fragments of the PDUs they consume (R230, R231). -/
theorem Consumes.takes {s t : State} {entries : List RxEntry} (h : Consumes s t entries) :
    Takes s t (entries.flatMap rxFragments) := by
  induction h with
  | stop s => exact .nil s
  | @round s u t entry entries _ hconsume _ ih =>
    have hadvance : Takes u (advanceVrR u) [] := ⟨rfl, rfl, by simp [sdusOf, advanceVrR]⟩
    exact (takes_consume hconsume).append (hadvance.append ih)

end Sys2Proof.Machine
end

section
/-!
The reordering timer after an accepted Data PDU (R228): when its snapshot is kept, and what the update emits.
-/
namespace Sys2Proof.Machine

/-- Seen from an earlier base, the timer must stop when `VR_R` has reached or passed its snapshot (R228). -/
theorem reordMustStop_iff_reached {b : Sn} {s : State} (hpos : 0 < modBase b s.rx.vrX)
    (hX : modBase b s.rx.vrX ≤ 512) (hR : modBase b s.rx.vrR ≤ 512) :
    reordMustStop s = true ↔ modBase b s.rx.vrX ≤ modBase b s.rx.vrR := by
  have hceiling := modBase_vrMr s
  rw [reordMustStop_iff]
  rcases Nat.lt_trichotomy (modBase b s.rx.vrR) (modBase b s.rx.vrX) with hlt | heq | hgt
  · -- the snapshot is ahead, at most as far as the ceiling of the window
    have hdist := modBase_shift hlt.le
    refine iff_of_false ?_ (Nat.not_le.mpr hlt)
    rintro (heq | ⟨hfar, hne⟩)
    · rw [heq] at hlt
      exact Nat.lt_irrefl _ hlt
    · exact hne (modBase_inj (b := s.rx.vrR) (by omega))
  · exact iff_of_true (.inl (modBase_inj heq.symm)) heq.ge
  · have hdist := modBase_passed hgt
    refine iff_of_true (.inr ⟨by omega, fun heq => ?_⟩) hgt.le
    rw [heq] at hdist
    rw [heq] at hgt hpos
    omega

theorem updateReorderingTimer_of_kept {s : State} (hrun : s.rx.reordRunning = true)
    (hkeep : reordMustStop s = false) : updateReorderingTimer s = s := by
  unfold updateReorderingTimer
  simp [hrun, hkeep]

/-- A timer that does not keep its snapshot is stopped if it runs, and armed when `VR_H` is ahead (R228). -/
theorem updateReorderingTimer_of_dropped {s : State} {ahead : Bool}
    (hdrop : s.rx.reordRunning = true → reordMustStop s = true)
    (hahead : decide (0 < modBase s.rx.vrR s.rx.vrH) = ahead) :
    (updateReorderingTimer s).rx.reordRunning = ahead ∧
    (updateReorderingTimer s).rx.vrX = (if ahead then s.rx.vrH else s.rx.vrX) ∧
    (updateReorderingTimer s).out = s.out ++
      (if s.rx.reordRunning then [.event (.timerStop .reordering)] else []) ++
      if ahead then [.event (.timerStart .reordering s.cfg.tReordering)] else [] := by
  have harm : ∀ u : State, u.rx.reordRunning = false →
      decide (0 < modBase u.rx.vrR u.rx.vrH) = ahead →
      (if !u.rx.reordRunning && decide (0 < rxModBase u u.rx.vrH) then armReordering u else u) =
        if ahead then armReordering u else u := fun u hidle hu => by
    rw [hidle, rxModBase, hu]
    rfl
  unfold updateReorderingTimer
  dsimp only
  cases hrun : s.rx.reordRunning with
  | true =>
    rw [hdrop hrun, Bool.and_true, if_pos rfl, harm (stopTimer .reordering s) rfl hahead]
    cases ahead with
    | true => exact ⟨rfl, rfl, rfl⟩
    | false => exact ⟨rfl, rfl, (List.append_nil _).symm⟩
  | false =>
    rw [Bool.false_and, if_neg Bool.false_ne_true, ← hrun, harm s hrun hahead]
    cases ahead with
    | true => simp [armReordering, setTimer, hrun]
    | false => simp [hrun]

end Sys2Proof.Machine
end

section
/-!
An accepted Data PDU (O44 to O47; R220, R224 to R231): the run of the five steps after it was stored, and what
they leave of the receiver, deliver, and do to the reordering timer.
-/
namespace Sys2Proof.Machine

/-! ### The run of an acceptance (R220) -/

/-- `VR_H` raised past an SN (R224). -/
abbrev raisedVrH (s : State) (sn : Sn) : Sn :=
  if modBase s.rx.vrR s.rx.vrH ≤ modBase s.rx.vrR sn then sn + 1 else s.rx.vrH

theorem updateVrH_eq (sn : Sn) (s : State) :
    updateVrH sn s = { s with rx := { s.rx with vrH := raisedVrH s sn } } := by
  unfold updateVrH raisedVrH rxModBase
  split <;> rfl

/-- The receiver when reassembly starts: `VR_H` raised, `VR_MS` moved to `m` and the poll handled (R224 to
R226). -/
abbrev beforeReassembly (h : Header) (m : Sn) (s : State) : State :=
  { s with rx := { s.rx with
    vrH := raisedVrH s h.sn
    vrMs := m
    pollReceived := s.rx.pollReceived || h.p
    doStatus := s.rx.doStatus || (h.p && decide (modBase s.rx.vrR h.sn < modBase s.rx.vrR m)) } }

theorem acknowledged_updateVrH_eq (h : Header) (m : Sn) (s : State) :
    acknowledged h m (updateVrH h.sn s) = beforeReassembly h m s := by
  rw [updateVrH_eq]
  unfold acknowledged beforeReassembly
  cases hp : h.p with
  | true =>
    rw [if_pos rfl, Bool.or_true, Bool.true_and]
    rfl
  | false => simp

/-- The timer ran, and its snapshot is still ahead of `VR_R` (R228). -/
abbrev SnapshotKept (s t : State) : Prop :=
  s.rx.reordRunning = true ∧ modBase s.rx.vrR t.rx.vrR < modBase s.rx.vrR s.rx.vrX

/-- A Data PDU `h` that left the receiver `rx` was accepted: `VR_MS` moved to `m`, `entries` were consumed,
which led to `u`, and after the update of the reordering timer the answer is `t` (R220). -/
structure AcceptRun (h : Header) (s : State) (rx : Rx) (m : Sn) (u : State) (entries : List RxEntry)
    (t : State) : Prop where
  rx_eq : rx = { s.rx with window := rx.window, segments := rx.segments }
  missing : validAt rx.window m = false
  above : modBase s.rx.vrR s.rx.vrMs ≤ modBase s.rx.vrR m
  passed : ∀ x, modBase s.rx.vrR s.rx.vrMs ≤ modBase s.rx.vrR x →
    modBase s.rx.vrR x < modBase s.rx.vrR m → validAt rx.window x = true
  raised : modBase s.rx.vrR s.rx.vrH ≤ modBase s.rx.vrR (raisedVrH s h.sn)
  below : modBase s.rx.vrR m ≤ modBase s.rx.vrR (raisedVrH s h.sn)
  bound : modBase s.rx.vrR (raisedVrH s h.sn) ≤ 512
  consumes : Consumes (beforeReassembly h m { s with rx := rx }) u entries
  frame : Reassembled (beforeReassembly h m { s with rx := rx }) u
  stopped : validAt u.rx.window u.rx.vrR = false
  sdu : RxSduSound u
  answer : t = respond .ok [] [] (updateReorderingTimer u)
  moved : RxMoved { s with rx := rx } t

theorem Stored.acceptRun {h : Header} {d : List Byte} {s t : State} {rx : Rx} (hst : Stored h d s rx)
    (hs : RxSound s) (ht : afterAccept h { s with rx := rx } = .ok t) :
    ∃ m u entries, AcceptRun h s rx m u entries t := by
  have hmoved := afterAccept_rxMoved ht
  obtain ⟨m, u, hm, hu, hanswer⟩ := afterAccept_cases ht
  obtain ⟨window, segments, vrH, hraised, hge, hH, hw, hg⟩ := hst.raised hs
  obtain ⟨⟨hms, -, -, -⟩, hwindow, hsegments, -, hsdu⟩ := hs
  obtain ⟨_, _, rfl, -⟩ := hst.tables hwindow hsegments
  rw [hraised] at hm
  rw [acknowledged_updateVrH_eq] at hu
  rw [updateVrH_eq] at hraised
  obtain rfl := congrArg (·.rx.window) hraised
  obtain rfl := congrArg (·.rx.segments) hraised
  obtain rfl := congrArg (·.rx.vrH) hraised
  obtain ⟨hmiss, hle, hbelow⟩ := scanMissing_le_vrH hw hH (le_trans hms hge) hm
  obtain ⟨entries, hrun⟩ := consumes_of_reassemble hu
  obtain ⟨hopen, hstopped, -⟩ :=
    reassemble_open hu ⟨hbelow, hH, hmiss, hw, hg, hsdu⟩ (modBase_lt ..)
  exact ⟨m, u, entries, {
    rx_eq := rfl
    missing := hmiss
    above := hle
    passed := fun x hx hxm => scanMissing_passed hm hx hxm
    raised := hge
    below := hbelow
    bound := hH
    consumes := hrun
    frame := reassemble_reassembled hu
    stopped := hstopped
    sdu := hopen.sdu
    answer := hanswer
    moved := hmoved }⟩

section
variable {h : Header} {s u t : State} {rx : Rx} {m : Sn} {entries : List RxEntry}
  (run : AcceptRun h s rx m u entries t)
include run

/-- The timer's update touches no other variable of the receiver. -/
theorem AcceptRun.rx_of_timer : t.rx =
    { u.rx with vrX := t.rx.vrX, reordRunning := t.rx.reordRunning } := by
  obtain ⟨_, _, _, _, htimer⟩ := updateReorderingTimer_frame u
  rw [run.answer, respond_rx, htimer]

/-- Reassembly moves `VR_R`, the tables and the SDU in progress alone. -/
theorem AcceptRun.rx_of_reassembly : u.rx =
    { s.rx with
      vrH := raisedVrH s h.sn
      vrMs := m
      pollReceived := s.rx.pollReceived || h.p
      doStatus := s.rx.doStatus || (h.p && decide (modBase s.rx.vrR h.sn < modBase s.rx.vrR m))
      vrR := u.rx.vrR
      window := u.rx.window
      segments := u.rx.segments
      sdu := u.rx.sdu
      sduActive := u.rx.sduActive } := by
  obtain ⟨_, _, _, _, _, _, rfl⟩ := run.frame
  rw [run.rx_eq]

theorem AcceptRun.vrR_eq : t.rx.vrR = u.rx.vrR := by rw [run.rx_of_timer]

/-- `VR_R` moves by one SN for each PDU consumed. -/
theorem AcceptRun.modBase_vrR : modBase s.rx.vrR t.rx.vrR = entries.length := by
  have hbase : rx.vrR = s.rx.vrR := by rw [run.rx_eq]
  rw [run.vrR_eq, ← hbase]
  exact run.consumes.modBase_vrR run.missing

/-- `VR_R` stays at or below `VR_MS`. -/
theorem AcceptRun.vrR_le : modBase s.rx.vrR t.rx.vrR ≤ modBase s.rx.vrR m := by
  have hbase : rx.vrR = s.rx.vrR := by rw [run.rx_eq]
  rw [run.modBase_vrR, ← hbase]
  exact run.consumes.length_le run.missing

theorem AcceptRun.window (x : Sn) : tableGet t.rx.window x.toNat =
    if modBase s.rx.vrR x < modBase s.rx.vrR t.rx.vrR then none else tableGet rx.window x.toNat := by
  have hbase : rx.vrR = s.rx.vrR := by rw [run.rx_eq]
  rw [run.modBase_vrR, run.rx_of_timer, ← hbase]
  exact run.consumes.window x

theorem AcceptRun.segments (x : Sn) : tableGet t.rx.segments x.toNat =
    if modBase s.rx.vrR x < modBase s.rx.vrR t.rx.vrR then none
    else tableGet rx.segments x.toNat := by
  have hbase : rx.vrR = s.rx.vrR := by rw [run.rx_eq]
  rw [run.modBase_vrR, run.rx_of_timer, ← hbase]
  exact run.consumes.segments x

/-- What is consumed was in the window. -/
theorem AcceptRun.consumed {x : Sn} (hx : modBase s.rx.vrR x < modBase s.rx.vrR t.rx.vrR) :
    validAt rx.window x = true := by
  have hbase : rx.vrR = s.rx.vrR := by rw [run.rx_eq]
  rw [run.modBase_vrR] at hx
  have hget := run.consumes.entry hx
  dsimp only at hget
  rw [hbase, snAdd, ← eq_add_modBase] at hget
  exact validAt_of_some hget

/-- Reassembly stops at the first SN not fully received. -/
theorem AcceptRun.vrR_missing : tableGet rx.window t.rx.vrR.toNat = none := by
  have hget := run.window t.rx.vrR
  rw [if_neg (Nat.lt_irrefl _)] at hget
  have hstopped := run.stopped
  rw [validAt, Option.isSome_eq_false_iff, Option.isNone_iff_eq_none, ← run.vrR_eq] at hstopped
  have hwindow : t.rx.window = u.rx.window := by rw [run.rx_of_timer]
  rw [← hget, hwindow]
  exact hstopped

/-- The tables and variables of the receiver after an accepted Data PDU (R220, R224 to R226, R230). -/
theorem AcceptRun.receiverMoved : ReceiverMoved s t h (fun x => tableGet rx.window x.toNat)
    (fun x => tableGet rx.segments x.toNat) := by
  have hms : t.rx.vrMs = m := by rw [run.rx_of_timer, run.rx_of_reassembly]
  have hmiss : tableGet rx.window m.toNat = none := by
    simpa [validAt] using run.missing
  refine ⟨fun x hx => run.consumed hx, run.vrR_missing, run.window, run.segments, ?_, ?_, ?_, ?_, ?_, ?_, ?_⟩
  · rw [run.rx_of_timer, run.rx_of_reassembly]
  · rw [hms]; exact run.above
  · rw [hms]; exact hmiss
  · rw [hms]; exact run.passed
  · rw [run.rx_of_timer, run.rx_of_reassembly]
  · rw [hms, run.rx_of_timer, run.rx_of_reassembly]
  · obtain ⟨_, _, _, rfl, -⟩ := run.moved
    rfl

/-! ### The reordering timer (R228) -/

/-- A running timer must stop unless its snapshot is kept. -/
theorem AcceptRun.reordMustStop_iff (hreord : ReorderingSound s) (hrunning : s.rx.reordRunning = true) :
    reordMustStop u = true ↔ ¬ SnapshotKept s t := by
  obtain ⟨hpos, hle⟩ := hreord hrunning
  have hX : modBase s.rx.vrR s.rx.vrX ≤ 512 := (hle.trans run.raised).trans run.bound
  have hR : modBase s.rx.vrR t.rx.vrR ≤ 512 := (run.vrR_le.trans run.below).trans run.bound
  have hvrX : u.rx.vrX = s.rx.vrX := by rw [run.rx_of_reassembly]
  rw [SnapshotKept, not_and, not_lt, run.vrR_eq]
  rw [run.vrR_eq] at hR
  rw [← hvrX] at hpos hX ⊢
  exact (reordMustStop_iff_reached hpos hX hR).trans ⟨fun h _ => h, fun h => h hrunning⟩

/-- While its snapshot is ahead of `VR_R`, so is `VR_H`. -/
theorem AcceptRun.vrH_ahead (hreord : ReorderingSound s) (hkept : SnapshotKept s t) :
    0 < modBase t.rx.vrR t.rx.vrH := by
  obtain ⟨hrunning, hahead⟩ := hkept
  have hle := (hreord hrunning).2.trans run.raised
  have hvrH : t.rx.vrH = raisedVrH s h.sn := by rw [run.rx_of_timer, run.rx_of_reassembly]
  refine Nat.pos_of_ne_zero fun h0 => Nat.not_le.mpr hahead ?_
  rwa [← hvrH, modBase_eq_zero.mp h0] at hle

/-- The timer's variables and events after an accepted Data PDU (R228). -/
theorem AcceptRun.timer (hreord : ReorderingSound s) :
    t.rx.reordRunning = decide (0 < modBase t.rx.vrR t.rx.vrH) ∧
    t.rx.vrX = (if t.rx.reordRunning = true ∧ ¬ SnapshotKept s t then t.rx.vrH else s.rx.vrX) ∧
    t.out = u.out ++
      (if s.rx.reordRunning = true ∧ ¬ SnapshotKept s t then [.event (.timerStop .reordering)] else []) ++
      (if t.rx.reordRunning = true ∧ ¬ SnapshotKept s t then
        [.event (.timerStart .reordering s.cfg.tReordering)] else []) ++
      [.response (responseOf .ok [] [])] := by
  have hrun : u.rx.reordRunning = s.rx.reordRunning := by rw [run.rx_of_reassembly]
  have hvrX : u.rx.vrX = s.rx.vrX := by rw [run.rx_of_reassembly]
  have hvrH : t.rx.vrH = u.rx.vrH := by rw [run.rx_of_timer]
  have hcfg : u.cfg = s.cfg := by obtain ⟨_, _, _, _, _, _, rfl⟩ := run.frame; rfl
  have hrx : t.rx = (updateReorderingTimer u).rx := by rw [run.answer, respond_rx]
  have hout : t.out = (updateReorderingTimer u).out ++ [.response (responseOf .ok [] [])] := by
    rw [run.answer, respond_out]
  by_cases hkept : SnapshotKept s t
  · have hkeep : reordMustStop u = false :=
      Bool.eq_false_iff.mpr fun hmust => (run.reordMustStop_iff hreord hkept.1).mp hmust hkept
    rw [updateReorderingTimer_of_kept (hrun.trans hkept.1) hkeep] at hrx hout
    refine ⟨?_, ?_, ?_⟩
    · rw [decide_eq_true (run.vrH_ahead hreord hkept), hrx, hrun, hkept.1]
    · rw [if_neg fun h => h.2 hkept, hrx, hvrX]
    · rw [hout, if_neg fun h => h.2 hkept, if_neg fun h => h.2 hkept, List.append_nil, List.append_nil]
  · have hdrop : u.rx.reordRunning = true → reordMustStop u = true := fun hrunning =>
      (run.reordMustStop_iff hreord (hrun ▸ hrunning)).mpr hkept
    obtain ⟨hrunning, hsnapshot, hevents⟩ := updateReorderingTimer_of_dropped hdrop rfl
    rw [← hrx, ← hvrH, ← run.vrR_eq] at hrunning hsnapshot
    rw [← hvrH, ← run.vrR_eq, ← hrunning, hrun, hcfg] at hevents
    refine ⟨hrunning, ?_, ?_⟩
    · rw [hsnapshot, ← hrunning, hvrX]
      simp only [hkept, not_false_eq_true, and_true]
    · rw [hout, hevents]
      simp only [hkept, not_false_eq_true, and_true]

/-! ### What is delivered (R230, R231) -/

/-- The SDUs that the consumed PDUs complete, and the SDU in progress after them. -/
theorem AcceptRun.takes : Takes { s with rx := rx } u (entries.flatMap rxFragments) := by
  obtain ⟨hparams, hprogress, hout⟩ := run.consumes.takes
  exact ⟨hparams, hprogress, hout⟩

theorem AcceptRun.consumed_eq : ((List.range (modBase s.rx.vrR t.rx.vrR)).filterMap fun k =>
    tableGet rx.window (snAdd s.rx.vrR k).toNat) = entries := by
  have hbase : rx.vrR = s.rx.vrR := by rw [run.rx_eq]
  rw [run.modBase_vrR, ← hbase]
  exact run.consumes.entries_eq.symm

/-- What an accepted Data PDU delivers, and the SDU that stays in progress (R220, R230, R231). -/
theorem AcceptRun.sdusDelivered (hreord : ReorderingSound s) :
    SdusDelivered s t fun x => tableGet rx.window x.toNat := by
  obtain ⟨-, -, hout⟩ := run.timer hreord
  obtain ⟨-, hprogress, htaken⟩ := run.takes
  have hcur : sduInProgress { s with rx := rx } = sduInProgress s := by
    rw [sduInProgress, run.rx_eq]
  rw [hcur] at hprogress htaken
  obtain ⟨hidle, -⟩ := run.sdu
  unfold SdusDelivered
  dsimp only
  rw [run.consumed_eq, ← hprogress, run.rx_of_timer]
  refine ⟨?_, ?_, _ ++ _, fun o ho => ?_, by rw [hout, htaken, ← List.append_assoc]⟩
  · cases hactive : u.rx.sduActive with
    | true => simp [sduInProgress, hactive]
    | false => simp [sduInProgress, hactive, hidle hactive]
  · cases hactive : u.rx.sduActive <;> simp [sduInProgress, hactive]
  · rcases List.mem_append.mp ho with ho | ho <;> split at ho <;> simp_all

end

end Sys2Proof.Machine
end

section
/-!
Complete Data PDUs (O44 to O46, O49; R220 to R222, R230, R231): what WRITE_PDU does with one that the window
test accepts, and the fragments of a PDU that is consumed at once.
-/
namespace Sys2Proof.Machine

/-! ### Tables over SNs -/

theorem tableGet_tableSet_sn {α : Type} (t : Table α) (sn : Sn) (v : α) (x : Sn) :
    tableGet (tableSet t sn.toNat v) x.toNat = if x = sn then some v else tableGet t x.toNat := by
  rw [tableGet_tableSet]
  exact if_congr BitVec.toNat_inj rfl rfl

theorem tableGet_tableErase_sn {α : Type} (t : Table α) (sn x : Sn) :
    tableGet (tableErase t sn.toNat) x.toNat = if x = sn then none else tableGet t x.toNat := by
  rw [tableGet_tableErase]
  exact if_congr BitVec.toNat_inj rfl rfl

theorem storeComplete_window (h : Header) (d : List Byte) (rx : Rx) :
    (fun x : Sn => tableGet (storeComplete h d rx).window x.toNat) =
      fun x => if x = h.sn then some ⟨h, d⟩ else tableGet rx.window x.toNat :=
  funext fun x => tableGet_tableSet_sn rx.window h.sn _ x

theorem storeComplete_segments (h : Header) (d : List Byte) (rx : Rx) :
    (fun x : Sn => tableGet (storeComplete h d rx).segments x.toNat) =
      fun x => if x = h.sn then none else tableGet rx.segments x.toNat :=
  funext fun x => tableGet_tableErase_sn rx.segments h.sn x

/-! ### WRITE_PDU (R220) -/

section
variable {h : Header} {d : List Byte} {s : State} (hin : modBase s.rx.vrR h.sn < 512)
  (hfresh : validAt s.rx.window h.sn = false)
include hin hfresh

theorem receiveData_of_complete (hrf : h.rf = false) :
    receiveData h d s = afterAccept h { s with rx := storeComplete h d s.rx } := by
  have hinside : insideRxWindow s h.sn = true := decide_eq_true hin
  rw [receiveData, hinside, if_neg (by simp), if_neg (by simp [hfresh]), if_neg (by simp [hrf])]

theorem receiveData_of_mergeError (hrf : h.rf = true) {c : ResultCode}
    (hm : mergeSegment h d s.rx = .error c) : receiveData h d s = .ok (respond c [] [] s) := by
  have hinside : insideRxWindow s h.sn = true := decide_eq_true hin
  rw [receiveData, hinside, if_neg (by simp), if_neg (by simp [hfresh]), if_pos hrf, hm]
  rfl

end

section
variable {b : List Byte} {s t : State} {h : Header} {len : Nat} (hs : Accepting s) (hrx : RxSound s)
  (hb : b.length ≤ s.params.maxPduBytes) (hdec : decodeDataHeader s.params b = some (h, len))
  (hin : modBase s.rx.vrR h.sn < 512) (hfresh : validAt s.rx.window h.sn = false)

include hs hb hdec in
theorem exec_writePdu_of_decoded :
    exec (.writePdu b) s = answerOf (receiveData h (b.drop len) s) := by
  rw [exec_writePdu hs hb, writePdu_of_decoded hdec]

include hs hrx hb hdec hin hfresh

/-- A complete Data PDU that the window test accepts is stored as it came (R220, R222). -/
theorem exec_writePdu_of_complete (hrf : h.rf = false) :
    ∃ t m u entries, exec (.writePdu b) s = .next t ∧
      AcceptRun h s (storeComplete h (b.drop len) s.rx) m u entries t := by
  have hstored : Stored h (b.drop len) s (storeComplete h (b.drop len) s.rx) :=
    ⟨decodeDataHeader_payload hdec, hin, hfresh, .inl rfl⟩
  obtain ⟨t, ht⟩ := hstored.completes hrx
  obtain ⟨m, u, entries, hrun⟩ := hstored.acceptRun hrx ht
  refine ⟨t, m, u, entries, ?_, hrun⟩
  rw [exec_writePdu_of_decoded hs hb hdec, receiveData_of_complete hin hfresh hrf, ht, answerOf_ok]

/-- A segment that the merge accepts leaves the receiver that the merge made (R220, R223). -/
theorem exec_writePdu_of_segment (hrf : h.rf = true) {rx : Rx}
    (hm : mergeSegment h (b.drop len) s.rx = .ok rx) :
    ∃ t m u entries, exec (.writePdu b) s = .next t ∧ AcceptRun h s rx m u entries t := by
  have hstored : Stored h (b.drop len) s rx := ⟨decodeDataHeader_payload hdec, hin, hfresh, .inr hm⟩
  obtain ⟨t, ht⟩ := hstored.completes hrx
  obtain ⟨m, u, entries, hrun⟩ := hstored.acceptRun hrx ht
  refine ⟨t, m, u, entries, ?_, hrun⟩
  rw [exec_writePdu_of_decoded hs hb hdec, receiveData_of_merged hrf hin hfresh hm, ht, answerOf_ok]

omit hrx in
theorem exec_writePdu_of_mergeError (hrf : h.rf = true) {c : ResultCode}
    (hm : mergeSegment h (b.drop len) s.rx = .error c) :
    exec (.writePdu b) s = .next (respond c [] [] s) := by
  rw [exec_writePdu_of_decoded hs hb hdec, receiveData_of_mergeError hin hfresh hrf hm, answerOf_ok]

/-- A Data PDU inside the window that is complete, or that WRITE_PDU answers with `OK`, was accepted. -/
theorem acceptRun_of_exec_writePdu (hexec : exec (.writePdu b) s = .next t)
    (hok : h.rf = false ∨ ∃ pre, t.out = pre ++ [.response (responseOf .ok [] [])]) :
    ∃ rx m u entries, AcceptRun h s rx m u entries t := by
  cases hrf : h.rf with
  | false =>
    obtain ⟨t', m, u, entries, hexec', hrun⟩ :=
      exec_writePdu_of_complete hs hrx hb hdec hin hfresh hrf
    cases hexec.symm.trans hexec'
    exact ⟨_, m, u, entries, hrun⟩
  | true =>
    obtain ⟨pre, hpre⟩ := hok.resolve_left (by simp [hrf])
    cases hm : mergeSegment h (b.drop len) s.rx with
    | ok rx =>
      obtain ⟨t', m, u, entries, hexec', hrun⟩ :=
        exec_writePdu_of_segment hs hrx hb hdec hin hfresh hrf hm
      cases hexec.symm.trans hexec'
      exact ⟨rx, m, u, entries, hrun⟩
    | error c =>
      cases hexec.symm.trans (exec_writePdu_of_mergeError hs hb hdec hin hfresh hrf hm)
      obtain ⟨-, hlast⟩ := List.append_inj' hpre rfl
      rcases mergeSegment_cases h (b.drop len) s.rx with he | he | ⟨_, he⟩ | ⟨_, he⟩ <;>
        cases hm.symm.trans he
      all_goals exact absurd hlast (by decide)

end

/-! ### A PDU consumed at once (R231) -/

/-- A fragment that continues the SDU in progress, or starts one, makes the SDU `held ++ f.bytes`. -/
theorem sduWith_of_fits {limit : Nat} {cur : Option (List Byte)} {f : Fragment} {held : List Byte}
    (hcur : f.continues = true → cur = some held) (hnew : f.continues = false → held = [])
    (hfit : (held ++ f.bytes).length ≤ limit) : sduWith limit cur f = some (held ++ f.bytes) := by
  have hwhole : (if f.continues then cur.map (· ++ f.bytes) else some f.bytes) =
      some (held ++ f.bytes) := by
    cases hc : f.continues with
    | true => rw [hcur hc]; rfl
    | false => rw [hnew hc]; rfl
  rw [sduWith, hwhole]
  exact if_pos hfit

theorem fragmentsOf_ne_nil (li : List Nat) (d : List Byte) : fragmentsOf li d ≠ [] := by
  cases li <;> exact List.cons_ne_nil _ _

/-- What the fragments of one PDU deliver when no SDU is too long: all of them, but the last stays in
progress when it does not end its SDU. -/
theorem sdusOf_fragmentRun {limit : Nat} {ends : Bool} {li : List Nat} {d : List Byte}
    {continues : Bool} {cur : Option (List Byte)} {held first : List Byte} {others : List (List Byte)}
    (hfrag : fragmentsOf li d = first :: others) (hcur : continues = true → cur = some held)
    (hnew : continues = false → held = [])
    (hfit : ∀ x ∈ (held ++ first) :: others, x.length ≤ limit) :
    sdusOf limit cur (fragmentRun ends li d continues) =
      if ends then ((held ++ first) :: others, none)
      else (((held ++ first) :: others).dropLast,
        some (((held ++ first) :: others).getLast (List.cons_ne_nil _ _))) := by
  induction li generalizing d continues cur held first others with
  | nil =>
    cases hfrag
    rw [fragmentRun, sdusOf, sduWith_of_fits hcur hnew (hfit _ List.mem_cons_self)]
    cases ends <;> rfl
  | cons l li ih =>
    obtain ⟨next, rest, hnext⟩ := List.exists_cons_of_ne_nil (fragmentsOf_ne_nil li (d.drop l))
    rw [fragmentsOf, hnext] at hfrag
    cases hfrag
    obtain ⟨hfirst, hlater⟩ := List.forall_mem_cons.mp hfit
    have hrest := ih (continues := false) (cur := none) (held := []) hnext nofun (fun _ => rfl) hlater
    rw [fragmentRun, sdusOf, sduWith_of_fits hcur hnew hfirst, if_pos rfl, hrest]
    cases ends <;> rfl

/-- With the PDU stored at `VR_R` and the next SN missing, one SN is consumed. -/
theorem AcceptRun.vrR_succ {h : Header} {s u t : State} {rx : Rx} {m : Sn} {entries : List RxEntry}
    (run : AcceptRun h s rx m u entries t) (hfirst : validAt rx.window s.rx.vrR = true)
    (hnext : validAt rx.window (s.rx.vrR + 1) = false) : t.rx.vrR = s.rx.vrR + 1 := by
  have hmoved : t.rx.vrR ≠ s.rx.vrR := fun heq => by
    have hmissing := run.vrR_missing
    rw [heq] at hmissing
    rw [validAt, hmissing] at hfirst
    cases hfirst
  have hone := modBase_succ_base s.rx.vrR
  have hle : modBase s.rx.vrR t.rx.vrR ≤ 1 := by
    by_contra hlt
    have hpassed := run.consumed (x := s.rx.vrR + 1) (by omega)
    rw [hnext] at hpassed
    cases hpassed
  have hpos : modBase s.rx.vrR t.rx.vrR ≠ 0 := fun h0 => hmoved (modBase_eq_zero.mp h0)
  exact modBase_inj (b := s.rx.vrR) (by omega)

/-- What is delivered when the PDU `entry` at `VR_R` is the only one consumed. -/
theorem sdusDelivered_one {s t : State} {stored : Sn → Option RxEntry} {entry : RxEntry}
    (hdelivered : SdusDelivered s t stored) (hvrR : t.rx.vrR = s.rx.vrR + 1)
    (hentry : stored s.rx.vrR = some entry) :
    let sdus := sdusOf s.params.maxSduBytes (sduInProgress s) (rxFragments entry)
    t.rx.sdu = sdus.2.getD [] ∧ t.rx.sduActive = sdus.2.isSome ∧
    ∃ timer : List Output,
      (∀ o ∈ timer, o = .event (.timerStop .reordering) ∨
        o = .event (.timerStart .reordering s.cfg.tReordering)) ∧
      t.out = s.out ++ sdus.1.map (fun x => .event (.deliverSdu x)) ++ timer ++
        [.response (responseOf .ok [] [])] := by
  have hzero : snAdd s.rx.vrR 0 = s.rx.vrR := by simp [snAdd]
  have hone : ((List.range (modBase s.rx.vrR t.rx.vrR)).filterMap fun k =>
      stored (snAdd s.rx.vrR k)) = [entry] := by
    rw [hvrR, modBase_succ_base, List.range_one, List.filterMap_cons, hzero, hentry]
    rfl
  unfold SdusDelivered at hdelivered
  dsimp only at hdelivered
  rw [hone, List.flatMap_singleton] at hdelivered
  exact hdelivered

/-- A complete Data PDU at `VR_R`, with the next SN missing, is consumed at once (R230). -/
theorem AcceptRun.vrR_of_complete {h : Header} {d : List Byte} {s u t : State} {m : Sn}
    {entries : List RxEntry} (run : AcceptRun h s (storeComplete h d s.rx) m u entries t)
    (hsn : h.sn = s.rx.vrR) (hnext : validAt s.rx.window (s.rx.vrR + 1) = false) :
    t.rx.vrR = s.rx.vrR + 1 := by
  have hstored := congrFun (storeComplete_window h d s.rx)
  have hne : s.rx.vrR + 1 ≠ h.sn := fun heq => by
    have hone := modBase_succ_base s.rx.vrR
    rw [heq, hsn, modBase_self] at hone
    cases hone
  refine run.vrR_succ (validAt_of_some ((hstored s.rx.vrR).trans (if_pos hsn.symm))) ?_
  rw [validAt, hstored, if_neg hne]
  exact hnext

end Sys2Proof.Machine

open Sys2Proof.Machine in
/-- Settles O44, by the run of the acceptance (`AcceptRun.receiverMoved`). -/
theorem completePduStored : Obligations.CompletePduStored := by
  intro b s h len hs hrx hb hdec hrf hin hfresh
  obtain ⟨t, m, u, entries, hexec, hrun⟩ := exec_writePdu_of_complete hs hrx hb hdec hin hfresh hrf
  have hmoved := hrun.receiverMoved
  rw [storeComplete_window, storeComplete_segments] at hmoved
  refine ⟨t, hexec, hmoved, fun off hle => ?_⟩
  have hget := hrun.window h.sn
  rw [if_neg (Nat.not_lt.mpr hle), storeComplete, tableGet_tableSet_self] at hget
  rw [byteAt, hget]
  rfl

open Sys2Proof.Machine in
/-- Settles O45: the timer's update follows what was delivered (`AcceptRun.timer`, `AcceptRun.takes`). -/
theorem reorderingTimerRule : Obligations.ReorderingTimerRule := by
  intro b s t h len hs hrx hb hdec hin hfresh hexec hok
  obtain ⟨rx, m, u, entries, hrun⟩ := acceptRun_of_exec_writePdu hs hrx hb hdec hin hfresh hexec hok
  obtain ⟨-, -, -, hreord, -⟩ := hrx
  obtain ⟨hrunning, hvrX, hout⟩ := hrun.timer hreord
  rw [hrun.takes.out] at hout
  exact ⟨hrunning, hvrX, _, hout⟩

open Sys2Proof.Machine in
/-- Settles O46: the first clause is `AcceptRun.sdusDelivered`, and the second is the same for the one PDU
consumed, whose fragments `sdusOf_fragmentRun` follows. -/
theorem inOrderDelivery : Obligations.InOrderDelivery := by
  refine ⟨fun b s h len hs hrx hb hdec hrf hin hfresh => ?_,
    fun b s h len first others hs hrx hb hdec hrf hsn hnext hfrag hactive => ?_⟩
  · obtain ⟨t, m, u, entries, hexec, hrun⟩ := exec_writePdu_of_complete hs hrx hb hdec hin hfresh hrf
    obtain ⟨-, -, -, hreord, -⟩ := hrx
    exact ⟨t, hexec, storeComplete_window h (b.drop len) s.rx ▸ hrun.sdusDelivered hreord⟩
  · intro sdus hfit
    have hin : modBase s.rx.vrR h.sn < 512 := by rw [hsn, modBase_self]; decide
    obtain ⟨t, m, u, entries, hexec, hrun⟩ :=
      exec_writePdu_of_complete hs hrx hb hdec hin (hsn ▸ hrx.vrR_missing) hrf
    obtain ⟨-, -, -, hreord, -⟩ := hrx
    have hvrR := hrun.vrR_of_complete hsn hnext
    obtain ⟨hsdu, hprogress, timer, htimer, hout⟩ :=
      sdusDelivered_one (storeComplete_window h (b.drop len) s.rx ▸ hrun.sdusDelivered hreord) hvrR
        (if_pos hsn.symm)
    have htaken := sdusOf_fragmentRun (ends := !h.fiE) (continues := h.fiS)
      (cur := sduInProgress s) (held := if h.fiS then s.rx.sdu else []) hfrag
      (fun hc => by rw [sduInProgress, if_pos (hactive hc), if_pos hc])
      (fun hc => by rw [hc]; rfl) hfit
    rw [rxFragments_eq, htaken] at hsdu hprogress hout
    refine ⟨t, timer, hexec, hvrR, htimer, ?_, ?_, ?_⟩
    · rw [hout]; cases h.fiE <;> rfl
    · rw [hsdu]; cases h.fiE <;> rfl
    · rw [hprogress]; cases h.fiE <;> rfl

open Sys2Proof.Machine in
/-- Settles O49: afterwards the SN is in the window, or `VR_R` has passed it. -/
theorem duplicateIdempotent : Obligations.DuplicateIdempotent := by
  intro b s t h len hs hrx hb hdec hrf hin hfresh hexec
  obtain ⟨t', m, u, entries, hexec', hrun⟩ := exec_writePdu_of_complete hs hrx hb hdec hin hfresh hrf
  cases hexec.symm.trans hexec'
  obtain ⟨_, _, _, ht, -⟩ := hrun.moved
  have hparams : t.params = s.params := by rw [ht]
  have hacc : Accepting t := by rw [ht]; exact hs
  rw [exec_writePdu_of_decoded hacc (hparams ▸ hb) (hparams ▸ hdec)]
  rcases Nat.lt_or_ge (modBase s.rx.vrR h.sn) (modBase s.rx.vrR t.rx.vrR) with hlt | hge
  · have hfar := modBase_passed hlt
    have hR : modBase s.rx.vrR t.rx.vrR ≤ 512 := (hrun.vrR_le.trans hrun.below).trans hrun.bound
    exact .inr (by rw [receiveData_of_outside (by omega), answerOf_ok])
  · have hnear := modBase_shift hge
    have hget := hrun.window h.sn
    rw [if_neg (Nat.not_lt.mpr hge), storeComplete, tableGet_tableSet_self] at hget
    exact .inl (by rw [receiveData_of_duplicate (by omega) (validAt_of_some hget), answerOf_ok])
end

section
/-!
A segment (O47; R223): when it contradicts what is known of its parent, when it brings no new byte, the entry it is
merged into, and the parent that a complete entry rebuilds.
-/
namespace Sys2Proof.Machine

/-! ### What is held of a parent (R31) -/

theorem rangeByte_singleton (bytes : List Byte) (off : Nat) :
    rangeByte [⟨0, bytes⟩] off = bytes[off]? := by
  rw [rangeByte, rangeByte]
  split_ifs with hin
  · rfl
  · exact (List.getElem?_eq_none (by dsimp only at hin; omega)).symm

/-- The segment store reads like the entry that a merge starts from. -/
theorem byteAt_rxSegment (s : State) (sn : Sn) (off : Nat) :
    byteAt s .rxSegment sn.toNat off = rangeByte (segEntryOf s.rx.segments sn).ranges off := by
  rw [byteAt, segEntryOf]
  cases tableGet s.rx.segments sn.toNat <;> rfl

/-- A segment contradicts its parent only when an entry of the parent is held (R223). -/
theorem segmentConsistent_segEntryOf_iff {table : Table SegEntry} {sn : Sn} {h : Header} {stop : Nat} :
    segmentConsistent (segEntryOf table sn) h stop = true ↔ ¬ ∃ e ∈ tableGet table sn.toNat,
      (e.tlKnown = true ∧ e.tl < stop) ∨ (h.lsf = true ∧ e.tlKnown = true ∧ stop ≠ e.tl) ∨
      (h.lsf = true ∧ ∃ r ∈ e.ranges, stop < r.so + r.bytes.length) := by
  rw [segmentConsistent_iff, segEntryOf]
  cases tableGet table sn.toNat with
  | none => simp
  | some e =>
    simp only [Option.getD_some, Option.mem_some_iff, exists_eq_left', not_or, not_and, not_exists,
      not_lt, ne_eq, not_not]

/-- A segment brings a new byte exactly when one of its offsets is free (R223). -/
theorem newBytes_ne_nil_iff {ranges : List ByteRange} {start : Nat} {d : List Byte} :
    newBytes ranges start d ≠ [] ↔
      ∃ off, start ≤ off ∧ off < start + d.length ∧ rangeByte ranges off = none := by
  obtain ⟨-, hnew, hfree⟩ := newBytes_spec ranges start d
  constructor
  · intro hne
    obtain ⟨⟨off, byte⟩, hmem⟩ := List.exists_mem_of_ne_nil _ hne
    obtain ⟨hcovered, hstart, hbyte⟩ := hnew _ hmem
    obtain ⟨hlt, -⟩ := List.getElem?_eq_some_iff.mp hbyte
    rw [← rangeByte_isSome, Option.isSome_eq_false_iff, Option.isNone_iff_eq_none] at hcovered
    dsimp only at hstart hlt
    exact ⟨off, hstart, by omega, hcovered⟩
  · rintro ⟨off, hstart, hstop, hnone⟩
    have hcovered : covered ranges off = false := by rw [← rangeByte_isSome, hnone]; rfl
    obtain ⟨byte, hmem, -⟩ := hfree off hstart hstop hcovered
    exact List.ne_nil_of_mem hmem

/-! ### The merged entry (R223) -/

/-- What a segment announces: its own boundaries, and its ends where they are aligned. -/
theorem mem_announcedBounds {h : Header} {start stop x : Nat} : x ∈ announcedBounds h start stop ↔
    (∃ j, j < h.li.length ∧ x = start + (h.li.take (j + 1)).sum) ∨
    (0 < start ∧ h.fiS = false ∧ x = start) ∨ (h.lsf = false ∧ h.fiE = false ∧ x = stop) := by
  have hinner : x ∈ boundariesFrom start h.li ↔
      ∃ j, j < h.li.length ∧ x = start + (h.li.take (j + 1)).sum := by
    simp only [boundariesFrom_eq_map, List.mem_map, List.mem_range, eq_comm]
  have hend : ∀ (c : Prop) [Decidable c] (y : Nat), x ∈ (if c then [y] else []) ↔ c ∧ x = y := by
    intro c _ y
    by_cases hc : c <;> simp [hc]
  rw [announcedBounds, List.mem_append, List.mem_append, hinner, hend, hend, or_assoc, and_assoc,
    and_assoc]

theorem segmentMerged_merged {entry : SegEntry} (hok : SegEntryOk entry) (h : Header) (d : List Byte) :
    SegmentMerged entry (merged entry h d) h d := by
  obtain ⟨hranges, hbounds, -, -⟩ := hok
  obtain ⟨hapart, hbytes⟩ := mergedEntry_ranges (h := h) (d := d) hranges (h.so + d.length)
  refine ⟨hbytes, hapart, fun x => ?_, foldl_insertBound_pairwise _ hbounds, rfl, rfl,
    fun _ => ⟨rfl, rfl⟩, fun _ => rfl⟩
  refine mem_foldl_insertBound.trans ?_
  rw [mem_announcedBounds, or_comm]

/-! ### The complete parent (R223) -/

/-- The length of the parent is known, and every byte of it is held. -/
abbrev ParentComplete (e : SegEntry) : Prop :=
  e.tlKnown = true ∧ ∀ off, off < e.tl → (rangeByte e.ranges off).isSome = true

theorem completePayload_bytes {e : SegEntry} {bytes : List Byte}
    (hbytes : completePayload e = some bytes) :
    bytes.length = e.tl ∧ ∀ off, bytes[off]? = rangeByte e.ranges off := by
  obtain ⟨-, hlen, hranges⟩ := completePayload_eq_some_iff.mp hbytes
  exact ⟨hlen, fun off => by rw [hranges, rangeByte_singleton]⟩

theorem parentComplete_of_completePayload {e : SegEntry} {bytes : List Byte}
    (hbytes : completePayload e = some bytes) : ParentComplete e := by
  obtain ⟨hknown, -, -⟩ := completePayload_eq_some_iff.mp hbytes
  obtain ⟨hlen, hread⟩ := completePayload_bytes hbytes
  refine ⟨hknown, fun off hoff => ?_⟩
  rw [← hread, List.getElem?_eq_getElem (hlen ▸ hoff)]
  rfl

/-- The bytes that an entry holds at the offsets of its parent. -/
def heldBytes (e : SegEntry) : List Byte :=
  (List.range e.tl).map fun off => (rangeByte e.ranges off).getD 0

theorem heldBytes_length (e : SegEntry) : (heldBytes e).length = e.tl := by simp [heldBytes]

theorem rangeByte_eq_heldBytes {e : SegEntry} (hok : SegEntryOk e) (hc : ParentComplete e) (off : Nat) :
    rangeByte e.ranges off = (heldBytes e)[off]? := by
  obtain ⟨-, -, htl, -⟩ := hok
  obtain ⟨hknown, hheld⟩ := hc
  by_cases hoff : off < e.tl
  · obtain ⟨byte, hbyte⟩ := Option.isSome_iff_exists.mp (hheld off hoff)
    simp [heldBytes, hoff, hbyte]
  · rw [List.getElem?_eq_none (by rw [heldBytes_length]; omega)]
    by_contra hne
    obtain ⟨r, hr, -, hlt⟩ := exists_range_of_rangeByte hne
    have := (htl hknown).2 r hr
    omega

/-- In a sound entry all bytes of the parent stand in one range, from offset 0 (R31). -/
theorem completePayload_of_parentComplete {e : SegEntry} (hok : SegEntryOk e) (hc : ParentComplete e) :
    completePayload e = some (heldBytes e) ∧ e.fiSKnown = true := by
  have hread := rangeByte_eq_heldBytes hok hc
  have hlen := heldBytes_length e
  obtain ⟨hapart, -, htl, hfiS⟩ := hok
  obtain ⟨hknown, -⟩ := hc
  have hpos := (htl hknown).1
  have hranges := ranges_eq_singleton hapart (List.length_pos_iff.mp (by omega)) hread
  exact ⟨completePayload_eq_some_iff.mpr ⟨hknown, hlen, hranges⟩,
    hfiS ⟨0, heldBytes e⟩ (hranges ▸ List.mem_cons_self) rfl⟩

theorem rebuilt_eq_parentOf (e : SegEntry) (sn : Sn) (bytes : List Byte) :
    ⟨rebuiltHeader e sn, bytes⟩ = parentOf sn e bytes := by
  rw [rebuiltHeader, parentOf, differencesFrom_eq_zipWith]

/-! ### The three outcomes of a merge (R223) -/

section
variable {h : Header} {d : List Byte} {rx : Rx}

theorem mergeSegment_of_contradiction
    (hc : ¬ segmentConsistent (segEntryOf rx.segments h.sn) h (h.so + d.length) = true) :
    mergeSegment h d rx = .error .errCorruptHeader := by
  unfold mergeSegment
  dsimp only
  rw [if_pos (by simpa using hc)]

variable (hc : segmentConsistent (segEntryOf rx.segments h.sn) h (h.so + d.length) = true)
include hc

theorem mergeSegment_of_nothing_new
    (hnew : newBytes (segEntryOf rx.segments h.sn).ranges h.so d = []) :
    mergeSegment h d rx = .error .dropDuplicate := by
  unfold mergeSegment
  dsimp only
  rw [hc, hnew, if_neg (by simp), if_pos (by simp)]

/-- The tables after an accepted segment: the rebuilt parent, or else the merged entry. -/
theorem mergeSegment_of_new (hnew : newBytes (segEntryOf rx.segments h.sn).ranges h.so d ≠ [])
    (hfresh : validAt rx.window h.sn = false) :
    let e := merged (segEntryOf rx.segments h.sn) h d
    let parent := (completePayload e).map (parentOf h.sn e)
    ∃ rx', mergeSegment h d rx = .ok rx' ∧
      (fun x : Sn => tableGet rx'.window x.toNat) =
        (fun x => if x = h.sn then parent else tableGet rx.window x.toNat) ∧
      (fun x : Sn => tableGet rx'.segments x.toNat) =
        fun x => if x = h.sn then (if parent.isSome then none else some e)
          else tableGet rx.segments x.toNat := by
  intro e parent
  cases hpayload : completePayload e with
  | none =>
    have hparent : parent = none := by simp [parent, hpayload]
    refine ⟨_, mergeSegment_of_partial rfl hc hnew hpayload, funext fun x => ?_, funext fun x => ?_⟩
    · rw [hparent]
      split
      · next hx => simpa [validAt, hx] using hfresh
      · rfl
    · rw [hparent]
      exact tableGet_tableSet_sn rx.segments h.sn e x
  | some bytes =>
    have hparent : parent = some (parentOf h.sn e bytes) := by simp [parent, hpayload]
    refine ⟨_, mergeSegment_of_complete rfl hc hnew hpayload, funext fun x => ?_, funext fun x => ?_⟩
    · rw [hparent, ← rebuilt_eq_parentOf]
      exact tableGet_tableSet_sn rx.window h.sn _ x
    · rw [hparent]
      exact tableGet_tableErase_sn rx.segments h.sn x

end

end Sys2Proof.Machine

open Sys2Proof.Machine in
/-- Settles O47: the three outcomes of the merge, and for an accepted segment the run of the acceptance. -/
theorem segmentMerge : Obligations.SegmentMerge := by
  intro b s h len hs hrx hb hdec hrf hin hfresh d stop held contradicts complete stored
  have hheld : ∀ off, held off = rangeByte (segEntryOf s.rx.segments h.sn).ranges off :=
    byteAt_rxSegment s h.sn
  have hconsistent : segmentConsistent (segEntryOf s.rx.segments h.sn) h stop = true ↔ ¬ contradicts :=
    segmentConsistent_segEntryOf_iff
  refine ⟨fun hc => ?_, fun hc hall => ?_, fun hc hfree => ?_⟩
  · exact exec_writePdu_of_mergeError hs hb hdec hin hfresh hrf
      (mergeSegment_of_contradiction fun hok => hconsistent.mp hok hc)
  · have hnone : newBytes (segEntryOf s.rx.segments h.sn).ranges h.so d = [] := by
      by_contra hne
      obtain ⟨off, hstart, hstop, hfree⟩ := newBytes_ne_nil_iff.mp hne
      have hsome := hall off hstart hstop
      rw [hheld, hfree] at hsome
      cases hsome
    exact exec_writePdu_of_mergeError hs hb hdec hin hfresh hrf
      (mergeSegment_of_nothing_new (hconsistent.mpr hc) hnone)
  · obtain ⟨off, hstart, hstop, hnone⟩ := hfree
    have hnew : newBytes (segEntryOf s.rx.segments h.sn).ranges h.so d ≠ [] :=
      newBytes_ne_nil_iff.mpr ⟨off, hstart, hstop, hheld off ▸ hnone⟩
    obtain ⟨rx, hm, hwindow, hsegments⟩ :=
      mergeSegment_of_new (hconsistent.mpr hc) hnew hfresh
    obtain ⟨t, m, u, entries, hexec, hrun⟩ :=
      exec_writePdu_of_segment hs hrx hb hdec hin hfresh hrf hm
    obtain ⟨-, -, hsound, hreord, -⟩ := hrx
    have hentry := segEntryOf_ok hsound h.sn
    have hmerged : SegEntryOk (merged (segEntryOf s.rx.segments h.sn) h d) :=
      merged_ok hentry (Nat.one_le_of_lt (decodeDataHeader_payload hdec)) (hconsistent.mpr hc)
    have hmoved := hrun.receiverMoved
    have hdelivered := hrun.sdusDelivered hreord
    rw [hwindow, hsegments] at hmoved
    rw [hwindow] at hdelivered
    refine ⟨t, _, _, hexec, segmentMerged_merged hentry h d, fun hpart => ?_, fun hall => ?_, hmoved,
      hdelivered⟩
    · rw [Option.map_eq_none_iff]
      exact Option.eq_none_iff_forall_ne_some.mpr fun bytes hbytes =>
        hpart (parentComplete_of_completePayload hbytes)
    · obtain ⟨hbytes, hstarted⟩ := completePayload_of_parentComplete hmerged hall
      obtain ⟨hlen, hread⟩ := completePayload_bytes hbytes
      exact ⟨hstarted, _, by rw [hbytes]; rfl, hlen, hread⟩
end

section
/-!
RESET, and REESTABLISH and STOP with one sequencer (O10, O12; R250, R252, R253, R290): `clear_all()` to the
last field, and what each command leaves of it.
-/
namespace Sys2Proof.Machine

/-- The pool after clearing, with `FREE` written out (R33, R165). -/
theorem Pool_cleared_eq (p : Params) :
    Pool.cleared p = { slots := [], free := List.range p.poolCapacity } := by
  rw [← Pool_cleared_free]
  rfl

/-- `clear_all()` in one form, with the events of R252 by their name. -/
theorem clearAll_stopEvents (s : State) :
    clearAll s = { s with
      tx := Tx.cleared s.params
      pool := { slots := [], free := List.range s.params.poolCapacity }
      rx := Rx.cleared s.params
      timers := {
        pollRetx := s.timers.pollRetx && !s.tx.pollRetxRunning
        reordering := s.timers.reordering && !s.rx.reordRunning
        statusProhibit := s.timers.statusProhibit && !s.tx.statusProhibitRunning }
      out := s.out ++ stopEvents s } := by
  rw [clearAll_eq, stopTimers_stopEvents, Pool_cleared_eq]

/-- With one sequencer a clearing command is one step (R252, R253). -/
theorem clearingCommand_oneSeq (enable : Bool) {s : State} (h : s.params.dualSeq = false) :
    clearingCommand enable s = respond .ok [] [] (leaveFailure enable (clearAll s)) :=
  if_neg (by rw [h]; exact Bool.false_ne_true)

/-- What RESET and the reset input have in common: everything R290 gives a value is at that value. -/
structure AtReset (t : State) : Prop where
  tx : t.tx = Tx.cleared t.params
  rx : t.rx = Rx.cleared t.params
  pool : t.pool = { slots := [], free := List.range t.params.poolCapacity }
  enabled : t.enabled = false
  failed : t.failed = false
  cfgValid : t.cfgValid = false
  txSduCount : t.txSduCount = 0
  lostPduCount : t.lostPduCount = 0

theorem atReset_initial (p : Params) : AtReset (State.initial p) where
  tx := rfl
  rx := rfl
  pool := Pool_cleared_eq p
  enabled := rfl
  failed := rfl
  cfgValid := rfl
  txSduCount := rfl
  lostPduCount := rfl

/-- RESET leaves the engine at reset and answers `OK` after the `timer_stop` events (R250). -/
theorem exec_reset (s : State) : ∃ t, exec .reset s = .next t ∧ AtReset t ∧
    t.out = s.out ++ stopEvents s ++ [.response ⟨[0], []⟩] ∧ t.params = s.params ∧
    t.port = s.port := by
  rw [exec, execReset, clearAll_stopEvents]
  exact ⟨_, rfl, ⟨rfl, rfl, rfl, rfl, rfl, rfl, rfl, rfl⟩, rfl, rfl, rfl⟩

/-- No byte of the five stores survives a reset (R70, R290). -/
theorem AtReset.byteAt_eq_none {t : State} (h : AtReset t) (space : Space) (owner off : Nat) :
    byteAt t space owner off = none := by
  cases space with
  | sdu | txPdu => rw [byteAt, h.tx]; rfl
  | rxPdu | rxSegment | rxSdu => rw [byteAt, h.rx]; rfl

end Sys2Proof.Machine

open Sys2Proof Sys2Proof.Machine in
/-- Settles O10: the reset input and RESET leave the same (`AtReset`), and cleared halves hold the values of
R290. -/
theorem resetLeaves : Obligations.ResetLeaves := by
  refine ⟨fun t ht => ?_, rfl, fun s => ?_⟩
  · have hreset : AtReset t := by
      rcases ht with ⟨p, rfl⟩ | ⟨s, hs⟩
      · exact atReset_initial p
      · obtain ⟨u, hu, hreset, -⟩ := exec_reset s
        cases hs.symm.trans hu
        exact hreset
    obtain ⟨htx, hrx, hpool, henabled, hfailed, hvalid, hsdus, hlost⟩ := hreset
    simp [vtMs, vrMr, validAt, readCfg, windowSize, htx, hrx, hpool, henabled, hfailed, hvalid, hsdus,
      hlost, Tx.cleared, Rx.cleared]
  · obtain ⟨t, ht, hreset, hout, hparams, hport⟩ := exec_reset s
    exact ⟨t, ht, hout, hparams, hport, hreset.byteAt_eq_none⟩

open Sys2Proof Sys2Proof.Machine in
/-- Settles O12: with one sequencer both commands are `clear_all()` and the way out of the failed state. -/
theorem clearingCommands : Obligations.ClearingCommands := by
  intro s cleared
  have hclear (enable : Bool) (hone : s.params.dualSeq = false) :
      clearingCommand enable s = cleared enable := by
    rw [clearingCommand_oneSeq enable hone, clearAll_stopEvents]
    rfl
  refine ⟨fun hunconfigured => ?_, fun hone => ⟨fun hconfigured => ?_, ?_⟩⟩
  · rw [exec, execReestablish, hunconfigured]
    rfl
  · rw [← hclear true hone]
    exact exec_clearing (enable := true) fun _ => hconfigured
  · rw [← hclear false hone]
    exact exec_clearing (enable := false) nofun
end

section
/-!
CONFIGURE, GET_METRICS and READ_VAR (O11, O14; R251, R254, R255): the numbers of R94, and the word each
variable is read as.
-/
namespace Sys2Proof

/-- The number of a variable (R94). -/
def Var.number : Var → Nat
  | .vtA => 0
  | .vtS => 1
  | .vtMs => 2
  | .pollSn => 3
  | .pduWithoutPoll => 4
  | .byteWithoutPoll => 5
  | .vrR => 6
  | .vrMr => 7
  | .vrX => 8
  | .vrMs => 9
  | .vrH => 10
  | .flags => 11
  | .sduQLength => 12
  | .retxQLength => 13
  | .txWindowCount => 14
  | .rxWindowCount => 15
  | .freeSlots => 16

namespace Machine

/-- The numbers up to 16 name a variable each (R94). -/
theorem exists_var_of_le {n : Nat} (h : n ≤ 16) : ∃ v, varOfNat n = some v ∧ v.number = n := by
  have hall : ∀ k < 17, (varOfNat k).map Var.number = some k := by decide
  exact Option.map_eq_some_iff.mp (hall n (Nat.lt_succ_of_le h))

/-- The numbers above 16 name none (R95). -/
theorem varOfNat_of_gt {n : Nat} (h : 16 < n) : varOfNat n = none := by
  obtain ⟨k, rfl⟩ := Nat.exists_eq_add_of_lt h
  rw [Nat.add_comm 16 k]
  rfl

/-- READ_VAR of a number that names a variable (R255). -/
theorem exec_readVar_of_some {var : Word} {v : Var} (h : varOfNat var.toNat = some v) (s : State) :
    exec (.readVar var) s = .next (respond .ok [readVar v s] [] s) := by
  rw [exec, execReadVar, h]

/-- The SN a window above another, on plain numbers (R133). -/
theorem wordOfSn_add_windowSize (x : Sn) :
    wordOfSn (x + BitVec.ofNat 10 windowSize) = BitVec.ofNat 32 ((x.toNat + 512) % 1024) := by
  rw [wordOfSn_eq, BitVec.toNat_add]
  rfl

/-- The flags word as a sum of its bits (R94). -/
theorem flagsWord_eq (s : State) : flagsWord s = BitVec.ofNat 32
    (s.rx.pollReceived.toNat + 2 * s.rx.doStatus.toNat + 4 * s.rx.reordRunning.toNat +
      8 * s.tx.pollRetxRunning.toNat + 16 * s.tx.pollRetxExpired.toNat +
      32 * s.tx.statusProhibitRunning.toNat + 64 * s.enabled.toNat + 128 * s.failed.toNat +
      256 * s.cfgValid.toNat) := by
  rw [flagsWord, ← BitVec.ofNat_toNat]
  congr 1
  simp only [toNat_append_eq_add, BitVec.toNat_ofBool]
  omega

end Machine
end Sys2Proof

open Sys2Proof Sys2Proof.Machine in
/-- Settles O11, check by check. -/
theorem configureWritesRegisters : Obligations.ConfigureWritesRegisters := by
  intro v0 v1 v2 v3 v4 v5 v6 s
  refine ⟨fun hrunning => ?_, fun hstopped hbad => ?_, fun hstopped h3 h6 => ?_⟩
  · exact if_pos hrunning
  · rw [exec, execConfigure, if_neg (Bool.eq_false_iff.mp hstopped), if_pos hbad]
    rfl
  · rw [exec, execConfigure, if_neg (Bool.eq_false_iff.mp hstopped), if_neg (not_or.mpr ⟨h3, h6⟩)]

open Sys2Proof Sys2Proof.Machine in
/-- Settles O14: a number up to 16 names a variable, whose word is read; any other is refused by the
legality check. -/
theorem observationCommands : Obligations.ObservationCommands := by
  intro s value
  have hvalue (v : Var) : readVar v s = BitVec.ofNat 32 (value v.number) := by
    cases v with
    | vtA | vtS | pollSn | vrR | vrX | vrMs | vrH => exact wordOfSn_eq _
    | vtMs | vrMr => exact wordOfSn_add_windowSize _
    | pduWithoutPoll | byteWithoutPoll =>
      exact ((BitVec.ofNat_toNat ..).trans (BitVec.setWidth_eq _)).symm
    | flags => exact flagsWord_eq s
    | sduQLength | retxQLength | txWindowCount | rxWindowCount | freeSlots => rfl
  refine ⟨rfl, fun var hle => ?_, fun var hgt => ?_⟩
  · obtain ⟨v, hv, hnumber⟩ := exists_var_of_le hle
    rw [exec_readVar_of_some hv, hvalue, hnumber]
  · have hillegal : (Instr.readVar var).legal s.params = false := by
      rw [Instr.legal, varOfNat_of_gt hgt]
      rfl
    exact exec_of_illegal hillegal
end

section
/-!
What a command does that is not the fatal failure (R260, R266): it neither sets `FAILED` nor emits
`protocol_failure` (`FailureFree`), and answers `OK` or refuses and changes nothing (`Settles`).
-/
namespace Sys2Proof.Machine

/-! ### No fatal failure (R266) -/

/-- From `s` to `t` `FAILED` is not set, and no `protocol_failure` is emitted. -/
structure FailureFree (s t : State) : Prop where
  failed : s.failed = false → t.failed = false
  out : ∃ added, t.out = s.out ++ added ∧ .event .protocolFailure ∉ added

theorem failureFree_of_same {s t : State} (hfailed : t.failed = s.failed) (hout : t.out = s.out) :
    FailureFree s t :=
  ⟨hfailed.trans, [], by rw [hout, List.append_nil], List.not_mem_nil⟩

theorem FailureFree.refl (s : State) : FailureFree s s := failureFree_of_same rfl rfl

theorem FailureFree.trans {s t u : State} (h : FailureFree s t) (h' : FailureFree t u) :
    FailureFree s u := by
  obtain ⟨added, hout, hadded⟩ := h.out
  obtain ⟨more, hout', hmore⟩ := h'.out
  exact ⟨h'.failed ∘ h.failed, added ++ more, by rw [hout', hout, List.append_assoc],
    List.not_mem_append hadded hmore⟩

/-- `FailureFree.trans` with the later part first: it tells Lean the state in between. -/
theorem FailureFree.after {s t u : State} (h' : FailureFree t u) (h : FailureFree s t) :
    FailureFree s u := h.trans h'

theorem failureFree_respond (c : ResultCode) (rs : List Word) (b : List Byte) (s : State) :
    FailureFree s (respond c rs b s) := ⟨id, _, rfl, by simp⟩

theorem failureFree_emit {e : Event} (he : e ≠ .protocolFailure) (s : State) :
    FailureFree s (emit e s) := ⟨id, _, rfl, by simpa using he.symm⟩

theorem failureFree_setTimer (t : TimerId) (b : Bool) (s : State) : FailureFree s (setTimer t b s) :=
  failureFree_of_same (setTimer_failed ..) (setTimer_out ..)

theorem failureFree_startTimer (t : TimerId) (d : Word) (s : State) :
    FailureFree s (startTimer t d s) :=
  (failureFree_setTimer t true s).trans (failureFree_emit (by nofun) _)

theorem failureFree_stopTimer (t : TimerId) (s : State) : FailureFree s (stopTimer t s) :=
  (failureFree_setTimer t false s).trans (failureFree_emit (by nofun) _)

theorem protocolFailure_not_mem_stopEvents (s : State) :
    .event .protocolFailure ∉ stopEvents s := by
  unfold stopEvents
  split <;> split <;> split <;> simp

theorem failureFree_stopTimers (s : State) : FailureFree s (stopTimers s) := by
  rw [stopTimers_stopEvents]
  exact ⟨id, _, rfl, protocolFailure_not_mem_stopEvents s⟩

/-- Clearing a half touches neither `FAILED` nor the ports (R252). -/
theorem failureFree_clearHalf (h : Half) (s : State) : FailureFree s (clearHalf h s) := by
  cases h <;> exact failureFree_of_same rfl rfl

theorem failureFree_clearAll (s : State) : FailureFree s (clearAll s) :=
  ((failureFree_stopTimers s).trans (failureFree_clearHalf .tx _)).trans
    (failureFree_clearHalf .rx _)

theorem failureFree_leaveFailure (enable : Bool) (s : State) :
    FailureFree s (leaveFailure enable s) :=
  ⟨fun _ => rfl, [], (List.append_nil _).symm, List.not_mem_nil⟩

/-! ### The two ways to answer (R260) -/

/-- The command answered `OK` and did not fail. -/
def Succeeds (s t : State) : Prop :=
  ∃ (u : State) (rs : List Word) (b : List Byte), FailureFree s u ∧ t = respond .ok rs b u

/-- A code other than `OK` and `ERR_PROTOCOL_FAILURE` (R260). -/
abbrev IsRefusal (c : ResultCode) : Prop := c ≠ .ok ∧ c ≠ .errProtocolFailure

/-- The command answered with a refusal and changed nothing but the model's own draw counter. -/
def Refuses (s t : State) : Prop :=
  ∃ (c : ResultCode) (rs : List Word) (b : List Byte) (draws : Nat),
    IsRefusal c ∧ t = respond c rs b { s with draws := draws }

/-- The command answered, and its answer is not the fatal failure. -/
def Settles (s t : State) : Prop := Succeeds s t ∨ Refuses s t

theorem succeeds_respond {s u : State} {rs : List Word} {b : List Byte} (h : FailureFree s u) :
    Succeeds s (respond .ok rs b u) := ⟨u, rs, b, h, rfl⟩

theorem Succeeds.after {s u t : State} (h : Succeeds u t) (hu : FailureFree s u) : Succeeds s t := by
  obtain ⟨v, rs, b, hv, rfl⟩ := h
  exact succeeds_respond (hu.trans hv)

theorem settles_respond {s u : State} {rs : List Word} {b : List Byte} (h : FailureFree s u) :
    Settles s (respond .ok rs b u) := .inl (succeeds_respond h)

theorem settles_refusal {c : ResultCode} (m : Nat) (s : State) (hc : IsRefusal c := by decide) :
    Settles s (respondError c m s) := .inr ⟨c, _, [], s.draws, hc, rfl⟩

/-- A free value drawn before the answer is the only trace of a refusal (R175). -/
theorem Settles.of_drawn {s t : State} {draws : Nat} (h : Settles { s with draws := draws } t) :
    Settles s t := by
  rcases h with h | ⟨c, rs, b, draws, hc, rfl⟩
  · exact .inl (h.after (failureFree_of_same rfl rfl))
  · exact .inr ⟨c, rs, b, draws, hc, rfl⟩

theorem Settles.failureFree {s t : State} (h : Settles s t) : FailureFree s t := by
  rcases h with ⟨u, rs, b, hu, rfl⟩ | ⟨c, rs, b, draws, -, rfl⟩
  · exact hu.trans (failureFree_respond ..)
  · have drawn : FailureFree s { s with draws := draws } := failureFree_of_same rfl rfl
    exact drawn.trans (failureFree_respond ..)

/-- A command behind the legality gate settles when its body does (R261 (1)). -/
theorem settles_of_requireLegal {legal : Bool} {m : Nat} {body : State → Answer} {s t : State}
    (h : requireLegal legal m body s = .next t) (hbody : body s = .next t → Settles s t) :
    Settles s t := by
  rcases requireLegal_cases h with ⟨-, h⟩ | ⟨-, rfl⟩
  · exact hbody h
  · exact settles_refusal m s

/-- A command behind the data-path gate settles when its body does (R267). -/
theorem settles_of_dataPath {m : Nat} {body : State → Answer} {s t : State}
    (h : dataPath m body s = .next t) (hbody : body s = .next t → Settles s t) : Settles s t := by
  rcases dataPath_cases h with ⟨-, rfl⟩ | ⟨-, -, rfl⟩ | ⟨-, -, -, h⟩
  · exact settles_refusal m s
  · exact settles_refusal m s
  · exact hbody h

/-- The response tells `OK` from every other code (R92, R260). -/
theorem eq_ok_of_responseOf_eq {c : ResultCode} {rs rs' : List Word} {b b' : List Byte}
    (h : responseOf c rs b = responseOf .ok rs' b') : c = .ok := by
  obtain ⟨hcode, -⟩ := List.cons.inj (congrArg Descriptor.words h)
  cases c with
  | ok => rfl
  | _ => exact absurd hcode (by decide)

end Sys2Proof.Machine
end

section
/-!
Observation commands in every state, and the refusal of data-path commands (O9; R261, R267).
-/
namespace Sys2Proof.Machine

/-! ### Observation commands (R267) -/

/-- The command answered without an event, left `FAILED` alone, and changed nothing if the answer is not
`OK`. -/
def Observes (s t : State) : Prop :=
  ∃ (u : State) (c : ResultCode) (rs : List Word) (b : List Byte), t = respond c rs b u ∧
    u.out = s.out ∧ u.failed = s.failed ∧
    (c = .ok ∨ u = s ∧ c ∈ [ResultCode.errIllegalCommand, .errCorruptHeader, .errPoolExhausted])

theorem observes_ok {s u : State} {rs : List Word} {b : List Byte} (hout : u.out = s.out)
    (hfailed : u.failed = s.failed) : Observes s (respond .ok rs b u) :=
  ⟨u, .ok, rs, b, rfl, hout, hfailed, .inl rfl⟩

theorem observes_error {c : ResultCode} (m : Nat) (s : State)
    (hc : c ∈ [ResultCode.errIllegalCommand, .errCorruptHeader, .errPoolExhausted] := by decide) :
    Observes s (respondError c m s) := ⟨s, c, _, [], rfl, rfl, rfl, .inr ⟨rfl, hc⟩⟩

theorem Observes.settles {s t : State} (h : Observes s t) : Settles s t := by
  obtain ⟨u, c, rs, b, rfl, hout, hfailed, rfl | ⟨rfl, hc⟩⟩ := h
  · exact settles_respond (failureFree_of_same hfailed hout)
  · refine .inr ⟨c, rs, b, u.draws, ⟨fun e => ?_, fun e => ?_⟩, rfl⟩ <;> simp [e] at hc

theorem observes_of_requireLegal {legal : Bool} {m : Nat} {body : State → Answer} {s : State}
    (hbody : ∃ t, body s = .next t ∧ Observes s t) :
    ∃ t, requireLegal legal m body s = .next t ∧ Observes s t := by
  cases legal with
  | true => exact hbody
  | false => exact ⟨_, rfl, observes_error m s⟩

/-- A diagnostic command, GET_METRICS and READ_VAR complete in every state (R267). -/
theorem exec_observes {i : Instr} (hi : isObservation i = true) (s : State) :
    ∃ t, exec i s = .next t ∧ Observes s t := by
  cases i with
  | getMetrics => exact ⟨_, rfl, observes_ok rfl rfl⟩
  | readVar var =>
    rw [exec, execReadVar]
    split
    · exact ⟨_, rfl, observes_error 1 s⟩
    · exact ⟨_, rfl, observes_ok rfl rfl⟩
  | encDataHdr hw li =>
    rw [exec, execEncDataHdr]
    refine observes_of_requireLegal ⟨_, rfl, ?_⟩
    rcases wordOrFree_cases Config.encodedHeaderLength
      (encodeDataHeader (headerOfWords hw li)).length s with ⟨-, h⟩ | ⟨-, w, h⟩ <;> rw [h]
    · exact observes_ok rfl rfl
    · exact observes_ok rfl rfl
  | decDataHdr | decStatus | poolAlloc =>
    simp only [exec, execDecDataHdr, execDecStatus, execPoolAlloc]
    refine observes_of_requireLegal ?_
    split
    · exact ⟨_, rfl, observes_error _ s⟩
    · exact ⟨_, rfl, observes_ok rfl rfl⟩
  | txModBase | rxModBase | encStatus | poolRelRlc | poolRelPdcp | poolIsAcked =>
    simp only [exec, execTxModBase, execRxModBase, execEncStatus, execPoolRelRlc, execPoolRelPdcp,
      execPoolIsAcked]
    exact observes_of_requireLegal ⟨_, rfl, observes_ok rfl rfl⟩
  | _ => cases hi

theorem settles_of_observation {i : Instr} {s t : State} (hi : isObservation i = true)
    (h : exec i s = .next t) : Settles s t := by
  obtain ⟨u, hu, observed⟩ := exec_observes hi s
  cases hu.symm.trans h
  exact observed.settles

/-! ### Refused data-path commands (R267) -/

theorem requireLegal_of_legal {legal : Bool} (h : legal = true) (m : Nat) (body : State → Answer)
    (s : State) : requireLegal legal m body s = body s := by rw [h, requireLegal_true]

/-- A legal data-path command meets the data-path gate first (R261, R267). -/
theorem exec_of_dataPath {i : Instr} {s : State} (hi : isDataPath i = true)
    (hlegal : i.legal s.params = true) :
    ∃ body, exec i s = dataPath i.opcode.fixedResults body s := by
  cases i with
  | writeSdu | discardSdu | readPdu | writePdu | handleControlPdu | getStatusPdu =>
    exact ⟨_, requireLegal_of_legal hlegal ..⟩
  | getBufferState | texpPollRetx | texpReordering | texpStatusProhibit =>
    simp only [exec, execGetBufferState, execTexpPollRetx, execTexpReordering, execTexpStatusProhibit]
    exact ⟨_, rfl⟩
  | _ => cases hi

theorem dataPath_of_failed {s : State} (h : s.failed = true) (m : Nat) (body : State → Answer) :
    dataPath m body s = .next (respond .errFailed (List.replicate m 0) [] s) := if_pos h

theorem dataPath_of_stopped {s : State} (hfailed : s.failed = false)
    (h : s.enabled = false ∨ s.cfgValid = false) (m : Nat) (body : State → Answer) :
    dataPath m body s = .next (respond .errNotEnabledState (List.replicate m 0) [] s) := by
  rw [dataPath, if_neg (by simp [hfailed]), if_pos (by simpa using h)]
  rfl

end Sys2Proof.Machine

open Sys2Proof Sys2Proof.Machine in
/-- Settles O9: a legal data-path command meets the gate of R267, and an observation command none. -/
theorem dataPathRefused : Obligations.DataPathRefused := by
  refine ⟨fun i s hi hlegal => ?_, fun i s hi => ?_⟩
  · obtain ⟨body, h⟩ := exec_of_dataPath hi hlegal
    rw [h]
    exact ⟨fun hfailed => dataPath_of_failed hfailed .., fun hfailed hstopped =>
      dataPath_of_stopped hfailed hstopped ..⟩
  · obtain ⟨t, ht, u, c, rs, b, rfl, hout, -, hc⟩ := exec_observes hi s
    refine ⟨_, c, rs, b, ht, by rw [respond_out, hout], fun e => ?_, fun e => ?_⟩ <;> simp [e] at hc
end

section
/-!
What every command answers and emits (O8, O60; R260, R266): a sound transmitter has its window floor, so
scheduling the oldest PDU never fails (R177), and each command succeeds, or refuses and changes nothing.
-/
namespace Sys2Proof.Machine

/-! ### Transmission (R170 to R184, R193 to R195) -/

theorem settles_writeSdu (q : Word) (b : List Byte) (s : State) : Settles s (writeSdu q b s) := by
  unfold writeSdu
  split
  · exact settles_refusal 0 s
  · split
    · exact settles_refusal 0 s
    · exact settles_respond (failureFree_of_same rfl rfl)

theorem settles_discardSdu (q : Word) (s : State) : Settles s (discardSdu q s) := by
  unfold discardSdu
  dsimp only
  split
  · split
    · exact settles_refusal 0 s
    · exact settles_respond (failureFree_of_same rfl rfl)
  · split <;> exact settles_refusal 0 s

theorem succeeds_transmit {s u : State} {h : Header} {payload : List Byte} (hu : FailureFree s u) :
    Succeeds s (transmit h payload u) := by
  rcases transmit_cases h payload u with ⟨-, e⟩ | ⟨-, e⟩ <;> rw [e]
  · have applied : FailureFree u (applyPoll u) := ⟨id, _, rfl, by simp⟩
    exact succeeds_respond (hu.trans applied)
  · exact succeeds_respond hu

/-- A retransmission never refuses: it sends a PDU, a segment, or nothing (R178, R210, R211). -/
theorem succeeds_buildRetx {r : RetxEntry} {rest : List RetxEntry} {n : Nat} {s t : State}
    (h : buildRetx r rest n s = .ok t) : Succeeds s t := by
  unfold buildRetx at h
  split at h
  · cases h; exact succeeds_respond (.refl s)
  split at h
  · cases h; exact succeeds_transmit (failureFree_of_same rfl rfl)
  unfold buildSegment at h
  split at h
  · cases h; exact succeeds_respond (.refl s)
  split at h
  · cases h
  · cases h; exact succeeds_transmit (failureFree_of_same rfl rfl)

theorem settles_buildNew {n : Nat} {s t : State} (h : buildNew n s = .ok t) : Settles s t := by
  unfold buildNew at h
  split at h
  · cases h; exact settles_respond (.refl s)
  split at h
  · cases h
  split at h
  · cases h
    split
    · exact settles_refusal 1 s
    · exact settles_respond (.refl s)
  · cases h; exact .inl (succeeds_transmit (failureFree_of_same rfl rfl))

/-- Every entry of a sound retransmission queue is in the window, so the first is sent (R23, R178). -/
theorem succeeds_sendData_of_queued {n : Nat} {s t : State} (hs : TxSound s) (hq : s.tx.retxQ ≠ [])
    (h : sendData n s = .ok t) : Succeeds s t := by
  obtain ⟨r, rest, hq⟩ := List.exists_cons_of_ne_nil hq
  obtain ⟨-, -, -, hretx⟩ := hs
  obtain ⟨e, he, -⟩ := hretx r (hq ▸ List.mem_cons_self)
  rw [sendData_of_head (stale := []) hq (by simp) (validAt_of_some he)] at h
  exact (succeeds_buildRetx h).after (failureFree_of_same rfl rfl)

theorem settles_sendData {n : Nat} {s t : State} (hs : TxSound s) (h : sendData n s = .ok t) :
    Settles s t := by
  by_cases hq : s.tx.retxQ = []
  · rw [sendData_of_none hq] at h
    exact settles_buildNew h
  · exact .inl (succeeds_sendData_of_queued hs hq h)

/-- A sound transmitter has its window floor, so scheduling the oldest PDU does not fail, and queues one if
any is unacknowledged (R46, R177). -/
theorem scheduleOldest_of_sound {s : State} (hs : TxSound s) :
    ∃ q, scheduleOldest s = some (withRetxQ s q) ∧ TxSound (withRetxQ s q) ∧
      (s.tx.vtA ≠ s.tx.vtS → q ≠ []) := by
  have sound : ∀ {q}, scheduleOldest s = some (withRetxQ s q) → TxSound (withRetxQ s q) := fun h => by
    obtain ⟨q', hq', hretx⟩ := scheduleOldest_retx h
    rw [hq']
    exact txSound_withRetxQ hs (hretx hs)
  rcases scheduleOldest_cases s with ⟨heq, h⟩ | ⟨hne, hmissing, -⟩ | ⟨-, ⟨e, he, -⟩, h⟩ |
    ⟨-, -, e, -, h⟩
  · exact ⟨s.tx.retxQ, h, hs, fun hne => absurd heq hne⟩
  · obtain ⟨-, ⟨-, -, floor⟩, -⟩ := hs
    have hvalid := floor hne
    rw [validAt, hmissing] at hvalid
    cases hvalid
  · exact ⟨s.tx.retxQ, h, hs, fun _ => List.ne_nil_of_mem he⟩
  · exact ⟨_, h, sound h, fun _ => by simp⟩

theorem settles_readData {n : Nat} {s t : State} (hs : TxSound s) (h : readData n s = .ok t) :
    Settles s t := by
  by_cases hcase : 512 ≤ modBase s.tx.vtA s.tx.vtS ∧ s.tx.retxQ = []
  · obtain ⟨hfull, hq⟩ := hcase
    have hne : s.tx.vtA ≠ s.tx.vtS := fun e => by
      rw [e, modBase_self] at hfull
      omega
    obtain ⟨q, hscheduled, hsound, hqueued⟩ := scheduleOldest_of_sound hs
    rw [readData_of_full hfull hq, hscheduled] at h
    exact .inl ((succeeds_sendData_of_queued hsound (hqueued hne) h).after
      (failureFree_of_same rfl rfl))
  · have hsend : readData n s = sendData n s := by
      by_cases hfull : 512 ≤ modBase s.tx.vtA s.tx.vtS
      · exact readData_of_queued (fun hq => hcase ⟨hfull, hq⟩) n
      · exact readData_of_room (Nat.lt_of_not_le hfull) n
    exact settles_sendData hs (hsend ▸ h)

theorem failureFree_statusSent (s : State) : FailureFree s (statusSent s) := by
  unfold statusSent
  dsimp only
  split
  · have cleared : FailureFree s
        { s with rx := { s.rx with doStatus := false, pollReceived := false } } :=
      failureFree_of_same rfl rfl
    exact cleared.trans (failureFree_startTimer ..)
  · exact failureFree_of_same rfl rfl

theorem settles_readPdu {n : Nat} {s t : State} (hs : TxSound s) (h : readPdu n s = .ok t) :
    Settles s t := by
  by_cases hdue : StatusDue s
  · obtain ⟨busy, -, hdraw⟩ := drawRxBusy_eq s
    have hdrawn : TxSound (busyDrawn s) := hs
    rw [readPdu, if_pos ((statusDue_iff s).mpr hdue), hdraw] at h
    cases busy with
    | true => exact (settles_readData hdrawn h).of_drawn
    | false =>
      dsimp only at h
      split at h
      · exact (settles_readData hdrawn h).of_drawn
      · cases h
        exact (settles_respond (failureFree_statusSent (busyDrawn s))).of_drawn
  · rw [readPdu_of_not_due hdue] at h
    exact settles_readData hs h

theorem succeeds_texpPollRetx {s : State} (hs : TxSound s) : Succeeds s (texpPollRetx s) := by
  have expired : FailureFree s (pollExpired s) := failureFree_of_same rfl rfl
  cases hrun : s.tx.pollRetxRunning with
  | false => rw [texpPollRetx_of_stale hrun]; exact succeeds_respond (.refl s)
  | true =>
    by_cases hwanted : OldestWanted s
    · have hsound : TxSound (pollExpired s) := hs
      obtain ⟨q, hscheduled, -⟩ := scheduleOldest_of_sound hsound
      rw [texpPollRetx_of_wanted hrun hwanted, hscheduled]
      exact succeeds_respond (expired.trans (failureFree_of_same rfl rfl))
    · rw [texpPollRetx_of_unwanted hrun hwanted]
      exact succeeds_respond expired

theorem succeeds_texpStatusProhibit (s : State) : Succeeds s (texpStatusProhibit s) := by
  unfold texpStatusProhibit
  split
  · exact succeeds_respond (failureFree_setTimer .statusProhibit false s)
  · exact succeeds_respond (.refl s)

theorem succeeds_getBufferState (s : State) : Succeeds s (getBufferState s) := by
  have term : ∃ k d, statusTerm s = (k, { s with draws := s.draws + d }) := by
    rcases statusTerm_cases s with ⟨-, h⟩ | ⟨-, -, h⟩ | ⟨-, -, k, -, h⟩
    · exact ⟨0, 0, h⟩
    · exact ⟨_, 0, h⟩
    · exact ⟨k, 1, h⟩
  obtain ⟨k, d, h⟩ := term
  obtain ⟨word, e, -⟩ := getBufferState_of_term h
  rw [e]
  exact succeeds_respond (failureFree_of_same rfl rfl)

/-! ### Reception of a STATUS PDU (R188 to R192) -/

theorem failureFree_stopPollIfCovered (n : Nat) (s : State) :
    FailureFree s (stopPollIfCovered n s) := by
  unfold stopPollIfCovered
  split
  · exact failureFree_stopTimer ..
  · exact .refl s

/-- The walk reports the SDUs that failed, and nothing else (R191). -/
theorem failureFree_walk (s : State) (st : StatusPdu) {n : Nat} (hn : n ≤ 1023) :
    FailureFree s (walk st.nacks (s.tx.retxQ.map (·.sn)) n s.tx.vtA [] s).2 := by
  obtain ⟨w, hwalk, hsound⟩ := walk_spec s st hn
  rw [hwalk]
  refine ⟨id, _, rfl, fun hmem => ?_⟩
  obtain ⟨e, he, heq⟩ := List.mem_map.mp hmem
  obtain ⟨_, rfl⟩ := hsound.failures e he
  cases heq

theorem failureFree_notify (touched : List Word) (s : State) : FailureFree s (notify touched s) := by
  rw [notify_eq]
  refine ⟨id, _, rfl, ?_⟩
  split <;> simp

theorem succeeds_processStatus (st : StatusPdu) (s : State) : Succeeds s (processStatus st s) := by
  have hlt : txModBase s st.ackSn < 1024 := modBase_lt ..
  have walked := (failureFree_stopPollIfCovered (txModBase s st.ackSn) s).trans
    (failureFree_walk _ st (Nat.le_of_lt_succ hlt))
  have fixed := walked.trans (failureFree_of_same (t := fixFloor _) rfl rfl)
  exact succeeds_respond (fixed.trans (failureFree_notify ..))

theorem settles_handleControlPdu (b : List Byte) (s : State) : Settles s (handleControlPdu b s) := by
  unfold handleControlPdu
  split
  · exact settles_refusal 0 s
  · split
    · exact .inl (succeeds_processStatus ..)
    · exact settles_refusal 0 s

/-! ### Reception of a Data PDU (R220 to R235) -/

/-- REASSEMBLE delivers SDUs and emits nothing else (R230, R231). -/
theorem failureFree_reassemble {n : Nat} {s t : State} (h : reassemble n s = .ok t) :
    FailureFree s t := by
  obtain ⟨_, hconsumed⟩ := consumes_of_reassemble h
  have hout := hconsumed.takes.out
  obtain ⟨_, _, _, _, _, _, rfl⟩ := reassemble_reassembled h
  exact ⟨id, _, hout, by simp⟩

theorem failureFree_armReordering (s : State) : FailureFree s (armReordering s) := ⟨id, _, rfl, by simp⟩

theorem failureFree_updateReorderingTimer (s : State) : FailureFree s (updateReorderingTimer s) := by
  have stopped : FailureFree s
      (if s.rx.reordRunning && reordMustStop s then stopTimer .reordering s else s) := by
    split
    · exact failureFree_stopTimer ..
    · exact .refl s
  unfold updateReorderingTimer
  dsimp only
  generalize (if s.rx.reordRunning && reordMustStop s then stopTimer .reordering s else s) = u
    at stopped ⊢
  split
  · exact stopped.trans (failureFree_armReordering u)
  · exact stopped

theorem succeeds_afterAccept {h : Header} {s t : State} (ht : afterAccept h s = .ok t) :
    Succeeds s t := by
  obtain ⟨m, u, -, hu, rfl⟩ := afterAccept_cases ht
  obtain ⟨_, _, _, e⟩ := acknowledged_updateVrH h m h.sn s
  rw [e] at hu
  have accepted : FailureFree s u := (failureFree_reassemble hu).after (failureFree_of_same rfl rfl)
  exact succeeds_respond (accepted.trans (failureFree_updateReorderingTimer u))

/-- A segment that is not merged is corrupt or brings nothing new (R223). -/
theorem isRefusal_of_mergeSegment {h : Header} {d : List Byte} {rx : Rx} {c : ResultCode}
    (hc : mergeSegment h d rx = .error c) : IsRefusal c := by
  rcases mergeSegment_cases h d rx with e | e | ⟨_, e⟩ | ⟨_, e⟩ <;> rw [e] at hc <;> cases hc
  · decide
  · decide

theorem settles_receiveData {h : Header} {d : List Byte} {s t : State}
    (ht : receiveData h d s = .ok t) : Settles s t := by
  unfold receiveData at ht
  split at ht
  · cases ht; exact settles_refusal 0 s
  split at ht
  · cases ht; exact settles_refusal 0 s
  split at ht
  · split at ht
    · next c hc => cases ht; exact settles_refusal 0 s (isRefusal_of_mergeSegment hc)
    · exact .inl ((succeeds_afterAccept ht).after (failureFree_of_same rfl rfl))
  · exact .inl ((succeeds_afterAccept ht).after (failureFree_of_same rfl rfl))

theorem settles_writePdu {b : List Byte} {s t : State} (h : writePdu b s = .ok t) :
    Settles s t := by
  unfold writePdu at h
  split at h
  · cases h; exact settles_refusal 0 s
  split at h
  · split at h
    · cases h; exact settles_refusal 0 s
    · exact settles_receiveData h
  · cases h; exact settles_handleControlPdu ..

theorem failureFree_afterExpiry (m : Sn) (s : State) : FailureFree s (afterExpiry m s) := by
  unfold afterExpiry
  dsimp only
  split
  · exact (failureFree_armReordering _).after (failureFree_of_same rfl rfl)
  · exact failureFree_of_same rfl rfl

theorem succeeds_texpReordering {s t : State} (h : texpReordering s = .ok t) : Succeeds s t := by
  unfold texpReordering at h
  split at h
  · dsimp only at h
    split at h
    · cases h
    next m _ =>
    cases h
    exact succeeds_respond ((failureFree_afterExpiry ..).after (failureFree_of_same rfl rfl))
  · cases h; exact succeeds_respond (.refl s)

/-! ### Every command -/

/-- With a sound transmitter every command that answers at once succeeds, or refuses and changes nothing
(R260, R266). -/
theorem exec_settles {i : Instr} {s t : State} (hs : TxSound s) (h : exec i s = .next t)
    (hi : AnswersAtOnce i s) : Settles s t := by
  cases i with
  | reset =>
    cases h
    exact settles_respond
      (((failureFree_clearAll s).trans (failureFree_leaveFailure false _)).trans
        (failureFree_of_same rfl rfl))
  | configure =>
    rw [exec, execConfigure] at h
    split at h
    · cases h; exact settles_refusal 0 s
    · split at h
      · cases h; exact settles_refusal 0 s
      · cases h; exact settles_respond (failureFree_of_same rfl rfl)
  | reestablish =>
    rw [exec, execReestablish] at h
    split at h
    · cases h
      rw [clearingCommand_oneSeq _ (hi.resolve_right fun hne => hne.1 rfl)]
      exact settles_respond ((failureFree_clearAll s).trans (failureFree_leaveFailure true _))
    · cases h; exact settles_refusal 0 s
  | stop =>
    cases h
    rw [clearingCommand_oneSeq _ (hi.resolve_right fun hne => hne.2 rfl)]
    exact settles_respond ((failureFree_clearAll s).trans (failureFree_leaveFailure false _))
  | writeSdu =>
    refine settles_of_requireLegal h fun h => settles_of_dataPath h fun h => ?_
    cases h; exact settles_writeSdu ..
  | discardSdu =>
    refine settles_of_requireLegal h fun h => settles_of_dataPath h fun h => ?_
    cases h; exact settles_discardSdu ..
  | readPdu =>
    exact settles_of_requireLegal h fun h => settles_of_dataPath h fun h =>
      settles_readPdu hs (answerOf_next h)
  | writePdu =>
    exact settles_of_requireLegal h fun h => settles_of_dataPath h fun h =>
      settles_writePdu (answerOf_next h)
  | getBufferState =>
    rw [exec, execGetBufferState] at h
    refine settles_of_dataPath h fun h => ?_
    cases h; exact .inl (succeeds_getBufferState s)
  | handleControlPdu =>
    refine settles_of_requireLegal h fun h => settles_of_dataPath h fun h => ?_
    cases h; exact settles_handleControlPdu ..
  | getStatusPdu =>
    refine settles_of_requireLegal h fun h => settles_of_dataPath h fun h => ?_
    cases h; exact settles_respond (.refl s)
  | texpPollRetx =>
    rw [exec, execTexpPollRetx] at h
    refine settles_of_dataPath h fun h => ?_
    cases h; exact .inl (succeeds_texpPollRetx hs)
  | texpReordering =>
    rw [exec, execTexpReordering] at h
    exact settles_of_dataPath h fun h => .inl (succeeds_texpReordering (answerOf_next h))
  | texpStatusProhibit =>
    rw [exec, execTexpStatusProhibit] at h
    refine settles_of_dataPath h fun h => ?_
    cases h; exact .inl (succeeds_texpStatusProhibit s)
  | getMetrics | readVar | txModBase | rxModBase | encDataHdr | decDataHdr | encStatus | decStatus
  | poolAlloc | poolRelRlc | poolRelPdcp | poolIsAcked =>
    exact settles_of_observation rfl h

/-! ### Every step -/

/-- The first step of a clearing command under `DUAL_SEQ` stops the timers and clears a half (R85). -/
theorem failureFree_clearingCommand (enable : Bool) (s : State) :
    FailureFree s (clearingCommand enable s) := by
  unfold clearingCommand
  split
  · exact ((failureFree_stopTimers s).trans (failureFree_clearHalf _ _)).trans
      (failureFree_of_same rfl rfl)
  · exact ((failureFree_clearAll s).trans (failureFree_leaveFailure enable _)).trans
      (failureFree_respond ..)

theorem failureFree_finishClearing (c : Clearing) (s : State) :
    FailureFree s (finishClearing c s) := by
  have cleared : FailureFree s (clearHalf c.half { s with clearing := none }) :=
    (failureFree_clearHalf ..).after (failureFree_of_same rfl rfl)
  exact (cleared.trans (failureFree_leaveFailure ..)).trans (failureFree_respond ..)

theorem exec_failureFree {i : Instr} {s t : State} (hs : TxSound s) (h : exec i s = .next t) :
    FailureFree s t := by
  by_cases hi : AnswersAtOnce i s
  · exact (exec_settles hs h hi).failureFree
  · have hclearing : i = .reestablish ∨ i = .stop := by
      simp only [AnswersAtOnce, not_or, not_and_or, not_not] at hi
      exact hi.2
    rcases hclearing with rfl | rfl
    · rw [exec, execReestablish] at h
      split at h
      · cases h; exact failureFree_clearingCommand true s
      · cases h; exact failureFree_respond ..
    · cases h; exact failureFree_clearingCommand false s

theorem step_failureFree {s t : State} (hs : TxSound s) (h : step s = .next t) : FailureFree s t := by
  rcases step_cases s with ⟨-, e⟩ | ⟨-, c, -, e⟩ | ⟨-, -, -, e⟩ |
    ⟨-, -, d, rest, -, ⟨err, -, e⟩ | ⟨i, -, e⟩⟩ <;> rw [e] at h
  · cases h
  · cases h; exact failureFree_finishClearing c s
  · cases h; exact .refl s
  · cases h
    exact (failureFree_respond ..).after (failureFree_of_same rfl rfl)
  · exact (exec_failureFree (s := { s with port := rest }) hs h).after (failureFree_of_same rfl rfl)

end Sys2Proof.Machine

open Sys2Proof.Machine in
/-- Settles O8: a command that succeeds answers `OK` (`exec_settles`), so the response tells that this one
refused. -/
theorem refusedCommandChangesNothing : Obligations.RefusedCommandChangesNothing := by
  intro i s t pre c results bytes hs hi h hout hok _
  rcases exec_settles hs h hi with ⟨u, rs, b, -, rfl⟩ | ⟨c', rs, b, draws, -, rfl⟩
  · obtain ⟨-, hanswer⟩ := List.append_inj' hout rfl
    exact absurd (eq_ok_of_responseOf_eq (Output.response.inj (List.cons.inj hanswer).1).symm) hok
  · obtain ⟨-, hanswer⟩ := List.append_inj' hout rfl
    rw [← hanswer]
    rfl

open Sys2Proof.Machine in
/-- Settles O60: no step of a sound transmitter is the fatal failure (`step_failureFree`). -/
theorem failureUnreachable : Obligations.FailureUnreachable := fun _ _ hs hfailed h =>
  ⟨(step_failureFree hs h).failed hfailed, (step_failureFree hs h).out⟩
end

section
/-!
The invariant at reset (O58; R290, R45 to R47): the state after the reset input is its own clearing, so what
holds of every cleared half holds of it.
-/
namespace Sys2Proof.Machine

theorem clearHalf_initial (h : Half) (p : Params) :
    clearHalf h (State.initial p) = State.initial p := by
  cases h <;> rfl

theorem txSound_initial (p : Params) : TxSound (State.initial p) :=
  clearHalf_initial .tx p ▸ txSound_clearTx (State.initial p)

theorem rxSound_initial (p : Params) : RxSound (State.initial p) :=
  clearHalf_initial .rx p ▸ rxSound_clearRx (State.initial p)

theorem poolSound_initial (p : Params) : PoolSound (State.initial p) := poolOk_cleared p

/-- No timer runs, no expiry is pending and no clearing command is half done (R50, R290). -/
theorem timersAgree_initial (p : Params) : TimersAgree (State.initial p) :=
  ⟨rfl, rfl, rfl, fun _ => ⟨rfl, rfl, rfl⟩⟩

/-- Nothing is asked of the registers, which have no reset value, while the engine is stopped and
`CFG_VALID` is 0 (R34, R290). -/
theorem configSound_initial (p : Params) : ConfigSound (State.initial p) :=
  ⟨nofun, nofun, nofun⟩

/-- The SDU queue is empty, so it is within any bound (R26, R290). -/
theorem queueBounded_initial (p : Params) : QueueBounded (State.initial p) :=
  ⟨Nat.zero_le _, fun _ => rfl, fun _ _ _ => rfl⟩

/-- The reset state has the invariant for any parameters, the legal ones among them. -/
theorem engineSound_initial (p : Params) : EngineSound (State.initial p) where
  memory := Memory_wf_initial p
  tx := txSound_initial p
  rx := rxSound_initial p
  pool := poolSound_initial p
  timers := timersAgree_initial p
  config := configSound_initial p
  queue := queueBounded_initial p

end Sys2Proof.Machine

open Sys2Proof.Machine in
/-- Settles O58: `State.reset` is the reset state of the default parameters, and the reset state of any
parameters has the invariant (`engineSound_initial`). -/
theorem invariantAtReset : Obligations.InvariantAtReset :=
  ⟨engineSound_initial {}, fun p _ => engineSound_initial p⟩
end
